-- ==== Sys2Proof/Word.lean ====
section
/-! DEFINITION. The bit vectors of the engine: bytes of data memory, 32-bit register words, binary32 samples and
complex samples (spec/00_scope.md R7, R8, R11; spec/20_memory.md R62). -/

namespace Sys2Proof

/-- One byte of data memory (R61). -/
abbrev Byte := BitVec 8

/-- One 32-bit register or memory word (R7). -/
abbrev Word := BitVec 32

/-- The 32 bits of one IEEE 754 binary32 sample (R62). -/
abbrev F32 := BitVec 32

/-- One complex sample: real part first, then the imaginary part (R62). -/
structure C32 where
  re : F32
  im : F32
  deriving DecidableEq, Repr, Inhabited

end Sys2Proof
end

