-- ==== Sys2Proof/Syntax.lean ====
section
/-! DEFINITION. The commands of the engine, one constructor per row of spec/opcode_table.json
(spec/30_encoding.md R93). -/

namespace Sys2Proof

/-- One command. The only operand a command word carries is the handle slot index HID (R92); every other operand
is an argument register, read when the command is performed. -/
inductive Instr where
  /-- RFFT_CREATE (OP 0x01, R124) -/
  | rfftCreate (h : Nat)
  /-- RFFT_FORWARD (OP 0x02, R125) -/
  | rfftForward (h : Nat)
  /-- RFFT_BACKWARD (OP 0x03, R126) -/
  | rfftBackward (h : Nat)
  /-- CFFT_CREATE (OP 0x04, R127) -/
  | cfftCreate (h : Nat)
  /-- CFFT_FORWARD (OP 0x05, R128) -/
  | cfftForward (h : Nat)
  /-- CFFT_BACKWARD (OP 0x06, R129) -/
  | cfftBackward (h : Nat)
  /-- DESTROY (OP 0x0F, R240) -/
  | destroy (h : Nat)
  /-- STFT_CREATE (OP 0x10, R160) -/
  | stftCreate (h : Nat)
  /-- STFT_FORWARD (OP 0x11, R162) -/
  | stftForward (h : Nat)
  /-- STFT_BACKWARD (OP 0x12, R164) -/
  | stftBackward (h : Nat)
  /-- STFT_CHANNEL_CHANGE (OP 0x13, R166) -/
  | stftChannelChange (h : Nat)
  /-- STFT_FLUSH (OP 0x14, R168) -/
  | stftFlush (h : Nat)
  /-- QMF_CREATE (OP 0x20, R190) -/
  | qmfCreate (h : Nat)
  /-- QMF_ANALYSIS (OP 0x21, R191) -/
  | qmfAnalysis (h : Nat)
  /-- QMF_SYNTHESIS (OP 0x22, R195) -/
  | qmfSynthesis (h : Nat)
  /-- QMF_GET_DELAY (OP 0x23, R192) -/
  | qmfGetDelay (h : Nat)
  /-- QMF_GET_NBANDS (OP 0x24, R193) -/
  | qmfGetNbands (h : Nat)
  /-- QMF_GET_CENTRE_FREQS (OP 0x25, R194) -/
  | qmfGetCentreFreqs (h : Nat)
  /-- CONV_CREATE (OP 0x30, R220) -/
  | convCreate (h : Nat)
  /-- CONV_APPLY (OP 0x31, R222) -/
  | convApply (h : Nat)
  deriving DecidableEq, Repr

/-- The handle slot index a command names (field HID, R92). -/
def Instr.hid : Instr → Nat
  | .rfftCreate h => h
  | .rfftForward h => h
  | .rfftBackward h => h
  | .cfftCreate h => h
  | .cfftForward h => h
  | .cfftBackward h => h
  | .destroy h => h
  | .stftCreate h => h
  | .stftForward h => h
  | .stftBackward h => h
  | .stftChannelChange h => h
  | .stftFlush h => h
  | .qmfCreate h => h
  | .qmfAnalysis h => h
  | .qmfSynthesis h => h
  | .qmfGetDelay h => h
  | .qmfGetNbands h => h
  | .qmfGetCentreFreqs h => h
  | .convCreate h => h
  | .convApply h => h

end Sys2Proof
end

