-- ==== Sys2Proof/WellFormed.lean ====
section
/-! DEFINITION. Which commands have a command word (spec/30_encoding.md R90). -/

namespace Sys2Proof

/-- The HID field has 8 bits (R90), so a command word can carry only slot indices 0 to 255.
An index from NUM_HANDLES to 255 is well formed: the engine rejects it with BAD_HANDLE (R244). -/
def Instr.WellFormed (i : Instr) : Bool := i.hid < 256

end Sys2Proof
end

