-- ==== Sys2Proof/Decode.lean ====
section
/-! DEFINITION. Decoding of command words (spec/30_encoding.md R90, R94, R95), and the encoder. -/

namespace Sys2Proof

/-- Why a command word is illegal (R95). -/
inductive DecodeError where
  /-- bits 31 to 16 are not all zero -/
  | reservedBits
  /-- bits 7 to 0 are no assigned opcode -/
  | unassignedOp
  deriving DecidableEq, Repr

/-- Field OP, bits 7 to 0 (R90). -/
def opField (w : Word) : Nat := (w.extractLsb' 0 8).toNat

/-- Field HID, bits 15 to 8, zero-extended (R90, R92). -/
def hidField (w : Word) : Nat := (w.extractLsb' 8 8).toNat

/-- Field RSV, bits 31 to 16 (R90). -/
def rsvField (w : Word) : Nat := (w.extractLsb' 16 16).toNat

/-- The row of R93 whose OP is `op`, for slot `h`. -/
def decodeRow (op h : Nat) : Except DecodeError Instr :=
  match op with
  | 0x01 => .ok (.rfftCreate h)
  | 0x02 => .ok (.rfftForward h)
  | 0x03 => .ok (.rfftBackward h)
  | 0x04 => .ok (.cfftCreate h)
  | 0x05 => .ok (.cfftForward h)
  | 0x06 => .ok (.cfftBackward h)
  | 0x0F => .ok (.destroy h)
  | 0x10 => .ok (.stftCreate h)
  | 0x11 => .ok (.stftForward h)
  | 0x12 => .ok (.stftBackward h)
  | 0x13 => .ok (.stftChannelChange h)
  | 0x14 => .ok (.stftFlush h)
  | 0x20 => .ok (.qmfCreate h)
  | 0x21 => .ok (.qmfAnalysis h)
  | 0x22 => .ok (.qmfSynthesis h)
  | 0x23 => .ok (.qmfGetDelay h)
  | 0x24 => .ok (.qmfGetNbands h)
  | 0x25 => .ok (.qmfGetCentreFreqs h)
  | 0x30 => .ok (.convCreate h)
  | 0x31 => .ok (.convApply h)
  | _ => .error .unassignedOp

/-- Decoding of a command word, total (R94, R95). There is one format and one length (R91). -/
def decode (w : Word) : Except DecodeError Instr :=
  if rsvField w ≠ 0 then .error .reservedBits else decodeRow (opField w) (hidField w)

/-- The opcode of a command (R93). -/
def Instr.opcode : Instr → Nat
  | .rfftCreate _ => 0x01
  | .rfftForward _ => 0x02
  | .rfftBackward _ => 0x03
  | .cfftCreate _ => 0x04
  | .cfftForward _ => 0x05
  | .cfftBackward _ => 0x06
  | .destroy _ => 0x0F
  | .stftCreate _ => 0x10
  | .stftForward _ => 0x11
  | .stftBackward _ => 0x12
  | .stftChannelChange _ => 0x13
  | .stftFlush _ => 0x14
  | .qmfCreate _ => 0x20
  | .qmfAnalysis _ => 0x21
  | .qmfSynthesis _ => 0x22
  | .qmfGetDelay _ => 0x23
  | .qmfGetNbands _ => 0x24
  | .qmfGetCentreFreqs _ => 0x25
  | .convCreate _ => 0x30
  | .convApply _ => 0x31

/-- The command word of a well-formed command: RSV zero, HID, OP (R90; R96: `(h << 8) | OP`). -/
def encode (i : Instr) : Word :=
  (BitVec.ofNat 32 i.hid <<< 8) ||| BitVec.ofNat 32 i.opcode

/-- The command the decoder reads from a table word of `nbits` bits, the bits above them zero.
A command word is one 32-bit word (R91): it has no byte order and no later word. -/
def decodeTableWord (nbits w : Nat) : Option Instr :=
  if nbits ≤ 32 then (decode (BitVec.ofNat 32 (w % 2 ^ nbits))).toOption else none

end Sys2Proof
end

