-- ==== Sys2Proof/Machine/Fixed.lean ====
section
/-! DEFINITION. Fixed-point values of pi, of sines and of square roots, to any number of fraction bits: what the window
table (spec/41_stft.md R152) and the range of an ideal transform (spec/40_fft.md R130) are computed with. -/

namespace Sys2Proof.Machine

/-- `m` with the sign of the term of index `k` of an alternating series. -/
def alternate (k m : Nat) : Int := if k % 2 = 0 then (m : Int) else -(m : Int)

/-- arctan(1/q) in units of 2^-p: the first `p` terms of its power series, each rounded down. -/
def atanInvFixed (p q : Nat) : Int :=
  ((List.range p).map fun k => alternate k (2 ^ p / ((2 * k + 1) * q ^ (2 * k + 1)))).sum

/-- pi in units of 2^-p, by Machin's formula. -/
def piFixed (p : Nat) : Nat := (16 * atanInvFixed p 5 - 4 * atanInvFixed p 239).toNat

/-- sin(x * 2^-p) in units of 2^-p, for an angle up to 8: terms of its power series, each rounded down. -/
def sinFixed (p x : Nat) : Int :=
  ((List.range (p / 2 + 16)).map fun k =>
    alternate k (x ^ (2 * k + 1) / ((2 * k + 1).factorial * 2 ^ (2 * k * p)))).sum

/-- sin(2 pi a / b) in units of 2^-p. -/
def sinTurn (p a b : Nat) : Int := sinFixed p (2 * piFixed p * a / b)

/-- cos(2 pi a / b) in units of 2^-p: the sine a quarter turn later. -/
def cosTurn (p a b : Nat) : Int := sinTurn p (b + 4 * a) (4 * b)

/-- How far, in units of 2^-p, `sinTurn` and `cosTurn` may lie from the value, for turns up to 5/4. -/
def turnError (p : Nat) : Nat := 64 * (p + 2)

/-- Integer square root, rounded down, of a number below 4^bits: one result bit at a time from bit `bits - 1`. -/
def isqrtFrom : Nat → Nat → Nat → Nat
  | 0, _, root => root
  | bits + 1, v, root =>
    let next := root + 2 ^ bits
    isqrtFrom bits v (if next * next ≤ v then next else root)

end Sys2Proof.Machine
end

