-- ==== Sys2Proof/Machine/Float.lean ====
section
/-! DEFINITION. IEEE 754 binary32 arithmetic, round to nearest even, subnormals kept, no fused multiply-add
(spec/00_scope.md R14, spec/20_memory.md R62, spec/40_fft.md R123). Operands are converted to exact integers in units
of a power of two, the exact result is formed, and it is narrowed once at the end. -/

namespace Sys2Proof.Machine

/-- Bit 31, the sign (R62). -/
def f32Neg (a : F32) : Bool := 2 ^ 31 ≤ a.toNat

/-- Bits 30 to 23, the biased exponent (R62). -/
def f32Exp (a : F32) : Nat := a.toNat / 2 ^ 23 % 256

/-- Bits 22 to 0, the fraction (R62). -/
def f32Frac (a : F32) : Nat := a.toNat % 2 ^ 23

def f32IsFinite (a : F32) : Bool := f32Exp a != 255

def f32IsNaN (a : F32) : Bool := f32Exp a == 255 && f32Frac a != 0

def f32IsInf (a : F32) : Bool := f32Exp a == 255 && f32Frac a == 0

/-- The magnitude of a finite value in units of 2^-149. -/
def f32Mag (a : F32) : Nat :=
  if f32Exp a = 0 then f32Frac a else (2 ^ 23 + f32Frac a) * 2 ^ (f32Exp a - 1)

/-- A finite value in units of 2^-149. -/
def f32Int (a : F32) : Int := if f32Neg a then -(f32Mag a : Int) else (f32Mag a : Int)

def f32Zero : F32 := 0x00000000#32

def f32One : F32 := 0x3F800000#32

/-- The bits 30 to 0 of an infinity. -/
def f32InfBits : Nat := 0x7F800000

/-- A value from its sign and its bits 30 to 0. -/
def f32Pack (neg : Bool) (bits : Nat) : F32 := BitVec.ofNat 32 ((if neg then 2 ^ 31 else 0) + bits)

/-- Dropping the low `s` bits of `m`, to nearest, ties to even. -/
def roundShift (m s : Nat) : Nat :=
  let q := m / 2 ^ s
  let r := m % 2 ^ s
  if 2 ^ s < 2 * r ∨ (2 ^ s = 2 * r ∧ q % 2 = 1) then q + 1 else q

/-- The binary32 value nearest to the magnitude `m` in units of 2^(-149-k), with the given sign: a result that rounds
beyond the largest finite value is an infinity. -/
def f32Round (neg : Bool) (m k : Nat) : F32 :=
  let s := max k (Nat.log2 m - 23)
  f32Pack neg (min f32InfBits ((s - k) * 2 ^ 23 + roundShift m s))

/-- A NaN whose sign and payload come from a free word: every NaN is one of these (R123, U3). -/
def nanOf (w : F32) : F32 := if f32IsNaN w then w else w ||| 0x7FC00000#32

def f32Negate (a : F32) : F32 := a ^^^ 0x80000000#32

/-- `fadd(a, b)` (R14). `nan` is what it returns where the result is a NaN (R123). -/
def fadd (nan a b : F32) : F32 :=
  if f32IsNaN a || f32IsNaN b then nan
  else if f32IsInf a then (if f32IsInf b && f32Neg a != f32Neg b then nan else a)
  else if f32IsInf b then b
  else
    let z := f32Int a + f32Int b
    if z = 0 then f32Pack (f32Neg a && f32Neg b) 0
    else f32Round (z < 0) z.natAbs 0

/-- `fsub(a, b)` (R14): the sum with the negated subtrahend. -/
def fsub (nan a b : F32) : F32 :=
  if f32IsNaN b then nan else fadd nan a (f32Negate b)

/-- `fmul(a, b)` (R14). `nan` is what it returns where the result is a NaN (R123). -/
def fmul (nan a b : F32) : F32 :=
  let neg := f32Neg a != f32Neg b
  if f32IsNaN a || f32IsNaN b then nan
  else if f32IsInf a then (if f32IsFinite b && f32Mag b = 0 then nan else f32Pack neg f32InfBits)
  else if f32IsInf b then (if f32Mag a = 0 then nan else f32Pack neg f32InfBits)
  else f32Round neg (f32Mag a * f32Mag b) 149

/-- `cmul(a, b)` (R14), with the NaN of each part. -/
def cmul (nan : C32) (a b : C32) : C32 where
  re := fsub nan.re (fmul nan.re a.re b.re) (fmul nan.re a.im b.im)
  im := fadd nan.im (fmul nan.im a.re b.im) (fmul nan.im a.im b.re)

/-- `cadd(a, b)` (R14), with the NaN of each part. -/
def cadd (nan : C32) (a b : C32) : C32 where
  re := fadd nan.re a.re b.re
  im := fadd nan.im a.im b.im

/-- A NaN, for formulas whose result is known not to be one. -/
def f32NaN : F32 := 0x7FC00000#32

/-- The largest finite magnitude in units of 2^-149. -/
def f32MaxMag : Nat := (2 ^ 24 - 1) * 2 ^ 253

def c32Zero : C32 := ⟨f32Zero, f32Zero⟩

def c32IsFinite (c : C32) : Bool := f32IsFinite c.re && f32IsFinite c.im

/-- No element is NaN or infinite (R123). -/
def allFinite (x : List F32) : Bool := x.all f32IsFinite

/-- `n` values +0.0 (R13). -/
def zeros (n : Nat) : List F32 := List.replicate n f32Zero

/-- The words of complex samples in memory order: real part, then imaginary part (R62). -/
def flatten : List C32 → List F32
  | [] => []
  | c :: cs => c.re :: c.im :: flatten cs

/-- The value of a finite sample (R62). -/
def f32Rat (a : F32) : ℚ := (f32Int a : ℚ) / 2 ^ 149

end Sys2Proof.Machine
end

