-- ==== Sys2Proof/Machine/Ideal.lean ====
section
/-! DEFINITION. The ideal transforms (spec/00_scope.md R15, spec/40_fft.md R130): as propositions over the complex
numbers, and the exact decision whether an ideal result lies in binary32 range (R122, R123; log entry 8). -/

namespace Sys2Proof.Machine

/-- The transform-core functions of R121. -/
inductive Transform where
  | rfft
  | irfft
  | cfft
  | icfft
  deriving DecidableEq, Repr

/-- Bands of a real transform of length `n`: n/2 + 1 (R43). -/
def realBins (n : Nat) : Nat := n / 2 + 1

/-- The imaginary parts of bins 0 and n/2 treated as 0 (R126, R130, D15). -/
def realEnds (n : Nat) (x : List C32) : List C32 :=
  x.mapIdx fun k c => if k = 0 ∨ k = n / 2 then ⟨c.re, f32Zero⟩ else c

/-- `z` is the value of a finite complex sample. -/
def IsValue (c : C32) (z : ℂ) : Prop := c32IsFinite c = true ∧ z.re = f32Rat c.re ∧ z.im = f32Rat c.im

/-- `y` is the ideal DFT of `x` (R15). -/
def IsDft (n : Nat) (x y : Nat → ℂ) : Prop :=
  ∀ k < n, y k = ∑ j ∈ Finset.range n, x j * Complex.exp (-(2 * Real.pi * Complex.I * k * j / n))

/-- `x` is the ideal inverse DFT of `y` (R15). -/
def IsIdft (n : Nat) (y x : Nat → ℂ) : Prop :=
  ∀ j < n, x j = (∑ k ∈ Finset.range n, y k * Complex.exp (2 * Real.pi * Complex.I * k * j / n)) / n

/-- `y` is the Hermitian extension of `n/2 + 1` bins, the imaginary parts of bins 0 and n/2 taken as 0 (R130). -/
def IsHermitianExtension (n : Nat) (x y : Nat → ℂ) : Prop :=
  (y 0 = (x 0).re ∧ y (n / 2) = (x (n / 2)).re) ∧
    ∀ k, 0 < k → k < n / 2 → y k = x k ∧ y (n - k) = (starRingEnd ℂ) (x k)

/-- Both parts lie in binary32 range (R122, R123): no further from 0 than the largest finite value, which is the model's
reading of 'in range' (log entry 8). -/
def InRange (z : ℂ) : Prop := |z.re| ≤ (f32MaxMag : ℝ) / 2 ^ 149 ∧ |z.im| ≤ (f32MaxMag : ℝ) / 2 ^ 149

/-- A complex number as its two parts in units of 2^-149. -/
abbrev UnitPair := Int × Int

/-- The values of complex samples from their words in memory order. -/
def unitPairs : List F32 → List UnitPair
  | re :: im :: rest => (f32Int re, f32Int im) :: unitPairs rest
  | _ => []

/-- The Hermitian extension of R130. -/
def hermitian (n : Nat) (x : List UnitPair) : List UnitPair :=
  (List.range n).map fun k =>
    if k = 0 ∨ k = n / 2 then ((x.getD k 0).1, 0)
    else if k < n / 2 then x.getD k 0
    else ((x.getD (n - k) 0).1, -(x.getD (n - k) 0).2)

/-- The numbers a transform sums over, from its input words in memory order: `n` of them (R130). -/
def idealInput (t : Transform) (n : Nat) (x : List F32) : List UnitPair :=
  match t with
  | .rfft => x.map fun v => (f32Int v, 0)
  | .irfft => hermitian n (unitPairs x)
  | .cfft => unitPairs x
  | .icfft => unitPairs x

/-- The backward transforms (R130). -/
def Transform.inverse : Transform → Bool
  | .rfft => false
  | .irfft => true
  | .cfft => false
  | .icfft => true

/-- How many results a transform has (R121). -/
def Transform.outputs (t : Transform) (n : Nat) : Nat :=
  match t with
  | .rfft => realBins n
  | .irfft => n
  | .cfft => n
  | .icfft => n

/-- The sum of the magnitudes of all parts: no part of a result is larger, but for the factor 1/N. -/
def sumSize (x : List UnitPair) : Nat := (x.map fun z => z.1.natAbs + z.2.natAbs).sum

/-- The part of a turn by which result `k` weighs input `j`: that of -kj/n turns forward and +kj/n backward (R15). -/
def turnOf (inverse : Bool) (n k j : Nat) : Nat := if inverse then (n - k * j % n) % n else k * j % n

/-- The real part of result `k`, without the factor 1/N, in units of 2^(-149-p), with sines and cosines of `p` fraction
bits. -/
def idealRe (p : Nat) (inverse : Bool) (n : Nat) (x : List UnitPair) (k : Nat) : Int :=
  (x.mapIdx fun j z =>
    z.1 * cosTurn p (turnOf inverse n k j) n + z.2 * sinTurn p (turnOf inverse n k j) n).sum

/-- Whether a value that `v` gives up to `err` is at most `limit` in magnitude, if that is settled. -/
def verdict (limit err : Nat) (v : Int) : Option Bool :=
  if v.natAbs + err ≤ limit then some true else if limit + err < v.natAbs then some false else none

/-- Fraction bits at which only a part equal to the limit stays unsettled. Twice the difference from the limit is an
algebraic integer with at most 2n conjugates, each smaller than 4 * size + 4 * limit + 4, so it is 0 or larger than the
inverse of the product of the others. -/
def exactBits (n size limit : Nat) : Nat := 4 * n * (Nat.log2 (4 * size + 4 * limit + 4) + 1)

/-- The real part of result `k` is at most `limit` in magnitude: settled with 64 fraction bits, else with so many that
only a part equal to the limit stays unsettled. -/
def reInRange (limit : Nat) (inverse : Bool) (n : Nat) (x : List UnitPair) (k : Nat) : Bool :=
  let settle (p : Nat) : Option Bool :=
    verdict (limit * 2 ^ p) (sumSize x * turnError p) (idealRe p inverse n x k)
  match settle 64 with
  | some b => b
  | none => (settle (exactBits n (sumSize x) limit)).getD true

/-- The largest magnitude the results without the factor 1/N may have, in units of 2^-149. -/
def rangeLimit (t : Transform) (n : Nat) : Nat := if t.inverse then n * f32MaxMag else f32MaxMag

/-- The input turned by a quarter, whose real parts are the imaginary parts of the results. -/
def quarterTurn (x : List UnitPair) : List UnitPair := x.map fun z => (z.2, -z.1)

/-- Every part of every ideal result of R130 is in binary32 range. Where the sum of the magnitudes is small enough there
is nothing to compute. -/
def idealInRange (t : Transform) (n : Nat) (x : List F32) : Bool :=
  let z := idealInput t n x
  let limit := rangeLimit t n
  sumSize z ≤ limit ||
    (List.range (t.outputs n)).all fun k =>
      reInRange limit t.inverse n z k && reInRange limit t.inverse n (quarterTurn z) k

/-- The transform's result is FFT_NUM's (R122, R123): finite inputs, and an ideal result in binary32 range. -/
def transformDefined (t : Transform) (n : Nat) (x : List F32) : Bool := allFinite x && idealInRange t n x

end Sys2Proof.Machine
end

