-- ==== Sys2Proof/Laws/Ideal.lean ====
section
/-! SUPPORT. Parseval's identity for the ideal transforms (spec/40_fft.md R131). -/

namespace Sys2Proof.Machine

open Finset Complex

/-- The powers of a root of unity sum to `n` or to 0. -/
theorem sum_root_pow {n : Nat} {w : ℂ} (hw : IsPrimitiveRoot w n) (a b : Nat) (ha : a < n) (hb : b < n) :
    ∑ k ∈ range n, w ^ (k * a) * (w ^ (k * b))⁻¹ = if a = b then (n : ℂ) else 0 := by
  have hn : n ≠ 0 := by omega
  have hw0 : w ≠ 0 := hw.ne_zero hn
  have e : ∀ k, w ^ (k * a) * (w ^ (k * b))⁻¹ = (w ^ a * (w ^ b)⁻¹) ^ k := by
    intro k
    rw [mul_pow, inv_pow, ← pow_mul, ← pow_mul, Nat.mul_comm k a, Nat.mul_comm k b]
  simp only [e]
  split
  · rename_i hab
    subst hab
    simp [mul_inv_cancel₀ (pow_ne_zero _ hw0)]
  · rename_i hab
    set z := w ^ a * (w ^ b)⁻¹ with hz
    have hz1 : z ≠ 1 := by
      intro h
      rw [hz, mul_inv_eq_one₀ (pow_ne_zero _ hw0)] at h
      exact hab (hw.pow_inj ha hb h)
    have hzn : z ^ n = 1 := by
      rw [hz, mul_pow, inv_pow, ← pow_mul, ← pow_mul, Nat.mul_comm a, Nat.mul_comm b, pow_mul, pow_mul, hw.pow_eq_one]
      simp
    rw [geom_sum_eq hz1, hzn]
    simp

/-- Parseval's identity for sums over the powers of a root of unity. -/
theorem parseval_root {n : Nat} {w : ℂ} (hw : IsPrimitiveRoot w n) (x y : Nat → ℂ)
    (hy : ∀ k < n, y k = ∑ j ∈ range n, x j * w ^ (k * j)) :
    ∑ k ∈ range n, normSq (y k) = n * ∑ j ∈ range n, normSq (x j) := by
  rcases Nat.eq_zero_or_pos n with h0 | hn
  · subst h0; simp
  have hnorm : ∀ m, (starRingEnd ℂ) (w ^ m) = (w ^ m)⁻¹ := by
    intro m
    have : ‖w ^ m‖ = 1 := by rw [norm_pow, hw.norm'_eq_one hn.ne', one_pow]
    exact (inv_eq_conj this).symm
  have key : ((∑ k ∈ range n, normSq (y k) : ℝ) : ℂ) = ((n * ∑ j ∈ range n, normSq (x j) : ℝ) : ℂ) := by
    push_cast
    have h1 : ∀ k ∈ range n, (normSq (y k) : ℂ) = ∑ i ∈ range n, ∑ j ∈ range n,
        x i * (starRingEnd ℂ) (x j) * (w ^ (k * i) * (w ^ (k * j))⁻¹) := by
      intro k hk
      rw [← mul_conj, hy k (mem_range.mp hk), map_sum, sum_mul_sum]
      refine sum_congr rfl fun i _ => sum_congr rfl fun j _ => ?_
      rw [map_mul, hnorm]; ring
    rw [sum_congr rfl h1, sum_comm]
    have h2 : ∀ i ∈ range n, ∑ k ∈ range n, ∑ j ∈ range n,
        x i * (starRingEnd ℂ) (x j) * (w ^ (k * i) * (w ^ (k * j))⁻¹) = n * (normSq (x i) : ℂ) := by
      intro i hi
      rw [sum_comm]
      have h3 : ∀ j ∈ range n, ∑ k ∈ range n, x i * (starRingEnd ℂ) (x j) * (w ^ (k * i) * (w ^ (k * j))⁻¹) =
          if i = j then n * (normSq (x i) : ℂ) else 0 := by
        intro j hj
        rw [← mul_sum, sum_root_pow hw i j (mem_range.mp hi) (mem_range.mp hj)]
        split
        · rename_i h; subst h; rw [mul_conj]; ring
        · ring
      rw [sum_congr rfl h3, sum_ite_eq, if_pos hi]
    rw [sum_congr rfl h2, mul_sum]
  exact_mod_cast key

theorem exp_root (n : Nat) (hn : n ≠ 0) : IsPrimitiveRoot (exp (2 * Real.pi * I / n)) n := isPrimitiveRoot_exp n hn

/-- Parseval's identity for the ideal DFT (R131). -/
theorem IsDft.parseval {n : Nat} {x y : Nat → ℂ} (h : IsDft n x y) :
    ∑ k ∈ range n, normSq (y k) = n * ∑ j ∈ range n, normSq (x j) := by
  rcases Nat.eq_zero_or_pos n with h0 | hn
  · subst h0; simp
  refine parseval_root (exp_root n hn.ne').inv x y fun k hk => ?_
  rw [h k hk]
  refine sum_congr rfl fun j _ => ?_
  rw [← exp_neg, ← exp_nat_mul]
  congr 2
  push_cast; ring

/-- Parseval's identity for the ideal inverse DFT (R131). -/
theorem IsIdft.parseval {n : Nat} {x y : Nat → ℂ} (h : IsIdft n y x) (hn : 0 < n) :
    n * ∑ j ∈ range n, normSq (x j) = ∑ k ∈ range n, normSq (y k) := by
  have hn' : (n : ℂ) ≠ 0 := by exact_mod_cast hn.ne'
  have hr : (n : ℝ) ≠ 0 := by exact_mod_cast hn.ne'
  have key := parseval_root (exp_root n hn.ne') y (fun j => n * x j) fun j hj => by
    rw [h j hj, mul_div_cancel₀ _ hn']
    refine sum_congr rfl fun k _ => ?_
    rw [← exp_nat_mul]
    congr 2
    push_cast; ring
  simp only [normSq_mul, normSq_natCast] at key
  rw [← mul_sum] at key
  have : (n : ℝ) * (n * ∑ j ∈ range n, normSq (x j)) = n * ∑ k ∈ range n, normSq (y k) := by linarith
  exact mul_left_cancel₀ hr this

/-- The difference of two sequences is no larger than their sizes allow. -/
theorem sum_normSq_sub_le (m : Nat) (u v : Nat → ℂ) :
    ∑ k ∈ range m, normSq (u k - v k) ≤ 2 * ∑ k ∈ range m, normSq (u k) + 2 * ∑ k ∈ range m, normSq (v k) := by
  rw [mul_sum, mul_sum, ← sum_add_distrib]
  refine sum_le_sum fun k _ => ?_
  simp only [normSq_apply, sub_re, sub_im]
  nlinarith [sq_nonneg ((u k).re + (v k).re), sq_nonneg ((u k).im + (v k).im)]

end Sys2Proof.Machine
end

