-- ==== Sys2Proof/Laws/Fixed.lean ====
section
/-! SUPPORT. How close the fixed-point values of Machine/Fixed.lean lie to pi and to sines, and that the square root of a
square is exact. -/

namespace Sys2Proof.Machine

open Finset in
/-- A sum of `K` rounded terms of a series that falls geometrically. -/
theorem rounded_series {f : ℕ → ℝ} {S C r P : ℝ} (hP : 0 ≤ P) (hr : r < 1) (hf : ∀ n, ‖f n‖ ≤ C * r ^ n) (hS : HasSum f S)
    (g : ℕ → Int) (hg : ∀ k, |(g k : ℝ) - P * f k| ≤ 1) (K : Nat) :
    |(((List.range K).map g).sum : ℝ) - P * S| ≤ K + P * (C * r ^ K / (1 - r)) := by
  have h1 : (((List.range K).map g).sum : ℝ) = ∑ k ∈ range K, (g k : ℝ) := by
    induction K with
    | zero => simp
    | succ K ih => rw [List.range_succ, List.map_append, List.sum_append, sum_range_succ, ← ih]; simp
  have h2 : |∑ k ∈ range K, (g k : ℝ) - P * ∑ k ∈ range K, f k| ≤ K := by
    rw [mul_sum, ← sum_sub_distrib]
    refine (abs_sum_le_sum_abs _ _).trans ((sum_le_sum fun k _ => hg k).trans (le_of_eq ?_))
    simp
  have h3 := norm_sub_le_of_geometric_bound_of_hasSum hr hf hS K
  rw [Real.norm_eq_abs] at h3
  have h4 : |P * ∑ k ∈ range K, f k - P * S| ≤ P * (C * r ^ K / (1 - r)) := by
    rw [← mul_sub, abs_mul, abs_of_nonneg hP]
    exact mul_le_mul_of_nonneg_left h3 hP
  rw [h1]
  exact (abs_sub_le _ _ _).trans (add_le_add h2 h4)

/-- A term rounded down to an integer, with its sign. -/
theorem alternate_div (k a b : Nat) (P f : ℝ) (h : P * f = (-1) ^ k * ((a : ℝ) / b)) :
    |(alternate k (a / b) : ℝ) - P * f| ≤ 1 := by
  have e : ((alternate k (a / b) : Int) : ℝ) = (-1) ^ k * ((a / b : Nat) : ℝ) := by
    unfold alternate
    split
    · rename_i hk
      rw [Even.neg_one_pow (Nat.even_iff.mpr hk), one_mul, Int.cast_natCast]
    · rename_i hk
      rw [Odd.neg_one_pow (Nat.odd_iff.mpr (by omega)), neg_one_mul, Int.cast_neg, Int.cast_natCast]
  rw [e, h, ← mul_sub, abs_mul, abs_pow, abs_neg, abs_one, one_pow, one_mul, abs_sub_comm,
    abs_of_nonneg (sub_nonneg.mpr Nat.cast_div_le)]
  rcases Nat.eq_zero_or_pos b with hb | hb
  · subst hb; simp
  · have := Nat.lt_div_mul_add (a := a) hb
    have h2 : (a : ℝ) < ((a / b : Nat) : ℝ) * b + b := by exact_mod_cast this
    have hb' : (0 : ℝ) < b := by exact_mod_cast hb
    rw [sub_le_iff_le_add, div_le_iff₀ hb']
    linarith

/-- arctan(1/q) for q >= 5, within p + 1 units. -/
theorem atanInvFixed_spec (p q : Nat) (hq : 5 ≤ q) :
    |(atanInvFixed p q : ℝ) - 2 ^ p * Real.arctan (q : ℝ)⁻¹| ≤ p + 1 := by
  have hq0 : (5 : ℝ) ≤ q := by exact_mod_cast hq
  have hqi : (q : ℝ)⁻¹ ≤ 1 / 5 := by rw [one_div]; exact inv_anti₀ (by norm_num) hq0
  have hqp : (0 : ℝ) < (q : ℝ)⁻¹ := by positivity
  have hS := Real.hasSum_arctan (x := (q : ℝ)⁻¹) (by rw [Real.norm_eq_abs, abs_of_pos hqp]; linarith)
  have hf : ∀ n : ℕ, ‖(-1 : ℝ) ^ n * (q : ℝ)⁻¹ ^ (2 * n + 1) / ((2 * n + 1 : ℕ) : ℝ)‖ ≤ 1 / 5 * (1 / 25) ^ n := by
    intro n
    rw [Real.norm_eq_abs, abs_div, abs_mul, abs_pow, abs_neg, abs_one, one_pow, one_mul, Nat.abs_cast,
      abs_of_pos (by positivity)]
    have h1 : (q : ℝ)⁻¹ ^ (2 * n + 1) ≤ 1 / 5 * (1 / 25) ^ n := by
      refine (pow_le_pow_left₀ hqp.le hqi _).trans (le_of_eq ?_)
      rw [pow_succ, pow_mul]; norm_num; ring
    refine (div_le_self (by positivity) ?_).trans h1
    exact_mod_cast Nat.succ_le_succ (Nat.zero_le (2 * n))
  have key := rounded_series (P := 2 ^ p) (by positivity) (by norm_num) hf hS
    (fun k => alternate k (2 ^ p / ((2 * k + 1) * q ^ (2 * k + 1)))) (fun k => alternate_div _ _ _ _ _ (by
      push_cast
      rw [inv_pow]
      field_simp)) p
  refine key.trans (add_le_add_right ?_ _)
  have h : (2 : ℝ) ^ p * (1 / 5 * (1 / 25) ^ p / (1 - 1 / 25)) = (2 / 25) ^ p * (5 / 24) := by
    rw [show (2 / 25 : ℝ) = 2 * (1 / 25) by norm_num, mul_pow]; ring
  rw [h]
  have : ((2 : ℝ) / 25) ^ p ≤ 1 := pow_le_one₀ (by norm_num) (by norm_num)
  linarith

/-- pi within 20(p + 1) units. -/
theorem piFixed_spec (p : Nat) : |(piFixed p : ℝ) - 2 ^ p * Real.pi| ≤ 20 * (p + 1) := by
  have h5 := atanInvFixed_spec p 5 (by norm_num)
  have h239 := atanInvFixed_spec p 239 (by norm_num)
  have hM := Real.four_mul_arctan_inv_5_sub_arctan_inv_239
  push_cast at h5 h239
  have hI : |((16 * atanInvFixed p 5 - 4 * atanInvFixed p 239 : Int) : ℝ) - 2 ^ p * Real.pi| ≤ 20 * (p + 1) := by
    push_cast
    have e : Real.pi = 4 * (4 * Real.arctan 5⁻¹ - Real.arctan 239⁻¹) := by rw [hM]; ring
    rw [e, abs_le]
    rw [abs_le] at h5 h239
    constructor <;> nlinarith [h5.1, h5.2, h239.1, h239.2]
  rcases le_or_gt 0 (16 * atanInvFixed p 5 - 4 * atanInvFixed p 239) with h | h
  · have e : ((piFixed p : Nat) : ℝ) = ((16 * atanInvFixed p 5 - 4 * atanInvFixed p 239 : Int) : ℝ) := by
      unfold piFixed
      exact_mod_cast Int.toNat_of_nonneg h
    rw [e]; exact hI
  · have e : piFixed p = 0 := Int.toNat_of_nonpos h.le
    have hn : ((16 * atanInvFixed p 5 - 4 * atanInvFixed p 239 : Int) : ℝ) < 0 := by exact_mod_cast h
    have hpi : 0 < (2 : ℝ) ^ p * Real.pi := by positivity
    rw [abs_le] at hI ⊢
    rw [e]
    push_cast
    constructor <;> linarith [hI.1, hI.2]

/-- The sine of an angle up to 8, within p/2 + 17 units. -/
theorem sinFixed_spec (p x : Nat) (hx : (x : ℝ) ≤ 8 * 2 ^ p) :
    |(sinFixed p x : ℝ) - 2 ^ p * Real.sin (x / 2 ^ p)| ≤ (p / 2 + 16 : Nat) + 1 := by
  have hr0 : (0 : ℝ) ≤ x / 2 ^ p := by positivity
  have hr8 : (x : ℝ) / 2 ^ p ≤ 8 := by rw [div_le_iff₀ (by positivity)]; exact hx
  have hf : ∀ n : ℕ, ‖(-1 : ℝ) ^ n * ((x : ℝ) / 2 ^ p) ^ (2 * n + 1) / ((2 * n + 1).factorial : ℝ)‖ ≤
      2 ^ 23 * (1 / 4) ^ n := by
    intro n
    rw [Real.norm_eq_abs, abs_div, abs_mul, abs_pow, abs_neg, abs_one, one_pow, one_mul, Nat.abs_cast,
      abs_of_nonneg (by positivity)]
    have h1 : ((x : ℝ) / 2 ^ p) ^ (2 * n + 1) ≤ 8 ^ (2 * n + 1) := pow_le_pow_left₀ hr0 hr8 _
    have h2 : (16 : ℝ) ^ (2 * n + 1) / ((2 * n + 1).factorial : ℝ) ≤ 2 ^ 24 := by
      refine (Real.pow_div_factorial_le_exp 16 (by norm_num) _).trans ?_
      have : Real.exp 1 ≤ 2.7182818286 := Real.exp_one_lt_d9.le
      calc Real.exp 16 = Real.exp 1 ^ 16 := by rw [← Real.exp_nat_mul]; norm_num
        _ ≤ 2.7182818286 ^ 16 := pow_le_pow_left₀ (Real.exp_pos _).le this _
        _ ≤ 2 ^ 24 := by norm_num
    have h3 : (8 : ℝ) ^ (2 * n + 1) / ((2 * n + 1).factorial : ℝ) =
        (16 : ℝ) ^ (2 * n + 1) / ((2 * n + 1).factorial : ℝ) * ((1 / 2) * (1 / 4) ^ n) := by
      have : (8 : ℝ) ^ (2 * n + 1) = 16 ^ (2 * n + 1) * ((1 / 2) * (1 / 4) ^ n) := by
        rw [show (8 : ℝ) = 16 * (1 / 2) by norm_num, mul_pow, pow_succ (1 / 2 : ℝ), pow_mul]; norm_num; ring
      rw [this]; ring
    refine (div_le_div_of_nonneg_right h1 (by positivity)).trans ?_
    rw [h3]
    refine (mul_le_mul_of_nonneg_right h2 (by positivity)).trans (le_of_eq ?_)
    ring
  have key := rounded_series (P := 2 ^ p) (by positivity) (by norm_num) hf (Real.hasSum_sin (x / 2 ^ p))
    (fun k => alternate k (x ^ (2 * k + 1) / ((2 * k + 1).factorial * 2 ^ (2 * k * p)))) (fun k => alternate_div _ _ _ _ _ (by
      push_cast
      have : (2 : ℝ) ^ (2 * k * p) * 2 ^ p = (2 ^ p) ^ (2 * k + 1) := by
        rw [← pow_add, ← pow_mul]; congr 1; ring
      rw [div_pow, ← this]
      field_simp)) (p / 2 + 16)
  refine key.trans (add_le_add_right ?_ _)
  have h4 : (2 : ℝ) ^ p ≤ 2 * 4 ^ (p / 2) := by
    have : (4 : ℝ) ^ (p / 2) = 2 ^ (2 * (p / 2)) := by rw [pow_mul]; norm_num
    rw [this, ← pow_succ']
    exact pow_le_pow_right₀ (by norm_num) (by omega)
  have h5 : (2 : ℝ) ^ 23 * (1 / 4) ^ (p / 2 + 16) / (1 - 1 / 4) = 2 ^ 23 / (4 ^ (p / 2) * 4 ^ 16) * (4 / 3) := by
    rw [one_div, inv_pow, pow_add]; ring
  have h6 : (0 : ℝ) < 4 ^ (p / 2) := by positivity
  calc (2 : ℝ) ^ p * (2 ^ 23 * (1 / 4) ^ (p / 2 + 16) / (1 - 1 / 4))
      ≤ 2 * 4 ^ (p / 2) * (2 ^ 23 / (4 ^ (p / 2) * 4 ^ 16) * (4 / 3)) := by
        rw [h5]; exact mul_le_mul_of_nonneg_right h4 (by positivity)
    _ = 2 ^ 24 / 4 ^ 16 * (4 / 3) := by field_simp
    _ ≤ 1 := by norm_num

theorem linear_le_two_pow {p : Nat} (hp : 16 ≤ p) : 640 * (p + 1) ≤ 2 ^ p := by
  induction p, hp using Nat.le_induction with
  | base => norm_num
  | succ p hp ih => rw [pow_succ]; omega

/-- The sine of a fraction of at most 5/4 of a turn, within `turnError` units. -/
theorem sinTurn_spec (p a b : Nat) (hp : 16 ≤ p) (hb : 0 < b) (hab : 4 * a ≤ 5 * b) :
    |(sinTurn p a b : ℝ) - 2 ^ p * Real.sin (2 * Real.pi * a / b)| ≤ turnError p := by
  have hb' : (0 : ℝ) < b := by exact_mod_cast hb
  have hab' : (a : ℝ) / b ≤ 5 / 4 := by
    rw [div_le_div_iff₀ hb' (by norm_num)]
    have : ((4 * a : Nat) : ℝ) ≤ ((5 * b : Nat) : ℝ) := by exact_mod_cast hab
    push_cast at this; linarith
  have hab0 : (0 : ℝ) ≤ (a : ℝ) / b := by positivity
  have hpi := piFixed_spec p
  have hfloor : |((2 * piFixed p * a / b : Nat) : ℝ) - 2 * (piFixed p : ℝ) * (a / b)| ≤ 1 := by
    have e : (2 * (piFixed p : ℝ) * (a / b)) = ((2 * piFixed p * a : Nat) : ℝ) / b := by push_cast; ring
    have h1 := Nat.lt_div_mul_add (a := 2 * piFixed p * a) hb
    have h2 : ((2 * piFixed p * a : Nat) : ℝ) < ((2 * piFixed p * a / b : Nat) : ℝ) * b + b := by exact_mod_cast h1
    have h3 : ((2 * piFixed p * a / b : Nat) : ℝ) ≤ ((2 * piFixed p * a : Nat) : ℝ) / b := Nat.cast_div_le
    rw [e, abs_sub_comm, abs_of_nonneg (by linarith), sub_le_iff_le_add, div_le_iff₀ hb']
    linarith
  have hangle : |((2 * piFixed p * a / b : Nat) : ℝ) - 2 ^ p * (2 * Real.pi * a / b)| ≤ 50 * (p + 1) + 1 := by
    have e : 2 * (piFixed p : ℝ) * (a / b) - 2 ^ p * (2 * Real.pi * a / b) =
        2 * (a / b) * ((piFixed p : ℝ) - 2 ^ p * Real.pi) := by ring
    have h1 : |2 * (piFixed p : ℝ) * (a / b) - 2 ^ p * (2 * Real.pi * a / b)| ≤ 50 * (p + 1) := by
      rw [e, abs_mul, abs_of_nonneg (by positivity)]
      have := mul_le_mul (show 2 * ((a : ℝ) / b) ≤ 5 / 2 by linarith) hpi (abs_nonneg _) (by norm_num)
      linarith
    have := abs_sub_le ((2 * piFixed p * a / b : Nat) : ℝ) (2 * (piFixed p : ℝ) * (a / b)) (2 ^ p * (2 * Real.pi * a / b))
    linarith
  have hlin : (640 : ℝ) * (p + 1) ≤ 2 ^ p := by exact_mod_cast linear_le_two_pow hp
  have hx : ((2 * piFixed p * a / b : Nat) : ℝ) ≤ 8 * 2 ^ p := by
    have h1 := (abs_le.mp hangle).2
    have hpi' : Real.pi ≤ 3.15 := Real.pi_lt_d2.le
    have h2 : 2 * Real.pi * a / b ≤ 7.875 := by
      have e : 2 * Real.pi * a / b = 2 * Real.pi * (a / b) := by ring
      rw [e]
      nlinarith [Real.pi_pos]
    have h3 : (2 : ℝ) ^ p * (2 * Real.pi * a / b) ≤ 2 ^ p * 7.875 := mul_le_mul_of_nonneg_left h2 (by positivity)
    have hp0 : (0 : ℝ) ≤ p := Nat.cast_nonneg _
    linarith
  have hsin := sinFixed_spec p (2 * piFixed p * a / b) hx
  have hlip : |2 ^ p * Real.sin (((2 * piFixed p * a / b : Nat) : ℝ) / 2 ^ p) - 2 ^ p * Real.sin (2 * Real.pi * a / b)| ≤
      50 * (p + 1) + 1 := by
    rw [← mul_sub, abs_mul, abs_of_pos (show (0 : ℝ) < 2 ^ p by positivity)]
    refine le_trans (mul_le_mul_of_nonneg_left (Real.abs_sin_sub_sin_le _ _) (by positivity)) (le_of_eq_of_le ?_ hangle)
    rw [← abs_of_pos (show (0 : ℝ) < 2 ^ p by positivity), ← abs_mul, abs_of_pos (show (0 : ℝ) < 2 ^ p by positivity),
      mul_sub, mul_div_cancel₀ _ (by positivity)]
  have h := (abs_sub_le _ _ _).trans (add_le_add hsin hlip)
  refine h.trans ?_
  have hhalf : ((p / 2 + 16 : Nat) : ℝ) ≤ p + 16 := by exact_mod_cast Nat.add_le_add_right (Nat.div_le_self p 2) 16
  have hp0 : (0 : ℝ) ≤ p := Nat.cast_nonneg _
  unfold turnError
  push_cast at hhalf ⊢
  linarith

/-- The cosine of a fraction of at most one turn, within `turnError` units. -/
theorem cosTurn_spec (p a b : Nat) (hp : 16 ≤ p) (hb : 0 < b) (hab : a ≤ b) :
    |(cosTurn p a b : ℝ) - 2 ^ p * Real.cos (2 * Real.pi * a / b)| ≤ turnError p := by
  have h := sinTurn_spec p (b + 4 * a) (4 * b) hp (by omega) (by omega)
  have hb' : (b : ℝ) ≠ 0 := by exact_mod_cast hb.ne'
  have e : 2 * Real.pi * ((b + 4 * a : Nat) : ℝ) / ((4 * b : Nat) : ℝ) = 2 * Real.pi * a / b + Real.pi / 2 := by
    push_cast; field_simp; ring
  rw [e, Real.sin_add_pi_div_two] at h
  exact h

/-- The integer square root by bits keeps the root between its bounds. -/
theorem isqrtFrom_spec (bits v root : Nat) (h1 : root * root ≤ v) (h2 : v < (root + 2 ^ bits) * (root + 2 ^ bits)) :
    isqrtFrom bits v root * isqrtFrom bits v root ≤ v ∧
      v < (isqrtFrom bits v root + 1) * (isqrtFrom bits v root + 1) := by
  induction bits generalizing root with
  | zero => exact ⟨h1, by simpa [isqrtFrom] using h2⟩
  | succ bits ih =>
    simp only [isqrtFrom]
    split
    · rename_i h
      refine ih _ h ?_
      rwa [Nat.add_assoc, ← Nat.two_mul, ← pow_succ']
    · rename_i h
      exact ih _ h1 (by omega)

/-- The square root of a square. -/
theorem isqrtFrom_square (bits r : Nat) (h : r < 2 ^ bits) : isqrtFrom bits (r * r) 0 = r := by
  obtain ⟨h1, h2⟩ := isqrtFrom_spec bits (r * r) 0 (by simp) (by simpa using Nat.mul_self_lt_mul_self h)
  have a := Nat.mul_self_le_mul_self_iff.mp h1
  have b := Nat.mul_self_lt_mul_self_iff.mp h2
  omega

end Sys2Proof.Machine
end

