-- ==== Sys2Proof/Laws/Float.lean ====
section
/-! SUPPORT. What binary32 rounding, addition and multiplication give on finite values: a finite result within half a unit
of the exact one (spec/40_fft.md R123), and the value itself where it is multiplied by 1.0 or added to +0.0. -/

namespace Sys2Proof.Machine

/-- The magnitude that bits 30 to 0 stand for, in units of 2^-149. -/
def magOfBits (b : Nat) : Nat := if b / 2 ^ 23 = 0 then b % 2 ^ 23 else (2 ^ 23 + b % 2 ^ 23) * 2 ^ (b / 2 ^ 23 - 1)

theorem toNat_f32Pack (neg : Bool) (b : Nat) (hb : b < 2 ^ 31) :
    (f32Pack neg b).toNat = (if neg then 2 ^ 31 else 0) + b := by
  unfold f32Pack
  rw [BitVec.toNat_ofNat, Nat.mod_eq_of_lt]
  split <;> omega

@[simp] theorem f32Neg_pack (neg : Bool) (b : Nat) (hb : b < 2 ^ 31) : f32Neg (f32Pack neg b) = neg := by
  simp only [f32Neg, toNat_f32Pack neg b hb]
  cases neg <;> simp; omega

theorem f32Exp_pack (neg : Bool) (b : Nat) (hb : b < 2 ^ 31) : f32Exp (f32Pack neg b) = b / 2 ^ 23 := by
  simp only [f32Exp, toNat_f32Pack neg b hb]
  cases neg <;> simp <;> omega

theorem f32Frac_pack (neg : Bool) (b : Nat) (hb : b < 2 ^ 31) : f32Frac (f32Pack neg b) = b % 2 ^ 23 := by
  simp only [f32Frac, toNat_f32Pack neg b hb]
  cases neg <;> simp; omega

theorem f32Mag_pack (neg : Bool) (b : Nat) (hb : b < 2 ^ 31) : f32Mag (f32Pack neg b) = magOfBits b := by
  simp only [f32Mag, magOfBits, f32Exp_pack neg b hb, f32Frac_pack neg b hb]

theorem f32IsFinite_pack (neg : Bool) (b : Nat) (hb : b < f32InfBits) : f32IsFinite (f32Pack neg b) = true := by
  have hb' : b < 2 ^ 31 := lt_trans hb (by decide)
  simp only [f32IsFinite, f32Exp_pack neg b hb', bne_iff_ne, ne_eq]
  simp only [f32InfBits] at hb
  omega

/-- The signed value in units of 2^-149. -/
theorem f32Int_pack (neg : Bool) (b : Nat) (hb : b < 2 ^ 31) :
    f32Int (f32Pack neg b) = if neg then -(magOfBits b : Int) else (magOfBits b : Int) := by
  simp only [f32Int, f32Neg_pack neg b hb, f32Mag_pack neg b hb]

/-- Rounding off `s` bits moves a number by at most half of 2^s. -/
theorem roundShift_spec (m s : Nat) :
    2 * (roundShift m s * 2 ^ s) ≤ 2 * m + 2 ^ s ∧ 2 * m ≤ 2 * (roundShift m s * 2 ^ s) + 2 ^ s := by
  have hd : m / 2 ^ s * 2 ^ s + m % 2 ^ s = m := Nat.div_add_mod' m (2 ^ s)
  have hr : m % 2 ^ s < 2 ^ s := Nat.mod_lt _ (by positivity)
  simp only [roundShift]
  split
  · rw [Nat.add_mul, Nat.one_mul]; omega
  · omega

/-- A mantissa of at most 24 bits above the exponent `e` packs to its product with 2^e. -/
theorem magOfBits_eq (e q : Nat) (hq : q ≤ 2 ^ 24) (he : e = 0 ∨ 2 ^ 23 ≤ q) :
    magOfBits (e * 2 ^ 23 + q) = q * 2 ^ e := by
  unfold magOfBits
  by_cases h1 : q < 2 ^ 23
  · have e0 : e = 0 := by omega
    subst e0
    rw [if_pos (by omega)]
    omega
  · by_cases h2 : q < 2 ^ 24
    · have d : (e * 2 ^ 23 + q) / 2 ^ 23 = e + 1 := by omega
      have m : (e * 2 ^ 23 + q) % 2 ^ 23 = q - 2 ^ 23 := by omega
      rw [if_neg (by omega), d, m, Nat.add_sub_cancel, Nat.add_sub_of_le (by omega)]
    · have q0 : q = 2 ^ 24 := by omega
      have d : (e * 2 ^ 23 + q) / 2 ^ 23 = e + 2 := by omega
      have m : (e * 2 ^ 23 + q) % 2 ^ 23 = 0 := by omega
      rw [if_neg (by omega), d, m, q0, Nat.add_zero, show e + 2 - 1 = e + 1 from rfl, Nat.pow_succ]
      ring

theorem two_pow_log2_le {m : Nat} (h : 0 < Nat.log2 m) : 2 ^ Nat.log2 m ≤ m :=
  Nat.log2_self_le fun h0 => by rw [h0, Nat.log2_zero] at h; exact absurd h (lt_irrefl 0)

theorem f32Rat_eq (a : F32) : f32Rat a = (if f32Neg a then -1 else 1) * (f32Mag a : ℚ) / 2 ^ 149 := by
  simp only [f32Rat, f32Int]
  split <;> simp

theorem abs_f32Rat (a : F32) : |f32Rat a| = (f32Mag a : ℚ) / 2 ^ 149 := by
  rw [f32Rat_eq, abs_div, abs_mul]
  split <;> simp

/-- Rounding a magnitude below 2^127: a finite value, within half a unit in its last place, or half of the smallest
subnormal, of the magnitude. -/
theorem f32Round_spec (neg : Bool) (m k : Nat) (hm : m < 2 ^ (k + 276)) :
    f32IsFinite (f32Round neg m k) = true ∧
      |f32Rat (f32Round neg m k) - (if neg then -1 else 1) * (m : ℚ) / 2 ^ (149 + k)| ≤
        (m : ℚ) / 2 ^ (149 + k) / 2 ^ 24 + 1 / 2 ^ 150 := by
  set s := max k (Nat.log2 m - 23) with hs
  set q := roundShift m s with hq
  have hks : k ≤ s := le_max_left _ _
  have hup : m < 2 ^ (s + 24) := by
    refine lt_of_lt_of_le Nat.lt_log2_self (Nat.pow_le_pow_right (by norm_num) ?_)
    have := le_max_right k (Nat.log2 m - 23)
    omega
  have hs252 : s ≤ k + 252 := by
    rcases Nat.eq_zero_or_pos (Nat.log2 m) with h | h
    · omega
    · have : Nat.log2 m < k + 276 :=
        (Nat.pow_lt_pow_iff_right (by norm_num)).mp (lt_of_le_of_lt (two_pow_log2_le h) hm)
      omega
  have hcase : s = k ∨ (s = Nat.log2 m - 23 ∧ 23 < Nat.log2 m) := by omega
  obtain ⟨hr1, hr2⟩ := roundShift_spec m s
  rw [← hq] at hr1 hr2
  have hq24 : q ≤ 2 ^ 24 := by
    have h2 : m + 1 ≤ 2 ^ 24 * 2 ^ s := by rw [← pow_add, Nat.add_comm 24]; omega
    have h3 : q * 2 ^ s < (2 ^ 24 + 1) * 2 ^ s := by
      have : 0 < 2 ^ s := by positivity
      rw [Nat.add_mul, Nat.one_mul]; omega
    have := Nat.lt_of_mul_lt_mul_right h3
    omega
  have hqlow : s - k = 0 ∨ 2 ^ 23 ≤ q := by
    by_cases h : s - k = 0
    · exact .inl h
    · right
      have hsl : s = Nat.log2 m - 23 ∧ 23 < Nat.log2 m := by omega
      have hm0 := two_pow_log2_le (show 0 < Nat.log2 m by omega)
      have h2 : 2 ^ 23 * 2 ^ s ≤ m := by rw [← pow_add, show 23 + s = Nat.log2 m by omega]; exact hm0
      have h3 : (2 ^ 23 - 1) * 2 ^ s < q * 2 ^ s := by
        have : 0 < 2 ^ s := by positivity
        rw [Nat.sub_mul, Nat.one_mul]; omega
      have := Nat.lt_of_mul_lt_mul_right h3
      omega
  have hbits : (s - k) * 2 ^ 23 + q < f32InfBits := by simp only [f32InfBits]; omega
  have hround : f32Round neg m k = f32Pack neg ((s - k) * 2 ^ 23 + q) := by
    simp only [f32Round, ← hs, ← hq]
    rw [Nat.min_eq_right (le_of_lt hbits)]
  have hb31 : (s - k) * 2 ^ 23 + q < 2 ^ 31 := lt_trans hbits (by decide)
  refine ⟨by rw [hround]; exact f32IsFinite_pack _ _ hbits, ?_⟩
  rw [hround, f32Rat_eq, f32Neg_pack _ _ hb31, f32Mag_pack _ _ hb31, magOfBits_eq _ _ hq24 hqlow]
  have key : |((q * 2 ^ (s - k) : Nat) : ℚ) / 2 ^ 149 - (m : ℚ) / 2 ^ (149 + k)| ≤
      (m : ℚ) / 2 ^ (149 + k) / 2 ^ 24 + 1 / 2 ^ 150 := by
    have hq' : ((q * 2 ^ (s - k) : Nat) : ℚ) / 2 ^ 149 = (q * 2 ^ s : Nat) / 2 ^ (149 + k) := by
      push_cast
      rw [pow_add, div_eq_div_iff (by positivity) (by positivity)]
      have : (2 : ℚ) ^ s = 2 ^ (s - k) * 2 ^ k := by rw [← pow_add]; congr 1; omega
      rw [this]; ring
    rw [hq', ← sub_div, abs_div, abs_of_pos (show (0 : ℚ) < 2 ^ (149 + k) by positivity)]
    have h1 : |((q * 2 ^ s : Nat) : ℚ) - m| ≤ 2 ^ s / 2 := by
      rw [abs_le]
      have a1 : (2 : ℚ) * ((q * 2 ^ s : Nat) : ℚ) ≤ 2 * m + 2 ^ s := by exact_mod_cast hr1
      have a2 : (2 : ℚ) * m ≤ 2 * ((q * 2 ^ s : Nat) : ℚ) + 2 ^ s := by exact_mod_cast hr2
      constructor <;> linarith
    have h2 : (2 : ℚ) ^ s / 2 ≤ (m : ℚ) / 2 ^ 24 + 2 ^ k / 2 := by
      rcases hcase with h | ⟨h, h'⟩
      · rw [h]
        exact le_add_of_nonneg_left (div_nonneg (Nat.cast_nonneg _) (by norm_num))
      · have hm0 := two_pow_log2_le (lt_trans (by norm_num) h')
        have hs23 : s + 23 = Nat.log2 m := by rw [h, Nat.sub_add_cancel (le_of_lt h')]
        have : 2 ^ s * 2 ^ 23 ≤ m := by rw [← pow_add, hs23]; exact hm0
        have h3 : (2 : ℚ) ^ s * 2 ^ 23 ≤ m := by exact_mod_cast this
        have : (0 : ℚ) ≤ 2 ^ k / 2 := by positivity
        have h4 : (2 : ℚ) ^ s / 2 = 2 ^ s * 2 ^ 23 / 2 ^ 24 := by norm_num; ring
        rw [h4]
        have := div_le_div_of_nonneg_right h3 (show (0 : ℚ) ≤ 2 ^ 24 by positivity)
        linarith
    have h3 := div_le_div_of_nonneg_right (h1.trans h2) (show (0 : ℚ) ≤ 2 ^ (149 + k) by positivity)
    refine h3.trans (le_of_eq ?_)
    rw [add_div, div_right_comm]
    congr 1
    rw [pow_add]; field_simp
  cases neg with
  | false => simpa using key
  | true =>
    have e : (if true then (-1 : ℚ) else 1) * ((q * 2 ^ (s - k) : Nat) : ℚ) / 2 ^ 149 -
        (if true then (-1 : ℚ) else 1) * (m : ℚ) / 2 ^ (149 + k) =
        -(((q * 2 ^ (s - k) : Nat) : ℚ) / 2 ^ 149 - (m : ℚ) / 2 ^ (149 + k)) := by simp; ring
    rw [e, abs_neg]; exact key

/-- The sum of two finite values below 2^127: finite, and rounded once (R14). -/
theorem fadd_spec (nan a b : F32) (ha : f32IsFinite a = true) (hb : f32IsFinite b = true)
    (h : |f32Rat a + f32Rat b| < 2 ^ 127) :
    f32IsFinite (fadd nan a b) = true ∧
      |f32Rat (fadd nan a b) - (f32Rat a + f32Rat b)| ≤ |f32Rat a + f32Rat b| / 2 ^ 24 + 1 / 2 ^ 150 := by
  have na : f32IsNaN a = false := by simp_all [f32IsNaN, f32IsFinite]
  have nb : f32IsNaN b = false := by simp_all [f32IsNaN, f32IsFinite]
  have ia : f32IsInf a = false := by simp_all [f32IsInf, f32IsFinite]
  have ib : f32IsInf b = false := by simp_all [f32IsInf, f32IsFinite]
  have hsum : f32Rat a + f32Rat b = ((f32Int a + f32Int b : Int) : ℚ) / 2 ^ 149 := by
    simp only [f32Rat]; push_cast; ring
  rw [hsum] at h ⊢
  set z := f32Int a + f32Int b with hz
  simp only [fadd, na, nb, ia, ib, Bool.or_self, Bool.false_eq_true, if_false, ← hz]
  by_cases h0 : z = 0
  · rw [if_pos h0, h0]
    refine ⟨f32IsFinite_pack _ _ (by decide), ?_⟩
    rw [f32Rat_eq, f32Mag_pack _ _ (by decide)]
    simp [magOfBits]
  · rw [if_neg h0]
    have hlt : z.natAbs < 2 ^ (0 + 276) := by
      rw [abs_div, abs_of_pos (show (0 : ℚ) < 2 ^ 149 by positivity), div_lt_iff₀ (by positivity), ← pow_add] at h
      refine (Nat.cast_lt (α := ℚ)).mp ?_
      rw [Nat.cast_natAbs, Int.cast_abs, Nat.cast_pow, Nat.cast_ofNat]
      exact h
    obtain ⟨hf, he⟩ := f32Round_spec (decide (z < 0)) z.natAbs 0 hlt
    refine ⟨hf, ?_⟩
    have e1 : (if decide (z < 0) then (-1 : ℚ) else 1) * ((z.natAbs : Nat) : ℚ) = (z : ℚ) := by
      rcases lt_or_ge z 0 with hn | hn
      · have hz' : (z : ℚ) < 0 := by exact_mod_cast hn
        simp [hn, Nat.cast_natAbs, abs_of_neg hz']
      · have hz' : (0 : ℚ) ≤ z := by exact_mod_cast hn
        simp [not_lt.mpr hn, Nat.cast_natAbs, abs_of_nonneg hz']
    rw [e1, Nat.add_zero] at he
    have e2 : ((z.natAbs : Nat) : ℚ) / 2 ^ 149 = |(z : ℚ) / 2 ^ 149| := by
      rw [abs_div, abs_of_pos (show (0 : ℚ) < 2 ^ 149 by positivity), Nat.cast_natAbs]
      push_cast; rfl
    rw [e2] at he
    exact he

/-- The product of two finite values below 2^127: finite, and rounded once (R14). -/
theorem fmul_spec (nan a b : F32) (ha : f32IsFinite a = true) (hb : f32IsFinite b = true)
    (h : |f32Rat a * f32Rat b| < 2 ^ 127) :
    f32IsFinite (fmul nan a b) = true ∧
      |f32Rat (fmul nan a b) - f32Rat a * f32Rat b| ≤ |f32Rat a * f32Rat b| / 2 ^ 24 + 1 / 2 ^ 150 := by
  have na : f32IsNaN a = false := by simp_all [f32IsNaN, f32IsFinite]
  have nb : f32IsNaN b = false := by simp_all [f32IsNaN, f32IsFinite]
  have ia : f32IsInf a = false := by simp_all [f32IsInf, f32IsFinite]
  have ib : f32IsInf b = false := by simp_all [f32IsInf, f32IsFinite]
  simp only [fmul, na, nb, ia, ib, Bool.or_self, Bool.false_eq_true, if_false]
  have habs : |f32Rat a * f32Rat b| = ((f32Mag a * f32Mag b : Nat) : ℚ) / 2 ^ (149 + 149) := by
    rw [abs_mul, abs_f32Rat, abs_f32Rat, pow_add]; push_cast; ring
  have hlt : f32Mag a * f32Mag b < 2 ^ (149 + 276) := by
    rw [habs, div_lt_iff₀ (by positivity), ← pow_add] at h
    refine (Nat.cast_lt (α := ℚ)).mp ?_
    rw [Nat.cast_pow, Nat.cast_ofNat]
    exact h
  obtain ⟨hf, he⟩ := f32Round_spec (f32Neg a != f32Neg b) (f32Mag a * f32Mag b) 149 hlt
  refine ⟨hf, ?_⟩
  rw [habs]
  have e1 : f32Rat a * f32Rat b =
      (if (f32Neg a != f32Neg b) then (-1 : ℚ) else 1) * ((f32Mag a * f32Mag b : Nat) : ℚ) / 2 ^ (149 + 149) := by
    rw [f32Rat_eq, f32Rat_eq, pow_add]
    cases f32Neg a <;> cases f32Neg b <;> simp <;> ring
  rw [e1]
  exact he

theorem f32Exp_negate (a : F32) : f32Exp (f32Negate a) = f32Exp a := by
  simp only [f32Exp, f32Negate, BitVec.toNat_xor, ← Nat.shiftRight_eq_div_pow]
  rw [Nat.shiftRight_xor_distrib, show (256 : Nat) = 2 ^ 8 by norm_num, Nat.xor_mod_two_pow]
  have : (0x80000000#32).toNat >>> 23 % 2 ^ 8 = 0 := by decide
  rw [this, Nat.xor_zero]

theorem f32Frac_negate (a : F32) : f32Frac (f32Negate a) = f32Frac a := by
  simp only [f32Frac, f32Negate, BitVec.toNat_xor]
  rw [Nat.xor_mod_two_pow]
  have : (0x80000000#32).toNat % 2 ^ 23 = 0 := by decide
  rw [this, Nat.xor_zero]

/-- Negation keeps the magnitude. -/
theorem f32Negate_spec (a : F32) : f32IsFinite (f32Negate a) = f32IsFinite a ∧ f32IsNaN (f32Negate a) = f32IsNaN a ∧
    |f32Rat (f32Negate a)| = |f32Rat a| := by
  refine ⟨?_, ?_, ?_⟩
  · simp only [f32IsFinite, f32Exp_negate]
  · simp only [f32IsNaN, f32Exp_negate, f32Frac_negate]
  · simp only [abs_f32Rat, f32Mag, f32Exp_negate, f32Frac_negate]

/-! Arithmetic that does not depend on the NaN it is given. -/

theorem not_nan_of_finite {a : F32} (h : f32IsFinite a = true) : f32IsNaN a = false := by
  simp_all [f32IsNaN, f32IsFinite]

theorem not_inf_of_finite {a : F32} (h : f32IsFinite a = true) : f32IsInf a = false := by
  simp_all [f32IsInf, f32IsFinite]

theorem finite_of_not {a : F32} (h1 : f32IsNaN a = false) (h2 : f32IsInf a = false) : f32IsFinite a = true := by
  simp only [f32IsNaN, f32IsInf, f32IsFinite, Bool.and_eq_false_iff, beq_eq_false_iff_ne, bne_iff_ne, ne_eq,
    bne_eq_false_iff_eq] at *
  rcases h1 with h | h
  · exact h
  · rcases h2 with h2 | h2
    · exact h2
    · exact absurd h h2

theorem not_nan_pack (neg : Bool) (b : Nat) (hb : b ≤ f32InfBits) : f32IsNaN (f32Pack neg b) = false := by
  have hi : f32InfBits = 255 * 2 ^ 23 := by decide
  have h1 := f32Exp_pack neg b (by omega)
  have h2 := f32Frac_pack neg b (by omega)
  unfold f32IsNaN
  rw [h1, h2, Bool.and_eq_false_iff]
  by_cases h : b / 2 ^ 23 = 255
  · right; simp only [bne_eq_false_iff_eq]; omega
  · left; simpa using h

theorem infinite_pack (neg : Bool) : f32IsFinite (f32Pack neg f32InfBits) = false := by cases neg <;> decide

theorem fmul_finite_args {a b : F32} (ha : f32IsFinite a = true) (hb : f32IsFinite b = true) (nan : F32) :
    fmul nan a b = fmul f32NaN a b ∧ f32IsNaN (fmul nan a b) = false := by
  unfold fmul
  simp only [not_nan_of_finite ha, not_nan_of_finite hb, not_inf_of_finite ha, not_inf_of_finite hb, Bool.or_self,
    Bool.false_eq_true, if_false, true_and]
  exact not_nan_pack _ _ (min_le_left _ _)

theorem fadd_nan_irrel {a b : F32} (ha : f32IsFinite a = true) (hb : f32IsNaN b = false) (nan : F32) :
    fadd nan a b = fadd f32NaN a b := by
  unfold fadd
  simp only [not_nan_of_finite ha, hb, not_inf_of_finite ha, Bool.or_self, Bool.false_eq_true, if_false]

theorem nan_infinite : f32IsFinite f32NaN = false := by decide

theorem fadd_finite {a b : F32} (h : f32IsFinite (fadd f32NaN a b) = true) :
    f32IsFinite a = true ∧ f32IsFinite b = true := by
  unfold fadd at h
  have hn := nan_infinite
  split at h
  · rw [hn] at h; exact absurd h (by decide)
  · rename_i h1
    simp only [Bool.or_eq_true, not_or, Bool.not_eq_true] at h1
    split at h
    · rename_i h2
      split at h
      · rw [hn] at h; exact absurd h (by decide)
      · exact absurd h2 (by rw [not_inf_of_finite h]; decide)
    · rename_i h2
      split at h
      · rename_i h3; exact absurd h3 (by rw [not_inf_of_finite h]; decide)
      · rename_i h3
        exact ⟨finite_of_not h1.1 (by simpa using h2), finite_of_not h1.2 (by simpa using h3)⟩

theorem fmul_finite {a b : F32} (h : f32IsFinite (fmul f32NaN a b) = true) :
    f32IsFinite a = true ∧ f32IsFinite b = true := by
  unfold fmul at h
  have hn := nan_infinite
  simp only [] at h
  split at h
  · rw [hn] at h; exact absurd h (by decide)
  · rename_i h1
    simp only [Bool.or_eq_true, not_or, Bool.not_eq_true] at h1
    split at h
    · split at h
      · rw [hn] at h; exact absurd h (by decide)
      · rw [infinite_pack] at h; exact absurd h (by decide)
    · rename_i h2
      split at h
      · split at h
        · rw [hn] at h; exact absurd h (by decide)
        · rw [infinite_pack] at h; exact absurd h (by decide)
      · rename_i h3
        exact ⟨finite_of_not h1.1 (by simpa using h2), finite_of_not h1.2 (by simpa using h3)⟩

theorem fsub_finite {a b : F32} (h : f32IsFinite (fsub f32NaN a b) = true) :
    f32IsFinite a = true ∧ f32IsFinite b = true := by
  unfold fsub at h
  split at h
  · rw [nan_infinite] at h; exact absurd h (by decide)
  · have := fadd_finite h
    exact ⟨this.1, (f32Negate_spec b).1 ▸ this.2⟩

theorem fsub_nan_irrel {a b : F32} (ha : f32IsFinite a = true) (hb : f32IsFinite b = true) (nan : F32) :
    fsub nan a b = fsub f32NaN a b := by
  unfold fsub
  rw [not_nan_of_finite hb, if_neg (by decide), if_neg (by decide),
    fadd_nan_irrel ha ((f32Negate_spec b).2.1.trans (not_nan_of_finite hb))]

/-- A finite multiply-accumulate step has finite operands, and does not depend on the NaN it is given. -/
theorem mac_finite {y a b : C32} (h : c32IsFinite (cadd ⟨f32NaN, f32NaN⟩ y (cmul ⟨f32NaN, f32NaN⟩ a b)) = true) :
    (c32IsFinite y = true ∧ c32IsFinite a = true ∧ c32IsFinite b = true) ∧
      ∀ nan, cadd nan y (cmul nan a b) = cadd ⟨f32NaN, f32NaN⟩ y (cmul ⟨f32NaN, f32NaN⟩ a b) := by
  simp only [c32IsFinite, Bool.and_eq_true, cadd, cmul] at h
  obtain ⟨yr, pr⟩ := fadd_finite h.1
  obtain ⟨yi, pi⟩ := fadd_finite h.2
  obtain ⟨rr, ii⟩ := fsub_finite pr
  obtain ⟨ri, ir⟩ := fadd_finite pi
  obtain ⟨ar, br⟩ := fmul_finite rr
  obtain ⟨ai, bi⟩ := fmul_finite ii
  refine ⟨by simp [c32IsFinite, *], fun nan => ?_⟩
  simp only [cadd, cmul]
  rw [(fmul_finite_args ar br _).1, (fmul_finite_args ai bi _).1, (fmul_finite_args ar bi _).1, (fmul_finite_args ai br _).1,
    fsub_nan_irrel rr ii, fadd_nan_irrel ri (not_nan_of_finite ir), fadd_nan_irrel yr (not_nan_of_finite pr),
    fadd_nan_irrel yi (not_nan_of_finite pi)]

theorem f32Exp_lt {a : F32} (h : f32IsFinite a = true) : f32Exp a < 255 := by
  have := Nat.mod_lt (a.toNat / 2 ^ 23) (show 0 < 256 by decide)
  simp only [f32IsFinite, bne_iff_ne, ne_eq] at h
  simp only [f32Exp] at h ⊢
  omega

/-- A value is its sign, exponent and fraction (R62). -/
theorem f32Pack_fields (a : F32) : f32Pack (f32Neg a) (f32Exp a * 2 ^ 23 + f32Frac a) = a := by
  have ha := a.isLt
  refine BitVec.eq_of_toNat_eq ?_
  rw [toNat_f32Pack _ _ (by simp only [f32Exp, f32Frac]; omega)]
  simp only [f32Neg, f32Exp, f32Frac, decide_eq_true_eq]
  split <;> omega

theorem roundShift_mul (q s : Nat) : roundShift (q * 2 ^ s) s = q := by
  have h : 0 < 2 ^ s := by positivity
  simp only [roundShift, Nat.mul_mod_left, Nat.mul_div_cancel _ h]
  exact if_neg (by omega)

/-- Rounding the magnitude of a finite value gives the value back. -/
theorem f32Round_exact {a : F32} (h : f32IsFinite a = true) (k : Nat) :
    f32Round (f32Neg a) (f32Mag a * 2 ^ k) k = a := by
  have he := f32Exp_lt h
  have hf : f32Frac a < 2 ^ 23 := Nat.mod_lt _ (by decide)
  conv_rhs => rw [← f32Pack_fields a]
  have hbits : min f32InfBits (f32Exp a * 2 ^ 23 + f32Frac a) = f32Exp a * 2 ^ 23 + f32Frac a :=
    Nat.min_eq_right (by simp only [f32InfBits]; omega)
  simp only [f32Round]
  by_cases h0 : f32Exp a = 0
  · have hs : max k (Nat.log2 (f32Frac a * 2 ^ k) - 23) = k := by
      refine Nat.max_eq_left ?_
      by_cases hz : f32Frac a = 0
      · simp [hz]
      · have : Nat.log2 (f32Frac a * 2 ^ k) < 23 + k := by
          rw [Nat.log2_lt (by positivity), Nat.pow_add]
          exact Nat.mul_lt_mul_of_pos_right hf (by positivity)
        omega
    rw [f32Mag, if_pos h0, hs, roundShift_mul, Nat.sub_self, ← h0, hbits]
  · have hm : f32Mag a * 2 ^ k = (2 ^ 23 + f32Frac a) * 2 ^ (f32Exp a - 1 + k) := by
      rw [f32Mag, if_neg h0, Nat.pow_add, Nat.mul_assoc]
    have hl : Nat.log2 ((2 ^ 23 + f32Frac a) * 2 ^ (f32Exp a - 1 + k)) = 23 + (f32Exp a - 1 + k) := by
      rw [Nat.log2_eq_iff (Nat.mul_ne_zero (by omega) (Nat.two_pow_pos _).ne')]
      constructor
      · rw [Nat.pow_add 2 23]; exact Nat.mul_le_mul_right _ (by omega)
      · rw [show 23 + (f32Exp a - 1 + k) + 1 = 24 + (f32Exp a - 1 + k) by omega, Nat.pow_add 2 24]
        exact Nat.mul_lt_mul_of_pos_right (by omega) (Nat.two_pow_pos _)
    have hs : max k (23 + (f32Exp a - 1 + k) - 23) = f32Exp a - 1 + k := by omega
    rw [hm, hl, hs, roundShift_mul, Nat.add_sub_cancel, ← Nat.add_assoc,
      show (f32Exp a - 1) * 2 ^ 23 + 2 ^ 23 = f32Exp a * 2 ^ 23 by omega, hbits]

/-- A product with 1.0 is the value. -/
theorem fmul_one {a : F32} (h : f32IsFinite a = true) (nan : F32) : fmul nan a f32One = a := by
  have h1 : f32Mag f32One = 2 ^ 149 := by decide
  have hn : (f32Neg a != f32Neg f32One) = f32Neg a := by
    rw [show f32Neg f32One = false by decide, Bool.bne_false]
  simp only [fmul, not_nan_of_finite h, not_inf_of_finite h, show f32IsNaN f32One = false by decide,
    show f32IsInf f32One = false by decide, h1, hn, Bool.or_self, Bool.false_eq_true, if_false]
  exact f32Round_exact h 149

/-- A sum with +0.0 is the value, but for the sign of a zero. -/
theorem zero_fadd {a : F32} (h : f32IsFinite a = true) (nan : F32) :
    f32IsFinite (fadd nan f32Zero a) = true ∧ f32Rat (fadd nan f32Zero a) = f32Rat a := by
  have h0 : f32Int f32Zero = 0 := by decide
  simp only [fadd, not_nan_of_finite h, not_inf_of_finite h, show f32IsNaN f32Zero = false by decide,
    show f32IsInf f32Zero = false by decide, h0, zero_add, Bool.or_self, Bool.false_eq_true, if_false]
  split
  · next hz =>
    refine ⟨f32IsFinite_pack _ 0 (by decide), ?_⟩
    rw [f32Rat, f32Rat, hz, f32Int_pack _ 0 (by decide)]
    simp [magOfBits]
  · next hz =>
    have hneg : decide (f32Int a < 0) = f32Neg a := by
      rw [Bool.eq_iff_iff, decide_eq_true_iff]
      simp only [f32Int] at hz ⊢
      split at hz <;> simp_all; omega
    have habs : (f32Int a).natAbs = f32Mag a * 2 ^ 0 := by
      simp only [f32Int]; split <;> omega
    rw [hneg, habs, f32Round_exact h 0]
    exact ⟨h, rfl⟩

end Sys2Proof.Machine
end

