-- ==== Sys2Proof/Machine/Window.lean ====
section
/-! DEFINITION. The window table STFT_WIN (spec/41_stft.md R151, R152). The ideal window of R >= 2 is
sqrt((2H/W) * 0.5 * (1 - cos(2 pi n / W))) = sqrt(2H/W) * |sin(pi n / W)|. It is evaluated in fixed point with 160
fraction bits and then rounded once to binary32; the ideal value never is a rounding tie (log entry 11). -/

namespace Sys2Proof.Machine

/-- Fraction bits of the fixed-point values below. -/
def windowBits : Nat := 160

/-- |sin(pi n / W)| in units of 2^-160, for n <= W: the sine of half of the turn n / W, or of what is left of it. -/
def windowSine (w n : Nat) : Nat := (sinTurn windowBits (min n (w - n)) (2 * w)).toNat

/-- STFT_WIN(W, H)[n] (R152): 1.0 for H = W, else the binary32 value nearest to the ideal window. -/
def stftWin (w h n : Nat) : F32 :=
  if w = h then f32One
  else f32Round false (isqrtFrom (windowBits + 2) (2 * h * windowSine w n ^ 2 / w) 0) (windowBits - 149)

end Sys2Proof.Machine
end

