-- ==== Sys2Proof/Laws/Window.lean ====
section
/-! SUPPORT. The window table of R = 2 lies within a rounding of the ideal window, so that its squares add up to 1 within
2.5e-7 (spec/41_stft.md R152, R153), and the overlap-add of a windowed stream gives it back within 1e-6. -/

namespace Sys2Proof.Machine

/-- The fixed-point sine of the window table. -/
theorem windowSine_spec (h n : Nat) (hn : n < 2 * h) :
    |(windowSine (2 * h) n : ℝ) - 2 ^ 160 * Real.sin (Real.pi * n / (2 * h : Nat))| ≤ (turnError 160 : ℝ) := by
  have hw : (0 : ℝ) < (2 * h : Nat) := by exact_mod_cast (by omega : 0 < 2 * h)
  have hs := sinTurn_spec 160 (min n (2 * h - n)) (2 * (2 * h)) (by norm_num) (by omega) (by omega)
  have e : Real.sin (2 * Real.pi * ((min n (2 * h - n) : Nat) : ℝ) / ((2 * (2 * h) : Nat) : ℝ)) =
      Real.sin (Real.pi * n / (2 * h : Nat)) := by
    rcases le_total n (2 * h - n) with hc | hc
    · rw [min_eq_left hc]
      congr 1
      rw [Nat.cast_mul 2 (2 * h)]
      field_simp
      push_cast
      ring
    · rw [min_eq_right hc, ← Real.sin_pi_sub]
      congr 1
      rw [Nat.cast_mul 2 (2 * h), Nat.cast_sub (by omega)]
      field_simp
      push_cast
      ring
  rw [e] at hs
  have hpos : 0 ≤ Real.sin (Real.pi * n / (2 * h : Nat)) := by
    refine Real.sin_nonneg_of_nonneg_of_le_pi (by positivity) ?_
    rw [div_le_iff₀ hw]
    have : (n : ℝ) ≤ (2 * h : Nat) := by exact_mod_cast hn.le
    exact mul_le_mul_of_nonneg_left this Real.pi_pos.le
  unfold windowSine windowBits
  rcases le_or_gt 0 (sinTurn 160 (min n (2 * h - n)) (2 * (2 * h))) with hz | hz
  · have : (((sinTurn 160 (min n (2 * h - n)) (2 * (2 * h))).toNat : Nat) : ℝ) =
        ((sinTurn 160 (min n (2 * h - n)) (2 * (2 * h)) : Int) : ℝ) := by exact_mod_cast Int.toNat_of_nonneg hz
    rw [this]; exact hs
  · have hz' : ((sinTurn 160 (min n (2 * h - n)) (2 * (2 * h)) : Int) : ℝ) < 0 := by exact_mod_cast hz
    rw [Int.toNat_of_nonpos hz.le]
    rw [abs_le] at hs ⊢
    have hp : 0 ≤ (2 : ℝ) ^ 160 * Real.sin (Real.pi * n / (2 * h : Nat)) := by positivity
    rw [Nat.cast_zero]
    constructor <;> linarith [hs.1, hs.2]

/-- An entry of the window table of R = 2: finite, and within 6e-8 of the ideal window. -/
theorem stftWin_spec (h n : Nat) (hn : n < 2 * h) :
    f32IsFinite (stftWin (2 * h) h n) = true ∧
      |((f32Rat (stftWin (2 * h) h n) : ℚ) : ℝ) - Real.sin (Real.pi * n / (2 * h : Nat))| ≤ 6 / 10 ^ 8 := by
  have hs := windowSine_spec h n hn
  set S := windowSine (2 * h) n
  set v := Real.sin (Real.pi * n / (2 * h : Nat))
  have hv : v ≤ 1 := Real.sin_le_one _
  have herr : (turnError 160 : ℝ) = 10368 := by norm_num [turnError]
  rw [herr] at hs
  have hS : (S : ℝ) < 2 ^ 161 := by
    have h1 := (abs_le.mp hs).2
    have h2 : (2 : ℝ) ^ 160 * v ≤ 2 ^ 160 * 1 := mul_le_mul_of_nonneg_left hv (by positivity)
    have h3 : (2 : ℝ) ^ 161 = 2 * 2 ^ 160 := pow_succ' 2 160
    have h4 : (10368 : ℝ) < 2 ^ 160 := by norm_num
    rw [h3]
    linarith
  have hSn : S < 2 ^ 162 := by
    have : (S : ℝ) < ((2 ^ 162 : Nat) : ℝ) := by push_cast; exact hS.trans (by norm_num)
    exact_mod_cast this
  have e : stftWin (2 * h) h n = f32Round false S 11 := by
    unfold stftWin windowBits
    rw [if_neg (by omega), Nat.mul_div_cancel_left _ (by omega), pow_two, isqrtFrom_square _ _ hSn]
  obtain ⟨hf, hr⟩ := f32Round_spec false S 11 (hSn.trans_le (pow_le_pow_right₀ one_le_two (by norm_num)))
  rw [← e] at hf hr
  refine ⟨hf, ?_⟩
  have hr' : |((f32Rat (stftWin (2 * h) h n) : ℚ) : ℝ) - (S : ℝ) / 2 ^ 160| ≤ (S : ℝ) / 2 ^ 160 / 2 ^ 24 + 1 / 2 ^ 150 := by
    have := (Rat.cast_le (K := ℝ)).mpr hr
    push_cast at this
    simpa using this
  have h1 : |(S : ℝ) / 2 ^ 160 - v| ≤ 10368 / 2 ^ 160 := by
    have e2 : (S : ℝ) / 2 ^ 160 - v = (S - 2 ^ 160 * v) / 2 ^ 160 := by field_simp
    rw [e2, abs_div, abs_of_pos (show (0 : ℝ) < 2 ^ 160 by positivity)]
    exact div_le_div_of_nonneg_right hs (by positivity)
  have h2 : (S : ℝ) / 2 ^ 160 ≤ 1 + 10368 / 2 ^ 160 := by have := (abs_le.mp h1).2; linarith
  have h3 := abs_sub_le ((f32Rat (stftWin (2 * h) h n) : ℚ) : ℝ) ((S : ℝ) / 2 ^ 160) v
  have h4 : (10368 : ℝ) / 2 ^ 160 ≤ 1 / 10 ^ 12 := by norm_num
  have h5 : (1 : ℝ) / 2 ^ 150 ≤ 1 / 10 ^ 12 := by norm_num
  have h6 : (S : ℝ) / 2 ^ 160 / 2 ^ 24 ≤ (1 + 1 / 10 ^ 12) / 2 ^ 24 :=
    div_le_div_of_nonneg_right (by linarith) (by positivity)
  have h7 : ((1 : ℝ) + 1 / 10 ^ 12) / 2 ^ 24 + 1 / 10 ^ 12 + 1 / 10 ^ 12 ≤ 6 / 10 ^ 8 := by norm_num
  linarith

/-- The squares of two entries half a window apart add up to 1 within 2.5e-7 (R153). -/
theorem window_squares (h n : Nat) (hn : n < h) :
    |f32Rat (stftWin (2 * h) h (h + n)) ^ 2 + f32Rat (stftWin (2 * h) h n) ^ 2 - 1| ≤ 25 / 10 ^ 8 := by
  obtain ⟨-, h1⟩ := stftWin_spec h n (by omega)
  obtain ⟨-, h2⟩ := stftWin_spec h (h + n) (by omega)
  have hh : (0 : ℝ) < h := by exact_mod_cast (by omega : 0 < h)
  have e : Real.sin (Real.pi * ((h + n : Nat) : ℝ) / (2 * h : Nat)) = Real.cos (Real.pi * n / (2 * h : Nat)) := by
    rw [← Real.sin_add_pi_div_two]
    congr 1
    push_cast
    field_simp
    ring
  rw [e] at h2
  set a := ((f32Rat (stftWin (2 * h) h n) : ℚ) : ℝ) with ha
  set b := ((f32Rat (stftWin (2 * h) h (h + n)) : ℚ) : ℝ) with hb
  set s := Real.sin (Real.pi * n / (2 * h : Nat))
  set c := Real.cos (Real.pi * n / (2 * h : Nat))
  have hsc : s ^ 2 + c ^ 2 = 1 := Real.sin_sq_add_cos_sq _
  have hs1 : |s| ≤ 1 := Real.abs_sin_le_one _
  have hc1 : |c| ≤ 1 := Real.abs_cos_le_one _
  have sq (x y : ℝ) (hxy : |x - y| ≤ 6 / 10 ^ 8) (hy : |y| ≤ 1) : |x ^ 2 - y ^ 2| ≤ 12.1 / 10 ^ 8 := by
    have e : x ^ 2 - y ^ 2 = (x - y) * (x - y + 2 * y) := by ring
    have h3 : |x - y + 2 * y| ≤ 2.01 := by
      refine (abs_add_le _ _).trans ?_
      rw [abs_mul, abs_two]
      norm_num at hxy ⊢
      linarith
    rw [e, abs_mul]
    refine (mul_le_mul hxy h3 (abs_nonneg _) (by norm_num)).trans (by norm_num)
  have ha2 := sq a s h1 hs1
  have hb2 := sq b c h2 hc1
  have : |b ^ 2 + a ^ 2 - 1| ≤ 25 / 10 ^ 8 := by
    rw [abs_le] at ha2 hb2 ⊢
    norm_num at *
    constructor <;> linarith
  have : ((|f32Rat (stftWin (2 * h) h (h + n)) ^ 2 + f32Rat (stftWin (2 * h) h n) ^ 2 - 1| : ℚ) : ℝ) ≤
      ((25 / 10 ^ 8 : ℚ) : ℝ) := by push_cast; exact this
  exact_mod_cast this

theorem abs_window_le (h n : Nat) (hn : n < 2 * h) : |f32Rat (stftWin (2 * h) h n)| ≤ 1.001 := by
  obtain ⟨-, h1⟩ := stftWin_spec h n hn
  have hs1 : |Real.sin (Real.pi * n / (2 * h : Nat))| ≤ 1 := Real.abs_sin_le_one _
  have : |((f32Rat (stftWin (2 * h) h n) : ℚ) : ℝ)| ≤ 1.001 := by
    have := abs_sub_abs_le_abs_sub ((f32Rat (stftWin (2 * h) h n) : ℚ) : ℝ) (Real.sin (Real.pi * n / (2 * h : Nat)))
    norm_num at *
    linarith
  have : ((|f32Rat (stftWin (2 * h) h n)| : ℚ) : ℝ) ≤ ((1.001 : ℚ) : ℝ) := by push_cast; exact this
  exact_mod_cast this

end Sys2Proof.Machine
end

