-- ==== Sys2Proof/Machine/Numerics.lean ====
section
/-! DEFINITION. The OPEN numerics of the engine as types whose values have the properties the spec states of them: the
transform core FFT_NUM with FFT_REL_ERR (spec/40_fft.md R121, R122; spec/41_stft.md R170; spec/43_conv.md R224) and the
QMF filterbank (spec/42_qmf.md R181 to R188). -/

namespace Sys2Proof.Machine

/-- The sample lies in [-1, 1], the input range of the acceptance properties (D16). -/
def unitRange (a : F32) : Prop := f32IsFinite a = true ∧ |f32Rat a| ≤ 1

/-- A finite sample within `tol` of a number. -/
def near (tol : ℚ) (a : F32) (v : ℚ) : Prop := f32IsFinite a = true ∧ |f32Rat a - v| ≤ tol

/-- Transform lengths: even (R120), and no longer than a command with 32-bit arguments can name. -/
def lengthOk (n : Nat) : Prop := n % 2 = 0 ∧ 2 ≤ n ∧ n ≤ 2 ^ 33

/-- Four functions with the types of FFT_NUM (R121), element by element: element `k` of the transform of length `n`. -/
structure FftFns where
  rfft  : Nat → List F32 → Nat → C32
  irfft : Nat → List C32 → Nat → F32
  cfft  : Nat → List C32 → Nat → C32
  icfft : Nat → List C32 → Nat → C32

/-- Every element is +0.0 or -0.0. -/
def allZero (x : List F32) : Bool := x.all fun v => v == f32Zero || v == 0x80000000#32

/-- A zero with the sign of a value. -/
def signedZero (v : F32) : F32 := v &&& 0x80000000#32

def c32SignedZero (c : C32) : C32 := ⟨signedZero c.re, signedZero c.im⟩

/-- `rfft_n(x)`: n/2+1 bins. An all-zero input gives zeros of either sign (R122, U4). -/
def FftFns.rfftOut (f : FftFns) (n : Nat) (x : List F32) : List C32 :=
  (List.range (realBins n)).map fun k => if allZero x then c32SignedZero (f.rfft n x k) else f.rfft n x k

/-- `irfft_n(X)`: n samples, with the imaginary parts of bins 0 and n/2 treated as 0 (R126). -/
def FftFns.irfftOut (f : FftFns) (n : Nat) (x : List C32) : List F32 :=
  (List.range n).map fun k =>
    if allZero (flatten (realEnds n x)) then signedZero (f.irfft n (realEnds n x) k) else f.irfft n (realEnds n x) k

/-- `cfft_n(x)`: n bins. -/
def FftFns.cfftOut (f : FftFns) (n : Nat) (x : List C32) : List C32 :=
  (List.range n).map fun k => if allZero (flatten x) then c32SignedZero (f.cfft n x k) else f.cfft n x k

/-- `icfft_n(X)`: n samples. -/
def FftFns.icfftOut (f : FftFns) (n : Nat) (x : List C32) : List C32 :=
  (List.range n).map fun k => if allZero (flatten x) then c32SignedZero (f.icfft n x k) else f.icfft n x k

/-- The samples are finite, and within the relative error `eps` of `ideal` in the Euclidean norm (R122 (a)). -/
def CloseTo (eps : ℚ) (out : List C32) (ideal : Nat → ℂ) : Prop :=
  ∃ ov : Nat → ℂ, (∀ k < out.length, IsValue (out.getD k c32Zero) (ov k)) ∧
    ∑ k ∈ Finset.range out.length, Complex.normSq (ov k - ideal k) ≤
      (eps : ℝ) ^ 2 * ∑ k ∈ Finset.range out.length, Complex.normSq (ideal k)

/-- Real samples as complex ones. -/
def asComplex (x : List F32) : List C32 := x.map fun v => ⟨v, f32Zero⟩

/-- R122 (a) at one length: for finite inputs with an ideal result in binary32 range, each of the four functions is
within the relative error of the ideal transform of R130. -/
def FftFns.Accurate (f : FftFns) (eps : ℚ) (n : Nat) : Prop :=
  (∀ (x : List F32) (xv yv : Nat → ℂ), x.length = n → (∀ j < n, IsValue ((asComplex x).getD j c32Zero) (xv j)) →
    IsDft n xv yv → (∀ k < realBins n, InRange (yv k)) → CloseTo eps (f.rfftOut n x) yv) ∧
  (∀ (x : List C32) (xv yv zv : Nat → ℂ), x.length = realBins n → (∀ k < realBins n, IsValue (x.getD k c32Zero) (xv k)) →
    IsHermitianExtension n xv yv → IsIdft n yv zv → (∀ j < n, InRange (zv j)) →
    CloseTo eps (asComplex (f.irfftOut n x)) zv) ∧
  (∀ (x : List C32) (xv yv : Nat → ℂ), x.length = n → (∀ j < n, IsValue (x.getD j c32Zero) (xv j)) →
    IsDft n xv yv → (∀ k < n, InRange (yv k)) → CloseTo eps (f.cfftOut n x) yv) ∧
  (∀ (x : List C32) (xv yv : Nat → ℂ), x.length = n → (∀ k < n, IsValue (x.getD k c32Zero) (xv k)) →
    IsIdft n xv yv → (∀ j < n, InRange (yv j)) → CloseTo eps (f.icfftOut n x) yv)

/-- The spectrum is one the real inverse transforms: finite, with an ideal inverse in binary32 range (R123). -/
def invertible (n : Nat) (x : List C32) : Prop := transformDefined .irfft n (flatten x) = true

/-- R122 (b) at one length: forward then backward gives the samples back within 1e-5. -/
def FftFns.RoundTrips (f : FftFns) (n : Nat) : Prop :=
  (∀ x : List F32, x.length = n → (∀ v ∈ x, unitRange v) →
    invertible n (f.rfftOut n x) ∧
      ∀ j < n, near (1 / 100000) ((f.irfftOut n (f.rfftOut n x)).getD j f32Zero) (f32Rat (x.getD j f32Zero))) ∧
  (∀ x : List C32, x.length = n → (∀ v ∈ x, unitRange v.re ∧ unitRange v.im) →
    transformDefined .icfft n (flatten (f.cfftOut n x)) = true ∧
      ∀ j < n, near (1 / 100000) ((f.icfftOut n (f.cfftOut n x)).getD j c32Zero).re (f32Rat (x.getD j c32Zero).re) ∧
        near (1 / 100000) ((f.icfftOut n (f.cfftOut n x)).getD j c32Zero).im (f32Rat (x.getD j c32Zero).im))

/-- A buffer times the window table: `fmul(buf[n], STFT_WIN(W,H)[n])` (R162), for finite samples. -/
def windowedBy (w h : Nat) (buf : List F32) : List F32 :=
  (List.range w).map fun n => fmul f32NaN (buf.getD n f32Zero) (stftWin w h n)

/-- The round trip of one windowed segment (R162, R164). -/
def FftFns.segmentTrip (f : FftFns) (w h : Nat) (buf : List F32) : List F32 :=
  f.irfftOut w (f.rfftOut w (windowedBy w h buf))

/-- `fadd(acc, fmul(y, STFT_WIN(W,H)[n]))` (R164), for finite samples. -/
def overlapOne (w h n : Nat) (acc y : F32) : F32 := fadd f32NaN acc (fmul f32NaN y (stftWin w h n))

/-- R170 for H = W/2 at one window size: a hop is the second half of one segment and the first half of the next, and
their overlap-add reproduces it within 1e-6 (the first W - H samples are left out, log entry 22). -/
def FftFns.OverlapTrips (f : FftFns) (w : Nat) : Prop :=
  ∀ one two : List F32, one.length = w → two.length = w → (∀ v ∈ one, unitRange v) → (∀ v ∈ two, unitRange v) →
    (∀ n < w / 2, one.getD (w / 2 + n) f32Zero = two.getD n f32Zero) →
    invertible w (f.rfftOut w (windowedBy w (w / 2) one)) ∧ allFinite (f.segmentTrip w (w / 2) one) = true ∧
      ∀ n < w / 2, near (1 / 1000000)
        (overlapOne w (w / 2) n
          (overlapOne w (w / 2) (w / 2 + n) f32Zero ((f.segmentTrip w (w / 2) one).getD (w / 2 + n) f32Zero))
          ((f.segmentTrip w (w / 2) two).getD n f32Zero))
        (f32Rat (two.getD n f32Zero))

/-- `cadd(Y[k], cmul(Hf[k], X[k]))` for every bin (R222), for finite data. -/
def macBins (bins : Nat) (y hf x : List C32) : List C32 :=
  (List.range bins).map fun k =>
    cadd ⟨f32NaN, f32NaN⟩ (y.getD k c32Zero) (cmul ⟨f32NaN, f32NaN⟩ (hf.getD k c32Zero) (x.getD k c32Zero))

/-- The spectrum of one output channel from one partition of every input channel (R222). -/
def macRow (bins : Nat) (rows : List (List C32 × List C32)) : List C32 :=
  rows.foldl (fun y r => macBins bins y r.1 r.2) (List.replicate bins c32Zero)

/-- R224 for one output channel and one block of the source's configuration (L = 512, B = 2048, 32 inputs): with filters
`taps` and, for every input channel, the previous and the new block together in `blocks`, the block computed is within
`tol` of the direct convolution of R213. The spec gives no number and no input range for R224: `tol` is OPEN, and the range
[-1, 1] is the model's reading (log entry 22). -/
def FftFns.Convolves (f : FftFns) (tol : ℚ) : Prop :=
  ∀ taps blocks : List (List F32), taps.length = 32 → blocks.length = 32 →
    (∀ x ∈ taps, x.length = 512 ∧ ∀ v ∈ x, unitRange v) → (∀ x ∈ blocks, x.length = 4096 ∧ ∀ v ∈ x, unitRange v) →
    let y := macRow 2049
      ((taps.zip blocks).map fun p => (f.rfftOut 4096 (p.1 ++ zeros 3584), f.rfftOut 4096 p.2))
    invertible 4096 y ∧
      ∀ n < 2048, near tol ((f.irfftOut 4096 y).getD (2048 + n) f32Zero)
        (((taps.zip blocks).map fun p => ((List.range 512).map fun l =>
          f32Rat (p.1.getD l f32Zero) * f32Rat (p.2.getD (2048 + n - l) f32Zero)).sum).sum)

/-- FFT_NUM and FFT_REL_ERR (R6): any four functions with the properties the spec states, at every length. The tolerance
of R224 has no number in the spec, so it is OPEN too. How the properties are read is log entry 22. -/
structure FftNum extends FftFns where
  relErr     : Nat → ℚ
  convTol    : ℚ
  relErrSign : ∀ n, 0 ≤ relErr n
  accurate   : ∀ n, lengthOk n → toFftFns.Accurate (relErr n) n
  roundTrips : ∀ n, lengthOk n → toFftFns.RoundTrips n
  overlaps   : ∀ n, lengthOk n → toFftFns.OverlapTrips n
  convolves  : toFftFns.Convolves convTol

/-- A value of FftFns that meets every property, so that there is one: each transform only moves its input parts to
other places, and its inverse moves them back. No rule says that hardware computes this. -/
def FftFns.permuting : FftFns where
  rfft n x k := ⟨x.getD k f32Zero, if k = 0 ∨ k = n / 2 then f32Zero else x.getD (n - k) f32Zero⟩
  irfft n x j := if j ≤ n / 2 then (x.getD j c32Zero).re else (x.getD (n - j) c32Zero).im
  cfft _ x k := x.getD k c32Zero
  icfft _ x k := x.getD k c32Zero

/-- Functions with the types of the QMF parameters (R6): a state is a list of private words, read and written element by
element. -/
structure QmfFns where
  hopOk      : Nat → Bool
  nBands     : Nat → Bool → Nat
  delay      : Nat → Bool → Nat
  cf         : Nat → Bool → F32 → Nat → F32
  anaWords   : Nat → Bool → Nat
  synWords   : Nat → Bool → Nat
  stateWords : Nat → Bool → Nat → Nat → Nat
  initAna    : Nat → Bool → Nat → Word
  initSyn    : Nat → Bool → Nat → Word
  anaNext    : Nat → Bool → List Word → List F32 → Nat → Word
  anaBand    : Nat → Bool → List Word → List F32 → Nat → C32
  synNext    : Nat → Bool → List Word → List C32 → Nat → Word
  synSample  : Nat → Bool → List Word → List C32 → Nat → F32

/-- QMF_INIT's analysis state (R185). -/
def QmfFns.ana0 (q : QmfFns) (hop : Nat) (hyb : Bool) : List Word :=
  (List.range (q.anaWords hop hyb)).map (q.initAna hop hyb)

/-- QMF_INIT's synthesis state (R185). -/
def QmfFns.syn0 (q : QmfFns) (hop : Nat) (hyb : Bool) : List Word :=
  (List.range (q.synWords hop hyb)).map (q.initSyn hop hyb)

/-- QMF_ANA_HOP (R186). -/
def QmfFns.anaHop (q : QmfFns) (hop : Nat) (hyb : Bool) (st : List Word) (x : List F32) : List Word × List C32 :=
  ((List.range (q.anaWords hop hyb)).map (q.anaNext hop hyb st x),
   (List.range (q.nBands hop hyb)).map (q.anaBand hop hyb st x))

/-- QMF_SYN_HOP (R187). -/
def QmfFns.synHop (q : QmfFns) (hop : Nat) (hyb : Bool) (st : List Word) (x : List C32) : List Word × List F32 :=
  ((List.range (q.synWords hop hyb)).map (q.synNext hop hyb st x),
   (List.range hop).map (q.synSample hop hyb st x))

/-- The bands of a stream, hop by hop from an analysis state (R188). -/
def QmfFns.analyse (q : QmfFns) (hop : Nat) (hyb : Bool) : List Word → List (List F32) → List (List C32)
  | _, [] => []
  | st, x :: rest => (q.anaHop hop hyb st x).2 :: q.analyse hop hyb (q.anaHop hop hyb st x).1 rest

/-- The stream of bands, hop by hop from a synthesis state (R188). -/
def QmfFns.synthesise (q : QmfFns) (hop : Nat) (hyb : Bool) : List Word → List (List C32) → List F32
  | _, [] => []
  | st, x :: rest => (q.synHop hop hyb st x).2 ++ q.synthesise hop hyb (q.synHop hop hyb st x).1 rest

/-- R188 for one hop and mode: every stream of samples in [-1, 1] comes back within 0.01, delayed by the processing
delay, with zeros before its first sample. -/
def QmfFns.RoundTrips (q : QmfFns) (hop : Nat) (hyb : Bool) : Prop :=
  ∀ hops : List (List F32), (∀ x ∈ hops, x.length = hop ∧ ∀ v ∈ x, unitRange v) →
    let bands := q.analyse hop hyb (q.ana0 hop hyb) hops
    (∀ x ∈ bands, allFinite (flatten x) = true) ∧
      ∀ t < hops.flatten.length, near (1 / 100) ((q.synthesise hop hyb (q.syn0 hop hyb) bands).getD t f32Zero)
        (if t < q.delay hop hyb then 0 else f32Rat (hops.flatten.getD (t - q.delay hop hyb) f32Zero))

/-- The QMF parameters: any functions with the properties the spec states. That an accepted hop fits a 32-bit argument
is the model's reading (log entry 12). -/
structure QmfBank extends QmfFns where
  someHop    : ∃ hop, 1 ≤ hop ∧ hop < 2 ^ 32 ∧ hopOk hop = true
  noZeroHop  : hopOk 0 = false
  someBand   : ∀ hop hyb, hopOk hop = true → 1 ≤ nBands hop hyb
  moreBands  : ∀ hop, hopOk hop = true → nBands hop false < nBands hop true
  moreDelay  : ∀ hop, hopOk hop = true → delay hop false ≤ delay hop true
  wordsFit   : ∀ hop hyb nIn nOut, hopOk hop = true →
    nIn * anaWords hop hyb + nOut * synWords hop hyb ≤ stateWords hop hyb nIn nOut
  roundTrips : ∀ hop hyb, hopOk hop = true → toQmfFns.RoundTrips hop hyb

/-- A value of QmfFns that meets every property, so that there is one: every hop is accepted, a band is a sample, and
nothing is delayed or kept. No rule says that hardware computes this. -/
def QmfFns.passing : QmfFns where
  hopOk hop := hop != 0
  nBands hop hyb := hop + hyb.toNat
  delay _ _ := 0
  cf _ _ _ _ := f32Zero
  anaWords _ _ := 0
  synWords _ _ := 0
  stateWords _ _ _ _ := 0
  initAna _ _ _ := 0#32
  initSyn _ _ _ := 0#32
  anaNext _ _ _ _ _ := 0#32
  anaBand _ _ _ x k := ⟨x.getD k f32Zero, f32Zero⟩
  synNext _ _ _ _ _ := 0#32
  synSample _ _ _ x k := (x.getD k c32Zero).re

end Sys2Proof.Machine
end

