-- ==== Sys2Proof/Laws/Numerics.lean ====
section
/-! SUPPORT. There are transform cores and QMF filterbanks with every property the spec states: `FftFns.permuting` and
`QmfFns.passing` have them (spec/40_fft.md R122, spec/41_stft.md R170, spec/43_conv.md R224, spec/42_qmf.md R181 to
R188). -/

namespace Sys2Proof.Machine

theorem getD_map_range {α : Type} (n k : Nat) (f : Nat → α) (d : α) (hk : k < n) :
    ((List.range n).map f).getD k d = f k := by
  simp [List.getD_eq_getElem?_getD, hk]

theorem getD_mem_or {α : Type} (l : List α) (k : Nat) (d : α) : l.getD k d ∈ l ∨ l.getD k d = d := by
  rw [List.getD_eq_getElem?_getD]
  rcases lt_or_ge k l.length with h | h
  · left; rw [List.getElem?_eq_getElem h]; exact List.getElem_mem h
  · right; rw [List.getElem?_eq_none h]; rfl

/-! Zeros. -/

theorem signedZero_of_allZero {x : List F32} (h : allZero x = true) (k : Nat) :
    signedZero (x.getD k f32Zero) = x.getD k f32Zero := by
  rcases getD_mem_or x k f32Zero with hm | hm
  · have := List.all_eq_true.mp h _ hm
    simp only [Bool.or_eq_true, beq_iff_eq] at this
    rcases this with e | e <;> rw [e] <;> decide
  · rw [hm]; decide

theorem allZero_flatten {x : List C32} (h : allZero (flatten x) = true) :
    ∀ c ∈ x, signedZero c.re = c.re ∧ signedZero c.im = c.im := by
  induction x with
  | nil => simp
  | cons c x ih =>
    simp only [flatten, allZero, List.all_cons, Bool.and_eq_true, Bool.or_eq_true, beq_iff_eq] at h
    intro d hd
    rcases List.mem_cons.mp hd with rfl | hd
    · constructor
      · rcases h.1 with e | e <;> rw [e] <;> decide
      · rcases h.2.1 with e | e <;> rw [e] <;> decide
    · exact ih h.2.2 d hd

theorem signedZero_getD {x : List C32} (h : allZero (flatten x) = true) (k : Nat) :
    signedZero (x.getD k c32Zero).re = (x.getD k c32Zero).re ∧ signedZero (x.getD k c32Zero).im = (x.getD k c32Zero).im := by
  rcases getD_mem_or x k c32Zero with hm | hm
  · exact allZero_flatten h _ hm
  · rw [hm]; exact ⟨by decide, by decide⟩

/-! What the permuting transforms give. -/

theorem permuting_rfftOut (n : Nat) (x : List F32) :
    FftFns.permuting.rfftOut n x = (List.range (realBins n)).map (FftFns.permuting.rfft n x) := by
  unfold FftFns.rfftOut
  refine List.map_congr_left fun k _ => ?_
  split
  · rename_i h
    simp only [FftFns.permuting, c32SignedZero, signedZero_of_allZero h]
    congr 1
    split
    · decide
    · exact signedZero_of_allZero h _
  · rfl

theorem permuting_irfftOut (n : Nat) (x : List C32) :
    FftFns.permuting.irfftOut n x = (List.range n).map (FftFns.permuting.irfft n (realEnds n x)) := by
  unfold FftFns.irfftOut
  refine List.map_congr_left fun k _ => ?_
  split
  · rename_i h
    simp only [FftFns.permuting]
    split
    · exact (signedZero_getD h _).1
    · exact (signedZero_getD h _).2
  · rfl

theorem permuting_cfftOut (n : Nat) (x : List C32) (hx : x.length = n) : FftFns.permuting.cfftOut n x = x := by
  have e : FftFns.permuting.cfftOut n x = (List.range n).map fun k => x.getD k c32Zero := by
    unfold FftFns.cfftOut
    refine List.map_congr_left fun k _ => ?_
    split
    · rename_i h
      simp only [FftFns.permuting, c32SignedZero, signedZero_getD h]
    · rfl
  rw [e]
  subst hx
  apply List.ext_getElem <;> simp +contextual

theorem permuting_icfftOut (n : Nat) (x : List C32) (hx : x.length = n) : FftFns.permuting.icfftOut n x = x := by
  have e : FftFns.permuting.icfftOut n x = FftFns.permuting.cfftOut n x := rfl
  rw [e, permuting_cfftOut n x hx]

theorem getD_realEnds (n k : Nat) (x : List C32) :
    (realEnds n x).getD k c32Zero =
      if k = 0 ∨ k = n / 2 then ⟨(x.getD k c32Zero).re, f32Zero⟩ else x.getD k c32Zero := by
  simp only [realEnds, List.getD_eq_getElem?_getD, List.getElem?_mapIdx]
  cases x[k]? <;> simp [c32Zero]

theorem getD_permuting_irfftOut {n j : Nat} (x : List C32) (hj : j < n) (he : n % 2 = 0) :
    (FftFns.permuting.irfftOut n x).getD j f32Zero =
      if j ≤ n / 2 then (x.getD j c32Zero).re else (x.getD (n - j) c32Zero).im := by
  rw [permuting_irfftOut, getD_map_range _ _ _ _ hj]
  simp only [FftFns.permuting, getD_realEnds]
  split
  · split <;> rfl
  · rw [if_neg (by omega)]

/-- The permuting inverse gives the samples back exactly. -/
theorem permuting_round (n : Nat) (x : List F32) (hx : x.length = n) (he : n % 2 = 0) :
    FftFns.permuting.irfftOut n (FftFns.permuting.rfftOut n x) = x := by
  have hl : (FftFns.permuting.irfftOut n (FftFns.permuting.rfftOut n x)).length = x.length := by
    simp [FftFns.irfftOut, hx]
  apply List.ext_getElem hl
  intro j h1 h2
  have hj : j < n := by omega
  have e := getD_permuting_irfftOut (FftFns.permuting.rfftOut n x) hj he
  rw [permuting_rfftOut] at e
  have e2 : ((FftFns.permuting.irfftOut n (FftFns.permuting.rfftOut n x)).getD j f32Zero) = x.getD j f32Zero := by
    rw [permuting_rfftOut, e]
    split
    · rw [getD_map_range _ _ _ _ (by simp only [realBins]; omega)]; rfl
    · rw [getD_map_range _ _ _ _ (by simp only [realBins]; omega)]
      simp only [FftFns.permuting]
      rw [if_neg (by omega), Nat.sub_sub_self hj.le]
  rw [List.getD_eq_getElem _ _ h1, List.getD_eq_getElem _ _ h2] at e2
  exact e2

/-! Spectra of moderate values are in range. -/

theorem natAbs_le_of_rat {a : F32} {b : Nat} (h : |f32Rat a| ≤ 2 ^ b) : (f32Int a).natAbs ≤ 2 ^ (b + 149) := by
  have e : |f32Rat a| = ((f32Int a).natAbs : ℚ) / 2 ^ 149 := by
    rw [f32Rat, abs_div, abs_of_pos (show (0 : ℚ) < 2 ^ 149 by positivity), Nat.cast_natAbs, Int.cast_abs]
  rw [e, div_le_iff₀ (by positivity), ← pow_add] at h
  refine (Nat.cast_le (α := ℚ)).mp ?_
  rw [Nat.cast_pow, Nat.cast_ofNat]
  exact h

/-- Both parts are finite and at most 2^b in magnitude. -/
def partsBelow (b : Nat) (c : C32) : Prop :=
  (f32IsFinite c.re = true ∧ |f32Rat c.re| ≤ 2 ^ b) ∧ f32IsFinite c.im = true ∧ |f32Rat c.im| ≤ 2 ^ b

@[simp] theorem f32Rat_zero : f32Rat f32Zero = 0 := by
  have : f32Int f32Zero = 0 := by decide
  rw [f32Rat, this]; simp

theorem finite_zero : f32IsFinite f32Zero = true := by decide

theorem partsBelow_zero (b : Nat) : partsBelow b c32Zero := by
  simp only [partsBelow, c32Zero, f32Rat_zero, abs_zero]
  exact ⟨⟨finite_zero, by positivity⟩, finite_zero, by positivity⟩

theorem unitPairs_flatten (x : List C32) : unitPairs (flatten x) = x.map fun c => (f32Int c.re, f32Int c.im) := by
  induction x with
  | nil => rfl
  | cons c x ih => simp only [flatten, unitPairs, ih, List.map_cons]

theorem allFinite_flatten {x : List C32} (h : ∀ c ∈ x, c32IsFinite c = true) : allFinite (flatten x) = true := by
  induction x with
  | nil => rfl
  | cons c x ih =>
    have hc := h c (by simp)
    simp only [c32IsFinite, Bool.and_eq_true] at hc
    have := ih fun d hd => h d (by simp [hd])
    simp only [allFinite] at this
    simp [allFinite, flatten, hc.1, hc.2, this]

theorem sumSize_le {z : List UnitPair} {m : Nat} (h : ∀ p ∈ z, p.1.natAbs ≤ m ∧ p.2.natAbs ≤ m) :
    sumSize z ≤ z.length * (2 * m) := by
  unfold sumSize
  refine (List.sum_le_card_nsmul _ (2 * m) ?_).trans (by simp)
  intro v hv
  obtain ⟨p, hp, rfl⟩ := List.mem_map.mp hv
  have := h p hp
  omega

theorem below_rangeLimit {b : Nat} (hb : b ≤ 100) : 2 * 2 ^ (b + 149) ≤ f32MaxMag := by
  have h1 : 2 ^ (b + 149) ≤ 2 ^ 249 := Nat.pow_le_pow_right (by norm_num) (by omega)
  have h2 : 2 * 2 ^ 249 ≤ f32MaxMag := by decide
  omega

/-- A spectrum of finite parts of at most 2^100 has an ideal real inverse in range. -/
theorem invertible_of_below {n b : Nat} {x : List C32} (hb : b ≤ 100) (h : ∀ c ∈ x, partsBelow b c) : invertible n x := by
  unfold invertible transformDefined
  rw [Bool.and_eq_true]
  refine ⟨allFinite_flatten fun c hc => by simp [c32IsFinite, (h c hc).1.1, (h c hc).2.1], ?_⟩
  unfold idealInRange
  simp only [Bool.or_eq_true, decide_eq_true_eq]
  left
  have hz : ∀ k, ((unitPairs (flatten x)).getD k 0).1.natAbs ≤ 2 ^ (b + 149) ∧
      ((unitPairs (flatten x)).getD k 0).2.natAbs ≤ 2 ^ (b + 149) := by
    intro k
    rw [unitPairs_flatten]
    rcases getD_mem_or (x.map fun c => (f32Int c.re, f32Int c.im)) k 0 with hm | hm
    · obtain ⟨c, hc, e⟩ := List.mem_map.mp hm
      rw [← e]
      exact ⟨natAbs_le_of_rat (h c hc).1.2, natAbs_le_of_rat (h c hc).2.2⟩
    · rw [hm]; exact ⟨Nat.zero_le _, Nat.zero_le _⟩
  have hall : ∀ p ∈ idealInput .irfft n (flatten x), p.1.natAbs ≤ 2 ^ (b + 149) ∧ p.2.natAbs ≤ 2 ^ (b + 149) := by
    intro p hp
    obtain ⟨k, -, rfl⟩ := List.mem_map.mp hp
    split
    · exact ⟨(hz k).1, Nat.zero_le _⟩
    · split
      · exact hz k
      · exact ⟨(hz _).1, by rw [Int.natAbs_neg]; exact (hz _).2⟩
  refine (sumSize_le hall).trans ?_
  have : (idealInput .irfft n (flatten x)).length = n := by simp [idealInput, hermitian]
  rw [this]
  exact Nat.mul_le_mul_left n (below_rangeLimit hb)

theorem icfft_defined_of_below {n b : Nat} {x : List C32} (hn : x.length = n) (hb : b ≤ 100) (h : ∀ c ∈ x, partsBelow b c) :
    transformDefined .icfft n (flatten x) = true := by
  unfold transformDefined
  rw [Bool.and_eq_true]
  refine ⟨allFinite_flatten fun c hc => by simp [c32IsFinite, (h c hc).1.1, (h c hc).2.1], ?_⟩
  unfold idealInRange
  simp only [Bool.or_eq_true, decide_eq_true_eq]
  left
  have hall : ∀ p ∈ idealInput .icfft n (flatten x), p.1.natAbs ≤ 2 ^ (b + 149) ∧ p.2.natAbs ≤ 2 ^ (b + 149) := by
    intro p hp
    simp only [idealInput, unitPairs_flatten] at hp
    obtain ⟨c, hc, rfl⟩ := List.mem_map.mp hp
    exact ⟨natAbs_le_of_rat (h c hc).1.2, natAbs_le_of_rat (h c hc).2.2⟩
  refine (sumSize_le hall).trans ?_
  have : (idealInput .icfft n (flatten x)).length = n := by simp [idealInput, unitPairs_flatten, hn]
  rw [this]
  exact Nat.mul_le_mul_left n (below_rangeLimit hb)

/-- The permuting spectrum has the size of the samples. -/
theorem below_permuting_rfftOut {b n : Nat} {x : List F32} (h : ∀ v ∈ x, f32IsFinite v = true ∧ |f32Rat v| ≤ 2 ^ b) :
    ∀ c ∈ FftFns.permuting.rfftOut n x, partsBelow b c := by
  have hx : ∀ k, f32IsFinite (x.getD k f32Zero) = true ∧ |f32Rat (x.getD k f32Zero)| ≤ 2 ^ b := by
    intro k
    rcases getD_mem_or x k f32Zero with hm | hm
    · exact h _ hm
    · rw [hm, f32Rat_zero, abs_zero]; exact ⟨finite_zero, by positivity⟩
  rw [permuting_rfftOut]
  intro c hc
  obtain ⟨k, -, rfl⟩ := List.mem_map.mp hc
  refine ⟨hx k, ?_⟩
  simp only [FftFns.permuting]
  split
  · rw [f32Rat_zero, abs_zero]; exact ⟨finite_zero, by positivity⟩
  · exact hx _

/-! R122 (b). -/

theorem near_self {tol : ℚ} (ht : 0 ≤ tol) {a : F32} (h : f32IsFinite a = true) : near tol a (f32Rat a) :=
  ⟨h, by rw [sub_self, abs_zero]; exact ht⟩

theorem permuting_roundTrips (n : Nat) (hn : lengthOk n) : FftFns.permuting.RoundTrips n := by
  constructor
  · intro x hx hu
    refine ⟨invertible_of_below (b := 0) (by norm_num) (below_permuting_rfftOut fun v hv => by simpa [unitRange] using hu v hv), ?_⟩
    intro j hj
    rw [permuting_round n x hx hn.1]
    refine near_self (by norm_num) ?_
    rcases getD_mem_or x j f32Zero with hm | hm
    · exact (hu _ hm).1
    · rw [hm]; exact finite_zero
  · intro x hx hu
    rw [permuting_cfftOut n x hx, permuting_icfftOut n x hx]
    refine ⟨icfft_defined_of_below (b := 0) hx (by norm_num) fun c hc => by simpa [partsBelow, unitRange] using hu c hc, ?_⟩
    intro j _
    rcases getD_mem_or x j c32Zero with hm | hm
    · exact ⟨near_self (by norm_num) (hu _ hm).1.1, near_self (by norm_num) (hu _ hm).2.1⟩
    · rw [hm]; exact ⟨near_self (by norm_num) finite_zero, near_self (by norm_num) finite_zero⟩

/-! R170. -/

theorem getD_finite {x : List F32} {B : ℚ} (hB : 0 ≤ B) (h : ∀ v ∈ x, f32IsFinite v = true ∧ |f32Rat v| ≤ B) (k : Nat) :
    f32IsFinite (x.getD k f32Zero) = true ∧ |f32Rat (x.getD k f32Zero)| ≤ B := by
  rcases getD_mem_or x k f32Zero with hm | hm
  · exact h _ hm
  · rw [hm, f32Rat_zero, abs_zero]; exact ⟨finite_zero, hB⟩

/-- A product of moderate values: finite, and rounded once. -/
theorem fmul_near {a b : F32} (ha : f32IsFinite a = true) (hb : f32IsFinite b = true)
    (h : |f32Rat a * f32Rat b| ≤ 1.01) :
    f32IsFinite (fmul f32NaN a b) = true ∧ |f32Rat (fmul f32NaN a b) - f32Rat a * f32Rat b| ≤ 61 / 10 ^ 9 := by
  obtain ⟨h1, h2⟩ := fmul_spec f32NaN a b ha hb (lt_of_le_of_lt h (by norm_num))
  refine ⟨h1, h2.trans ?_⟩
  have : |f32Rat a * f32Rat b| / 2 ^ 24 ≤ 1.01 / 2 ^ 24 := div_le_div_of_nonneg_right h (by positivity)
  refine (add_le_add_left this _).trans (by norm_num)

/-- A sum of moderate values: finite, and rounded once. -/
theorem fadd_near {a b : F32} (ha : f32IsFinite a = true) (hb : f32IsFinite b = true)
    (h : |f32Rat a + f32Rat b| ≤ 1.01) :
    f32IsFinite (fadd f32NaN a b) = true ∧ |f32Rat (fadd f32NaN a b) - (f32Rat a + f32Rat b)| ≤ 61 / 10 ^ 9 := by
  obtain ⟨h1, h2⟩ := fadd_spec f32NaN a b ha hb (lt_of_le_of_lt h (by norm_num))
  refine ⟨h1, h2.trans ?_⟩
  have : |f32Rat a + f32Rat b| / 2 ^ 24 ≤ 1.01 / 2 ^ 24 := div_le_div_of_nonneg_right h (by positivity)
  refine (add_le_add_left this _).trans (by norm_num)

theorem abs_mul_le {a b A B : ℚ} (ha : |a| ≤ A) (hb : |b| ≤ B) : |a * b| ≤ A * B := by
  rw [abs_mul]
  exact mul_le_mul ha hb (abs_nonneg _) ((abs_nonneg a).trans ha)

theorem length_windowedBy (w h : Nat) (x : List F32) : (windowedBy w h x).length = w := by simp [windowedBy]

/-- A sample times a window entry, twice: what one segment contributes to an output sample. -/
theorem twice_windowed {x w : F32} (hx : f32IsFinite x = true) (hx1 : |f32Rat x| ≤ 1) (hw : f32IsFinite w = true)
    (hw1 : |f32Rat w| ≤ 1.001) :
    (f32IsFinite (fmul f32NaN x w) = true ∧ |f32Rat (fmul f32NaN x w)| ≤ 1.002) ∧
      f32IsFinite (fmul f32NaN (fmul f32NaN x w) w) = true ∧
        |f32Rat (fmul f32NaN (fmul f32NaN x w) w) - f32Rat x * f32Rat w ^ 2| ≤ 123 / 10 ^ 9 := by
  have hp := abs_mul_le hx1 hw1
  obtain ⟨f1, e1⟩ := fmul_near hx hw (hp.trans (by norm_num))
  set p := fmul f32NaN x w
  have hp1 : |f32Rat p| ≤ 1.002 := by
    have := abs_sub_abs_le_abs_sub (f32Rat p) (f32Rat x * f32Rat w)
    norm_num at *; linarith
  have hq := abs_mul_le hp1 hw1
  obtain ⟨f2, e2⟩ := fmul_near f1 hw (hq.trans (by norm_num))
  refine ⟨⟨f1, hp1⟩, f2, ?_⟩
  have e3 : |f32Rat p * f32Rat w - f32Rat x * f32Rat w ^ 2| ≤ 61 / 10 ^ 9 * 1.001 := by
    have : f32Rat p * f32Rat w - f32Rat x * f32Rat w ^ 2 = (f32Rat p - f32Rat x * f32Rat w) * f32Rat w := by ring
    rw [this]
    exact abs_mul_le e1 hw1
  have := abs_sub_le (f32Rat (fmul f32NaN p w)) (f32Rat p * f32Rat w) (f32Rat x * f32Rat w ^ 2)
  norm_num at *; linarith

theorem windowedBy_finite {w h : Nat} {x : List F32} (hx : ∀ v ∈ x, unitRange v)
    (hw : ∀ n < w, f32IsFinite (stftWin w h n) = true ∧ |f32Rat (stftWin w h n)| ≤ 1.001) :
    ∀ v ∈ windowedBy w h x, f32IsFinite v = true ∧ |f32Rat v| ≤ 1.002 := by
  intro v hv
  obtain ⟨n, hn, rfl⟩ := List.mem_map.mp hv
  have hn := List.mem_range.mp hn
  have hu := getD_finite (by norm_num) hx n
  exact (twice_windowed hu.1 hu.2 (hw n hn).1 (hw n hn).2).1

theorem permuting_segmentTrip {w : Nat} (h : Nat) (x : List F32) (hw : w % 2 = 0) :
    FftFns.permuting.segmentTrip w h x = windowedBy w h x :=
  permuting_round w _ (length_windowedBy w h x) hw

theorem allFinite_of {x : List F32} (h : ∀ v ∈ x, f32IsFinite v = true) : allFinite x = true :=
  List.all_eq_true.mpr h

theorem stftWin_self (w n : Nat) : stftWin w w n = f32One := by simp [stftWin]

theorem f32Rat_one : f32Rat f32One = 1 := by
  have : f32Int f32One = 2 ^ 149 := by decide
  rw [f32Rat, this]; norm_num

theorem permuting_overlaps (w : Nat) (hw : lengthOk w) : FftFns.permuting.OverlapTrips w := by
  obtain ⟨h, rfl⟩ : ∃ h, w = 2 * h := ⟨w / 2, by have := hw.1; omega⟩
  have e2 : 2 * h / 2 = h := by omega
  intro one two _ _ hu1 hu2 hsame
  rw [e2] at hsame ⊢
  have hwin : ∀ n < 2 * h, f32IsFinite (stftWin (2 * h) h n) = true ∧ |f32Rat (stftWin (2 * h) h n)| ≤ 1.001 :=
    fun n hn => ⟨(stftWin_spec h n hn).1, abs_window_le h n hn⟩
  have hf := windowedBy_finite hu1 hwin
  rw [permuting_segmentTrip h one hw.1, permuting_segmentTrip h two hw.1]
  refine ⟨invertible_of_below (b := 1) (by norm_num) (below_permuting_rfftOut fun v hv =>
    ⟨(hf v hv).1, (hf v hv).2.trans (by norm_num)⟩), allFinite_of fun v hv => (hf v hv).1, ?_⟩
  intro n hn
  have hv := getD_finite (by norm_num) hu2 n
  rw [windowedBy, windowedBy, getD_map_range _ _ _ _ (by omega), getD_map_range _ _ _ _ (by omega), hsame n hn]
  have ha := hwin (h + n) (by omega)
  have hb := hwin n (by omega)
  obtain ⟨-, f1, e1⟩ := twice_windowed hv.1 hv.2 ha.1 ha.2
  obtain ⟨-, f2, e2⟩ := twice_windowed hv.1 hv.2 hb.1 hb.2
  simp only [overlapOne]
  set q1 := fmul f32NaN (fmul f32NaN (two.getD n f32Zero) (stftWin (2 * h) h (h + n))) (stftWin (2 * h) h (h + n))
  set q2 := fmul f32NaN (fmul f32NaN (two.getD n f32Zero) (stftWin (2 * h) h n)) (stftWin (2 * h) h n)
  have hsq := window_squares h n hn
  set v := f32Rat (two.getD n f32Zero)
  set a := f32Rat (stftWin (2 * h) h (h + n))
  set b := f32Rat (stftWin (2 * h) h n)
  have hsum : |v * a ^ 2 + v * b ^ 2 - v| ≤ 25 / 10 ^ 8 := by
    have : v * a ^ 2 + v * b ^ 2 - v = v * (a ^ 2 + b ^ 2 - 1) := by ring
    rw [this]
    exact (abs_mul_le hv.2 hsq).trans (by norm_num)
  have ha2 : |v * a ^ 2| ≤ 1.003 := by
    refine (abs_mul_le hv.2 (B := 1.001 ^ 2) ?_).trans (by norm_num)
    rw [abs_pow]
    exact pow_le_pow_left₀ (abs_nonneg _) ha.2 2
  have hq : |f32Rat f32Zero + f32Rat q1| ≤ 1.01 := by
    have := abs_sub_abs_le_abs_sub (f32Rat q1) (v * a ^ 2)
    rw [f32Rat_zero, zero_add]
    norm_num at *; linarith
  obtain ⟨f3, e3⟩ := fadd_near finite_zero f1 hq
  rw [f32Rat_zero, zero_add] at e3
  set s1 := fadd f32NaN f32Zero q1
  have htot : |f32Rat s1 + f32Rat q2 - v| ≤ 56 / 10 ^ 8 := by
    rw [abs_le] at *
    norm_num at *
    constructor <;> linarith
  have hv1 := hv.2
  have hs : |f32Rat s1 + f32Rat q2| ≤ 1.01 := by
    have := abs_sub_abs_le_abs_sub (f32Rat s1 + f32Rat q2) v
    norm_num at *; linarith
  obtain ⟨f4, e4⟩ := fadd_near f3 f2 hs
  refine ⟨f4, ?_⟩
  have := abs_sub_le (f32Rat (fadd f32NaN s1 q2)) (f32Rat s1 + f32Rat q2) v
  norm_num at *; linarith

/-! R122 (a). -/

section Accuracy

open Finset

/-- The complex value of a sample. -/
noncomputable def complexOf (c : C32) : ℂ := ⟨(f32Rat c.re : ℝ), (f32Rat c.im : ℝ)⟩

theorem IsValue.eq {c : C32} {z : ℂ} (h : IsValue c z) : z = complexOf c := Complex.ext h.2.1 h.2.2

theorem isValue_complexOf {c : C32} (h : c32IsFinite c = true) : IsValue c (complexOf c) := ⟨h, rfl, rfl⟩

/-- An output no larger than the input's share of the ideal is close enough for the witness. -/
theorem closeTo_of_sums {eps : ℚ} {out : List C32} {y : Nat → ℂ} (hf : ∀ k < out.length, c32IsFinite (out.getD k c32Zero) = true)
    (h : 2 * ∑ k ∈ range out.length, Complex.normSq (complexOf (out.getD k c32Zero)) + 2 * ∑ k ∈ range out.length, Complex.normSq (y k)
      ≤ (eps : ℝ) ^ 2 * ∑ k ∈ range out.length, Complex.normSq (y k)) : CloseTo eps out y :=
  ⟨fun k => complexOf (out.getD k c32Zero), fun k hk => isValue_complexOf (hf k hk), (sum_normSq_sub_le _ _ _).trans h⟩

theorem normSq_sum_nonneg (n : Nat) (y : Nat → ℂ) : 0 ≤ ∑ k ∈ range n, Complex.normSq (y k) :=
  sum_nonneg fun _ _ => Complex.normSq_nonneg _

/-- A sum over n+... folded onto its first half. -/
theorem half_sum (m : Nat) (a : Nat → ℝ) (hm : 0 < m) :
    ∑ k ∈ range (m + 1), (a k + if k = 0 ∨ k = m then 0 else a (2 * m - k)) = ∑ j ∈ range (2 * m), a j := by
  obtain ⟨m, rfl⟩ : ∃ r, m = r + 1 := ⟨m - 1, by omega⟩
  have e : ∑ k ∈ range (m + 1 + 1), (if k = 0 ∨ k = m + 1 then 0 else a (2 * (m + 1) - k)) =
      ∑ k ∈ range m, a (m + 1 + 1 + k) := by
    rw [sum_range_succ, sum_range_succ', if_pos (Or.inr rfl), if_pos (Or.inl rfl), add_zero, add_zero,
      ← sum_range_reflect]
    refine sum_congr rfl fun k hk => ?_
    have := mem_range.mp hk
    rw [if_neg (by omega)]
    congr 1; omega
  rw [sum_add_distrib, e, show 2 * (m + 1) = m + 1 + 1 + m by omega, ← sum_range_add]

/-- Close enough for the witness: no larger than `n` times the ideal. -/
theorem closeTo_of_le {m n : Nat} (hn : 2 ≤ n) (out : List C32) (yv : Nat → ℂ)
    (hl : out.length = m) (hf : ∀ k < m, c32IsFinite (out.getD k c32Zero) = true)
    (hle : ∑ k ∈ range m, Complex.normSq (complexOf (out.getD k c32Zero)) ≤ n * ∑ k ∈ range m, Complex.normSq (yv k)) :
    CloseTo (n + 1 : ℚ) out yv := by
  subst hl
  refine closeTo_of_sums hf ?_
  have h0 := normSq_sum_nonneg out.length yv
  have h2 : (2 : ℝ) ≤ n := by exact_mod_cast hn
  push_cast
  set S := ∑ k ∈ range out.length, Complex.normSq (yv k)
  nlinarith [mul_nonneg h0 (by nlinarith : (0 : ℝ) ≤ ((n : ℝ) + 1) ^ 2 - 2 * n - 2)]

/-- The conjugate symmetry of the DFT of real samples (R130). -/
theorem IsDft.conj {n : Nat} {x y : Nat → ℂ} (h : IsDft n x y) (hx : ∀ j < n, (x j).im = 0) {k : Nat} (hk : 0 < k) (hkn : k < n) :
    Complex.normSq (y (n - k)) = Complex.normSq (y k) := by
  have hn : (n : ℂ) ≠ 0 := by exact_mod_cast (by omega : n ≠ 0)
  have e : y (n - k) = (starRingEnd ℂ) (y k) := by
    rw [h _ (by omega), h _ hkn, map_sum]
    refine sum_congr rfl fun j hj => ?_
    have hr : (starRingEnd ℂ) (x j) = x j := Complex.conj_eq_iff_im.mpr (hx j (mem_range.mp hj))
    rw [map_mul, hr, ← Complex.exp_conj]
    congr 1
    have e1 : (starRingEnd ℂ) (-(2 * (Real.pi : ℂ) * Complex.I * k * j / n)) = 2 * Real.pi * Complex.I * k * j / n := by
      rw [map_neg, map_div₀, map_mul, map_mul, map_mul, map_mul, Complex.conj_I, Complex.conj_ofReal]
      simp only [map_natCast, map_ofNat]
      ring
    rw [e1, Nat.cast_sub hkn.le]
    have e2 : -(2 * (Real.pi : ℂ) * Complex.I * ((n : ℂ) - k) * j / n) =
        2 * Real.pi * Complex.I * k * j / n + ((-(j : ℤ) : ℤ) : ℂ) * (2 * Real.pi * Complex.I) := by
      push_cast; field_simp; ring
    rw [e2, Complex.exp_add, Complex.exp_int_mul_two_pi_mul_I, mul_one]
  rw [e, Complex.normSq_conj]

theorem permuting_cfft_accurate {n : Nat} (hn : lengthOk n) (x : List C32) (xv yv : Nat → ℂ) (hx : x.length = n)
    (hv : ∀ j < n, IsValue (x.getD j c32Zero) (xv j)) (hd : IsDft n xv yv) :
    CloseTo (n + 1 : ℚ) (FftFns.permuting.cfftOut n x) yv := by
  rw [permuting_cfftOut n x hx]
  refine closeTo_of_le hn.2.1 x yv hx (fun k hk => (hv k hk).1) ?_
  have e : ∑ k ∈ range n, Complex.normSq (complexOf (x.getD k c32Zero)) = ∑ k ∈ range n, Complex.normSq (xv k) :=
    sum_congr rfl fun k hk => by rw [(hv k (mem_range.mp hk)).eq]
  have h2 : (1 : ℝ) ≤ (n : ℝ) * n := by exact_mod_cast Nat.mul_pos (by have := hn.2.1; omega) (by have := hn.2.1; omega)
  rw [e, hd.parseval]
  nlinarith [mul_nonneg (normSq_sum_nonneg n xv) (by linarith : (0 : ℝ) ≤ (n : ℝ) * n - 1)]

theorem permuting_icfft_accurate {n : Nat} (hn : lengthOk n) (x : List C32) (xv yv : Nat → ℂ) (hx : x.length = n)
    (hv : ∀ k < n, IsValue (x.getD k c32Zero) (xv k)) (hd : IsIdft n xv yv) :
    CloseTo (n + 1 : ℚ) (FftFns.permuting.icfftOut n x) yv := by
  rw [permuting_icfftOut n x hx]
  refine closeTo_of_le hn.2.1 x yv hx (fun k hk => (hv k hk).1) ?_
  rw [hd.parseval (by have := hn.2.1; omega)]
  exact (sum_congr rfl fun k hk => by rw [(hv k (mem_range.mp hk)).eq]).le

theorem normSq_complexOf (c : C32) : Complex.normSq (complexOf c) = (f32Rat c.re : ℝ) ^ 2 + (f32Rat c.im : ℝ) ^ 2 := by
  simp only [complexOf, Complex.normSq_mk]; ring

theorem getD_asComplex (x : List F32) (k : Nat) : (asComplex x).getD k c32Zero = ⟨x.getD k f32Zero, f32Zero⟩ := by
  simp only [asComplex, List.getD_eq_getElem?_getD, List.getElem?_map]
  cases x[k]? <;> rfl

theorem permuting_rfft_accurate {n : Nat} (hn : lengthOk n) (x : List F32) (xv yv : Nat → ℂ)
    (hv : ∀ j < n, IsValue ((asComplex x).getD j c32Zero) (xv j)) (hd : IsDft n xv yv) :
    CloseTo (n + 1 : ℚ) (FftFns.permuting.rfftOut n x) yv := by
  obtain ⟨m, rfl⟩ : ∃ m, n = 2 * m := ⟨n / 2, by have := hn.1; omega⟩
  have hm : 0 < m := by have := hn.2.1; omega
  have e2 : 2 * m / 2 = m := by omega
  have hx : ∀ j < 2 * m, f32IsFinite (x.getD j f32Zero) = true ∧ xv j = complexOf ⟨x.getD j f32Zero, f32Zero⟩ := by
    intro j hj
    have := hv j hj
    rw [getD_asComplex] at this
    have h1 := this.1
    simp only [c32IsFinite, Bool.and_eq_true] at h1
    exact ⟨h1.1, this.eq⟩
  have hout : ∀ k < m + 1, (FftFns.permuting.rfftOut (2 * m) x).getD k c32Zero =
      ⟨x.getD k f32Zero, if k = 0 ∨ k = m then f32Zero else x.getD (2 * m - k) f32Zero⟩ := by
    intro k hk
    rw [permuting_rfftOut, getD_map_range _ _ _ _ (by simp only [realBins, e2]; omega)]
    simp only [FftFns.permuting, e2]
  refine closeTo_of_le (m := m + 1) hn.2.1 _ yv (by simp [FftFns.rfftOut, realBins]) ?_ ?_
  · intro k hk
    rw [hout k hk]
    simp only [c32IsFinite, Bool.and_eq_true]
    refine ⟨(hx k (by omega)).1, ?_⟩
    split
    · exact finite_zero
    · exact (hx _ (by omega)).1
  · have hre : ∀ j < 2 * m, (xv j).im = 0 := by
      intro j hj
      rw [(hx j hj).2]
      simp [complexOf]
    have e1 : ∑ k ∈ range (m + 1), Complex.normSq (complexOf ((FftFns.permuting.rfftOut (2 * m) x).getD k c32Zero)) =
        ∑ j ∈ range (2 * m), Complex.normSq (xv j) := by
      rw [← half_sum m _ hm]
      refine sum_congr rfl fun k hk => ?_
      have hk := mem_range.mp hk
      rw [hout k hk, normSq_complexOf, (hx k (by omega)).2, normSq_complexOf]
      split
      · simp
      · rw [(hx (2 * m - k) (by omega)).2, normSq_complexOf]; simp
    have e3 : ∑ k ∈ range (2 * m), Complex.normSq (yv k) ≤ 2 * ∑ k ∈ range (m + 1), Complex.normSq (yv k) := by
      rw [← half_sum m _ hm, mul_sum]
      refine sum_le_sum fun k hk => ?_
      have hk := mem_range.mp hk
      have := Complex.normSq_nonneg (yv k)
      split
      · linarith
      · rw [hd.conj hre (by omega) (by omega)]; linarith
    have hp := hd.parseval
    rw [e1]
    have h2 : (2 : ℝ) ≤ ((2 * m : Nat) : ℝ) := by exact_mod_cast hn.2.1
    have hx0 := normSq_sum_nonneg (2 * m) xv
    have hy0 := normSq_sum_nonneg (m + 1) yv
    nlinarith [mul_nonneg hx0 (by linarith : (0 : ℝ) ≤ ((2 * m : Nat) : ℝ) - 2),
      mul_nonneg hy0 (by linarith : (0 : ℝ) ≤ ((2 * m : Nat) : ℝ) - 2)]

theorem permuting_irfft_accurate {n : Nat} (hn : lengthOk n) (x : List C32) (xv yv zv : Nat → ℂ)
    (hv : ∀ k < realBins n, IsValue (x.getD k c32Zero) (xv k)) (he : IsHermitianExtension n xv yv) (hd : IsIdft n yv zv) :
    CloseTo (n + 1 : ℚ) (asComplex (FftFns.permuting.irfftOut n x)) zv := by
  obtain ⟨m, rfl⟩ : ∃ m, n = 2 * m := ⟨n / 2, by have := hn.1; omega⟩
  have hm : 0 < m := by have := hn.2.1; omega
  have e2 : 2 * m / 2 = m := by omega
  simp only [realBins, e2] at hv
  have hfin : ∀ k < m + 1, f32IsFinite (x.getD k c32Zero).re = true ∧ f32IsFinite (x.getD k c32Zero).im = true := by
    intro k hk
    have := (hv k hk).1
    simpa only [c32IsFinite, Bool.and_eq_true] using this
  have hout : ∀ j < 2 * m, (asComplex (FftFns.permuting.irfftOut (2 * m) x)).getD j c32Zero =
      ⟨if j ≤ m then (x.getD j c32Zero).re else (x.getD (2 * m - j) c32Zero).im, f32Zero⟩ := by
    intro j hj
    rw [getD_asComplex, getD_permuting_irfftOut x hj (by omega), e2]
  refine closeTo_of_le (m := 2 * m) hn.2.1 _ zv (by simp [asComplex, FftFns.irfftOut]) ?_ ?_
  · intro j hj
    rw [hout j hj]
    simp only [c32IsFinite, finite_zero, Bool.and_true]
    split
    · exact (hfin j (by omega)).1
    · exact (hfin _ (by omega)).2
  · rw [hd.parseval (by omega), ← half_sum m _ hm]
    have hle : ∑ k ∈ range (m + 1), Complex.normSq (yv k) ≤ ∑ k ∈ range (2 * m), Complex.normSq (yv k) :=
      sum_le_sum_of_subset_of_nonneg (range_subset_range.mpr (by omega)) fun k _ _ => Complex.normSq_nonneg _
    refine (sum_le_sum fun k hk => ?_).trans hle
    have hk := mem_range.mp hk
    have hsq : ∀ z : ℂ, z.re ^ 2 ≤ Complex.normSq z := fun z => by
      rw [Complex.normSq_apply]; nlinarith [sq_nonneg z.im]
    rw [hout k (by omega), if_pos (by omega), normSq_complexOf]
    simp only [f32Rat_zero]
    have hxk := (hv k hk)
    have hy : (if k = 0 ∨ k = m then ((f32Rat (x.getD k c32Zero).re : ℝ)) ^ 2
        else (f32Rat (x.getD k c32Zero).re : ℝ) ^ 2 + (f32Rat (x.getD k c32Zero).im : ℝ) ^ 2) ≤ Complex.normSq (yv k) := by
      simp only [IsHermitianExtension, e2] at he
      split
      · rename_i h
        have : yv k = ((xv k).re : ℂ) := by rcases h with rfl | rfl; exacts [he.1.1, he.1.2]
        rw [this, hxk.2.1, Complex.normSq_ofReal]; exact (sq _).le
      · rw [(he.2 k (by omega) (by omega)).1, hxk.eq, normSq_complexOf]
    refine le_trans (le_of_eq ?_) hy
    split
    · simp
    · rw [hout (2 * m - k) (by omega), normSq_complexOf]
      simp only [f32Rat_zero]
      by_cases hkm : 2 * m - k ≤ m
      · exact absurd hkm (by omega)
      · rw [if_neg hkm, Nat.sub_sub_self (by omega)]; simp

theorem permuting_accurate (n : Nat) (hn : lengthOk n) : FftFns.permuting.Accurate (n + 1 : ℚ) n :=
  ⟨fun x xv yv _ hv hd _ => permuting_rfft_accurate hn x xv yv hv hd,
   fun x xv yv zv _ hv he hd _ => permuting_irfft_accurate hn x xv yv zv hv he hd,
   fun x xv yv hx hv hd _ => permuting_cfft_accurate hn x xv yv hx hv hd,
   fun x xv yv hx hv hd _ => permuting_icfft_accurate hn x xv yv hx hv hd⟩

end Accuracy

/-! R224. -/

/-- Finite and at most `b` in magnitude. -/
def sampleBelow (b : ℚ) (a : F32) : Prop := f32IsFinite a = true ∧ |f32Rat a| ≤ b

/-- The rounding of a number of at most 2^40 adds less than a part in 10^6 and 10^-6. -/
theorem rounded_below {r e b : ℚ} (hb : |e| ≤ b) (h : |r - e| ≤ |e| / 2 ^ 24 + 1 / 2 ^ 150) :
    |r| ≤ b + b / 2 ^ 24 + 1 / 2 ^ 150 := by
  have h1 := abs_sub_abs_le_abs_sub r e
  have h2 : |e| / 2 ^ 24 ≤ b / 2 ^ 24 := div_le_div_of_nonneg_right hb (by positivity)
  linarith

theorem below_fadd {a b : F32} {p q : ℚ} (ha : sampleBelow p a) (hb : sampleBelow q b) (hpq : p + q ≤ 2 ^ 40) (nan : F32) :
    sampleBelow (p + q + (p + q) / 2 ^ 24 + 1 / 2 ^ 150) (fadd nan a b) := by
  have h : |f32Rat a + f32Rat b| ≤ p + q := (abs_add_le _ _).trans (add_le_add ha.2 hb.2)
  have hs := fadd_spec nan a b ha.1 hb.1 (lt_of_le_of_lt (h.trans hpq) (by norm_num))
  exact ⟨hs.1, rounded_below h hs.2⟩

theorem below_fmul {a b : F32} {p q : ℚ} (ha : sampleBelow p a) (hb : sampleBelow q b) (hpq : p * q ≤ 2 ^ 40) (nan : F32) :
    sampleBelow (p * q + p * q / 2 ^ 24 + 1 / 2 ^ 150) (fmul nan a b) := by
  have h : |f32Rat a * f32Rat b| ≤ p * q := abs_mul_le ha.2 hb.2
  have hs := fmul_spec nan a b ha.1 hb.1 (lt_of_le_of_lt (h.trans hpq) (by norm_num))
  exact ⟨hs.1, rounded_below h hs.2⟩

theorem below_fsub {a b : F32} {p q : ℚ} (ha : sampleBelow p a) (hb : sampleBelow q b) (hpq : p + q ≤ 2 ^ 40) (nan : F32) :
    sampleBelow (p + q + (p + q) / 2 ^ 24 + 1 / 2 ^ 150) (fsub nan a b) := by
  have hn := f32Negate_spec b
  have hb' : f32IsNaN b = false := by
    have := hb.1
    simp_all [f32IsNaN, f32IsFinite]
  simp only [fsub, hb', Bool.false_eq_true, if_false]
  exact below_fadd ha ⟨hn.1.trans hb.1, hn.2.2.le.trans hb.2⟩ hpq nan

theorem sampleBelow.mono {a : F32} {p q : ℚ} (h : sampleBelow p a) (hpq : p ≤ q) : sampleBelow q a :=
  ⟨h.1, h.2.trans hpq⟩

/-- Both parts are finite and at most `b`. -/
def sampleBelow2 (b : ℚ) (c : C32) : Prop := sampleBelow b c.re ∧ sampleBelow b c.im

theorem below_cmul {a b : C32} (ha : sampleBelow2 1 a) (hb : sampleBelow2 1 b) (nan : C32) :
    sampleBelow2 3 (cmul nan a b) := by
  have m : ∀ {u v : F32} (n : F32), sampleBelow 1 u → sampleBelow 1 v → sampleBelow 1.1 (fmul n u v) := fun n hu hv =>
    (below_fmul hu hv (by norm_num) n).mono (by norm_num)
  exact ⟨(below_fsub (m _ ha.1 hb.1) (m _ ha.2 hb.2) (by norm_num) _).mono (by norm_num),
    (below_fadd (m _ ha.1 hb.2) (m _ ha.2 hb.1) (by norm_num) _).mono (by norm_num)⟩

theorem below_cadd {a b : C32} {p : ℚ} (ha : sampleBelow2 p a) (hb : sampleBelow2 3 b) (hp0 : 0 ≤ p) (hp : p ≤ 2 ^ 36) (nan : C32) :
    sampleBelow2 (2 * p + 4) (cadd nan a b) := by
  have h1 : p + 3 ≤ 2 ^ 40 := by linarith
  have h2 : p + 3 + (p + 3) / 2 ^ 24 + 1 / 2 ^ 150 ≤ 2 * p + 4 := by
    have : (p + 3) / 2 ^ 24 ≤ (p + 3) / 6 := div_le_div_of_nonneg_left (by linarith) (by norm_num) (by norm_num)
    have : (1 : ℚ) / 2 ^ 150 ≤ 1 / 10 := by norm_num
    linarith
  exact ⟨(below_fadd ha.1 hb.1 h1 _).mono h2, (below_fadd ha.2 hb.2 h1 _).mono h2⟩

theorem getD_below2 {x : List C32} {b : ℚ} (hb : 0 ≤ b) (h : ∀ c ∈ x, sampleBelow2 b c) (k : Nat) :
    sampleBelow2 b (x.getD k c32Zero) := by
  rcases getD_mem_or x k c32Zero with hm | hm
  · exact h _ hm
  · rw [hm]
    have : sampleBelow b f32Zero := ⟨finite_zero, by rw [f32Rat_zero, abs_zero]; exact hb⟩
    exact ⟨this, this⟩

theorem below_macBins {bins : Nat} {y hf x : List C32} {p : ℚ} (hy : ∀ c ∈ y, sampleBelow2 p c) (hh : ∀ c ∈ hf, sampleBelow2 1 c)
    (hx : ∀ c ∈ x, sampleBelow2 1 c) (hp0 : 0 ≤ p) (hp : p ≤ 2 ^ 36) : ∀ c ∈ macBins bins y hf x, sampleBelow2 (2 * p + 4) c := by
  intro c hc
  obtain ⟨k, -, rfl⟩ := List.mem_map.mp hc
  exact below_cadd (getD_below2 hp0 hy k)
    (below_cmul (getD_below2 (by norm_num) hh k) (getD_below2 (by norm_num) hx k) _) hp0 hp _

/-- After `m` products each part is at most 4 * (2^m - 1), as long as that is small. -/
theorem below_foldl {bins : Nat} (rows : List (List C32 × List C32)) (y : List C32) (m : Nat) (hm : m + rows.length ≤ 33)
    (h : ∀ r ∈ rows, (∀ c ∈ r.1, sampleBelow2 1 c) ∧ ∀ c ∈ r.2, sampleBelow2 1 c)
    (hy : ∀ c ∈ y, sampleBelow2 (4 * (2 ^ m - 1)) c) :
    ∀ c ∈ rows.foldl (fun y r => macBins bins y r.1 r.2) y, sampleBelow2 (2 ^ 36) c := by
  have hpow : ∀ k ≤ 33, (2 : ℚ) ^ k ≤ 2 ^ 33 := fun k hk => pow_le_pow_right₀ (by norm_num) hk
  induction rows generalizing y m with
  | nil =>
    intro c hc
    have := hy c hc
    have hk := hpow m (by simpa using hm)
    exact ⟨this.1.mono (by linarith), this.2.mono (by linarith)⟩
  | cons r rows ih =>
    rw [List.length_cons] at hm
    have hr := h r (by simp)
    have h1 : (1 : ℚ) ≤ 2 ^ m := one_le_pow₀ (by norm_num)
    have hk := hpow m (by omega)
    refine ih _ (m + 1) (by omega) (fun q hq => h q (by simp [hq])) fun c hc => ?_
    have := below_macBins hy hr.1 hr.2 (by linarith) (by linarith) c hc
    have e : 2 * (4 * ((2 : ℚ) ^ m - 1)) + 4 ≤ 4 * (2 ^ (m + 1) - 1) := by rw [pow_succ]; linarith
    exact ⟨this.1.mono e, this.2.mono e⟩

theorem below2_permuting_rfftOut {n : Nat} {x : List F32} (h : ∀ v ∈ x, unitRange v) :
    ∀ c ∈ FftFns.permuting.rfftOut n x, sampleBelow2 1 c := by
  intro c hc
  have := below_permuting_rfftOut (b := 0) (n := n) (x := x) (fun v hv => by simpa [unitRange] using h v hv) c hc
  simpa [partsBelow, sampleBelow2, sampleBelow] using this

theorem abs_sum_le_of {l : List ℚ} {b : ℚ} (h : ∀ v ∈ l, |v| ≤ b) : |l.sum| ≤ l.length * b := by
  induction l with
  | nil => simp
  | cons v l ih =>
    have h1 := h v (by simp)
    have h2 := ih fun w hw => h w (by simp [hw])
    rw [List.sum_cons, List.length_cons]
    have := abs_add_le v l.sum
    push_cast; linarith

theorem zeros_unit {n : Nat} : ∀ v ∈ zeros n, unitRange v := by
  intro v hv
  rw [List.eq_of_mem_replicate hv]
  exact ⟨finite_zero, by rw [f32Rat_zero, abs_zero]; norm_num⟩

/-- The permuting spectra of padded filters and of blocks. -/
theorem below_rows (n pad : Nat) {taps blocks : List (List F32)} (ht : ∀ x ∈ taps, ∀ v ∈ x, unitRange v)
    (hb : ∀ x ∈ blocks, ∀ v ∈ x, unitRange v) :
    ∀ r ∈ (taps.zip blocks).map fun p => (FftFns.permuting.rfftOut n (p.1 ++ zeros pad), FftFns.permuting.rfftOut n p.2),
      (∀ c ∈ r.1, sampleBelow2 1 c) ∧ ∀ c ∈ r.2, sampleBelow2 1 c := by
  intro r hr
  obtain ⟨p, hp, rfl⟩ := List.mem_map.mp hr
  have hp' := List.of_mem_zip hp
  refine ⟨below2_permuting_rfftOut fun v hv => ?_, below2_permuting_rfftOut (hb _ hp'.2)⟩
  rcases List.mem_append.mp hv with hv | hv
  · exact ht _ hp'.1 v hv
  · exact zeros_unit v hv

/-- The tolerance the permuting functions meet: no rule gives one. -/
theorem permuting_convolves : FftFns.permuting.Convolves (2 ^ 40) := by
  intro taps blocks ht hb hut hub
  have hrows := below_rows 4096 3584 (fun x hx => (hut x hx).2) fun x hx => (hub x hx).2
  have hy : ∀ c ∈ macRow 2049 ((taps.zip blocks).map fun p =>
      (FftFns.permuting.rfftOut 4096 (p.1 ++ zeros 3584), FftFns.permuting.rfftOut 4096 p.2)), sampleBelow2 (2 ^ 36) c := by
    refine below_foldl _ _ 0 (by simp [ht, hb]) hrows fun c hc => ?_
    rw [List.eq_of_mem_replicate hc]
    have : sampleBelow (4 * (2 ^ 0 - 1)) f32Zero := ⟨finite_zero, by rw [f32Rat_zero, abs_zero]; norm_num⟩
    exact ⟨this, this⟩
  generalize macRow 2049 _ = y at hy
  refine ⟨invertible_of_below (b := 36) (by norm_num) fun c hc => by
    have := hy c hc
    exact ⟨⟨this.1.1, this.1.2⟩, this.2.1, this.2.2⟩, ?_⟩
  intro n hn
  have hout : sampleBelow (2 ^ 36) ((FftFns.permuting.irfftOut 4096 y).getD (2048 + n) f32Zero) := by
    rw [getD_permuting_irfftOut _ (by omega) (by norm_num)]
    split
    · exact (getD_below2 (by norm_num) hy _).1
    · exact (getD_below2 (by norm_num) hy _).2
  refine ⟨hout.1, ?_⟩
  have hsum : |((taps.zip blocks).map fun p => ((List.range 512).map fun l =>
          f32Rat (p.1.getD l f32Zero) * f32Rat (p.2.getD (2048 + n - l) f32Zero)).sum).sum| ≤ 32 * 512 := by
    refine (abs_sum_le_of (b := 512) fun v hv => ?_).trans (by simp [ht, hb])
    obtain ⟨p, hp, rfl⟩ := List.mem_map.mp hv
    have hp' := List.of_mem_zip hp
    refine (abs_sum_le_of (b := 1) fun v hv => ?_).trans (by simp)
    obtain ⟨l, -, rfl⟩ := List.mem_map.mp hv
    have h1 := getD_finite (by norm_num) (hut _ hp'.1).2 l
    have h2 := getD_finite (by norm_num) (hub _ hp'.2).2 (2048 + n - l)
    exact (abs_mul_le h1.2 h2.2).trans (by norm_num)
  have := abs_sub (f32Rat ((FftFns.permuting.irfftOut 4096 y).getD (2048 + n) f32Zero)) (((taps.zip blocks).map fun p => ((List.range 512).map fun l =>
          f32Rat (p.1.getD l f32Zero) * f32Rat (p.2.getD (2048 + n - l) f32Zero)).sum).sum)
  refine this.trans ?_
  have h3 := hout.2
  norm_num at *
  linarith

/-! The filterbank. -/

/-- The bands of one hop under `passing`. -/
theorem passing_bands (hop : Nat) (hyb : Bool) (st : List Word) (x : List F32) :
    (QmfFns.passing.anaHop hop hyb st x).2 = (List.range (hop + hyb.toNat)).map fun k => ⟨x.getD k f32Zero, f32Zero⟩ := rfl

theorem passing_hop (hop : Nat) (hyb : Bool) (sa ss : List Word) (x : List F32) (hx : x.length = hop) :
    (QmfFns.passing.synHop hop hyb ss (QmfFns.passing.anaHop hop hyb sa x).2).2 = x := by
  rw [passing_bands]
  show (List.range hop).map (fun k => (List.getD _ k c32Zero).re) = x
  subst hx
  apply List.ext_getElem
  · simp
  · intro k h1 h2
    rw [List.getElem_map, List.getElem_range, getD_map_range _ _ _ _ (by omega), List.getD_eq_getElem _ _ h2]

theorem passing_stream (hop : Nat) (hyb : Bool) (hops : List (List F32)) (h : ∀ x ∈ hops, x.length = hop) :
    ∀ sa ss, QmfFns.passing.synthesise hop hyb ss (QmfFns.passing.analyse hop hyb sa hops) = hops.flatten := by
  induction hops with
  | nil => intro _ _; rfl
  | cons x rest ih =>
    intro sa ss
    have := ih (fun y hy => h y (by simp [hy]))
    simp only [QmfFns.analyse, QmfFns.synthesise, List.flatten_cons, this, passing_hop hop hyb sa ss x (h x (by simp))]

theorem passing_finite (hop : Nat) (hyb : Bool) (hops : List (List F32)) (h : ∀ x ∈ hops, ∀ v ∈ x, unitRange v) :
    ∀ sa, ∀ b ∈ QmfFns.passing.analyse hop hyb sa hops, allFinite (flatten b) = true := by
  induction hops with
  | nil => intro _ b hb; cases hb
  | cons x rest ih =>
    intro sa b hb
    rcases List.mem_cons.mp hb with rfl | hb
    · refine allFinite_flatten fun c hc => ?_
      rw [passing_bands] at hc
      obtain ⟨k, -, rfl⟩ := List.mem_map.mp hc
      simp only [c32IsFinite, finite_zero, Bool.and_true]
      exact (getD_finite (by norm_num) (h x (by simp)) k).1
    · exact ih (fun y hy => h y (by simp [hy])) _ b hb

theorem passing_roundTrips (hop : Nat) (hyb : Bool) : QmfFns.passing.RoundTrips hop hyb := by
  intro hops hh
  refine ⟨passing_finite hop hyb hops (fun x hx => (hh x hx).2) _, fun t _ => ?_⟩
  rw [passing_stream hop hyb hops (fun x hx => (hh x hx).1)]
  have hd : QmfFns.passing.delay hop hyb = 0 := rfl
  simp only [hd, Nat.not_lt_zero, if_false, Nat.sub_zero]
  refine near_self (by norm_num) (getD_finite (B := 1) (by norm_num) (fun v hv => ?_) t).1
  obtain ⟨x, hx, hv⟩ := List.mem_flatten.mp hv
  exact (hh x hx).2 v hv

theorem passing_someBand (hop : Nat) (hyb : Bool) (h : QmfFns.passing.hopOk hop = true) :
    1 ≤ QmfFns.passing.nBands hop hyb := by
  have : hop ≠ 0 := by simpa [QmfFns.passing] using h
  show 1 ≤ hop + hyb.toNat
  omega

theorem passing_moreBands (hop : Nat) (_ : QmfFns.passing.hopOk hop = true) :
    QmfFns.passing.nBands hop false < QmfFns.passing.nBands hop true := Nat.lt_succ_self hop

theorem passing_moreDelay (hop : Nat) (_ : QmfFns.passing.hopOk hop = true) :
    QmfFns.passing.delay hop false ≤ QmfFns.passing.delay hop true := le_rfl

theorem passing_wordsFit (hop : Nat) (hyb : Bool) (nIn nOut : Nat) (_ : QmfFns.passing.hopOk hop = true) :
    nIn * QmfFns.passing.anaWords hop hyb + nOut * QmfFns.passing.synWords hop hyb ≤
      QmfFns.passing.stateWords hop hyb nIn nOut := by
  simp [QmfFns.passing]

end Sys2Proof.Machine
end

