-- ==== Sys2Proof/Config.lean ====
section
/-! DEFINITION. The implementation parameters of spec/00_scope.md R6 and the free values of
spec/93_implementation_defined.md. The parameters with a default are a value that State carries (log entry 1). The OPEN
parameters and the free values are opaque constants: nothing can be proved of the values they take beyond the
properties the spec states. -/

namespace Sys2Proof

/-- The places at which a command or a reset draws free values (R17 outcome 4). -/
inductive DrawStep where
  /-- LATCH.cmd while BUSY = 0 (R36, U13) -/
  | latchCmd
  /-- LATCH.arg while BUSY = 0 (R36, U13) -/
  | latchArg
  /-- a byte of the write footprint of an aborted command (R291, U11) -/
  | abortedByte
  /-- STFT analysis buffers after a channel change (R166, U1) -/
  | changedInbuf
  /-- STFT overlap-add accumulators after a channel change (R166, U1) -/
  | changedAcc
  /-- the transform of an FFT command (R123, U2) -/
  | fftCommand
  /-- the analysis window product of one slot and channel (R162, U2) -/
  | analysisWindow
  /-- the transform of one STFT slot and channel (R162, U2) -/
  | stftRfft
  /-- the inverse transform of one STFT slot and channel (R164, U2) -/
  | stftIrfft
  /-- the overlap-add of one STFT slot and channel (R164, U2) -/
  | overlapAdd
  /-- the analysis state written for one QMF slot and channel (R191, U2) -/
  | qmfAnaState
  /-- the bands of one QMF slot and channel (R191, U2) -/
  | qmfBands
  /-- the synthesis state written for one QMF slot and channel (R195, U2) -/
  | qmfSynState
  /-- the output samples of one QMF slot and channel (R195, U2) -/
  | qmfSamples
  /-- the spectrum of one filter partition (R220, U2) -/
  | convPartition
  /-- the spectrum of one input block (R222, U2) -/
  | convInput
  /-- one complex multiply-accumulate step (R222, U2, U3) -/
  | convMac
  /-- the inverse transform of one output channel (R222, U2) -/
  | convInverse
  /-- RESULT0 for a query whose value needs more than 32 bits (R27; log entry 18) -/
  | queryResult
  deriving DecidableEq, Repr

/-- One place of one command at which free values are drawn. `slot` is the time slot or the filter partition, `chan`
the (input) channel, `out` the output channel, and `idx` the element, with 2k the real and 2k+1 the imaginary part
of complex element k. -/
structure DrawSite where
  step : DrawStep
  slot : Nat
  chan : Nat
  out  : Nat
  idx  : Nat
  deriving DecidableEq, Repr

/-- A set of transform lengths. -/
inductive LengthSet where
  /-- every even number whose prime factors are 2, 3 and 5 -/
  | fiveSmooth
  /-- the even members of a list -/
  | listed (lengths : List Nat)
  deriving DecidableEq, Repr

/-- The parameters of R6 that have a default, but for NUM_HANDLES, which is the length of the handle table. -/
structure Params where
  /-- FFT_SUPPORTED, of which the lengths 2 to FFT_NMAX count -/
  lengths     : LengthSet
  /-- FFT_NMAX -/
  fftNmax     : Nat
  /-- MAX_CHANNELS -/
  maxChannels : Nat
  /-- DMEM_BYTES -/
  dmemBytes   : Nat
  /-- PRIV_WORDS -/
  privWords   : Nat
  deriving DecidableEq, Repr

namespace Config

/-- ID reads this constant: "SAF" and revision 7 (R22). -/
def idValue : Word := 0x53414607#32

/-- Every parameter at its default (R6, D13, D41, D3, D32). -/
def defaultParams : Params where
  lengths     := .fiveSmooth
  fftNmax     := 65536
  maxChannels := 256
  dmemBytes   := 2 ^ 32
  privWords   := 2 ^ 23

/-- NUM_HANDLES at its default (R6, D31). -/
def defaultHandles : Nat := 16

/-- The word drawn at one place in one epoch (U1, U2, U3, U13): free. -/
opaque freeWord (epoch : Nat) (site : DrawSite) : BitVec 32

/-- What data memory holds at an address nothing has written since the hardware reset of that epoch (U12): free. -/
opaque freeByte (epoch addr : Nat) : BitVec 8

/-- T_CMD of the command accepted in that epoch, counted in host accesses that go before its engine step
(R305, U15): OPEN, and finite because it is a number. -/
opaque tCmd (epoch : Nat) : Nat

/-- A transform core with the properties of `Machine.FftNum`, where one is given: OPEN. -/
opaque someFft : Option Machine.FftNum

/-- A transform core that has every property, so that there is one to fall back on. -/
def permutingFft : Machine.FftNum where
  toFftFns   := .permuting
  relErr n   := n + 1
  convTol    := 2 ^ 40
  relErrSign n := by positivity
  accurate   := Machine.permuting_accurate
  roundTrips := Machine.permuting_roundTrips
  overlaps   := Machine.permuting_overlaps
  convolves  := Machine.permuting_convolves

/-- FFT_NUM and FFT_REL_ERR (R6, R121, R122): any transform core with the properties the spec states, since `someFft`
may be any (log entry 22). -/
def fft : Machine.FftNum := someFft.getD permutingFft

/-- A filterbank with the properties of `Machine.QmfBank`, where one is given: OPEN. -/
opaque someQmf : Option Machine.QmfBank

/-- A filterbank that has every property, so that there is one to fall back on. -/
def passingQmf : Machine.QmfBank where
  toQmfFns   := .passing
  someHop    := ⟨1, by norm_num, by norm_num, rfl⟩
  noZeroHop  := rfl
  someBand   := Machine.passing_someBand
  moreBands  := Machine.passing_moreBands
  moreDelay  := Machine.passing_moreDelay
  wordsFit   := Machine.passing_wordsFit
  roundTrips hop hyb _ := Machine.passing_roundTrips hop hyb

/-- The QMF parameters (R6, R181 to R188): any filterbank with the properties the spec states, since `someQmf` may be any
(log entry 12). -/
def qmf : Machine.QmfBank := someQmf.getD passingQmf

/-- REG_BASE, where the platform maps the register space (R60): OPEN, used by no rule. -/
opaque regBase : Nat

/-- DMEM_BASE, where the platform maps data memory (R71): OPEN, used by no rule. -/
opaque dmemBase : Nat

end Config

end Sys2Proof
end

