-- ==== Sys2Proof/Machine/State.lean ====
section
/-! DEFINITION. The state of the engine and its host (spec/10_state.md), the reasons a step can stop, and the state
after hardware reset (spec/70_reset_and_hazards.md R290). -/

namespace Sys2Proof.Machine

/-- Why a step of the machine stops with a fault. -/
inductive Fault where
  /-- The host reads or writes a byte of the read or write footprint of a command whose end it has not observed
  (R300, F1). Raised by `hostStep`. Safe: the spec gives the access no value. -/
  | footprintRace
  /-- The host accesses a data-memory byte at or above DMEM_BYTES, which does not exist (R71). Raised by `hostStep`.
  Safe: the spec gives such an access no value. -/
  | dmemAddressOutside
  deriving DecidableEq, Repr

/-- Why the model has no meaning for a step. -/
inductive Refusal where
  /-- A command the model does not give a meaning yet. Raised by no arm of `exec`. Safe. -/
  | notModelled (mnemonic : String)
  /-- A register access that is not 32 bits wide or not 4-byte aligned (R34, F2). Raised by `hostStep`. Safe: the spec
  says a model refuses it. -/
  | registerAccessNotAlignedWord
  /-- A register access outside the 256-byte register space (R60). Raised by `hostStep`. Safe: the spec gives it no
  effect. -/
  | registerOffsetOutside
  deriving DecidableEq, Repr

/-- The error codes of R260. ERRCODE never holds any other value. -/
inductive ErrCode where
  | noError
  | illegalCmd
  | badHandle
  | handleInUse
  | wrongHandle
  | badParam
  | unsupportedLength
  | blockSize
  | dimension
  | misaligned
  | outOfRange
  | overlap
  | noResources
  deriving DecidableEq, Repr

/-- CTRL (R23). SRST is a trigger and holds nothing; reserved bits hold nothing. -/
structure Ctrl where
  ieDone : Bool
  ieErr  : Bool
  deriving DecidableEq, Repr

/-- STATUS (R24). Reserved bits hold nothing. -/
structure Status where
  busy    : Bool
  done    : Bool
  err     : Bool
  ign     : Bool
  errCode : ErrCode
  deriving DecidableEq, Repr

/-- Eight argument words: ARG0 to ARG7 (R33), or their latched copies (R36). -/
abbrev ArgFile := Vector Word 8

/-- LATCH (R36): the command word and the arguments of the command in progress. -/
structure Latch where
  cmd : Word
  arg : ArgFile
  deriving DecidableEq, Repr

/-- Configuration of an STFT handle (R43). -/
structure StftCfg where
  /-- W, the window size and transform length -/
  win  : Nat
  /-- H, the hop size -/
  hop  : Nat
  nIn  : Nat
  nOut : Nat
  deriving DecidableEq, Repr

/-- State of an STFT handle (R43). -/
structure StftState where
  /-- `inbuf[c]`: W samples, the oldest first -/
  inbuf : List (List F32)
  /-- `acc[c]`: W samples, the next output sample first -/
  acc   : List (List F32)
  deriving DecidableEq, Repr

/-- Configuration of a QMF handle (R44). -/
structure QmfCfg where
  /-- H, the hop size -/
  hop  : Nat
  /-- the hybrid-mode flag -/
  hyb  : Bool
  nIn  : Nat
  nOut : Nat
  deriving DecidableEq, Repr

/-- State of a QMF handle (R44), each channel's state as its private words (R185). -/
structure QmfState where
  ana : List (List Word)
  syn : List (List Word)
  deriving DecidableEq, Repr

/-- Configuration of a CONV handle (R45). -/
structure ConvCfg where
  /-- B, the block size -/
  block : Nat
  /-- L, the filter length -/
  len   : Nat
  nIn   : Nat
  nOut  : Nat
  deriving DecidableEq, Repr

/-- State of a CONV handle (R45). -/
structure ConvState where
  /-- `Hf[o][i][p]`: B+1 bins -/
  hf   : List (List (List (List C32)))
  /-- `prev[i]`: the B samples of the previous input block -/
  prev : List (List F32)
  /-- `hist[i][s]`: B+1 bins -/
  hist : List (List (List C32))
  /-- the history index, in [0, P) -/
  pos  : Nat
  deriving DecidableEq, Repr

/-- One slot of the handle table (R40). -/
inductive Handle where
  | free
  | rfft (n : Nat)
  | cfft (n : Nat)
  | stft (cfg : StftCfg) (st : StftState)
  | qmf  (cfg : QmfCfg) (st : QmfState)
  | conv (cfg : ConvCfg) (st : ConvState)
  deriving DecidableEq, Repr

/-- The half-open byte range `[base, base + size)` (R65). -/
structure ByteRange where
  base : Nat
  size : Nat
  deriving DecidableEq, Repr

/-- The read and the write footprint of a command (R65). -/
structure Footprint where
  rf : Option ByteRange
  wf : Option ByteRange
  deriving DecidableEq, Repr

/-- One access of the host (R309), or the platform's reset input (R290). Widths are in bytes. -/
inductive HostAccess where
  | readReg  (offset width : Nat)
  | writeReg (offset width : Nat) (value : Word)
  | readMem  (addr width : Nat)
  | writeMem (addr width value : Nat)
  | hwReset
  deriving DecidableEq, Repr

/-- The engine, its data memory and its host. -/
structure State where
  /-- the parameters of this engine (R6, log entry 1): no step changes them -/
  params    : Params
  ctrl      : Ctrl
  status    : Status
  /-- ERR_CMD (R26) -/
  errCmd    : Word
  /-- RESULT0 (R27) -/
  result0   : Word
  /-- ARG0 to ARG7 (R33) -/
  args      : ArgFile
  latch     : Latch
  /-- HT (R40): NUM_HANDLES slots, a number no step changes (R6, log entry 1) -/
  handles   : List Handle
  /-- the bytes of DMEM written since the last hardware reset, addresses strictly rising (R60) -/
  mem       : List Host.Cell
  /-- the model's own: the epoch whose `Config.freeByte` an unlisted byte of DMEM holds (U12) -/
  memEpoch  : Nat
  /-- the footprint of the latest accepted command, while the host has not observed its end (R300) -/
  last      : Option Footprint
  /-- the footprints of the accepted commands before it whose ends the host has not observed (R74, R300) -/
  older     : List Footprint
  /-- the host accesses still to come, the next one first -/
  host      : List HostAccess
  /-- what the host's most recent read returned -/
  hostValue : Nat
  /-- the model's own: host accesses that may still go before the engine step (T_CMD, R305) -/
  delay     : Nat
  /-- the model's own: the epoch of the next free values -/
  draws     : Nat
  deriving DecidableEq, Repr

/-- The state after hardware reset (R290, R48) of an engine with the default parameters, with nothing in data memory
written and no host access pending. -/
def State.reset : State where
  params    := Config.defaultParams
  ctrl      := ⟨false, false⟩
  status    := ⟨false, false, false, false, .noError⟩
  errCmd    := 0#32
  result0   := 0#32
  args      := Vector.replicate 8 0#32
  latch     := ⟨Config.freeWord 0 ⟨.latchCmd, 0, 0, 0, 0⟩,
    Vector.ofFn fun k : Fin 8 => Config.freeWord 0 ⟨.latchArg, 0, 0, 0, k⟩⟩
  handles   := List.replicate Config.defaultHandles .free
  mem       := []
  memEpoch  := 0
  last      := none
  older     := []
  host      := []
  hostValue := 0
  delay     := 0
  draws     := 1

end Sys2Proof.Machine
end

