-- ==== Sys2Proof/Machine/Memory.lean ====
section
/-! DEFINITION. Data memory as a list of written bytes and the memory primitives of spec/00_scope.md R11, little-endian
(spec/20_memory.md R61), with the samples and complex samples of R62. -/

namespace Sys2Proof.Machine

/-- The byte written at an address, if any. -/
def memLookup : List Host.Cell → Nat → Option Byte
  | [], _ => none
  | (key, b) :: rest, a => if key = a then some b else memLookup rest a

/-- Writing one byte, the list kept in rising order of addresses. -/
def memStore : List Host.Cell → Nat → Byte → List Host.Cell
  | [], a, v => [(a, v)]
  | (key, b) :: rest, a, v =>
    if a < key then (a, v) :: (key, b) :: rest
    else if a = key then (a, v) :: rest
    else (key, b) :: memStore rest a v

/-- Every address of the list is at or above `low`, below `size`, and below every later one. -/
def memWfFrom (size : Nat) : Nat → List Host.Cell → Bool
  | _, [] => true
  | low, (key, _) :: rest => low ≤ key && key < size && memWfFrom size (key + 1) rest

/-- The canonical form of a data memory of `size` bytes: addresses strictly rising and below `size`. An unlisted address
has no value of its own to list (log entry 3). -/
def Memory.wf (size : Nat) (m : List Host.Cell) : Bool := memWfFrom size 0 m

/-- Writing bytes at rising addresses from `a`. -/
def memStoreBytes : List Host.Cell → Nat → List Byte → List Host.Cell
  | m, _, [] => m
  | m, a, b :: bs => memStoreBytes (memStore m a b) (a + 1) bs

/-- Byte `j` of a value (R61). -/
def byteOf (v j : Nat) : Byte := BitVec.ofNat 8 (v / 2 ^ (8 * j))

/-- The low `n` bytes of a value, least significant first (R61). -/
def bytesOf (v n : Nat) : List Byte := (List.range n).map (byteOf v)

/-- `Σ byte[j] * 2^(8j)` (R61). -/
def valueOf : List Byte → Nat
  | [] => 0
  | b :: bs => b.toNat + 256 * valueOf bs

/-- Writing words at rising addresses from `a`, each little-endian. -/
def memStoreWords : List Host.Cell → Nat → List Word → List Host.Cell
  | m, _, [] => m
  | m, a, w :: ws => memStoreWords (memStoreBytes m a (bytesOf w.toNat 4)) (a + 4) ws

/-- One byte of data memory: the byte written, or the free byte of the epoch where nothing has been written (U12). -/
def State.readByte (s : State) (a : Nat) : Byte :=
  match memLookup s.mem a with
  | some b => b
  | none => Config.freeByte s.memEpoch a

/-- `MemRead(addr, n)` (R11, R61). -/
def State.memRead (s : State) (a n : Nat) : Nat :=
  valueOf ((List.range n).map fun j => s.readByte (a + j))

/-- `MemWrite(addr, n, v)` (R11, R61). -/
def State.memWrite (s : State) (a n v : Nat) : State :=
  { s with mem := memStoreBytes s.mem a (bytesOf v n) }

/-- `LoadF32(a)` (R11). -/
def State.loadF32 (s : State) (a : Nat) : F32 := BitVec.ofNat 32 (s.memRead a 4)

/-- `LoadC(a)` (R11). -/
def State.loadC (s : State) (a : Nat) : C32 := ⟨s.loadF32 a, s.loadF32 (a + 4)⟩

/-- `LoadF32(base + 4n)` for n = 0 .. count-1. -/
def State.loadF32s (s : State) (base count : Nat) : List F32 :=
  (List.range count).map fun n => s.loadF32 (base + 4 * n)

/-- `LoadC(base + 8k)` for k = 0 .. count-1. -/
def State.loadCs (s : State) (base count : Nat) : List C32 :=
  (List.range count).map fun k => s.loadC (base + 8 * k)

/-- `StoreF32(base + 4n, x[n])` for every element of `x`. -/
def State.storeF32s (s : State) (base : Nat) (x : List F32) : State :=
  { s with mem := memStoreWords s.mem base x }

/-- `StoreC(base + 8k, x[k])` for every element of `x`. -/
def State.storeCs (s : State) (base : Nat) (x : List C32) : State :=
  { s with mem := memStoreWords s.mem base (flatten x) }

end Sys2Proof.Machine
end

