-- ==== Sys2Proof/Machine/Flags.lean ====
section
/-! DEFINITION. The flags: STATUS and CTRL as words, their write rules, and the interrupt output
(spec/10_state.md R23, R24, R35; spec/44_system.md R245, R246; spec/60_exceptions.md R260, R270). -/

namespace Sys2Proof.Machine

/-- The number of an error code (R260). -/
def ErrCode.toNat : ErrCode → Nat
  | .noError => 0x00
  | .illegalCmd => 0x01
  | .badHandle => 0x02
  | .handleInUse => 0x03
  | .wrongHandle => 0x04
  | .badParam => 0x05
  | .unsupportedLength => 0x06
  | .blockSize => 0x07
  | .dimension => 0x08
  | .misaligned => 0x09
  | .outOfRange => 0x0A
  | .overlap => 0x0B
  | .noResources => 0x0C

/-- The place of an error code in the priority order of R263. -/
def ErrCode.rank : ErrCode → Nat
  | .noError => 0
  | .illegalCmd => 1
  | .badHandle => 2
  | .handleInUse => 3
  | .wrongHandle => 3
  | .badParam => 4
  | .unsupportedLength => 5
  | .blockSize => 6
  | .dimension => 7
  | .misaligned => 8
  | .outOfRange => 9
  | .overlap => 10
  | .noResources => 11

/-- STATUS as a read returns it (R24). -/
def Status.word (st : Status) : Word :=
  BitVec.ofNat 32 (st.busy.toNat + 2 * st.done.toNat + 4 * st.err.toNat + 8 * st.ign.toNat + 256 * st.errCode.toNat)

/-- CTRL as a read returns it (R23): SRST and the reserved bits read 0. -/
def Ctrl.word (c : Ctrl) : Word := BitVec.ofNat 32 (c.ieDone.toNat + 2 * c.ieErr.toNat)

/-- A host write to STATUS (R246): write 1 to clear. -/
def Status.writeOneToClear (st : Status) (v : Word) : Status where
  busy := st.busy
  done := st.done && !v.getLsbD 1
  err := st.err && !v.getLsbD 2
  ign := st.ign && !v.getLsbD 3
  errCode := if v.getLsbD 2 then .noError else st.errCode

/-- The enables a host write to CTRL with SRST = 0 leaves (R245). -/
def Ctrl.ofWord (v : Word) : Ctrl := ⟨v.getLsbD 0, v.getLsbD 1⟩

/-- The level of `irq` (R35). -/
def State.irq (s : State) : Bool :=
  (s.status.done && s.ctrl.ieDone) || ((s.status.err || s.status.ign) && s.ctrl.ieErr)

/-- `irq` is raised for the completion or rejection of the last accepted command (R300). -/
def State.irqForEnd (s : State) : Bool :=
  !s.status.busy && ((s.status.done && s.ctrl.ieDone) || (s.status.err && s.ctrl.ieErr))

/-- The host observes the end of the last accepted command when `irq`, low in `before`, rises for it; the ends of earlier
commands stay as they were (R74, R300, log entry 14). -/
def State.observeIrq (before after : State) : State :=
  { after with last := if !before.irq && after.irqForEnd then none else after.last }

/-- The footprints the host may not touch (R300). -/
def State.watched (s : State) : List Footprint := s.last.toList ++ s.older

end Sys2Proof.Machine
end

