-- ==== Sys2Proof/Machine/Operands.lean ====
section
/-! DEFINITION. Operands of commands: latched arguments (spec/30_encoding.md R92, spec/44_system.md R242), footprints
and the range, alignment and overlap checks (spec/20_memory.md R65 to R68), and the derived constants of handles. -/

namespace Sys2Proof

/-- FFT_SUPPORTED (R6, R120): even, 2 to FFT_NMAX, and a member of the set. A number below 2^64 has no prime factor
other than 2, 3 and 5 exactly when it divides 30^64. -/
def Params.fftSupported (p : Params) (n : Nat) : Bool :=
  n % 2 == 0 && 2 ≤ n && n ≤ p.fftNmax &&
    match p.lengths with
    | .fiveSmooth => 30 ^ 64 % n == 0
    | .listed l => l.contains n

end Sys2Proof

namespace Sys2Proof.Machine

/-- `ceil_div(a, b)` (R10). -/
def ceilDiv (a b : Nat) : Nat := (a + b - 1) / b

/-- An argument as an unsigned natural (R92). -/
def argAt (a : ArgFile) (k : Nat) : Nat := (a[k]?.getD 0#32).toNat

/-- `ARG[k]`: the argument latched at acceptance (R242). -/
def State.arg (s : State) (k : Nat) : Nat := argAt s.latch.arg k

/-- NB of an STFT handle (R43). -/
def StftCfg.bands (c : StftCfg) : Nat := realBins c.win

/-- P of a CONV handle (R45). -/
def ConvCfg.parts (c : ConvCfg) : Nat := ceilDiv c.len c.block

/-- QMF_HOP_OK(H) (R181). -/
def qmfHopOk (hop : Nat) : Bool := Config.qmf.hopOk hop

/-- QMF_NBANDS(H, hyb) (R182). -/
def qmfNBands (hop : Nat) (hyb : Bool) : Nat := Config.qmf.nBands hop hyb

/-- QMF_DELAY(H, hyb) (R183). -/
def qmfDelay (hop : Nat) (hyb : Bool) : Nat := Config.qmf.delay hop hyb

/-- QMF_STATE_WORDS(H, hyb, nIn, nOut) (R41, R185). -/
def qmfStateWords (hop : Nat) (hyb : Bool) (nIn nOut : Nat) : Nat := Config.qmf.stateWords hop hyb nIn nOut

/-- NB of a QMF handle (R44). -/
def QmfCfg.bands (c : QmfCfg) : Nat := qmfNBands c.hop c.hyb

/-- `base + size <= DMEM_BYTES` in unbounded naturals, with a memory of `dmem` bytes (R66). -/
def ByteRange.inRange (dmem : Nat) (r : ByteRange) : Bool := r.base + r.size ≤ dmem

/-- The address lies in the range (R65). -/
def ByteRange.contains (r : ByteRange) (a : Nat) : Bool := r.base ≤ a && a < r.base + r.size

/-- The two ranges are disjoint (R68). -/
def ByteRange.disjoint (r t : ByteRange) : Bool := r.base + r.size ≤ t.base || t.base + t.size ≤ r.base

/-- Every footprint of the command is in range of a memory of `dmem` bytes (R66). -/
def Footprint.inRange (dmem : Nat) (fp : Footprint) : Bool :=
  fp.rf.all (ByteRange.inRange dmem) && fp.wf.all (ByteRange.inRange dmem)

/-- The read and the write footprint are disjoint, where a command has both (R68). -/
def Footprint.disjoint (fp : Footprint) : Bool :=
  match fp.rf, fp.wf with
  | some r, some t => r.disjoint t
  | _, _ => true

/-- The address lies in RF or WF (R300). -/
def Footprint.touches (fp : Footprint) (a : Nat) : Bool :=
  fp.rf.any (·.contains a) || fp.wf.any (·.contains a)

def Footprint.empty : Footprint := ⟨none, none⟩

/-- A footprint with both ranges. -/
def Footprint.between (rBase rSize wBase wSize : Nat) : Footprint := ⟨some ⟨rBase, rSize⟩, some ⟨wBase, wSize⟩⟩

/-- RFFT_FORWARD: N samples to N/2+1 bins (R65). -/
def rfftForwardFootprint (n : Nat) (a : ArgFile) : Footprint :=
  .between (argAt a 0) (4 * n) (argAt a 1) (8 * realBins n)

/-- RFFT_BACKWARD: N/2+1 bins to N samples (R65). -/
def rfftBackwardFootprint (n : Nat) (a : ArgFile) : Footprint :=
  .between (argAt a 0) (8 * realBins n) (argAt a 1) (4 * n)

/-- CFFT_FORWARD and CFFT_BACKWARD: N complex samples to N complex samples (R65). -/
def cfftFootprint (n : Nat) (a : ArgFile) : Footprint :=
  .between (argAt a 0) (8 * n) (argAt a 1) (8 * n)

/-- A time block of `chans` channels of ARG1 samples at the address in argument `k` (R65). -/
def blockRange (chans k : Nat) (a : ArgFile) : ByteRange := ⟨argAt a k, 4 * chans * argAt a 1⟩

/-- STFT_FORWARD and QMF_ANALYSIS: a time block of `chans` channels to a frame (R65). -/
def blockToFrameFootprint (hop chans bands : Nat) (a : ArgFile) : Footprint :=
  .between (argAt a 0) (4 * chans * argAt a 1) (argAt a 2) (8 * bands * chans * (argAt a 1 / hop))

/-- STFT_BACKWARD and QMF_SYNTHESIS: a frame of `chans` channels to a time block (R65). -/
def frameToBlockFootprint (hop chans bands : Nat) (a : ArgFile) : Footprint :=
  .between (argAt a 0) (8 * bands * chans * (argAt a 1 / hop)) (argAt a 2) (4 * chans * argAt a 1)

/-- QMF_GET_CENTRE_FREQS: one sample per band (R65). -/
def centreFreqsFootprint (bands : Nat) (a : ArgFile) : Footprint := ⟨none, some ⟨argAt a 2, 4 * bands⟩⟩

/-- CONV_CREATE: the filter matrix (R65). -/
def convCreateFootprint (a : ArgFile) : Footprint :=
  ⟨some ⟨argAt a 4, 4 * argAt a 3 * argAt a 2 * argAt a 1⟩, none⟩

/-- CONV_APPLY: an input block to an output block (R65). -/
def convApplyFootprint (c : ConvCfg) (a : ArgFile) : Footprint :=
  .between (argAt a 0) (4 * c.nIn * c.block) (argAt a 1) (4 * c.nOut * c.block)

/-- The footprint of a command on a slot with that content (R65), whether the command is performed there or rejected. A
range has a value where the configuration of the slot gives every quantity of its formula: N for RFFT and CFFT slots
alike (R42), H, NB, nIn and nOut for STFT and QMF slots alike (R43, R44), B, nIn and nOut for CONV slots (R45). The range
of CONV_CREATE needs the arguments only. Any other range has no value (log entry 14). -/
def footprintOf (i : Instr) (hd : Handle) (a : ArgFile) : Footprint :=
  match i, hd with
  | .rfftForward _, .rfft n => rfftForwardFootprint n a
  | .rfftForward _, .cfft n => rfftForwardFootprint n a
  | .rfftBackward _, .rfft n => rfftBackwardFootprint n a
  | .rfftBackward _, .cfft n => rfftBackwardFootprint n a
  | .cfftForward _, .rfft n => cfftFootprint n a
  | .cfftForward _, .cfft n => cfftFootprint n a
  | .cfftBackward _, .rfft n => cfftFootprint n a
  | .cfftBackward _, .cfft n => cfftFootprint n a
  | .stftForward _, .stft c _ => blockToFrameFootprint c.hop c.nIn c.bands a
  | .stftForward _, .qmf c _ => blockToFrameFootprint c.hop c.nIn c.bands a
  | .stftForward _, .conv c _ => ⟨some (blockRange c.nIn 0 a), none⟩
  | .stftBackward _, .stft c _ => frameToBlockFootprint c.hop c.nOut c.bands a
  | .stftBackward _, .qmf c _ => frameToBlockFootprint c.hop c.nOut c.bands a
  | .stftBackward _, .conv c _ => ⟨none, some (blockRange c.nOut 2 a)⟩
  | .qmfAnalysis _, .stft c _ => blockToFrameFootprint c.hop c.nIn c.bands a
  | .qmfAnalysis _, .qmf c _ => blockToFrameFootprint c.hop c.nIn c.bands a
  | .qmfAnalysis _, .conv c _ => ⟨some (blockRange c.nIn 0 a), none⟩
  | .qmfSynthesis _, .stft c _ => frameToBlockFootprint c.hop c.nOut c.bands a
  | .qmfSynthesis _, .qmf c _ => frameToBlockFootprint c.hop c.nOut c.bands a
  | .qmfSynthesis _, .conv c _ => ⟨none, some (blockRange c.nOut 2 a)⟩
  | .qmfGetCentreFreqs _, .stft c _ => centreFreqsFootprint c.bands a
  | .qmfGetCentreFreqs _, .qmf c _ => centreFreqsFootprint c.bands a
  | .convApply _, .conv c _ => convApplyFootprint c a
  | .convCreate _, _ => convCreateFootprint a
  | _, _ => .empty

/-- The tests a command makes, in order: whether each fails, and the code it then raises (R263). -/
abbrev Tests := List (Bool × ErrCode)

/-- The code of the first test that fails (R263). -/
def firstError : Tests → Option ErrCode
  | [] => none
  | (failed, code) :: rest => if failed then some code else firstError rest

/-- The tests of a command with address arguments `bases` on a data memory of `dmem` bytes (R66 to R68, R262, R263). -/
def bufferTests (dmem : Nat) (bases : List Nat) (fp : Footprint) : Tests :=
  [(bases.any (· % 4 != 0), .misaligned), (!fp.inRange dmem, .outOfRange), (!fp.disjoint, .overlap)]

end Sys2Proof.Machine
end

