-- ==== Sys2Proof/Machine/Ops.lean ====
section
/-! DEFINITION. The shared operations of the machine: the handle table and the private pool (spec/10_state.md R31,
R40, R41), acceptance, completion and rejection of a command (spec/44_system.md R241, R243, R244;
spec/60_exceptions.md R264, R268), and reset (spec/70_reset_and_hazards.md R290, R291). -/

namespace Sys2Proof.Machine

/-- NUM_HANDLES (R6, R28). -/
def State.numHandles (s : State) : Nat := s.handles.length

/-- `HT[h]` (R40). -/
def State.slot (s : State) (h : Nat) : Handle := s.handles[h]?.getD .free

/-- `HT[h] <- hd` (R40). -/
def State.setSlot (s : State) (h : Nat) (hd : Handle) : State :=
  { s with handles := s.handles.set h hd }

/-- `req(HT[h])`, the private words a slot owns (R41). -/
def Handle.req : Handle → Nat
  | .free => 0
  | .rfft _ => 0
  | .cfft _ => 0
  | .stft c _ => (c.nIn + c.nOut) * c.win
  | .qmf c _ => qmfStateWords c.hop c.hyb c.nIn c.nOut
  | .conv c _ =>
    2 * (c.block + 1) * c.parts * c.nIn * c.nOut + 2 * (c.block + 1) * c.parts * c.nIn + c.block * c.nIn

/-- The private words all slots own. -/
def State.privUsed (s : State) : Nat := (s.handles.map Handle.req).sum

/-- PRIV_FREE (R31). -/
def State.privFree (s : State) : Nat := s.params.privWords - s.privUsed

/-- LATCH while BUSY = 0, after a command or a reset: unspecified (R36, R290, U13), so free words of the epoch. -/
def freeLatch (epoch : Nat) : Latch where
  cmd := Config.freeWord epoch ⟨.latchCmd, 0, 0, 0, 0⟩
  arg := Vector.ofFn fun k : Fin 8 => Config.freeWord epoch ⟨.latchArg, 0, 0, 0, k⟩

/-- Error entry (R264): the rejection of the command in progress. LATCH then is unspecified (R36, U13). The epoch of free
values ends with the command. -/
def State.reject (s : State) (code : ErrCode) : State :=
  let after : State :=
    { s with
      status := { s.status with busy := false, err := true, errCode := code }
      errCmd := s.latch.cmd
      latch := freeLatch s.draws
      draws := s.draws + 1 }
  s.observeIrq after

/-- Error exit (R268, R246): a host write of `v` to STATUS, which clears ERR and ERRCODE where bit 2 is set. -/
def State.acknowledge (s : State) (v : Word) : State :=
  { s with status := s.status.writeOneToClear v }

/-- Completion of the command in progress (R243). LATCH then is unspecified (R36, U13). The epoch of free values ends with
the command. -/
def State.complete (s : State) : State :=
  let after : State :=
    { s with
      status := { s.status with busy := false, done := true }
      latch := freeLatch s.draws
      draws := s.draws + 1 }
  s.observeIrq after

/-- A command makes its tests in order, and is then performed in full or rejected with the first code (R12, R263). -/
def finish (s : State) (tests : Tests) (performed : State) : Host.Outcome State Fault Refusal :=
  match firstError tests with
  | some code => .next (s.reject code)
  | none => .next performed.complete

/-- The prelude of R244 after decoding: BAD_HANDLE, else the command on the content of its slot. -/
def onSlot (h : Nat) (s : State) (command : Handle → Host.Outcome State Fault Refusal) :
    Host.Outcome State Fault Refusal :=
  if h < s.numHandles then command (s.slot h) else .next (s.reject .badHandle)

/-- The footprint of the latched command (R65): none where the word is illegal. A slot beyond NUM_HANDLES reads as FREE,
so that there only CONV_CREATE has one. -/
def State.latchedFootprint (s : State) : Footprint :=
  match decode s.latch.cmd with
  | .ok i => footprintOf i (s.slot i.hid) s.latch.arg
  | .error _ => .empty

/-- Latching a command word with the arguments, and raising BUSY (R241, R242). T_CMD is drawn (R305), and the
footprints are watched for races (R300). -/
def State.accept (s : State) (w : Word) : State :=
  let latched : State :=
    { s with
      latch := ⟨w, s.args⟩
      status := { s.status with done := false, busy := true }
      delay := Config.tCmd s.draws
      draws := s.draws + 1 }
  { latched with last := some latched.latchedFootprint, older := s.watched }

/-- A host write of `w` to CMD (R241): accepted, or ignored while BUSY = 1 or ERR = 1. -/
def State.offerCommand (s : State) (w : Word) : State :=
  if s.status.busy || s.status.err then { s with status := { s.status with ign := true } } else s.accept w

/-- What every reset does (R290, R291): registers to their reset values, every slot FREE, no command in progress. -/
def State.resetRegisters (s : State) : State :=
  { s with
    ctrl := ⟨false, false⟩
    status := ⟨false, false, false, false, .noError⟩
    errCmd := 0#32
    result0 := 0#32
    args := Vector.replicate 8 0#32
    latch := freeLatch s.draws
    handles := List.replicate s.numHandles .free
    delay := 0
    draws := s.draws + 1 }

/-- Free bytes for every byte of a range that exists in a memory of `dmem` bytes (R291, U11). -/
def abortedBytes (epoch dmem : Nat) (r : ByteRange) : List Byte :=
  (List.range (min r.size (dmem - r.base))).map fun j =>
    BitVec.ofNat 8 (Config.freeWord epoch ⟨.abortedByte, 0, 0, 0, r.base + j⟩).toNat

/-- Data memory after a soft reset (R291): where a command was in progress, every byte of its write footprint is
unspecified; else nothing changes. -/
def State.memAfterAbort (s : State) : List Host.Cell :=
  if s.status.busy then
    match s.latchedFootprint.wf with
    | some r => memStoreBytes s.mem r.base (abortedBytes s.draws s.params.dmemBytes r)
    | none => s.mem
  else s.mem

/-- Soft reset (R291). It is no observation of a command's end, so every watch stays (R74, R76, R300). -/
def State.softReset (s : State) : State := { s.resetRegisters with mem := s.memAfterAbort }

/-- Hardware reset while running (R290): as a soft reset, with data memory unspecified, so that nothing is listed and
every byte is a free byte of a new epoch (U12). No state survives it, so no footprint is watched (log entry 16). -/
def State.hardReset (s : State) : State :=
  { s.resetRegisters with mem := [], memEpoch := s.draws, last := none, older := [] }

end Sys2Proof.Machine
end

