-- ==== Sys2Proof/Machine/Transform.lean ====
section
/-! DEFINITION. The transform core as the commands use it, and the element-wise steps (spec/40_fft.md R121 to R123).
A step with a NaN or an infinity among its inputs, or a transform whose ideal result leaves the binary32 range, gives
free values (U2); every other step is FFT_NUM or binary32 arithmetic. -/

namespace Sys2Proof.Machine

/-- The free value of real element `k` of a step (U2, U3). -/
def freeF32 (epoch : Nat) (site : DrawSite) (k : Nat) : F32 := Config.freeWord epoch { site with idx := k }

/-- The free value of complex element `k` of a step (U2, U3). -/
def freeC32 (epoch : Nat) (site : DrawSite) (k : Nat) : C32 :=
  ⟨Config.freeWord epoch { site with idx := 2 * k }, Config.freeWord epoch { site with idx := 2 * k + 1 }⟩

/-- `FFT_NUM.rfft_n(x)` (R121, R122): n/2+1 bins, or free values (R123). -/
def rfft (epoch : Nat) (site : DrawSite) (n : Nat) (x : List F32) : List C32 :=
  if transformDefined .rfft n x then Config.fft.rfftOut n x else (List.range (realBins n)).map (freeC32 epoch site)

/-- `FFT_NUM.irfft_n(X)` (R121, R126): n samples, or free values (R123). -/
def irfft (epoch : Nat) (site : DrawSite) (n : Nat) (x : List C32) : List F32 :=
  if transformDefined .irfft n (flatten x) then Config.fft.irfftOut n x else (List.range n).map (freeF32 epoch site)

/-- `FFT_NUM.cfft_n(x)` (R121, R122): n bins, or free values (R123). -/
def cfft (epoch : Nat) (site : DrawSite) (n : Nat) (x : List C32) : List C32 :=
  if transformDefined .cfft n (flatten x) then Config.fft.cfftOut n x else (List.range n).map (freeC32 epoch site)

/-- `FFT_NUM.icfft_n(X)` (R121, R122): n samples, or free values (R123). -/
def icfft (epoch : Nat) (site : DrawSite) (n : Nat) (x : List C32) : List C32 :=
  if transformDefined .icfft n (flatten x) then Config.fft.icfftOut n x else (List.range n).map (freeC32 epoch site)

/-- The windowed segment of an analysis buffer: `fmul(buf[n], STFT_WIN(W,H)[n])` (R162). -/
def windowed (epoch : Nat) (site : DrawSite) (w h : Nat) (buf : List F32) : List F32 :=
  (List.range w).map fun n =>
    let free := freeF32 epoch site n
    if allFinite buf then fmul (nanOf free) (buf.getD n f32Zero) (stftWin w h n) else free

/-- The overlap-add of one slot: `fadd(acc[n], fmul(y[n], STFT_WIN(W,H)[n]))` (R164). -/
def overlapAdd (epoch : Nat) (site : DrawSite) (w h : Nat) (acc y : List F32) : List F32 :=
  (List.range w).map fun n =>
    let free := freeF32 epoch site n
    if allFinite acc && allFinite y then
      fadd (nanOf free) (acc.getD n f32Zero) (fmul (nanOf free) (y.getD n f32Zero) (stftWin w h n))
    else free

/-- One complex multiply-accumulate step over `bins` bins: `cadd(Y[k], cmul(Hf[k], X[k]))` (R222). -/
def macStep (epoch : Nat) (site : DrawSite) (bins : Nat) (y hf x : List C32) : List C32 :=
  (List.range bins).map fun k =>
    let free := freeC32 epoch site k
    let nan : C32 := ⟨nanOf free.re, nanOf free.im⟩
    if y.all c32IsFinite && hf.all c32IsFinite && x.all c32IsFinite then
      cadd nan (y.getD k c32Zero) (cmul nan (hf.getD k c32Zero) (x.getD k c32Zero))
    else free

/-- A frame in band-major layout (R63, R64): element (b, c, s) of `bands` x `chans` x `slots` is number
(b * chans + c) * slots + s. -/
def frameOf (bands chans slots : Nat) (elem : Nat → Nat → Nat → C32) : List C32 :=
  (List.range (bands * chans * slots)).map fun j => elem (j / (chans * slots)) (j / slots % chans) (j % slots)

/-- A time block (R63): element (c, n) of `chans` x `size` is number c * size + n. -/
def blockOf (chans size : Nat) (elem : Nat → Nat → F32) : List F32 :=
  (List.range (chans * size)).map fun j => elem (j / size) (j % size)

/-- The bands of slot `s` of channel `c` of a frame in data memory (R63): `LoadC(src + 8((b * chans + c) * slots + s))`
for every band. -/
def State.frameSlot (st : State) (src bands chans slots c s : Nat) : List C32 :=
  (List.range bands).map fun b => st.loadC (src + 8 * ((b * chans + c) * slots + s))

end Sys2Proof.Machine
end

