-- ==== Sys2Proof/Machine/Conv.lean ====
section
/-! DEFINITION. The partitioned convolution commands (spec/43_conv.md R211, R220, R222). -/

namespace Sys2Proof.Machine

/-- The tests of CONV_CREATE after the slot test (R220). -/
def convCreateTests (s : State) (c : ConvCfg) : Tests :=
  [(c.block == 0 || c.len == 0 || c.nIn == 0 || c.nOut == 0, .badParam),
   (s.params.maxChannels < c.nIn || s.params.maxChannels < c.nOut, .badParam),
   (!s.params.fftSupported (2 * c.block), .unsupportedLength)] ++
  bufferTests s.params.dmemBytes [s.arg 4] (convCreateFootprint s.latch.arg) ++
  [(decide (s.privFree < (Handle.conv c ⟨[], [], [], 0⟩).req), ErrCode.noResources)]

/-- `seg[o][i][p]` (R211): the taps of one partition, zero-filled past L and zero-padded to 2B. -/
def State.partition (s : State) (c : ConvCfg) (flt o i p : Nat) : List F32 :=
  (List.range (2 * c.block)).map fun m =>
    if m < c.block ∧ p * c.block + m < c.len
    then s.loadF32 (flt + 4 * ((o * c.nIn + i) * c.len + (p * c.block + m)))
    else f32Zero

/-- `Hf[o][i][p]` for every o, i, p (R211, R220). -/
def State.partitionSpectra (s : State) (c : ConvCfg) (flt : Nat) : List (List (List (List C32))) :=
  (List.range c.nOut).map fun o => (List.range c.nIn).map fun i => (List.range c.parts).map fun p =>
    rfft s.draws ⟨.convPartition, p, i, o, 0⟩ (2 * c.block) (s.partition c flt o i p)

/-- The state of a CONV handle after create (R45, R220). -/
def State.convInit (s : State) (c : ConvCfg) (flt : Nat) : ConvState where
  hf := s.partitionSpectra c flt
  prev := List.replicate c.nIn (zeros c.block)
  hist := List.replicate c.nIn (List.replicate c.parts (List.replicate (c.block + 1) c32Zero))
  pos := 0

/-- CONV_CREATE (R220). -/
def execConvCreate (h : Nat) (s : State) : Host.Outcome State Fault Refusal :=
  let cfg : ConvCfg := ⟨s.arg 0, s.arg 1, s.arg 2, s.arg 3⟩
  onSlot h s fun
    | .free => finish s (convCreateTests s cfg) (s.setSlot h (.conv cfg (s.convInit cfg (s.arg 4))))
    | _ => .next (s.reject .handleInUse)

/-- `cur` of input channel `i` (R222). -/
def State.convBlock (s : State) (c : ConvCfg) (i : Nat) : List F32 :=
  s.loadF32s (s.arg 0 + 4 * (i * c.block)) c.block

/-- The history after the input blocks are transformed (R215, R222): `hist[i][pos] <- rfft_2B(prev[i] ++ cur)`. -/
def State.convHist (s : State) (c : ConvCfg) (st : ConvState) : List (List (List C32)) :=
  (List.range c.nIn).map fun i =>
    (st.hist.getD i []).set st.pos
      (rfft s.draws ⟨.convInput, 0, i, 0, 0⟩ (2 * c.block) (st.prev.getD i [] ++ s.convBlock c i))

/-- The (p, i) pairs in accumulation order, p outer and i inner (R222). -/
def macOrder (c : ConvCfg) : List (Nat × Nat) :=
  (List.range c.parts).flatMap fun p => (List.range c.nIn).map fun i => (p, i)

/-- `Y` of output channel `o` (R222): from +0.0, over every partition and input channel. -/
def convAccumulate (epoch : Nat) (c : ConvCfg) (st : ConvState) (hist : List (List (List C32))) (o : Nat) : List C32 :=
  (macOrder c).foldl
    (fun y pi =>
      macStep epoch ⟨.convMac, pi.1, pi.2, o, 0⟩ (c.block + 1) y
        (((st.hf.getD o []).getD pi.2 []).getD pi.1 [])
        ((hist.getD pi.2 []).getD ((st.pos + c.parts - pi.1) % c.parts) []))
    (List.replicate (c.block + 1) c32Zero)

/-- The samples `irfft_2B(Y)` of output channel `o` (R222). -/
def convOutput (epoch : Nat) (c : ConvCfg) (st : ConvState) (hist : List (List (List C32))) (o : Nat) : List F32 :=
  irfft epoch ⟨.convInverse, 0, 0, o, 0⟩ (2 * c.block) (convAccumulate epoch c st hist o)

/-- The output block of CONV_APPLY (R222): the last B samples of each inverse transform. -/
def convApplyBlock (s : State) (c : ConvCfg) (st : ConvState) : List F32 :=
  blockOf c.nOut c.block fun o n => (convOutput s.draws c st (s.convHist c st) o).getD (c.block + n) f32Zero

/-- The state CONV_APPLY leaves (R222). -/
def convApplyState (s : State) (c : ConvCfg) (st : ConvState) : ConvState :=
  { st with
    prev := (List.range c.nIn).map (s.convBlock c)
    hist := s.convHist c st
    pos := (st.pos + 1) % c.parts }

/-- CONV_APPLY (R222). -/
def execConvApply (h : Nat) (s : State) : Host.Outcome State Fault Refusal :=
  onSlot h s fun
    | .conv cfg st =>
      finish s (bufferTests s.params.dmemBytes [s.arg 0, s.arg 1] (convApplyFootprint cfg s.latch.arg))
        ((s.setSlot h (.conv cfg (convApplyState s cfg st))).storeF32s (s.arg 1) (convApplyBlock s cfg st))
    | _ => .next (s.reject .wrongHandle)

end Sys2Proof.Machine
end

