-- ==== Sys2Proof/Machine/Fft.lean ====
section
/-! DEFINITION. The FFT Engine commands (spec/40_fft.md R124 to R129). -/

namespace Sys2Proof.Machine

/-- The tests of both FFT create commands after the slot test (R124, R127). -/
def fftCreateTests (s : State) (n : Nat) : Tests :=
  [(n == 0, .badParam), (!s.params.fftSupported n, .unsupportedLength)]

/-- The draw site of an FFT command's transform. -/
def fftSite : DrawSite := ⟨.fftCommand, 0, 0, 0, 0⟩

/-- RFFT_CREATE (R124). -/
def execRfftCreate (h : Nat) (s : State) : Host.Outcome State Fault Refusal :=
  onSlot h s fun
    | .free => finish s (fftCreateTests s (s.arg 0)) (s.setSlot h (.rfft (s.arg 0)))
    | _ => .next (s.reject .handleInUse)

/-- RFFT_FORWARD (R125). -/
def execRfftForward (h : Nat) (s : State) : Host.Outcome State Fault Refusal :=
  onSlot h s fun
    | .rfft n =>
      finish s (bufferTests s.params.dmemBytes [s.arg 0, s.arg 1] (rfftForwardFootprint n s.latch.arg))
        (s.storeCs (s.arg 1) (rfft s.draws fftSite n (s.loadF32s (s.arg 0) n)))
    | _ => .next (s.reject .wrongHandle)

/-- RFFT_BACKWARD (R126). -/
def execRfftBackward (h : Nat) (s : State) : Host.Outcome State Fault Refusal :=
  onSlot h s fun
    | .rfft n =>
      finish s (bufferTests s.params.dmemBytes [s.arg 0, s.arg 1] (rfftBackwardFootprint n s.latch.arg))
        (s.storeF32s (s.arg 1) (irfft s.draws fftSite n (s.loadCs (s.arg 0) (realBins n))))
    | _ => .next (s.reject .wrongHandle)

/-- CFFT_CREATE (R127). -/
def execCfftCreate (h : Nat) (s : State) : Host.Outcome State Fault Refusal :=
  onSlot h s fun
    | .free => finish s (fftCreateTests s (s.arg 0)) (s.setSlot h (.cfft (s.arg 0)))
    | _ => .next (s.reject .handleInUse)

/-- CFFT_FORWARD (R128). -/
def execCfftForward (h : Nat) (s : State) : Host.Outcome State Fault Refusal :=
  onSlot h s fun
    | .cfft n =>
      finish s (bufferTests s.params.dmemBytes [s.arg 0, s.arg 1] (cfftFootprint n s.latch.arg))
        (s.storeCs (s.arg 1) (cfft s.draws fftSite n (s.loadCs (s.arg 0) n)))
    | _ => .next (s.reject .wrongHandle)

/-- CFFT_BACKWARD (R129). -/
def execCfftBackward (h : Nat) (s : State) : Host.Outcome State Fault Refusal :=
  onSlot h s fun
    | .cfft n =>
      finish s (bufferTests s.params.dmemBytes [s.arg 0, s.arg 1] (cfftFootprint n s.latch.arg))
        (s.storeCs (s.arg 1) (icfft s.draws fftSite n (s.loadCs (s.arg 0) n)))
    | _ => .next (s.reject .wrongHandle)

end Sys2Proof.Machine
end

