-- ==== Sys2Proof/Machine/Stft.lean ====
section
/-! DEFINITION. The STFT Engine commands (spec/41_stft.md R160 to R168). Channels share no state (R163), so each is
processed slot after slot on its own. -/

namespace Sys2Proof.Machine

/-- The tests of STFT_CREATE after the slot test (R160). -/
def stftCreateTests (s : State) (c : StftCfg) : Tests :=
  [(c.win == 0 || c.hop == 0 || c.win < c.hop || c.win % c.hop != 0, .badParam),
   (c.nIn == 0 || c.nOut == 0, .badParam),
   (s.params.maxChannels < c.nIn || s.params.maxChannels < c.nOut, .badParam),
   (!s.params.fftSupported c.win, .unsupportedLength),
   (s.privFree < (c.nIn + c.nOut) * c.win, .noResources)]

/-- Zero buffers for every channel (R43, R160, R168). -/
def StftCfg.zeroState (c : StftCfg) : StftState where
  inbuf := List.replicate c.nIn (zeros c.win)
  acc   := List.replicate c.nOut (zeros c.win)

/-- The block-size test of the STFT and QMF stream commands (R162, R164, R191, R195). -/
def blockSizeTest (size hop : Nat) : Bool × ErrCode := (size == 0 || size % hop != 0, .blockSize)

/-- One slot of one channel of STFT_FORWARD (R162): shift in H samples, window, transform. -/
def stftForwardHop (epoch : Nat) (cfg : StftCfg) (chan slot : Nat) (buf new : List F32) : List F32 × List C32 :=
  let shifted := buf.drop cfg.hop ++ new
  let seg := windowed epoch ⟨.analysisWindow, slot, chan, 0, 0⟩ cfg.win cfg.hop shifted
  (shifted, rfft epoch ⟨.stftRfft, slot, chan, 0, 0⟩ cfg.win seg)

/-- One channel of STFT_FORWARD from slot `slot` on (R162): the analysis buffer it leaves, and the spectrum of every
slot. -/
def stftForwardChannel (epoch : Nat) (cfg : StftCfg) (chan : Nat) :
    Nat → List F32 → List (List F32) → List F32 × List (List C32)
  | _, buf, [] => (buf, [])
  | slot, buf, new :: rest =>
    let one := stftForwardHop epoch cfg chan slot buf new
    let more := stftForwardChannel epoch cfg chan (slot + 1) one.1 rest
    (more.1, one.2 :: more.2)

/-- One slot of one channel of STFT_BACKWARD (R164): inverse transform, window, overlap-add, emit H samples, shift. -/
def stftBackwardHop (epoch : Nat) (cfg : StftCfg) (chan slot : Nat) (acc : List F32) (bins : List C32) :
    List F32 × List F32 :=
  let y := irfft epoch ⟨.stftIrfft, slot, 0, chan, 0⟩ cfg.win bins
  let sum := overlapAdd epoch ⟨.overlapAdd, slot, 0, chan, 0⟩ cfg.win cfg.hop acc y
  (sum.drop cfg.hop ++ zeros cfg.hop, sum.take cfg.hop)

/-- One channel of STFT_BACKWARD from slot `slot` on (R164): the accumulator it leaves, and the samples emitted. -/
def stftBackwardChannel (epoch : Nat) (cfg : StftCfg) (chan : Nat) :
    Nat → List F32 → List (List C32) → List F32 × List F32
  | _, acc, [] => (acc, [])
  | slot, acc, bins :: rest =>
    let one := stftBackwardHop epoch cfg chan slot acc bins
    let more := stftBackwardChannel epoch cfg chan (slot + 1) one.1 rest
    (more.1, one.2 ++ more.2)

/-- The hops of channel `c` of a time block of `size` samples a channel (R63, R162). -/
def State.blockHops (s : State) (src size hop c : Nat) : List (List F32) :=
  (List.range (size / hop)).map fun k => s.loadF32s (src + 4 * (c * size + k * hop)) hop

/-- Every input channel of STFT_FORWARD (R162). -/
def stftForwardAll (s : State) (cfg : StftCfg) (st : StftState) : List (List F32 × List (List C32)) :=
  (List.range cfg.nIn).map fun c =>
    stftForwardChannel s.draws cfg c 0 (st.inbuf.getD c []) (s.blockHops (s.arg 0) (s.arg 1) cfg.hop c)

/-- Every output channel of STFT_BACKWARD (R164). -/
def stftBackwardAll (s : State) (cfg : StftCfg) (st : StftState) : List (List F32 × List F32) :=
  (List.range cfg.nOut).map fun c =>
    stftBackwardChannel s.draws cfg c 0 (st.acc.getD c [])
      ((List.range (s.arg 1 / cfg.hop)).map fun k =>
        s.frameSlot (s.arg 0) cfg.bands cfg.nOut (s.arg 1 / cfg.hop) c k)

/-- The frame STFT_FORWARD writes (R162). -/
def stftForwardFrame (s : State) (cfg : StftCfg) (st : StftState) : List C32 :=
  frameOf cfg.bands cfg.nIn (s.arg 1 / cfg.hop) fun b c k =>
    ((((stftForwardAll s cfg st).map Prod.snd).getD c []).getD k []).getD b c32Zero

/-- The state STFT_FORWARD leaves: the analysis buffers of every input channel (R162). -/
def stftForwardState (s : State) (cfg : StftCfg) (st : StftState) : StftState :=
  { st with inbuf := (stftForwardAll s cfg st).map Prod.fst }

/-- The time block STFT_BACKWARD writes (R164). -/
def stftBackwardBlock (s : State) (cfg : StftCfg) (st : StftState) : List F32 :=
  blockOf cfg.nOut (s.arg 1) fun c n => (((stftBackwardAll s cfg st).map Prod.snd).getD c []).getD n f32Zero

/-- The state STFT_BACKWARD leaves: the accumulators of every output channel (R164). -/
def stftBackwardState (s : State) (cfg : StftCfg) (st : StftState) : StftState :=
  { st with acc := (stftBackwardAll s cfg st).map Prod.fst }

/-- The tests of STFT_FORWARD after the slot test (R162). -/
def stftForwardTests (s : State) (cfg : StftCfg) : Tests :=
  blockSizeTest (s.arg 1) cfg.hop ::
    bufferTests s.params.dmemBytes [s.arg 0, s.arg 2] (blockToFrameFootprint cfg.hop cfg.nIn cfg.bands s.latch.arg)

/-- The tests of STFT_BACKWARD after the slot test (R164). -/
def stftBackwardTests (s : State) (cfg : StftCfg) : Tests :=
  blockSizeTest (s.arg 1) cfg.hop ::
    bufferTests s.params.dmemBytes [s.arg 0, s.arg 2] (frameToBlockFootprint cfg.hop cfg.nOut cfg.bands s.latch.arg)

/-- STFT_CREATE (R160). -/
def execStftCreate (h : Nat) (s : State) : Host.Outcome State Fault Refusal :=
  let cfg : StftCfg := ⟨s.arg 0, s.arg 1, s.arg 2, s.arg 3⟩
  onSlot h s fun
    | .free => finish s (stftCreateTests s cfg) (s.setSlot h (.stft cfg cfg.zeroState))
    | _ => .next (s.reject .handleInUse)

/-- STFT_FORWARD (R162). -/
def execStftForward (h : Nat) (s : State) : Host.Outcome State Fault Refusal :=
  onSlot h s fun
    | .stft cfg st =>
      finish s (stftForwardTests s cfg)
        ((s.setSlot h (.stft cfg (stftForwardState s cfg st))).storeCs (s.arg 2) (stftForwardFrame s cfg st))
    | _ => .next (s.reject .wrongHandle)

/-- STFT_BACKWARD (R164). -/
def execStftBackward (h : Nat) (s : State) : Host.Outcome State Fault Refusal :=
  onSlot h s fun
    | .stft cfg st =>
      finish s (stftBackwardTests s cfg)
        ((s.setSlot h (.stft cfg (stftBackwardState s cfg st))).storeF32s (s.arg 2) (stftBackwardBlock s cfg st))
    | _ => .next (s.reject .wrongHandle)

/-- The tests of STFT_CHANNEL_CHANGE after the slot test: the words the handle already holds count as free (R41,
R166). -/
def channelChangeTests (s : State) (old : StftCfg) (nIn nOut : Nat) : Tests :=
  [(nIn == 0 || nOut == 0 || s.params.maxChannels < nIn || s.params.maxChannels < nOut, .badParam),
   (s.privFree + (old.nIn + old.nOut) * old.win < (nIn + nOut) * old.win, .noResources)]

/-- Unspecified buffers for every channel (R166, U1). -/
def StftCfg.freeState (c : StftCfg) (epoch : Nat) : StftState where
  inbuf := (List.range c.nIn).map fun k =>
    (List.range c.win).map fun n => freeF32 epoch ⟨.changedInbuf, 0, k, 0, 0⟩ n
  acc := (List.range c.nOut).map fun k =>
    (List.range c.win).map fun n => freeF32 epoch ⟨.changedAcc, 0, 0, k, 0⟩ n

/-- STFT_CHANNEL_CHANGE (R166). -/
def execStftChannelChange (h : Nat) (s : State) : Host.Outcome State Fault Refusal :=
  onSlot h s fun
    | .stft cfg _ =>
      let new : StftCfg := { cfg with nIn := s.arg 0, nOut := s.arg 1 }
      finish s (channelChangeTests s cfg (s.arg 0) (s.arg 1))
        (s.setSlot h (.stft new (new.freeState s.draws)))
    | _ => .next (s.reject .wrongHandle)

/-- STFT_FLUSH (R168). -/
def execStftFlush (h : Nat) (s : State) : Host.Outcome State Fault Refusal :=
  onSlot h s fun
    | .stft cfg _ => finish s [] (s.setSlot h (.stft cfg cfg.zeroState))
    | _ => .next (s.reject .wrongHandle)

end Sys2Proof.Machine
end

