-- ==== Sys2Proof/Machine/Qmf.lean ====
section
/-! DEFINITION. The QMF / hybrid filterbank commands (spec/42_qmf.md R190 to R195) over the OPEN filterbank functions
(R181 to R187). -/

namespace Sys2Proof.Machine

/-- The tests of QMF_CREATE after the slot test (R190). -/
def qmfCreateTests (s : State) (hop hyb nIn nOut : Nat) : Tests :=
  [(hop == 0 || 1 < hyb, .badParam),
   (nIn == 0 || nOut == 0 || s.params.maxChannels < nIn || s.params.maxChannels < nOut, .badParam),
   (!qmfHopOk hop, .unsupportedLength),
   (s.privFree < qmfStateWords hop (hyb == 1) nIn nOut, .noResources)]

/-- QMF_INIT's analysis state (R185). -/
def qmfAna0 (hop : Nat) (hyb : Bool) : List Word := Config.qmf.ana0 hop hyb

/-- QMF_INIT's synthesis state (R185). -/
def qmfSyn0 (hop : Nat) (hyb : Bool) : List Word := Config.qmf.syn0 hop hyb

/-- The state of every channel after create (R190). -/
def QmfCfg.initState (c : QmfCfg) : QmfState where
  ana := List.replicate c.nIn (qmfAna0 c.hop c.hyb)
  syn := List.replicate c.nOut (qmfSyn0 c.hop c.hyb)

/-- One slot of one channel of QMF_ANALYSIS (R186, R191): QMF_ANA_HOP, or free values where an input sample is not
finite (R123). -/
def qmfAnaHop (epoch : Nat) (cfg : QmfCfg) (chan slot : Nat) (st : List Word) (x : List F32) :
    List Word × List C32 :=
  if allFinite x then Config.qmf.anaHop cfg.hop cfg.hyb st x
  else
    ((List.range (Config.qmf.anaWords cfg.hop cfg.hyb)).map (freeF32 epoch ⟨.qmfAnaState, slot, chan, 0, 0⟩),
     (List.range cfg.bands).map (freeC32 epoch ⟨.qmfBands, slot, chan, 0, 0⟩))

/-- One slot of one channel of QMF_SYNTHESIS (R187, R195): QMF_SYN_HOP, or free values where an input value is not
finite (R123). -/
def qmfSynHop (epoch : Nat) (cfg : QmfCfg) (chan slot : Nat) (st : List Word) (x : List C32) :
    List Word × List F32 :=
  if allFinite (flatten x) then Config.qmf.synHop cfg.hop cfg.hyb st x
  else
    ((List.range (Config.qmf.synWords cfg.hop cfg.hyb)).map (freeF32 epoch ⟨.qmfSynState, slot, 0, chan, 0⟩),
     (List.range cfg.hop).map (freeF32 epoch ⟨.qmfSamples, slot, 0, chan, 0⟩))

/-- One channel of QMF_ANALYSIS from slot `slot` on (R191). -/
def qmfAnalysisChannel (epoch : Nat) (cfg : QmfCfg) (chan : Nat) :
    Nat → List Word → List (List F32) → List Word × List (List C32)
  | _, st, [] => (st, [])
  | slot, st, new :: rest =>
    let one := qmfAnaHop epoch cfg chan slot st new
    let more := qmfAnalysisChannel epoch cfg chan (slot + 1) one.1 rest
    (more.1, one.2 :: more.2)

/-- One channel of QMF_SYNTHESIS from slot `slot` on (R195). -/
def qmfSynthesisChannel (epoch : Nat) (cfg : QmfCfg) (chan : Nat) :
    Nat → List Word → List (List C32) → List Word × List F32
  | _, st, [] => (st, [])
  | slot, st, bins :: rest =>
    let one := qmfSynHop epoch cfg chan slot st bins
    let more := qmfSynthesisChannel epoch cfg chan (slot + 1) one.1 rest
    (more.1, one.2 ++ more.2)

/-- Every input channel of QMF_ANALYSIS (R191). -/
def qmfAnalysisAll (s : State) (cfg : QmfCfg) (st : QmfState) : List (List Word × List (List C32)) :=
  (List.range cfg.nIn).map fun c =>
    qmfAnalysisChannel s.draws cfg c 0 (st.ana.getD c []) (s.blockHops (s.arg 0) (s.arg 1) cfg.hop c)

/-- Every output channel of QMF_SYNTHESIS (R195). -/
def qmfSynthesisAll (s : State) (cfg : QmfCfg) (st : QmfState) : List (List Word × List F32) :=
  (List.range cfg.nOut).map fun c =>
    qmfSynthesisChannel s.draws cfg c 0 (st.syn.getD c [])
      ((List.range (s.arg 1 / cfg.hop)).map fun k =>
        s.frameSlot (s.arg 0) cfg.bands cfg.nOut (s.arg 1 / cfg.hop) c k)

/-- The frame QMF_ANALYSIS writes (R191). -/
def qmfAnalysisFrame (s : State) (cfg : QmfCfg) (st : QmfState) : List C32 :=
  frameOf cfg.bands cfg.nIn (s.arg 1 / cfg.hop) fun b c k =>
    ((((qmfAnalysisAll s cfg st).map Prod.snd).getD c []).getD k []).getD b c32Zero

/-- The state QMF_ANALYSIS leaves: the analysis states of every input channel (R191). -/
def qmfAnalysisState (s : State) (cfg : QmfCfg) (st : QmfState) : QmfState :=
  { st with ana := (qmfAnalysisAll s cfg st).map Prod.fst }

/-- The time block QMF_SYNTHESIS writes (R195). -/
def qmfSynthesisBlock (s : State) (cfg : QmfCfg) (st : QmfState) : List F32 :=
  blockOf cfg.nOut (s.arg 1) fun c n => (((qmfSynthesisAll s cfg st).map Prod.snd).getD c []).getD n f32Zero

/-- The state QMF_SYNTHESIS leaves: the synthesis states of every output channel (R195). -/
def qmfSynthesisState (s : State) (cfg : QmfCfg) (st : QmfState) : QmfState :=
  { st with syn := (qmfSynthesisAll s cfg st).map Prod.fst }

/-- The tests of QMF_ANALYSIS after the slot test (R191). -/
def qmfAnalysisTests (s : State) (cfg : QmfCfg) : Tests :=
  blockSizeTest (s.arg 1) cfg.hop ::
    bufferTests s.params.dmemBytes [s.arg 0, s.arg 2] (blockToFrameFootprint cfg.hop cfg.nIn cfg.bands s.latch.arg)

/-- The tests of QMF_SYNTHESIS after the slot test (R195). -/
def qmfSynthesisTests (s : State) (cfg : QmfCfg) : Tests :=
  blockSizeTest (s.arg 1) cfg.hop ::
    bufferTests s.params.dmemBytes [s.arg 0, s.arg 2] (frameToBlockFootprint cfg.hop cfg.nOut cfg.bands s.latch.arg)

/-- QMF_CREATE (R190). -/
def execQmfCreate (h : Nat) (s : State) : Host.Outcome State Fault Refusal :=
  let cfg : QmfCfg := ⟨s.arg 0, s.arg 1 == 1, s.arg 2, s.arg 3⟩
  onSlot h s fun
    | .free =>
      finish s (qmfCreateTests s (s.arg 0) (s.arg 1) (s.arg 2) (s.arg 3)) (s.setSlot h (.qmf cfg cfg.initState))
    | _ => .next (s.reject .handleInUse)

/-- QMF_ANALYSIS (R191). -/
def execQmfAnalysis (h : Nat) (s : State) : Host.Outcome State Fault Refusal :=
  onSlot h s fun
    | .qmf cfg st =>
      finish s (qmfAnalysisTests s cfg)
        ((s.setSlot h (.qmf cfg (qmfAnalysisState s cfg st))).storeCs (s.arg 2) (qmfAnalysisFrame s cfg st))
    | _ => .next (s.reject .wrongHandle)

/-- QMF_SYNTHESIS (R195). -/
def execQmfSynthesis (h : Nat) (s : State) : Host.Outcome State Fault Refusal :=
  onSlot h s fun
    | .qmf cfg st =>
      finish s (qmfSynthesisTests s cfg)
        ((s.setSlot h (.qmf cfg (qmfSynthesisState s cfg st))).storeF32s (s.arg 2) (qmfSynthesisBlock s cfg st))
    | _ => .next (s.reject .wrongHandle)

/-- RESULT0 for query number `query` of a filterbank (R27): its value `v`, or where 32 bits cannot hold that, a free word
that is the same for every call (R192, R193, log entry 18). -/
def queryWord (cfg : QmfCfg) (query v : Nat) : Word :=
  if v < 2 ^ 32 then BitVec.ofNat 32 v else Config.freeWord 0 ⟨.queryResult, cfg.hop, cfg.hyb.toNat, query, 0⟩

/-- QMF_GET_DELAY (R192). -/
def execQmfGetDelay (h : Nat) (s : State) : Host.Outcome State Fault Refusal :=
  onSlot h s fun
    | .qmf cfg _ => finish s [] { s with result0 := queryWord cfg 0 (qmfDelay cfg.hop cfg.hyb) }
    | _ => .next (s.reject .wrongHandle)

/-- QMF_GET_NBANDS (R193). -/
def execQmfGetNbands (h : Nat) (s : State) : Host.Outcome State Fault Refusal :=
  onSlot h s fun
    | .qmf cfg _ => finish s [] { s with result0 := queryWord cfg 1 cfg.bands }
    | _ => .next (s.reject .wrongHandle)

/-- A sample rate is accepted when it is finite and greater than 0 (R194). -/
def sampleRateOk (fs : F32) : Bool := f32IsFinite fs && !f32Neg fs && f32Mag fs != 0

/-- The tests of QMF_GET_CENTRE_FREQS after the slot test (R194). -/
def centreFreqsTests (s : State) (cfg : QmfCfg) : Tests :=
  [(!sampleRateOk (BitVec.ofNat 32 (s.arg 0)), .badParam), (s.arg 1 != cfg.bands, .dimension)] ++
    bufferTests s.params.dmemBytes [s.arg 2] (centreFreqsFootprint cfg.bands s.latch.arg)

/-- QMF_CF(H, hyb, fs) with the sample rate of ARG0 (R184, R194). -/
def centreFreqs (s : State) (cfg : QmfCfg) : List F32 :=
  (List.range cfg.bands).map (Config.qmf.cf cfg.hop cfg.hyb (BitVec.ofNat 32 (s.arg 0)))

/-- QMF_GET_CENTRE_FREQS (R194). -/
def execQmfGetCentreFreqs (h : Nat) (s : State) : Host.Outcome State Fault Refusal :=
  onSlot h s fun
    | .qmf cfg _ =>
      finish s (centreFreqsTests s cfg) (s.storeF32s (s.arg 2) (centreFreqs s cfg))
    | _ => .next (s.reject .wrongHandle)

end Sys2Proof.Machine
end

