-- ==== Sys2Proof/Machine/System.lean ====
section
/-! DEFINITION. The destructor (spec/44_system.md R240). -/

namespace Sys2Proof.Machine

/-- DESTROY (R240): the slot becomes FREE and its private words return to the pool. -/
def execDestroy (h : Nat) (s : State) : Host.Outcome State Fault Refusal :=
  onSlot h s fun
    | .free => .next (s.reject .wrongHandle)
    | _ => finish s [] (s.setSlot h .free)

end Sys2Proof.Machine
end

