-- ==== Sys2Proof/Machine/Dispatch.lean ====
section
/-! DEFINITION. The meaning of every command, one arm per row of spec/opcode_table.json. -/

namespace Sys2Proof.Machine

def exec (i : Instr) (s : State) : Host.Outcome State Fault Refusal :=
  match i with
  | .rfftCreate h => Sys2Proof.Machine.execRfftCreate h s
  | .rfftForward h => Sys2Proof.Machine.execRfftForward h s
  | .rfftBackward h => Sys2Proof.Machine.execRfftBackward h s
  | .cfftCreate h => Sys2Proof.Machine.execCfftCreate h s
  | .cfftForward h => Sys2Proof.Machine.execCfftForward h s
  | .cfftBackward h => Sys2Proof.Machine.execCfftBackward h s
  | .destroy h => Sys2Proof.Machine.execDestroy h s
  | .stftCreate h => Sys2Proof.Machine.execStftCreate h s
  | .stftForward h => Sys2Proof.Machine.execStftForward h s
  | .stftBackward h => Sys2Proof.Machine.execStftBackward h s
  | .stftChannelChange h => Sys2Proof.Machine.execStftChannelChange h s
  | .stftFlush h => Sys2Proof.Machine.execStftFlush h s
  | .qmfCreate h => Sys2Proof.Machine.execQmfCreate h s
  | .qmfAnalysis h => Sys2Proof.Machine.execQmfAnalysis h s
  | .qmfSynthesis h => Sys2Proof.Machine.execQmfSynthesis h s
  | .qmfGetDelay h => Sys2Proof.Machine.execQmfGetDelay h s
  | .qmfGetNbands h => Sys2Proof.Machine.execQmfGetNbands h s
  | .qmfGetCentreFreqs h => Sys2Proof.Machine.execQmfGetCentreFreqs h s
  | .convCreate h => Sys2Proof.Machine.execConvCreate h s
  | .convApply h => Sys2Proof.Machine.execConvApply h s

end Sys2Proof.Machine
end

