-- ==== Sys2Proof/Machine/HostPort.lean ====
section
/-! DEFINITION. What the host can do to the machine (spec/70_reset_and_hazards.md R309): register accesses
(spec/10_state.md section 2, R34; spec/44_system.md R241, R245 to R247), data-memory accesses (R300), and the reset
input (R290). -/

namespace Sys2Proof.Machine

/-- The registers of the register space (spec/10_state.md section 2). -/
inductive Reg where
  | id
  | ctrl
  | status
  | cmd
  | errCmd
  | result0
  | numHandles
  | fftNmax
  | privWords
  | privFree
  | maxChannels
  | arg (k : Nat)
  | reserved
  deriving DecidableEq, Repr

/-- The register at a 4-byte aligned offset below 256. -/
def regAt (offset : Nat) : Reg :=
  match offset with
  | 0x000 => .id
  | 0x004 => .ctrl
  | 0x008 => .status
  | 0x00C => .cmd
  | 0x010 => .errCmd
  | 0x014 => .result0
  | 0x018 => .numHandles
  | 0x01C => .fftNmax
  | 0x020 => .privWords
  | 0x024 => .privFree
  | 0x028 => .maxChannels
  | n => if 0x040 ≤ n ∧ n < 0x060 then .arg ((n - 0x040) / 4) else .reserved

/-- The value a register reads as (R22 to R33). Reading has no side effect on the register (R247). -/
def State.readReg (s : State) : Reg → Word
  | .id => Config.idValue
  | .ctrl => s.ctrl.word
  | .status => s.status.word
  | .cmd => 0#32
  | .errCmd => s.errCmd
  | .result0 => s.result0
  | .numHandles => BitVec.ofNat 32 s.numHandles
  | .fftNmax => BitVec.ofNat 32 s.params.fftNmax
  | .privWords => BitVec.ofNat 32 s.params.privWords
  | .privFree => BitVec.ofNat 32 s.privFree
  | .maxChannels => BitVec.ofNat 32 s.params.maxChannels
  | .arg k => s.args[k]?.getD 0#32
  | .reserved => 0#32

/-- A host write to CTRL (R245): the soft reset, or the enables, which may raise `irq` for a command that has ended. -/
def State.writeCtrl (s : State) (v : Word) : State :=
  if v.getLsbD 31 then s.softReset else s.observeIrq { s with ctrl := Ctrl.ofWord v }

/-- A host write to a register (R241, R245 to R247): writes to read-only and reserved registers are ignored (R34). -/
def State.writeReg (s : State) (r : Reg) (v : Word) : State :=
  match r with
  | .ctrl => s.writeCtrl v
  | .status => s.acknowledge v
  | .cmd => s.offerCommand v
  | .arg k => { s with args := s.args.setIfInBounds k v }
  | .id => s
  | .errCmd => s
  | .result0 => s
  | .numHandles => s
  | .fftNmax => s
  | .privWords => s
  | .privFree => s
  | .maxChannels => s
  | .reserved => s

/-- A read of STATUS that returns BUSY = 0 observes the end of every command accepted before it (R74, R300). -/
def State.observeStatus (s : State) (r : Reg) : State :=
  if r = .status ∧ s.status.busy = false then { s with last := none, older := [] } else s

/-- Why the model refuses a register access of that width (R34, R60). -/
def regAccessRefusal (offset width : Nat) : Option Refusal :=
  if width ≠ 4 ∨ offset % 4 ≠ 0 then some .registerAccessNotAlignedWord
  else if 256 ≤ offset then some .registerOffsetOutside
  else none

/-- Some byte of `[a, a + n)` lies in a watched footprint (R300). -/
def State.races (s : State) (a n : Nat) : Bool :=
  s.watched.any fun fp => (List.range n).any fun j => fp.touches (a + j)

/-- Why a data-memory access of the host faults (R71, R300). -/
def State.memAccessFault (s : State) (a n : Nat) : Option Fault :=
  if s.params.dmemBytes < a + n then some .dmemAddressOutside
  else if s.races a n then some .footprintRace
  else none

/-- One access of the host, or the reset input. -/
def hostStep (access : HostAccess) (s : State) : Host.Outcome State Fault Refusal :=
  match access with
  | .readReg offset width =>
    match regAccessRefusal offset width with
    | some r => .refused r
    | none => .next { (s.observeStatus (regAt offset)) with hostValue := (s.readReg (regAt offset)).toNat }
  | .writeReg offset width v =>
    match regAccessRefusal offset width with
    | some r => .refused r
    | none => .next (s.writeReg (regAt offset) v)
  | .readMem a n =>
    match s.memAccessFault a n with
    | some f => .fault f
    | none => .next { s with hostValue := s.memRead a n }
  | .writeMem a n v =>
    match s.memAccessFault a n with
    | some f => .fault f
    | none => .next (s.memWrite a n v)
  | .hwReset => .next s.hardReset

/-- A 32-bit write to a register, `WR <reg>, <value>` (R96). -/
def wr (offset : Nat) (value : Word) : HostAccess := .writeReg offset 4 value

/-- A 32-bit read of a register, `RD <reg>` (R96). -/
def rd (offset : Nat) : HostAccess := .readReg offset 4

/-- The accesses an assembly command stands for: its ARG writes in order, then the CMD write (R96). -/
def issue (i : Instr) (args : List Word) : List HostAccess :=
  args.mapIdx (fun k v => wr (0x040 + 4 * k) v) ++ [wr 0x00C (encode i)]

/-- `ACK`: clear DONE, ERR with ERRCODE, and IGN (R97). -/
def ack : HostAccess := wr 0x008 0x0000000E#32

/-- `WAIT`, for a host whose loop reads STATUS `polls` times (R97). -/
def wait (polls : Nat) : List HostAccess := List.replicate polls (rd 0x008)

/-- `SRST`: the soft reset (R97). -/
def srst : HostAccess := wr 0x004 0x80000000#32

end Sys2Proof.Machine
end

