-- ==== Sys2Proof/Machine/Step.lean ====
section
/-! DEFINITION. One step of the machine: an engine step or a host access, one at a time (spec/44_system.md R243, R244;
spec/60_exceptions.md R272; spec/70_reset_and_hazards.md R305, R308). -/

namespace Sys2Proof.Machine

/-- The engine step (R243, R244): the latched word is rejected with ILLEGAL_CMD or its command is performed. -/
def engineStep (s : State) : Host.Outcome State Fault Refusal :=
  match decode s.latch.cmd with
  | .error _ => .next (s.reject .illegalCmd)
  | .ok i => exec i s

/-- The engine moves next: a command is in progress, and its time is up or the host has nothing to do (R305, R308). -/
def State.engineTurn (s : State) : Bool := s.status.busy && (s.host.isEmpty || s.delay == 0)

/-- One step. With no command in progress and no host access pending, all state holds its value (R281). -/
def step (s : State) : Host.Outcome State Fault Refusal :=
  if s.engineTurn then engineStep s
  else
    match s.host with
    | [] => .next s
    | access :: rest => hostStep access { s with host := rest, delay := s.delay - 1 }

/-- The state right after the host's write of `w` to CMD is accepted (R241), with the engine step due at once: the very
next step performs `w`. The engine fetches nothing (R20, R77), so this is where a command comes from. -/
def State.withFetchWord (s : State) (nbits w : Nat) : State :=
  { (s.accept (BitVec.ofNat 32 (w % 2 ^ nbits))) with delay := 0 }

end Sys2Proof.Machine
end

