-- ==== Sys2Proof/Safety.lean ====
section
/-! DEFINITION. What counts as a good state and a safe run. The invariants are rules of spec/10_state.md and
spec/60_exceptions.md over a single state. At the end stand the spec's acceptance properties as the machine's commands
have them (spec/40_fft.md R122, spec/41_stft.md R170, spec/42_qmf.md R188, spec/43_conv.md R224), which
Laws/Accuracy.lean proves. -/

namespace Sys2Proof

/-- The commands that may change a slot's kind or configuration (R31, R40, R166). -/
def Instr.reconfigures : Instr → Bool
  | .rfftCreate _ => true
  | .rfftForward _ => false
  | .rfftBackward _ => false
  | .cfftCreate _ => true
  | .cfftForward _ => false
  | .cfftBackward _ => false
  | .destroy _ => true
  | .stftCreate _ => true
  | .stftForward _ => false
  | .stftBackward _ => false
  | .stftChannelChange _ => true
  | .stftFlush _ => false
  | .qmfCreate _ => true
  | .qmfAnalysis _ => false
  | .qmfSynthesis _ => false
  | .qmfGetDelay _ => false
  | .qmfGetNbands _ => false
  | .qmfGetCentreFreqs _ => false
  | .convCreate _ => true
  | .convApply _ => false

/-- The query commands, which set RESULT0 (R27). -/
def Instr.isQuery : Instr → Bool
  | .rfftCreate _ => false
  | .rfftForward _ => false
  | .rfftBackward _ => false
  | .cfftCreate _ => false
  | .cfftForward _ => false
  | .cfftBackward _ => false
  | .destroy _ => false
  | .stftCreate _ => false
  | .stftForward _ => false
  | .stftBackward _ => false
  | .stftChannelChange _ => false
  | .stftFlush _ => false
  | .qmfCreate _ => false
  | .qmfAnalysis _ => false
  | .qmfSynthesis _ => false
  | .qmfGetDelay _ => true
  | .qmfGetNbands _ => true
  | .qmfGetCentreFreqs _ => false
  | .convCreate _ => false
  | .convApply _ => false

/-- The commands that fill a FREE slot (R40). -/
def Instr.creates : Instr → Bool
  | .rfftCreate _ => true
  | .rfftForward _ => false
  | .rfftBackward _ => false
  | .cfftCreate _ => true
  | .cfftForward _ => false
  | .cfftBackward _ => false
  | .destroy _ => false
  | .stftCreate _ => true
  | .stftForward _ => false
  | .stftBackward _ => false
  | .stftChannelChange _ => false
  | .stftFlush _ => false
  | .qmfCreate _ => true
  | .qmfAnalysis _ => false
  | .qmfSynthesis _ => false
  | .qmfGetDelay _ => false
  | .qmfGetNbands _ => false
  | .qmfGetCentreFreqs _ => false
  | .convCreate _ => true
  | .convApply _ => false

end Sys2Proof

namespace Sys2Proof

/-- What the spec asks of the parameters (R6, R120): the bounds of R6, every power of two and the lengths the source names
among the supported ones (that every one is even stands in `Params.fftSupported`), and values that their read-only
registers can hold (R29, R30, R32, log entry 1). -/
structure Params.Ok (p : Params) : Prop where
  nmaxLow      : 30720 ≤ p.fftNmax
  nmaxHigh     : p.fftNmax < 2 ^ 32
  channelsLow  : 40 ≤ p.maxChannels
  channelsHigh : p.maxChannels < 2 ^ 32
  dmemWords    : p.dmemBytes % 4 = 0
  dmemHigh     : p.dmemBytes ≤ 2 ^ 32
  privLow      : 5442112 ≤ p.privWords
  privHigh     : p.privWords < 2 ^ 32
  powers       : ∀ k, 1 ≤ k → 2 ^ k ≤ p.fftNmax → p.fftSupported (2 ^ k) = true
  named        : p.fftSupported 80 = true ∧ p.fftSupported 960 = true ∧ p.fftSupported 30720 = true

end Sys2Proof

namespace Sys2Proof.Machine

/-- The slot holds the kind of handle the command works on (R260: else HANDLE_IN_USE or WRONG_HANDLE). -/
def slotFits (i : Instr) (hd : Handle) : Bool :=
  match i, hd with
  | .rfftCreate _, .free => true
  | .cfftCreate _, .free => true
  | .stftCreate _, .free => true
  | .qmfCreate _, .free => true
  | .convCreate _, .free => true
  | .rfftForward _, .rfft _ => true
  | .rfftBackward _, .rfft _ => true
  | .cfftForward _, .cfft _ => true
  | .cfftBackward _, .cfft _ => true
  | .stftForward _, .stft _ _ => true
  | .stftBackward _, .stft _ _ => true
  | .stftChannelChange _, .stft _ _ => true
  | .stftFlush _, .stft _ _ => true
  | .qmfAnalysis _, .qmf _ _ => true
  | .qmfSynthesis _, .qmf _ _ => true
  | .qmfGetDelay _, .qmf _ _ => true
  | .qmfGetNbands _, .qmf _ _ => true
  | .qmfGetCentreFreqs _, .qmf _ _ => true
  | .convApply _, .conv _ _ => true
  | .destroy _, hd => hd != .free
  | _, _ => false

/-- The accesses the host may not make at a state: a register access that is not 32 bits wide and aligned (R34), one
outside the register space (R60), and an access to a byte outside data memory (R71) or in a watched footprint (R300). That
the model stops there is log entry 17; which footprints are watched is log entry 14. -/
def ForbiddenAccess (access : HostAccess) (s : State) : Prop :=
  match access with
  | .readReg o w => w ≠ 4 ∨ o % 4 ≠ 0 ∨ 256 ≤ o
  | .writeReg o w _ => w ≠ 4 ∨ o % 4 ≠ 0 ∨ 256 ≤ o
  | .readMem a n => s.params.dmemBytes < a + n ∨ ∃ fp ∈ s.watched, ∃ j < n, fp.touches (a + j) = true
  | .writeMem a n _ => s.params.dmemBytes < a + n ∨ ∃ fp ∈ s.watched, ∃ j < n, fp.touches (a + j) = true
  | .hwReset => False

/-- `l` holds `n` lists, each of `k` elements. -/
def shaped {α : Type} (l : List (List α)) (n k : Nat) : Prop := l.length = n ∧ ∀ x ∈ l, x.length = k

/-- A channel count a create command accepts (R160, R190, R220). -/
def countOk (p : Params) (n : Nat) : Prop := 1 ≤ n ∧ n ≤ p.maxChannels

/-- What holds of every STFT slot (R43, R160). -/
def StftCfg.ok (p : Params) (c : StftCfg) (st : StftState) : Prop :=
  p.fftSupported c.win = true ∧ 1 ≤ c.hop ∧ c.hop ≤ c.win ∧ c.win % c.hop = 0 ∧ countOk p c.nIn ∧ countOk p c.nOut ∧
    shaped st.inbuf c.nIn c.win ∧ shaped st.acc c.nOut c.win

/-- What holds of every QMF slot (R44, R185, R190). -/
def QmfCfg.ok (p : Params) (c : QmfCfg) (st : QmfState) : Prop :=
  qmfHopOk c.hop = true ∧ countOk p c.nIn ∧ countOk p c.nOut ∧
    shaped st.ana c.nIn (Config.qmf.anaWords c.hop c.hyb) ∧ shaped st.syn c.nOut (Config.qmf.synWords c.hop c.hyb)

/-- What holds of every CONV slot (R45, R220). -/
def ConvCfg.ok (p : Params) (c : ConvCfg) (st : ConvState) : Prop :=
  1 ≤ c.block ∧ 1 ≤ c.len ∧ p.fftSupported (2 * c.block) = true ∧ countOk p c.nIn ∧ countOk p c.nOut ∧
    (st.hf.length = c.nOut ∧ ∀ x ∈ st.hf, x.length = c.nIn ∧ ∀ y ∈ x, shaped y c.parts (c.block + 1)) ∧
    shaped st.prev c.nIn c.block ∧
    (st.hist.length = c.nIn ∧ ∀ x ∈ st.hist, shaped x c.parts (c.block + 1)) ∧
    st.pos < c.parts

/-- What holds of every slot (R40 to R45): its configuration is one a create command accepts, and its buffers have the
sizes the configuration gives. -/
def Handle.ok (p : Params) : Handle → Prop
  | .free => True
  | .rfft n => p.fftSupported n = true
  | .cfft n => p.fftSupported n = true
  | .stft c st => c.ok p st
  | .qmf c st => c.ok p st
  | .conv c st => c.ok p st

/-- Every slot is well formed. -/
def State.HandlesOk (s : State) : Prop := ∀ h < s.numHandles, (s.slot h).ok s.params

/-- The private words of all slots fit in the pool (R31, R41). -/
def State.PoolOk (s : State) : Prop := s.privUsed ≤ s.params.privWords

/-- Data memory is in its canonical form. -/
def State.MemoryOk (s : State) : Prop := Memory.wf s.params.dmemBytes s.mem = true

/-- A command in progress has neither DONE nor ERR beside it; ERRCODE is a code exactly while ERR = 1; and DONE and ERR
are never both set (R24, R241, R243, R264). -/
def State.StatusOk (s : State) : Prop :=
  (s.status.busy = true → s.status.done = false ∧ s.status.err = false) ∧
    (s.status.err = true ↔ s.status.errCode ≠ .noError) ∧
    (s.status.err = true → s.status.done = false)

/-- While a command is in progress, its footprints are watched (R300). -/
def State.WatchOk (s : State) : Prop :=
  s.status.busy = true → s.last = some s.latchedFootprint

/-- The parameters meet what the spec asks of them, and there are 1 to 255 slots (R6). -/
def State.ParamsOk (s : State) : Prop := s.params.Ok ∧ 1 ≤ s.numHandles ∧ s.numHandles ≤ 255

/-- The invariant of the machine. -/
structure State.Inv (s : State) : Prop where
  params  : s.ParamsOk
  handles : s.HandlesOk
  pool    : s.PoolOk
  memory  : s.MemoryOk
  status  : s.StatusOk
  watch   : s.WatchOk

/-- The parameters are the same (R6, R28 to R30, R32). -/
def SameParams (s t : State) : Prop := t.params = s.params ∧ t.numHandles = s.numHandles

/-- Everything a command may not touch (R23, R33, R46): the parameters, CTRL, the argument registers, and the model's
record of the host. -/
def SameHostSide (s t : State) : Prop :=
  SameParams s t ∧ t.ctrl = s.ctrl ∧ t.args = s.args ∧ t.memEpoch = s.memEpoch ∧ t.host = s.host ∧
    t.hostValue = s.hostValue ∧ t.delay = s.delay

/-- Every slot but one is the same (R46). -/
def SameOtherSlots (s t : State) (h : Nat) : Prop := ∀ h', h' ≠ h → t.slot h' = s.slot h'

/-- Every slot is the same. -/
def SameSlots (s t : State) : Prop := ∀ h, t.slot h = s.slot h

/-- Every byte of data memory is the same. -/
def SameMemory (s t : State) : Prop := ∀ a, t.readByte a = s.readByte a

/-- Every byte of data memory outside `[base, base + size)` is the same (R65). -/
def SameMemoryOutside (s t : State) (base size : Nat) : Prop :=
  ∀ a, a < base ∨ base + size ≤ a → t.readByte a = s.readByte a

/-- STATUS after a command that completes: BUSY falls, DONE rises, and ERR, IGN and ERRCODE stay (R243). -/
def CompletedFrom (s t : State) : Prop :=
  t.status = { s.status with busy := false, done := true } ∧ t.errCmd = s.errCmd

/-- STATUS and ERR_CMD after a rejection with that code (R264). -/
def RejectedFrom (s t : State) (code : ErrCode) : Prop :=
  t.status = { s.status with busy := false, err := true, errCode := code } ∧ t.errCmd = s.latch.cmd

/-- The command is rejected with that code, and changes nothing but STATUS and ERR_CMD (R264). -/
def Rejects (i : Instr) (s : State) (code : ErrCode) : Prop :=
  ∃ t, exec i s = .next t ∧ RejectedFrom s t code ∧ SameHostSide s t ∧ t.result0 = s.result0 ∧ SameSlots s t ∧
    SameMemory s t

/-- The command completes (R243). -/
def Completes (i : Instr) (s : State) : Prop := ∃ t, exec i s = .next t ∧ CompletedFrom s t

/-- What a command that sets only its own slot leaves unchanged, beside completing. -/
def SlotSet (s t : State) (h : Nat) : Prop :=
  CompletedFrom s t ∧ SameHostSide s t ∧ t.result0 = s.result0 ∧ SameOtherSlots s t h ∧ SameMemory s t

/-- What a command that writes only `[base, base + size)` of data memory leaves unchanged, beside completing. -/
def BlockStored (s t : State) (base size : Nat) : Prop :=
  CompletedFrom s t ∧ SameHostSide s t ∧ t.result0 = s.result0 ∧ SameSlots s t ∧ SameMemoryOutside s t base size

/-- What a command that sets its own slot and writes only `[base, base + size)` of data memory leaves unchanged, beside
completing. -/
def StreamStored (s t : State) (h base size : Nat) : Prop :=
  CompletedFrom s t ∧ SameHostSide s t ∧ t.result0 = s.result0 ∧ SameOtherSlots s t h ∧
    SameMemoryOutside s t base size

/-- What a command that sets only RESULT0 leaves unchanged, beside completing. -/
def ResultSet (s t : State) : Prop :=
  CompletedFrom s t ∧ SameHostSide s t ∧ SameSlots s t ∧ SameMemory s t

/-- Two ranges that R66 to R68 let a command read and write: aligned bases, in range, and disjoint. -/
def BuffersOk (s : State) (rBase rSize wBase wSize : Nat) : Prop :=
  rBase % 4 = 0 ∧ wBase % 4 = 0 ∧ rBase + rSize ≤ s.params.dmemBytes ∧ wBase + wSize ≤ s.params.dmemBytes ∧
    (rBase + rSize ≤ wBase ∨ wBase + wSize ≤ rBase)

/-- What the three buffer tests make of a command that reads one range and writes another (R66 to R68, R263): the first
code that applies, or else the command completes. -/
def BufferOutcome (i : Instr) (s : State) (rBase rSize wBase wSize : Nat) : Prop :=
  if rBase % 4 ≠ 0 ∨ wBase % 4 ≠ 0 then Rejects i s .misaligned
  else if s.params.dmemBytes < rBase + rSize ∨ s.params.dmemBytes < wBase + wSize then Rejects i s .outOfRange
  else if wBase < rBase + rSize ∧ rBase < wBase + wSize then Rejects i s .overlap
  else Completes i s

/-- What a block size does to a stream command of hop `hop` before its buffers are tested (R162, R164, R191, R195). -/
def BlockOutcome (i : Instr) (s : State) (hop rBase rSize wBase wSize : Nat) : Prop :=
  if s.arg 1 = 0 ∨ s.arg 1 % hop ≠ 0 then Rejects i s .blockSize else BufferOutcome i s rBase rSize wBase wSize

/-- Two slots of one kind, with one configuration and one filter set (R40, R221). -/
def Handle.sameConfig : Handle → Handle → Prop
  | .free, .free => True
  | .rfft n, .rfft m => n = m
  | .cfft n, .cfft m => n = m
  | .stft c _, .stft d _ => c = d
  | .qmf c _, .qmf d _ => c = d
  | .conv c st, .conv d st' => c = d ∧ st.hf = st'.hf
  | _, _ => False

/-- `k` steps from `s` end in a state, with no fault and no refusal. -/
def RunsSafely (k : Nat) (s : State) : Prop := ∃ t, Host.Core.run Sys2Proof.core k s = .next t

/-- The end of a run (R310): the host has no access left and no command is in progress. -/
def State.runEnded (s : State) : Bool := s.host.isEmpty && !s.status.busy

/-- R122 (a) of the four transforms the commands use, at every place that asks: for finite inputs with an ideal result in
binary32 range, the result is finite and within FFT_REL_ERR of the ideal. -/
def FftAccuracy : Prop :=
  ∀ (e : Nat) (st : DrawSite) (n : Nat), lengthOk n →
    (∀ (x : List F32) (xv yv : Nat → ℂ), x.length = n → (∀ j < n, IsValue ((asComplex x).getD j c32Zero) (xv j)) →
      IsDft n xv yv → (∀ k < realBins n, InRange (yv k)) → CloseTo (Config.fft.relErr n) (rfft e st n x) yv) ∧
    (∀ (x : List C32) (xv yv zv : Nat → ℂ), x.length = realBins n →
      (∀ k < realBins n, IsValue (x.getD k c32Zero) (xv k)) → IsHermitianExtension n xv yv → IsIdft n yv zv →
      (∀ j < n, InRange (zv j)) → CloseTo (Config.fft.relErr n) (asComplex (irfft e st n x)) zv) ∧
    (∀ (x : List C32) (xv yv : Nat → ℂ), x.length = n → (∀ j < n, IsValue (x.getD j c32Zero) (xv j)) →
      IsDft n xv yv → (∀ k < n, InRange (yv k)) → CloseTo (Config.fft.relErr n) (cfft e st n x) yv) ∧
    (∀ (x : List C32) (xv yv : Nat → ℂ), x.length = n → (∀ k < n, IsValue (x.getD k c32Zero) (xv k)) →
      IsIdft n xv yv → (∀ j < n, InRange (yv j)) → CloseTo (Config.fft.relErr n) (icfft e st n x) yv)

/-- R122 (b) of the transforms the commands use: forward then backward gives the samples back within 1e-5. -/
def FftRoundTrip : Prop :=
  ∀ (e e' : Nat) (st st' : DrawSite) (n : Nat), lengthOk n →
    (∀ x : List F32, x.length = n → (∀ v ∈ x, unitRange v) → ∀ j < n,
      near (1 / 100000) ((irfft e' st' n (rfft e st n x)).getD j f32Zero) (f32Rat (x.getD j f32Zero))) ∧
    (∀ x : List C32, x.length = n → (∀ v ∈ x, unitRange v.re ∧ unitRange v.im) → ∀ j < n,
      near (1 / 100000) ((icfft e' st' n (cfft e st n x)).getD j c32Zero).re (f32Rat (x.getD j c32Zero).re) ∧
      near (1 / 100000) ((icfft e' st' n (cfft e st n x)).getD j c32Zero).im (f32Rat (x.getD j c32Zero).im))

/-- The output stream of an identity round trip of one STFT channel from zero state, hop by hop (R169). -/
def stftIdentity (e e' : Nat) (cfg : StftCfg) (chan : Nat) (hops : List (List F32)) : List F32 :=
  (stftBackwardChannel e' cfg chan 0 (zeros cfg.win)
    (stftForwardChannel e cfg chan 0 (zeros cfg.win) hops).2).2

/-- R170: with H = W a stream is reproduced with no delay, within the tolerance of R122 (b), since R170 gives no number
there (log entry 22); with H = W/2 it is reproduced within 1e-6, delayed by W - H samples, from its first sample on. -/
def StftRoundTrip : Prop :=
  ∀ (e e' : Nat) (cfg : StftCfg) (chan : Nat) (hops : List (List F32)), lengthOk cfg.win →
    cfg.hop = cfg.win ∨ 2 * cfg.hop = cfg.win → (∀ x ∈ hops, x.length = cfg.hop ∧ ∀ v ∈ x, unitRange v) →
    ∀ t, t + (cfg.win - cfg.hop) < hops.flatten.length →
      near (if cfg.hop = cfg.win then 1 / 100000 else 1 / 1000000)
        ((stftIdentity e e' cfg chan hops).getD (t + (cfg.win - cfg.hop)) f32Zero)
        (f32Rat (hops.flatten.getD t f32Zero))

/-- The output stream of an identity round trip of one QMF channel from QMF_INIT, hop by hop (R188). -/
def qmfIdentity (e e' : Nat) (cfg : QmfCfg) (chan : Nat) (hops : List (List F32)) : List F32 :=
  (qmfSynthesisChannel e' cfg chan 0 (qmfSyn0 cfg.hop cfg.hyb)
    (qmfAnalysisChannel e cfg chan 0 (qmfAna0 cfg.hop cfg.hyb) hops).2).2

/-- R188: the identity round trip is the input delayed by QMF_DELAY within 0.01, with zeros before its first sample. -/
def QmfRoundTrip : Prop :=
  ∀ (e e' : Nat) (cfg : QmfCfg) (chan : Nat) (hops : List (List F32)), qmfHopOk cfg.hop = true →
    (∀ x ∈ hops, x.length = cfg.hop ∧ ∀ v ∈ x, unitRange v) →
    ∀ t < hops.flatten.length,
      near (1 / 100) ((qmfIdentity e e' cfg chan hops).getD t f32Zero)
        (if t < qmfDelay cfg.hop cfg.hyb then 0
         else f32Rat (hops.flatten.getD (t - qmfDelay cfg.hop cfg.hyb) f32Zero))

/-- R224: one output channel of the source's configuration (L = 512, B = 2048, 32 inputs), with the filters `taps` and
the previous and the new block of every input channel in `blocks`, is the direct convolution within the tolerance, which
is OPEN (log entry 22). -/
def ConvEquality : Prop :=
  ∀ (e nOut o : Nat) (st : ConvState) (hist : List (List (List C32))) (taps blocks : List (List F32)),
    taps.length = 32 → blocks.length = 32 → (∀ x ∈ taps, x.length = 512 ∧ ∀ v ∈ x, unitRange v) →
    (∀ x ∈ blocks, x.length = 4096 ∧ ∀ v ∈ x, unitRange v) → st.pos = 0 →
    (∀ i < 32, ((st.hf.getD o []).getD i []).getD 0 [] =
      rfft e ⟨.convPartition, 0, i, o, 0⟩ 4096 (taps.getD i [] ++ zeros 3584)) →
    (∀ i < 32, (hist.getD i []).getD 0 [] = rfft e ⟨.convInput, 0, i, 0, 0⟩ 4096 (blocks.getD i [])) →
    ∀ n < 2048, near Config.fft.convTol ((convOutput e ⟨2048, 512, 32, nOut⟩ st hist o).getD (2048 + n) f32Zero)
      (((taps.zip blocks).map fun p => ((List.range 512).map fun l =>
        f32Rat (p.1.getD l f32Zero) * f32Rat (p.2.getD (2048 + n - l) f32Zero)).sum).sum)

end Sys2Proof.Machine
end

