-- ==== Sys2Proof/Certificates/Slice0/Obligations.lean ====
section
/-! DEFINITION. The statements for the provers, in the order of the spec's files. -/

open Sys2Proof Sys2Proof.Machine

/-- R90, R93, R94: decoding the word of a well-formed command gives the command back, at every slot index. -/
def Obligations.DecodeEncodeRoundTrip : Prop :=
  ∀ i : Instr, i.WellFormed = true → decode (encode i) = .ok i

/-- R94: a word selects the row whose OP is its bits 7 to 0 exactly when its bits 31 to 16 are 0, with bits 15 to 8 as
the slot index; the match is `w & 0xFFFF00FF = OP`. -/
def Obligations.DecodeSelectsRow : Prop :=
  (∀ (w : Word) (i : Instr),
    decode w = .ok i ↔ rsvField w = 0 ∧ opField w = i.opcode ∧ hidField w = i.hid) ∧
  (∀ (w : Word) (i : Instr),
    (rsvField w = 0 ∧ opField w = i.opcode) ↔ w &&& 0xFFFF00FF#32 = BitVec.ofNat 32 i.opcode)

/-- R90, R91: each command has one word, so no bit of a word that decodes is dropped. -/
def Obligations.DecodedWordIsEncoding : Prop :=
  ∀ (w : Word) (i : Instr), decode w = .ok i → i.WellFormed = true ∧ encode i = w

/-- R98: the encoding examples. -/
def Obligations.EncodingExamples : Prop :=
  issue (.rfftCreate 0) [4#32] = [wr 0x040 4#32, wr 0x00C 0x00000001#32] ∧
  issue (.rfftForward 3) [0x100#32, 0x200#32] = [wr 0x040 0x100#32, wr 0x044 0x200#32, wr 0x00C 0x00000302#32] ∧
  issue (.stftFlush 2) [] = [wr 0x00C 0x00000214#32] ∧
  issue (.convApply 15) [0x1000#32, 0x2000#32] =
    [wr 0x040 0x1000#32, wr 0x044 0x2000#32, wr 0x00C 0x00000F31#32] ∧
  decode 0x00000001#32 = .ok (.rfftCreate 0) ∧ decode 0x00000302#32 = .ok (.rfftForward 3) ∧
  decode 0x00000214#32 = .ok (.stftFlush 2) ∧ decode 0x00000F31#32 = .ok (.convApply 15) ∧
  decode 0x00010002#32 = .error .reservedBits ∧ decode 0x00000007#32 = .error .unassignedOp

/-- R95: every word with bits 31 to 16 not 0, and every word whose OP is not assigned, is rejected with ILLEGAL_CMD by
the engine and changes no slot and no memory. -/
def Obligations.IllegalWordRejected : Prop :=
  ∀ s : State,
    (rsvField s.latch.cmd ≠ 0 ∨ opField s.latch.cmd = 0x00 ∨ (0x07 ≤ opField s.latch.cmd ∧ opField s.latch.cmd ≤ 0x0E) ∨
      (0x15 ≤ opField s.latch.cmd ∧ opField s.latch.cmd ≤ 0x1F) ∨
      (0x26 ≤ opField s.latch.cmd ∧ opField s.latch.cmd ≤ 0x2F) ∨ 0x32 ≤ opField s.latch.cmd) →
    ∃ t, engineStep s = .next t ∧ RejectedFrom s t .illegalCmd ∧ SameHostSide s t ∧ t.result0 = s.result0 ∧
      SameSlots s t ∧ SameMemory s t

/-- R244: the prelude. An illegal word is rejected with ILLEGAL_CMD whatever its slot index; then a slot index at or
above NUM_HANDLES with BAD_HANDLE, whatever the command; and otherwise the row's rule is performed. -/
def Obligations.PreludeOrder : Prop :=
  ∀ s : State,
    (∀ e, decode s.latch.cmd = .error e → ∃ t, engineStep s = .next t ∧ RejectedFrom s t .illegalCmd) ∧
    (∀ i, decode s.latch.cmd = .ok i → s.numHandles ≤ i.hid →
      engineStep s = exec i s ∧ Rejects i s .badHandle) ∧
    (∀ i, decode s.latch.cmd = .ok i → i.hid < s.numHandles → engineStep s = exec i s)

/-- R243: a step runs the latched command. When a command is in progress and its time is up (or the host has nothing
pending), the step is the engine step at that very state: `exec` of the decoded command, or the rejection with
ILLEGAL_CMD of a word that decodes to none (R95, R244). When it is not, the next host access is taken first. Which of the
two moves is the model's schedule (log entry 5). -/
def Obligations.StepRunsLatchedCommand : Prop :=
  (∀ s : State, s.status.busy = true → s.host = [] ∨ s.delay = 0 →
    step s = engineStep s ∧ (∀ i, decode s.latch.cmd = .ok i → step s = exec i s) ∧
      ∀ e, decode s.latch.cmd = .error e → ∃ t, step s = .next t ∧ RejectedFrom s t .illegalCmd) ∧
  (∀ (s : State) (access : HostAccess) (rest : List HostAccess), s.host = access :: rest →
    s.status.busy = false ∨ s.delay ≠ 0 →
    step s = hostStep access { s with host := rest, delay := s.delay - 1 })

/-- A word placed where the next step takes its command from is the command that step runs (log entry 6). -/
def Obligations.PlacedWordRuns : Prop :=
  ∀ (s : State) (nbits w : Nat) (i : Instr), decodeTableWord nbits w = some i →
    step (s.withFetchWord nbits w) = exec i (s.withFetchWord nbits w)

/-- R281: with no command in progress, a step with no host access pending changes nothing at all, and a step that takes
a host access other than a register write or a reset changes no register and no slot. That the latch, which then may hold
any value (R36), holds the same one is the model's form (log entry 4). -/
def Obligations.IdleHoldsState : Prop :=
  ∀ s t : State, s.status.busy = false → step s = .next t →
    (s.host = [] → t = s) ∧
    (∀ access rest, s.host = access :: rest → (∀ o w v, access ≠ .writeReg o w v) → access ≠ .hwReset →
      t.ctrl = s.ctrl ∧ t.status = s.status ∧ t.errCmd = s.errCmd ∧ t.result0 = s.result0 ∧ t.args = s.args ∧
        t.latch = s.latch ∧ SameSlots s t ∧
        ((∀ a n v, access ≠ .writeMem a n v) → SameMemory s t))

/-- R243, R264, R12: the engine step always answers a next state, with BUSY = 0. Either it completes the command (DONE set,
ERR, IGN, ERRCODE and ERR_CMD as they were), or it rejects it: ERR and ERRCODE set, ERR_CMD the latched word, and nothing
else changed: no slot, no byte, no private word, no register. What the latch then holds is unspecified (R36) and not
stated. -/
def Obligations.EngineStepEndsCommand : Prop :=
  ∀ s : State, ∃ t, engineStep s = .next t ∧ t.status.busy = false ∧
    (CompletedFrom s t ∨
      ∃ c, c ≠ .noError ∧ RejectedFrom s t c ∧ SameHostSide s t ∧ t.result0 = s.result0 ∧ t.handles = s.handles ∧
        t.mem = s.mem ∧ t.privFree = s.privFree)

/-- R305, R308: a command in progress ends. When the engine moves, its step ends the command. While host accesses still
go first, a step takes one of them; it stops exactly where that access is forbidden, and otherwise a reset has ended the
command or one access fewer goes first. So within one step more than the host accesses that may go first, the machine is
at a state with BUSY = 0, or at one whose next access the host is forbidden to make. The model's readings are: how many
accesses may go first, its schedule (log entry 5); that the machine stops at a register access that is not an aligned word
(R34) or lies outside the register space (R60), and at an access outside data memory (R71) (log entry 17); and which
footprints are watched for the race of R300 (log entry 14). -/
def Obligations.CommandEndsSoon : Prop :=
  ∀ s : State, s.status.busy = true →
    (s.host = [] ∨ s.delay = 0 → ∃ t, step s = .next t ∧ t.status.busy = false) ∧
    (∀ access rest, s.host = access :: rest → s.delay ≠ 0 →
      (ForbiddenAccess access s ↔ ∀ t, step s ≠ .next t) ∧
      (¬ForbiddenAccess access s → ∃ t, step s = .next t ∧
        (t.status.busy = false ∨ (t.status.busy = true ∧ t.host = rest ∧ t.delay + 1 = s.delay)))) ∧
    ∃ k t, k ≤ min s.host.length s.delay + 1 ∧ Host.Core.run Sys2Proof.core k s = .next t ∧
      (t.status.busy = false ∨
        ∃ access rest, t.status.busy = true ∧ t.host = access :: rest ∧ t.delay ≠ 0 ∧ ForbiddenAccess access t)

/-- R260, R263: the slot test. A create command on a slot that is not FREE is rejected with HANDLE_IN_USE, any other
command on a slot of the wrong kind with WRONG_HANDLE, whatever its arguments. -/
def Obligations.SlotKindErrors : Prop :=
  ∀ (i : Instr) (s : State), i.hid < s.numHandles → slotFits i (s.slot i.hid) = false →
    Rejects i s (if i.creates = true then .handleInUse else .wrongHandle)

/-- R266, R267: the outcome of a command and its error code depend on the latched word and arguments, the handle table and
the parameters only, never on a data value in memory. -/
def Obligations.OutcomeIgnoresData : Prop :=
  ∀ (s s' : State) (c : ErrCode), s.params = s'.params → s.latch = s'.latch → s.handles = s'.handles → s.status.err = false →
    s'.status.err = false → (∃ t, engineStep s = .next t ∧ RejectedFrom s t c) →
    ∃ t', engineStep s' = .next t' ∧ RejectedFrom s' t' c

/-- R241, R242: a host write of w to CMD. Ignored while BUSY = 1 or ERR = 1, with IGN set and nothing else changed;
otherwise accepted: w and all eight argument registers are latched, DONE is cleared and BUSY set, and no other register,
slot or byte changes. -/
def Obligations.CommandWrite : Prop :=
  ∀ (s : State) (w : Word),
    (s.status.busy = true ∨ s.status.err = true →
      hostStep (wr 0x00C w) s = .next { s with status := { s.status with ign := true } }) ∧
    (s.status.busy = false → s.status.err = false →
      ∃ t, hostStep (wr 0x00C w) s = .next t ∧ t.latch = ⟨w, s.args⟩ ∧
        t.status = { s.status with done := false, busy := true } ∧ t.ctrl = s.ctrl ∧ t.errCmd = s.errCmd ∧
        t.result0 = s.result0 ∧ t.args = s.args ∧ t.handles = s.handles ∧ SameMemory s t)

/-- R242: the arguments of a command are the values of the argument registers at its acceptance; a later host write to
an argument register does not reach the command in progress: the latch, and so every argument the command reads, is
unchanged, and the register holds the value written. -/
def Obligations.ArgumentsAreLatched : Prop :=
  (∀ (s : State) (w : Word), s.status.busy = false → s.status.err = false →
    ∃ t, hostStep (wr 0x00C w) s = .next t ∧ ∀ k : Fin 8, t.arg k = (s.readReg (.arg k)).toNat) ∧
  (∀ (s : State) (k : Fin 8) (v : Word),
    ∃ t, hostStep (wr (0x040 + 4 * k) v) s = .next t ∧ t.args[k] = v ∧ (∀ j : Fin 8, j ≠ k → t.args[j] = s.args[j]) ∧
      t.latch = s.latch ∧ (∀ j, t.arg j = s.arg j) ∧ t.latchedFootprint = s.latchedFootprint ∧
      t.status = s.status ∧ t.ctrl = s.ctrl ∧ t.errCmd = s.errCmd ∧ t.result0 = s.result0 ∧ SameSlots s t ∧
      SameMemory s t)

/-- R24, R246: a host write to STATUS clears DONE, ERR with ERRCODE, and IGN where the bit written is 1, and changes
nothing else; STATUS reads with its fields at the bits of R24, and ERRCODE with the numbers of R260. -/
def Obligations.StatusWrite : Prop :=
  (∀ (s : State) (v : Word), ∃ t, hostStep (wr 0x008 v) s = .next t ∧
    t.status.busy = s.status.busy ∧
    t.status.done = (if v.getLsbD 1 = true then false else s.status.done) ∧
    t.status.err = (if v.getLsbD 2 = true then false else s.status.err) ∧
    t.status.errCode = (if v.getLsbD 2 = true then .noError else s.status.errCode) ∧
    t.status.ign = (if v.getLsbD 3 = true then false else s.status.ign) ∧
    t = { s with status := t.status }) ∧
  (∀ st : Status, st.word.getLsbD 0 = st.busy ∧ st.word.getLsbD 1 = st.done ∧ st.word.getLsbD 2 = st.err ∧
    st.word.getLsbD 3 = st.ign ∧ st.word.extractLsb' 4 4 = 0#4 ∧
    (st.word.extractLsb' 8 8).toNat = st.errCode.toNat ∧ st.word.extractLsb' 16 16 = 0#16) ∧
  (ErrCode.toNat .noError = 0x00 ∧ ErrCode.toNat .illegalCmd = 0x01 ∧ ErrCode.toNat .badHandle = 0x02 ∧
    ErrCode.toNat .handleInUse = 0x03 ∧ ErrCode.toNat .wrongHandle = 0x04 ∧ ErrCode.toNat .badParam = 0x05 ∧
    ErrCode.toNat .unsupportedLength = 0x06 ∧ ErrCode.toNat .blockSize = 0x07 ∧ ErrCode.toNat .dimension = 0x08 ∧
    ErrCode.toNat .misaligned = 0x09 ∧ ErrCode.toNat .outOfRange = 0x0A ∧ ErrCode.toNat .overlap = 0x0B ∧
    ErrCode.toNat .noResources = 0x0C)

/-- R245, R291: a host write of v to CTRL. With bit 31 = 0 it sets the two enables from bits 0 and 1 and ignores the other
bits; no command is started, stopped or changed. With bit 31 = 1 it is the soft reset: registers take their reset values
(both enables end at 0) and every slot becomes FREE; a command in progress is aborted with neither DONE nor ERR; data
memory is unchanged, but for the write footprint of an aborted command. The model's reading are the clauses on data
memory (log entry 15), and that a range has no value where the slot does not give the numbers of its formula (log entry
14). -/
def Obligations.CtrlWrite : Prop :=
  ∀ (s : State) (v : Word),
    (v.getLsbD 31 = false → ∃ t, hostStep (wr 0x004 v) s = .next t ∧ t.ctrl = ⟨v.getLsbD 0, v.getLsbD 1⟩ ∧
      t = { s with ctrl := t.ctrl, last := t.last }) ∧
    (v.getLsbD 31 = true → ∃ t, hostStep (wr 0x004 v) s = .next t ∧ t.status.word = 0#32 ∧ t.ctrl.word = 0#32 ∧
      t.errCmd = 0#32 ∧ t.result0 = 0#32 ∧ (∀ k : Fin 8, t.args[k] = 0#32) ∧ (∀ h, t.slot h = .free) ∧
      t.privFree = s.params.privWords ∧
      (s.status.busy = false → SameMemory s t) ∧
      (s.latchedFootprint.wf = none → SameMemory s t) ∧
      (∀ r, s.latchedFootprint.wf = some r → SameMemoryOutside s t r.base r.size))

/-- R290: hardware reset while the machine runs: every register at its reset value, every slot FREE, the pool free, irq
low. What data memory and the latch hold afterwards is unspecified and not stated. That the reset is one event is the
model's choice (log entry 16). -/
def Obligations.HardwareReset : Prop :=
  ∀ s : State, ∃ t, hostStep .hwReset s = .next t ∧ t.ctrl.word = 0#32 ∧ t.status.word = 0#32 ∧ t.errCmd = 0#32 ∧
    t.result0 = 0#32 ∧ (∀ k : Fin 8, t.args[k] = 0#32) ∧ (∀ h, t.slot h = .free) ∧
    t.privFree = s.params.privWords ∧ t.irq = false

/-- R22 to R33, R290: what every register reads as after reset, with every parameter at the spec's default, the model's
choice (log entry 1). -/
def Obligations.RegistersAfterReset : Prop :=
  State.reset.readReg (regAt 0x000) = 0x53414607#32 ∧ State.reset.readReg (regAt 0x004) = 0x00000000#32 ∧
  State.reset.readReg (regAt 0x008) = 0x00000000#32 ∧ State.reset.readReg (regAt 0x00C) = 0x00000000#32 ∧
  State.reset.readReg (regAt 0x010) = 0x00000000#32 ∧ State.reset.readReg (regAt 0x014) = 0x00000000#32 ∧
  State.reset.readReg (regAt 0x018) = 0x00000010#32 ∧ State.reset.readReg (regAt 0x01C) = 0x00010000#32 ∧
  State.reset.readReg (regAt 0x020) = 0x00800000#32 ∧ State.reset.readReg (regAt 0x024) = 0x00800000#32 ∧
  State.reset.readReg (regAt 0x028) = 0x00000100#32 ∧
  (∀ k < 8, State.reset.readReg (regAt (0x040 + 4 * k)) = 0x00000000#32) ∧ State.reset.irq = false ∧
  (∀ h, State.reset.slot h = .free)

/-- R22 to R34, R247: register accesses. One that is not 32 bits wide or not aligned is refused; a write to a reserved
offset or to a read-only register changes nothing; a read has no side effect on any register, slot or byte, and returns
what the register at that offset holds: ID, CTRL, STATUS, CMD (0), ERR_CMD, RESULT0, the parameters and PRIV_FREE, the
argument registers, and 0 at every reserved offset. -/
def Obligations.RegisterAccess : Prop :=
  (∀ (s : State) (o w : Nat) (v : Word), w ≠ 4 ∨ o % 4 ≠ 0 →
    hostStep (.readReg o w) s = .refused .registerAccessNotAlignedWord ∧
      hostStep (.writeReg o w v) s = .refused .registerAccessNotAlignedWord) ∧
  (∀ (s : State) (o : Nat) (v : Word), o % 4 = 0 →
    o = 0x000 ∨ (0x010 ≤ o ∧ o < 0x040) ∨ (0x060 ≤ o ∧ o < 0x100) → hostStep (wr o v) s = .next s) ∧
  (∀ (s : State) (o : Nat), o % 4 = 0 → o < 0x100 →
    ∃ t, hostStep (rd o) s = .next t ∧ t = { s with hostValue := t.hostValue, last := t.last, older := t.older } ∧
      t.hostValue =
        if o = 0x000 then 0x53414607
        else if o = 0x004 then s.ctrl.ieDone.toNat + 2 * s.ctrl.ieErr.toNat
        else if o = 0x008 then
          s.status.busy.toNat + 2 * s.status.done.toNat + 4 * s.status.err.toNat + 8 * s.status.ign.toNat +
            256 * s.status.errCode.toNat
        else if o = 0x010 then s.errCmd.toNat
        else if o = 0x014 then s.result0.toNat
        else if o = 0x018 then s.numHandles % 2 ^ 32
        else if o = 0x01C then s.params.fftNmax % 2 ^ 32
        else if o = 0x020 then s.params.privWords % 2 ^ 32
        else if o = 0x024 then (s.params.privWords - (s.handles.map Handle.req).sum) % 2 ^ 32
        else if o = 0x028 then s.params.maxChannels % 2 ^ 32
        else if 0x040 ≤ o ∧ o < 0x060 then (s.args[(o - 0x040) / 4]?.getD 0#32).toNat
        else 0)

/-- R28, R29, R30, R32: no step changes a parameter, so the registers that read one never change. -/
def Obligations.ParametersNeverChange : Prop :=
  ∀ s t : State, step s = .next t → SameParams s t ∧
    t.readReg (regAt 0x018) = BitVec.ofNat 32 s.numHandles ∧ t.readReg (regAt 0x01C) = BitVec.ofNat 32 s.params.fftNmax ∧
    t.readReg (regAt 0x020) = BitVec.ofNat 32 s.params.privWords ∧
    t.readReg (regAt 0x028) = BitVec.ofNat 32 s.params.maxChannels

/-- R35, R270: irq is high exactly while an enabled source is pending, in the bits of STATUS and CTRL. -/
def Obligations.IrqLevel : Prop :=
  (∀ s : State, s.irq =
    ((s.status.word.getLsbD 1 && s.ctrl.word.getLsbD 0) ||
      ((s.status.word.getLsbD 2 || s.status.word.getLsbD 3) && s.ctrl.word.getLsbD 1))) ∧
  State.reset.irq = false

/-- R61: data memory is little-endian, at every width. -/
def Obligations.LittleEndian : Prop :=
  (∀ (s : State) (a n : Nat), s.memRead a n = ∑ j ∈ Finset.range n, (s.readByte (a + j)).toNat * 2 ^ (8 * j)) ∧
  (∀ (s : State) (a n v : Nat),
    (∀ j < n, ((s.memWrite a n v).readByte (a + j)).toNat = v / 2 ^ (8 * j) % 2 ^ 8) ∧
    (∀ x, x < a ∨ a + n ≤ x → (s.memWrite a n v).readByte x = s.readByte x) ∧
    (s.memWrite a n v).memRead a n = v % 2 ^ (8 * n))

/-- R300, R71: a host access to data memory inside the memory. It faults exactly where one of its bytes lies in the
footprint of a command whose end the host has not observed; every other access is performed: a read returns the memory
value and changes nothing, a write changes the bytes written and nothing else. -/
def Obligations.HostMemoryAccess : Prop :=
  ∀ (s : State) (a n v : Nat), a + n ≤ s.params.dmemBytes →
    ((∃ fp ∈ s.watched, ∃ j < n, fp.touches (a + j) = true) →
      hostStep (.readMem a n) s = .fault .footprintRace ∧ hostStep (.writeMem a n v) s = .fault .footprintRace) ∧
    ((∀ fp ∈ s.watched, ∀ j < n, fp.touches (a + j) = false) →
      hostStep (.readMem a n) s = .next { s with hostValue := s.memRead a n } ∧
        hostStep (.writeMem a n v) s = .next (s.memWrite a n v))

/-- R74, R300: which footprints are watched. Acceptance watches the accepted command's beside those watched before; a
read of STATUS with BUSY = 0 ends every watch, one with BUSY = 1 none; an interrupt that rises for the end of the last
command, when it ends or by a write to CTRL, ends the watch of that command and no other (log entry 14); a soft reset
ends none (log entry 15); a hardware reset ends every watch (log entry 16); and no other access ends one. R65: the ranges
of every command, performed or rejected, on every kind of slot that gives their numbers; on a slot that is not of the
command's own kind, and of an illegal word, they are the model's reading (log entry 14). -/
def Obligations.WatchedFootprints : Prop :=
  (∀ s : State, s.watched = s.last.toList ++ s.older) ∧
  (∀ (s : State) (w : Word), s.status.busy = false → s.status.err = false →
    ∃ t, hostStep (wr 0x00C w) s = .next t ∧ t.last = some t.latchedFootprint ∧ t.older = s.watched ∧
      (∀ i, decode w = .ok i → t.latchedFootprint = footprintOf i (s.slot i.hid) s.args) ∧
      ∀ e, decode w = .error e → t.latchedFootprint = ⟨none, none⟩) ∧
  (∀ s : State, ∃ t, hostStep (rd 0x008) s = .next t ∧
    t.watched = (if s.status.busy = true then s.watched else [])) ∧
  (∀ s t : State, engineStep s = .next t →
    t.older = s.older ∧ t.last = (if s.irq = false ∧ t.irqForEnd = true then none else s.last)) ∧
  (∀ (s : State) (v : Word), v.getLsbD 31 = false → ∃ t, hostStep (wr 0x004 v) s = .next t ∧
    t.older = s.older ∧ t.last = (if s.irq = false ∧ t.irqForEnd = true then none else s.last)) ∧
  (∀ (s : State) (v : Word), v.getLsbD 31 = true →
    ∃ t, hostStep (wr 0x004 v) s = .next t ∧ t.last = s.last ∧ t.older = s.older) ∧
  (∀ s : State, ∃ t, hostStep .hwReset s = .next t ∧ t.watched = []) ∧
  (∀ (a : HostAccess) (s t : State), hostStep a s = .next t → a ≠ rd 0x008 → (∀ v, a ≠ wr 0x004 v) →
    (∀ v, a ≠ wr 0x00C v) → a ≠ .hwReset → t.last = s.last ∧ t.older = s.older) ∧
  (∀ (h n : Nat) (slot : Handle) (a : ArgFile), slot = .rfft n ∨ slot = .cfft n →
    footprintOf (.rfftForward h) slot a = .between (argAt a 0) (4 * n) (argAt a 1) (8 * (n / 2 + 1)) ∧
    footprintOf (.rfftBackward h) slot a = .between (argAt a 0) (8 * (n / 2 + 1)) (argAt a 1) (4 * n) ∧
    footprintOf (.cfftForward h) slot a = .between (argAt a 0) (8 * n) (argAt a 1) (8 * n) ∧
    footprintOf (.cfftBackward h) slot a = .between (argAt a 0) (8 * n) (argAt a 1) (8 * n)) ∧
  (∀ (h hop nb nIn nOut : Nat) (slot : Handle) (a : ArgFile),
    (∃ c st, slot = .stft c st ∧ hop = c.hop ∧ nb = c.win / 2 + 1 ∧ nIn = c.nIn ∧ nOut = c.nOut) ∨
      (∃ c st, slot = .qmf c st ∧ hop = c.hop ∧ nb = qmfNBands c.hop c.hyb ∧ nIn = c.nIn ∧ nOut = c.nOut) →
    (∀ i ∈ [Instr.stftForward h, .qmfAnalysis h], footprintOf i slot a =
      .between (argAt a 0) (4 * nIn * argAt a 1) (argAt a 2) (8 * nb * nIn * (argAt a 1 / hop))) ∧
    (∀ i ∈ [Instr.stftBackward h, .qmfSynthesis h], footprintOf i slot a =
      .between (argAt a 0) (8 * nb * nOut * (argAt a 1 / hop)) (argAt a 2) (4 * nOut * argAt a 1)) ∧
    footprintOf (.qmfGetCentreFreqs h) slot a = ⟨none, some ⟨argAt a 2, 4 * nb⟩⟩) ∧
  (∀ (h : Nat) (c : ConvCfg) (st : ConvState) (a : ArgFile),
    footprintOf (.convApply h) (.conv c st) a =
      .between (argAt a 0) (4 * c.nIn * c.block) (argAt a 1) (4 * c.nOut * c.block) ∧
    (∀ i ∈ [Instr.stftForward h, .qmfAnalysis h],
      footprintOf i (.conv c st) a = ⟨some ⟨argAt a 0, 4 * c.nIn * argAt a 1⟩, none⟩) ∧
    (∀ i ∈ [Instr.stftBackward h, .qmfSynthesis h],
      footprintOf i (.conv c st) a = ⟨none, some ⟨argAt a 2, 4 * c.nOut * argAt a 1⟩⟩)) ∧
  (∀ (h : Nat) (slot : Handle) (a : ArgFile),
    footprintOf (.convCreate h) slot a = ⟨some ⟨argAt a 4, 4 * argAt a 3 * argAt a 2 * argAt a 1⟩, none⟩ ∧
    ∀ i ∈ [Instr.rfftCreate h, .cfftCreate h, .destroy h, .stftCreate h, .stftChannelChange h, .stftFlush h,
      .qmfCreate h, .qmfGetDelay h, .qmfGetNbands h], footprintOf i slot a = ⟨none, none⟩)

/-- R6, R120: the supported lengths. Whatever the parameters, every one is even and from 2 to FFT_NMAX; and with the
default set, the model's choice among those R120 allows (log entry 1), they are the even numbers from 2 to FFT_NMAX with
no prime factor other than 2, 3 and 5, among them every power of two up to FFT_NMAX, and 80, 960 and 30720. -/
def Obligations.SupportedLengths : Prop :=
  (∀ (p : Params) (n : Nat), p.fftSupported n = true → n % 2 = 0 ∧ 2 ≤ n ∧ n ≤ p.fftNmax) ∧
  (∀ p : Params, p.lengths = .fiveSmooth → 30720 ≤ p.fftNmax → p.fftNmax < 2 ^ 64 →
    (∀ n, p.fftSupported n = true ↔
      n % 2 = 0 ∧ 2 ≤ n ∧ n ≤ p.fftNmax ∧ ∀ q, q.Prime → q ∣ n → q = 2 ∨ q = 3 ∨ q = 5) ∧
    (∀ k, 1 ≤ k → 2 ^ k ≤ p.fftNmax → p.fftSupported (2 ^ k) = true) ∧
    (∀ n ∈ [80, 960, 30720], p.fftSupported n = true)) ∧
  (∀ (p : Params) (l : List Nat), p.lengths = .listed l →
    ∀ n, p.fftSupported n = true ↔ n % 2 = 0 ∧ 2 ≤ n ∧ n ≤ p.fftNmax ∧ n ∈ l)

/-- R124, R127: RFFT_CREATE and CFFT_CREATE. HANDLE_IN_USE, BAD_PARAM and UNSUPPORTED_LENGTH in that order; otherwise the
slot becomes a handle of length N, and nothing else changes. -/
def Obligations.FftCreate : Prop :=
  ∀ (h : Nat) (s : State), h < s.numHandles →
    (s.slot h ≠ .free → Rejects (.rfftCreate h) s .handleInUse ∧ Rejects (.cfftCreate h) s .handleInUse) ∧
    (s.slot h = .free → s.arg 0 = 0 →
      Rejects (.rfftCreate h) s .badParam ∧ Rejects (.cfftCreate h) s .badParam) ∧
    (s.slot h = .free → s.arg 0 ≠ 0 → s.params.fftSupported (s.arg 0) = false →
      Rejects (.rfftCreate h) s .unsupportedLength ∧ Rejects (.cfftCreate h) s .unsupportedLength) ∧
    (s.slot h = .free → s.params.fftSupported (s.arg 0) = true →
      (∃ t, exec (.rfftCreate h) s = .next t ∧ SlotSet s t h ∧ t.slot h = .rfft (s.arg 0) ∧
        t.privFree = s.privFree) ∧
      (∃ t, exec (.cfftCreate h) s = .next t ∧ SlotSet s t h ∧ t.slot h = .cfft (s.arg 0) ∧
        t.privFree = s.privFree))

/-- R125: RFFT_FORWARD on two good buffers completes: bin k of the transform of the N samples at src stands at
dst + 8k, and no other byte, register or slot changes. -/
def Obligations.RfftForwardCompletes : Prop :=
  ∀ (h n : Nat) (s : State), h < s.numHandles → s.slot h = .rfft n →
    BuffersOk s (s.arg 0) (4 * n) (s.arg 1) (8 * (n / 2 + 1)) →
    ∃ t, exec (.rfftForward h) s = .next t ∧ BlockStored s t (s.arg 1) (8 * (n / 2 + 1)) ∧
      ∀ k < n / 2 + 1, t.loadC (s.arg 1 + 8 * k) =
        (rfft s.draws fftSite n ((List.range n).map fun j => s.loadF32 (s.arg 0 + 4 * j))).getD k c32Zero

/-- R126: RFFT_BACKWARD on two good buffers completes: sample k of the inverse of the N/2+1 bins at src stands at
dst + 4k, and no other byte, register or slot changes. -/
def Obligations.RfftBackwardCompletes : Prop :=
  ∀ (h n : Nat) (s : State), h < s.numHandles → s.slot h = .rfft n →
    BuffersOk s (s.arg 0) (8 * (n / 2 + 1)) (s.arg 1) (4 * n) →
    ∃ t, exec (.rfftBackward h) s = .next t ∧ BlockStored s t (s.arg 1) (4 * n) ∧
      ∀ k < n, t.loadF32 (s.arg 1 + 4 * k) =
        (irfft s.draws fftSite n ((List.range (n / 2 + 1)).map fun j => s.loadC (s.arg 0 + 8 * j))).getD k f32Zero

/-- R128, R129: CFFT_FORWARD and CFFT_BACKWARD on two good buffers complete: element k of the transform, or of the
inverse, of the N complex samples at src stands at dst + 8k, and no other byte, register or slot changes. -/
def Obligations.CfftCompletes : Prop :=
  ∀ (h n : Nat) (s : State), h < s.numHandles → s.slot h = .cfft n →
    BuffersOk s (s.arg 0) (8 * n) (s.arg 1) (8 * n) →
    (∃ t, exec (.cfftForward h) s = .next t ∧ BlockStored s t (s.arg 1) (8 * n) ∧
      ∀ k < n, t.loadC (s.arg 1 + 8 * k) =
        (cfft s.draws fftSite n ((List.range n).map fun j => s.loadC (s.arg 0 + 8 * j))).getD k c32Zero) ∧
    (∃ t, exec (.cfftBackward h) s = .next t ∧ BlockStored s t (s.arg 1) (8 * n) ∧
      ∀ k < n, t.loadC (s.arg 1 + 8 * k) =
        (icfft s.draws fftSite n ((List.range n).map fun j => s.loadC (s.arg 0 + 8 * j))).getD k c32Zero)

/-- R66 to R68, R263: MISALIGNED, then OUT_OF_RANGE, then OVERLAP, in the commands that read one buffer and write another
with no argument test before: the four transforms and CONV_APPLY. -/
def Obligations.BlockBufferErrors : Prop :=
  ∀ (h : Nat) (s : State), h < s.numHandles →
    (∀ n, s.slot h = .rfft n →
      BufferOutcome (.rfftForward h) s (s.arg 0) (4 * n) (s.arg 1) (8 * (n / 2 + 1)) ∧
      BufferOutcome (.rfftBackward h) s (s.arg 0) (8 * (n / 2 + 1)) (s.arg 1) (4 * n)) ∧
    (∀ n, s.slot h = .cfft n →
      BufferOutcome (.cfftForward h) s (s.arg 0) (8 * n) (s.arg 1) (8 * n) ∧
      BufferOutcome (.cfftBackward h) s (s.arg 0) (8 * n) (s.arg 1) (8 * n)) ∧
    (∀ c st, s.slot h = .conv c st →
      BufferOutcome (.convApply h) s (s.arg 0) (4 * c.nIn * c.block) (s.arg 1) (4 * c.nOut * c.block))

/-- R121: all commands share the four functions of FFT_NUM. Wherever a transform is defined its result is FFT_NUM's, so it
depends on the length and the input values only: not on the epoch of free values, and not on the command or the place in
it that asks. Where that is, is the model's reading of R122 and R123 (log entry 8). -/
def Obligations.TransformsAreDeterministic : Prop :=
  ∀ (e e' : Nat) (st st' : DrawSite) (n : Nat),
    (∀ x, transformDefined .rfft n x = true →
      rfft e st n x = Config.fft.rfftOut n x ∧ rfft e st n x = rfft e' st' n x) ∧
    (∀ x, transformDefined .irfft n (flatten x) = true →
      irfft e st n x = Config.fft.irfftOut n x ∧ irfft e st n x = irfft e' st' n x) ∧
    (∀ x, transformDefined .cfft n (flatten x) = true →
      cfft e st n x = Config.fft.cfftOut n x ∧ cfft e st n x = cfft e' st' n x) ∧
    (∀ x, transformDefined .icfft n (flatten x) = true →
      icfft e st n x = Config.fft.icfftOut n x ∧ icfft e st n x = icfft e' st' n x)

/-- R122: an all-zero input gives an all-zero output, zeros of either sign, in all four transforms (log entry 7). -/
def Obligations.ZeroTransform : Prop :=
  ∀ (e : Nat) (st : DrawSite) (n : Nat),
    (∀ x, allZero x = true → allZero (flatten (rfft e st n x)) = true) ∧
    (∀ x, allZero (flatten x) = true → allZero (irfft e st n x) = true) ∧
    (∀ x, allZero (flatten x) = true → allZero (flatten (cfft e st n x)) = true) ∧
    (∀ x, allZero (flatten x) = true → allZero (flatten (icfft e st n x)) = true)

/-- R126, D15: the real inverse ignores the imaginary parts of bins 0 and N/2: two inputs that differ there only, and are
finite, have the same inverse. That the computed inverse ignores them, and not only the ideal one, is the model's reading
(log entry 7), and so is where a result is FFT_NUM's (log entry 8). -/
def Obligations.ImaginaryEndsIgnored : Prop :=
  ∀ (e : Nat) (st : DrawSite) (n : Nat) (x y : List C32), x.length = y.length →
    (∀ k, (x.getD k c32Zero).re = (y.getD k c32Zero).re) →
    (∀ k, k ≠ 0 → k ≠ n / 2 → (x.getD k c32Zero).im = (y.getD k c32Zero).im) →
    transformDefined .irfft n (flatten x) = true → transformDefined .irfft n (flatten y) = true →
    irfft e st n x = irfft e st n y

/-- R151, R152: the window table, as the model computes it (log entry 11). All 1.0 for H = W; entry 0 is +0.0 for H ≠ W; and entry W/2 is 1.0 for W = 2H. -/
def Obligations.WindowTable : Prop :=
  (∀ w n, stftWin w w n = 0x3F800000#32) ∧
  (∀ w h, w ≠ h → stftWin w h 0 = 0x00000000#32) ∧
  (∀ h, 0 < h → stftWin (2 * h) h h = 0x3F800000#32)

/-- R123, R162: multiplying a finite value by 1.0 and adding +0.0 to a value that is not zero give the value back, so
with H = W the windowed segment of a buffer of finite samples is the buffer. -/
def Obligations.UnitArithmetic : Prop :=
  (∀ nan x : F32, f32IsFinite x = true → fmul nan x 0x3F800000#32 = x) ∧
  (∀ nan x : F32, f32IsFinite x = true → f32Mag x ≠ 0 → fadd nan 0x00000000#32 x = x) ∧
  (∀ (e : Nat) (st : DrawSite) (w : Nat) (buf : List F32), buf.length = w → allFinite buf = true →
    windowed e st w w buf = buf)

/-- R160: STFT_CREATE. Its tests in order; otherwise the slot becomes an STFT handle with every buffer element +0.0, and
nothing else changes. -/
def Obligations.StftCreate : Prop :=
  ∀ (h : Nat) (s : State), h < s.numHandles →
    (s.slot h ≠ .free → Rejects (.stftCreate h) s .handleInUse) ∧
    (s.slot h = .free →
      if s.arg 0 = 0 ∨ s.arg 1 = 0 ∨ s.arg 0 < s.arg 1 ∨ s.arg 0 % s.arg 1 ≠ 0 then Rejects (.stftCreate h) s .badParam
      else if s.arg 2 = 0 ∨ s.arg 3 = 0 then Rejects (.stftCreate h) s .badParam
      else if s.params.maxChannels < s.arg 2 ∨ s.params.maxChannels < s.arg 3 then Rejects (.stftCreate h) s .badParam
      else if s.params.fftSupported (s.arg 0) = false then Rejects (.stftCreate h) s .unsupportedLength
      else if s.privFree < (s.arg 2 + s.arg 3) * s.arg 0 then Rejects (.stftCreate h) s .noResources
      else Completes (.stftCreate h) s) ∧
    (s.slot h = .free → s.params.fftSupported (s.arg 0) = true → s.arg 1 ≠ 0 → s.arg 1 ≤ s.arg 0 →
      s.arg 0 % s.arg 1 = 0 → countOk s.params (s.arg 2) → countOk s.params (s.arg 3) → (s.arg 2 + s.arg 3) * s.arg 0 ≤ s.privFree →
      ∃ t, exec (.stftCreate h) s = .next t ∧ SlotSet s t h ∧
        t.slot h = .stft ⟨s.arg 0, s.arg 1, s.arg 2, s.arg 3⟩
          ⟨List.replicate (s.arg 2) (List.replicate (s.arg 0) 0x00000000#32),
            List.replicate (s.arg 3) (List.replicate (s.arg 0) 0x00000000#32)⟩)

/-- R162, R164, R191, R195, R263: BLOCK_SIZE, MISALIGNED, OUT_OF_RANGE and OVERLAP in that order, in the four stream
commands. -/
def Obligations.StreamErrors : Prop :=
  ∀ (h : Nat) (s : State), h < s.numHandles →
    (∀ c st, s.slot h = .stft c st →
      BlockOutcome (.stftForward h) s c.hop (s.arg 0) (4 * c.nIn * s.arg 1)
        (s.arg 2) (8 * (c.win / 2 + 1) * c.nIn * (s.arg 1 / c.hop)) ∧
      BlockOutcome (.stftBackward h) s c.hop (s.arg 0) (8 * (c.win / 2 + 1) * c.nOut * (s.arg 1 / c.hop))
        (s.arg 2) (4 * c.nOut * s.arg 1)) ∧
    (∀ c st, s.slot h = .qmf c st →
      BlockOutcome (.qmfAnalysis h) s c.hop (s.arg 0) (4 * c.nIn * s.arg 1)
        (s.arg 2) (8 * qmfNBands c.hop c.hyb * c.nIn * (s.arg 1 / c.hop)) ∧
      BlockOutcome (.qmfSynthesis h) s c.hop (s.arg 0) (8 * qmfNBands c.hop c.hyb * c.nOut * (s.arg 1 / c.hop))
        (s.arg 2) (4 * c.nOut * s.arg 1))

/-- R162, R63, R155: STFT_FORWARD on a positive multiple of the hop and two good buffers completes. Channel c of the slot's
analysis buffers becomes what its hops leave, and band b of slot k of channel c stands at
dst + 8((b * nIn + c) * T + k); the accumulators, the configuration and every other byte, register and slot are
unchanged. -/
def Obligations.StftForwardCompletes : Prop :=
  ∀ (h : Nat) (s : State) (cfg : StftCfg) (st : StftState), h < s.numHandles → s.slot h = .stft cfg st →
    s.arg 1 ≠ 0 → s.arg 1 % cfg.hop = 0 →
    BuffersOk s (s.arg 0) (4 * cfg.nIn * s.arg 1) (s.arg 2) (8 * (cfg.win / 2 + 1) * cfg.nIn * (s.arg 1 / cfg.hop)) →
    ∃ t inbuf, exec (.stftForward h) s = .next t ∧
      StreamStored s t h (s.arg 2) (8 * (cfg.win / 2 + 1) * cfg.nIn * (s.arg 1 / cfg.hop)) ∧
      t.slot h = .stft cfg { st with inbuf := inbuf } ∧ inbuf.length = cfg.nIn ∧
      ∀ c < cfg.nIn,
        let hops := (List.range (s.arg 1 / cfg.hop)).map fun k => (List.range cfg.hop).map fun n =>
          s.loadF32 (s.arg 0 + 4 * (c * s.arg 1 + k * cfg.hop) + 4 * n)
        let run := stftForwardChannel s.draws cfg c 0 (st.inbuf.getD c []) hops
        inbuf.getD c [] = run.1 ∧
        ∀ b < cfg.win / 2 + 1, ∀ k < s.arg 1 / cfg.hop,
          t.loadC (s.arg 2 + 8 * ((b * cfg.nIn + c) * (s.arg 1 / cfg.hop) + k)) = (run.2.getD k []).getD b c32Zero

/-- R162, R163: what the hops of one channel leave and give, hop by hop. Each hop drops the H oldest samples, appends the
H new ones, multiplies by the window and transforms; a block of several hops is its hops one after another; and the
buffer ends holding the last W samples of the stream, whatever their values (the model's reading, log entry 9). The
windowed segment of a finite buffer is, sample by sample, fmul of the sample and the window entry. -/
def Obligations.StftForwardHops : Prop :=
  ∀ (e : Nat) (cfg : StftCfg) (chan slot : Nat) (buf : List F32),
    (∀ (new : List F32) (rest : List (List F32)),
      (stftForwardChannel e cfg chan slot buf (new :: rest)).2.head? =
        some (rfft e ⟨.stftRfft, slot, chan, 0, 0⟩ cfg.win
          (windowed e ⟨.analysisWindow, slot, chan, 0, 0⟩ cfg.win cfg.hop (buf.drop cfg.hop ++ new)))) ∧
    (∀ front back : List (List F32),
      stftForwardChannel e cfg chan slot buf (front ++ back) =
        ((stftForwardChannel e cfg chan (slot + front.length) (stftForwardChannel e cfg chan slot buf front).1 back).1,
          (stftForwardChannel e cfg chan slot buf front).2 ++
            (stftForwardChannel e cfg chan (slot + front.length)
              (stftForwardChannel e cfg chan slot buf front).1 back).2)) ∧
    (∀ hops : List (List F32), buf.length = cfg.win → cfg.hop ≤ cfg.win → (∀ x ∈ hops, x.length = cfg.hop) →
      (stftForwardChannel e cfg chan slot buf hops).1 =
        (buf ++ hops.flatten).drop ((buf ++ hops.flatten).length - cfg.win)) ∧
    (∀ (st : DrawSite) (w h : Nat) (seg : List F32), allFinite seg = true → (windowed e st w h seg).length = w ∧
      ∀ n < w, (windowed e st w h seg).getD n f32Zero =
        fmul (nanOf (freeF32 e st n)) (seg.getD n f32Zero) (stftWin w h n))

/-- R164, R63, R155: STFT_BACKWARD on a positive multiple of the hop and two good buffers completes. Channel c of the
slot's accumulators becomes what its slots leave, and sample n of channel c stands at dst + 4(c * blockSize + n); the
analysis buffers, the configuration and every other byte, register and slot are unchanged. -/
def Obligations.StftBackwardCompletes : Prop :=
  ∀ (h : Nat) (s : State) (cfg : StftCfg) (st : StftState), h < s.numHandles → s.slot h = .stft cfg st →
    s.arg 1 ≠ 0 → s.arg 1 % cfg.hop = 0 →
    BuffersOk s (s.arg 0) (8 * (cfg.win / 2 + 1) * cfg.nOut * (s.arg 1 / cfg.hop)) (s.arg 2) (4 * cfg.nOut * s.arg 1) →
    ∃ t acc, exec (.stftBackward h) s = .next t ∧ StreamStored s t h (s.arg 2) (4 * cfg.nOut * s.arg 1) ∧
      t.slot h = .stft cfg { st with acc := acc } ∧ acc.length = cfg.nOut ∧
      ∀ c < cfg.nOut,
        let bins := (List.range (s.arg 1 / cfg.hop)).map fun k => (List.range (cfg.win / 2 + 1)).map fun b =>
          s.loadC (s.arg 0 + 8 * ((b * cfg.nOut + c) * (s.arg 1 / cfg.hop) + k))
        let run := stftBackwardChannel s.draws cfg c 0 (st.acc.getD c []) bins
        acc.getD c [] = run.1 ∧
        ∀ n < s.arg 1, t.loadF32 (s.arg 2 + 4 * (c * s.arg 1 + n)) = run.2.getD n f32Zero

/-- R164, R165: what the slots of one channel leave and give, slot by slot. Each slot adds the windowed inverse transform
to the accumulator, emits its first H samples, drops them, and appends H zeros; so a block of several slots is its slots
one after another, and each emits H samples. The overlap-add of finite values is, sample by sample, fadd of the
accumulator and of fmul of the sample and the window entry. -/
def Obligations.StftBackwardHops : Prop :=
  ∀ (e : Nat) (cfg : StftCfg) (chan slot : Nat) (acc : List F32),
    (∀ (bins : List C32),
      let sum := overlapAdd e ⟨.overlapAdd, slot, 0, chan, 0⟩ cfg.win cfg.hop acc
        (irfft e ⟨.stftIrfft, slot, 0, chan, 0⟩ cfg.win bins)
      stftBackwardChannel e cfg chan slot acc [bins] =
        (sum.drop cfg.hop ++ List.replicate cfg.hop 0x00000000#32, sum.take cfg.hop)) ∧
    (∀ front back : List (List C32),
      stftBackwardChannel e cfg chan slot acc (front ++ back) =
        ((stftBackwardChannel e cfg chan (slot + front.length) (stftBackwardChannel e cfg chan slot acc front).1 back).1,
          (stftBackwardChannel e cfg chan slot acc front).2 ++
            (stftBackwardChannel e cfg chan (slot + front.length)
              (stftBackwardChannel e cfg chan slot acc front).1 back).2)) ∧
    (∀ bins : List (List C32), cfg.hop ≤ cfg.win →
      (stftBackwardChannel e cfg chan slot acc bins).2.length = cfg.hop * bins.length) ∧
    (∀ (st : DrawSite) (w h : Nat) (a y : List F32), allFinite a = true → allFinite y = true →
      (overlapAdd e st w h a y).length = w ∧ ∀ n < w, (overlapAdd e st w h a y).getD n f32Zero =
        fadd (nanOf (freeF32 e st n)) (a.getD n f32Zero)
          (fmul (nanOf (freeF32 e st n)) (y.getD n f32Zero) (stftWin w h n)))

/-- R166: STFT_CHANNEL_CHANGE. Its tests in order, the words the handle already holds counting as free; otherwise the
channel counts change, window and hop do not, and every channel has a buffer of W values, which are unspecified. -/
def Obligations.StftChannelChange : Prop :=
  ∀ (h : Nat) (s : State) (cfg : StftCfg) (st : StftState), h < s.numHandles → s.slot h = .stft cfg st →
    (if s.arg 0 = 0 ∨ s.arg 1 = 0 ∨ s.params.maxChannels < s.arg 0 ∨ s.params.maxChannels < s.arg 1 then
        Rejects (.stftChannelChange h) s .badParam
      else if s.privFree + (cfg.nIn + cfg.nOut) * cfg.win < (s.arg 0 + s.arg 1) * cfg.win then
        Rejects (.stftChannelChange h) s .noResources
      else Completes (.stftChannelChange h) s) ∧
    (countOk s.params (s.arg 0) → countOk s.params (s.arg 1) →
      (s.arg 0 + s.arg 1) * cfg.win ≤ s.privFree + (cfg.nIn + cfg.nOut) * cfg.win →
      ∃ t st', exec (.stftChannelChange h) s = .next t ∧ SlotSet s t h ∧
        t.slot h = .stft ⟨cfg.win, cfg.hop, s.arg 0, s.arg 1⟩ st' ∧ shaped st'.inbuf (s.arg 0) cfg.win ∧
        shaped st'.acc (s.arg 1) cfg.win)

/-- R168: STFT_FLUSH completes on every STFT handle: every element of every buffer is +0.0, and the configuration and
PRIV_FREE are unchanged; flushing again leaves the slot as one flush leaves it; any other slot is WRONG_HANDLE. -/
def Obligations.StftFlush : Prop :=
  ∀ (h : Nat) (s : State), h < s.numHandles →
    ((∀ cfg st, s.slot h ≠ .stft cfg st) → Rejects (.stftFlush h) s .wrongHandle) ∧
    (∀ cfg st, s.slot h = .stft cfg st →
      ∃ t, exec (.stftFlush h) s = .next t ∧ SlotSet s t h ∧
        t.slot h = .stft cfg ⟨List.replicate cfg.nIn (List.replicate cfg.win 0x00000000#32),
          List.replicate cfg.nOut (List.replicate cfg.win 0x00000000#32)⟩ ∧
        t.privFree = s.privFree ∧
        ∃ u, exec (.stftFlush h) t = .next u ∧ u.slot h = t.slot h ∧ u.privFree = t.privFree)

/-- R181 to R183: what the spec says of the OPEN QMF parameters: some hop of at least 1 is accepted and 0 is not; every
accepted hop has at least one band, more with the hybrid stage than without, and a delay that is not less with it. That
some accepted hop fits a 32-bit argument is the model's reading (log entry 12). -/
def Obligations.QmfParameters : Prop :=
  (∃ hop, 1 ≤ hop ∧ hop < 2 ^ 32 ∧ qmfHopOk hop = true) ∧ qmfHopOk 0 = false ∧
  ∀ hop, qmfHopOk hop = true → 1 ≤ qmfNBands hop false ∧ qmfNBands hop false < qmfNBands hop true ∧
    qmfDelay hop false ≤ qmfDelay hop true

/-- R190: QMF_CREATE. Its tests in order; otherwise the slot becomes a QMF handle with every channel in the state
QMF_INIT gives, and nothing else changes. How many words a handle needs is OPEN, so the last test stands in the
conclusion. -/
def Obligations.QmfCreate : Prop :=
  ∀ (h : Nat) (s : State), h < s.numHandles →
    (s.slot h ≠ .free → Rejects (.qmfCreate h) s .handleInUse) ∧
    (s.slot h = .free →
      if s.arg 0 = 0 ∨ 1 < s.arg 1 then Rejects (.qmfCreate h) s .badParam
      else if s.arg 2 = 0 ∨ s.arg 3 = 0 ∨ s.params.maxChannels < s.arg 2 ∨ s.params.maxChannels < s.arg 3 then
        Rejects (.qmfCreate h) s .badParam
      else if qmfHopOk (s.arg 0) = false then Rejects (.qmfCreate h) s .unsupportedLength
      else if s.privFree < qmfStateWords (s.arg 0) (s.arg 1 == 1) (s.arg 2) (s.arg 3) then
        Rejects (.qmfCreate h) s .noResources
      else Completes (.qmfCreate h) s) ∧
    (s.slot h = .free → qmfHopOk (s.arg 0) = true → s.arg 1 ≤ 1 → countOk s.params (s.arg 2) → countOk s.params (s.arg 3) →
      ∃ t, exec (.qmfCreate h) s = .next t ∧
        if qmfStateWords (s.arg 0) (s.arg 1 == 1) (s.arg 2) (s.arg 3) ≤ s.privFree then
          SlotSet s t h ∧
            t.slot h = .qmf ⟨s.arg 0, s.arg 1 == 1, s.arg 2, s.arg 3⟩
              ⟨List.replicate (s.arg 2) (qmfAna0 (s.arg 0) (s.arg 1 == 1)),
                List.replicate (s.arg 3) (qmfSyn0 (s.arg 0) (s.arg 1 == 1))⟩
        else RejectedFrom s t .noResources ∧ SameSlots s t)

/-- R191, R63: QMF_ANALYSIS on a positive multiple of the hop and two good buffers completes. Channel c of the analysis
states becomes what its hops leave, and band b of slot k of channel c stands at dst + 8((b * nIn + c) * T + k); the
synthesis states, the configuration and every other byte, register and slot are unchanged. -/
def Obligations.QmfAnalysisCompletes : Prop :=
  ∀ (h : Nat) (s : State) (cfg : QmfCfg) (st : QmfState), h < s.numHandles → s.slot h = .qmf cfg st →
    s.arg 1 ≠ 0 → s.arg 1 % cfg.hop = 0 →
    BuffersOk s (s.arg 0) (4 * cfg.nIn * s.arg 1)
      (s.arg 2) (8 * qmfNBands cfg.hop cfg.hyb * cfg.nIn * (s.arg 1 / cfg.hop)) →
    ∃ t ana, exec (.qmfAnalysis h) s = .next t ∧
      StreamStored s t h (s.arg 2) (8 * qmfNBands cfg.hop cfg.hyb * cfg.nIn * (s.arg 1 / cfg.hop)) ∧
      t.slot h = .qmf cfg { st with ana := ana } ∧ ana.length = cfg.nIn ∧
      ∀ c < cfg.nIn,
        let hops := (List.range (s.arg 1 / cfg.hop)).map fun k => (List.range cfg.hop).map fun n =>
          s.loadF32 (s.arg 0 + 4 * (c * s.arg 1 + k * cfg.hop) + 4 * n)
        let run := qmfAnalysisChannel s.draws cfg c 0 (st.ana.getD c []) hops
        ana.getD c [] = run.1 ∧
        ∀ b < qmfNBands cfg.hop cfg.hyb, ∀ k < s.arg 1 / cfg.hop,
          t.loadC (s.arg 2 + 8 * ((b * cfg.nIn + c) * (s.arg 1 / cfg.hop) + k)) = (run.2.getD k []).getD b c32Zero

/-- R195, R63: QMF_SYNTHESIS on a positive multiple of the hop and two good buffers completes. Channel c of the synthesis
states becomes what its slots leave, and sample n of channel c stands at dst + 4(c * blockSize + n); the analysis
states, the configuration and every other byte, register and slot are unchanged. -/
def Obligations.QmfSynthesisCompletes : Prop :=
  ∀ (h : Nat) (s : State) (cfg : QmfCfg) (st : QmfState), h < s.numHandles → s.slot h = .qmf cfg st →
    s.arg 1 ≠ 0 → s.arg 1 % cfg.hop = 0 →
    BuffersOk s (s.arg 0) (8 * qmfNBands cfg.hop cfg.hyb * cfg.nOut * (s.arg 1 / cfg.hop))
      (s.arg 2) (4 * cfg.nOut * s.arg 1) →
    ∃ t syn, exec (.qmfSynthesis h) s = .next t ∧ StreamStored s t h (s.arg 2) (4 * cfg.nOut * s.arg 1) ∧
      t.slot h = .qmf cfg { st with syn := syn } ∧ syn.length = cfg.nOut ∧
      ∀ c < cfg.nOut,
        let bins := (List.range (s.arg 1 / cfg.hop)).map fun k => (List.range (qmfNBands cfg.hop cfg.hyb)).map fun b =>
          s.loadC (s.arg 0 + 8 * ((b * cfg.nOut + c) * (s.arg 1 / cfg.hop) + k))
        let run := qmfSynthesisChannel s.draws cfg c 0 (st.syn.getD c []) bins
        syn.getD c [] = run.1 ∧
        ∀ n < s.arg 1, t.loadF32 (s.arg 2 + 4 * (c * s.arg 1 + n)) = run.2.getD n f32Zero

/-- R189, R191, R195: a block of several hops is its hops one after another, in both directions, and one hop of finite
data is one QMF_ANA_HOP or QMF_SYN_HOP of the channel's state; so how a stream is cut into blocks does not matter to the
states and the values of finite data (log entry 13). -/
def Obligations.QmfBlocksCompose : Prop :=
  ∀ (e : Nat) (cfg : QmfCfg) (chan slot : Nat) (st : List Word),
    (∀ front back : List (List F32),
      qmfAnalysisChannel e cfg chan slot st (front ++ back) =
        ((qmfAnalysisChannel e cfg chan (slot + front.length) (qmfAnalysisChannel e cfg chan slot st front).1 back).1,
          (qmfAnalysisChannel e cfg chan slot st front).2 ++
            (qmfAnalysisChannel e cfg chan (slot + front.length)
              (qmfAnalysisChannel e cfg chan slot st front).1 back).2)) ∧
    (∀ front back : List (List C32),
      qmfSynthesisChannel e cfg chan slot st (front ++ back) =
        ((qmfSynthesisChannel e cfg chan (slot + front.length) (qmfSynthesisChannel e cfg chan slot st front).1 back).1,
          (qmfSynthesisChannel e cfg chan slot st front).2 ++
            (qmfSynthesisChannel e cfg chan (slot + front.length)
              (qmfSynthesisChannel e cfg chan slot st front).1 back).2)) ∧
    (∀ x : List F32, allFinite x = true →
      qmfAnalysisChannel e cfg chan slot st [x] =
        ((Config.qmf.anaHop cfg.hop cfg.hyb st x).1, [(Config.qmf.anaHop cfg.hop cfg.hyb st x).2])) ∧
    (∀ x : List C32, allFinite (flatten x) = true →
      qmfSynthesisChannel e cfg chan slot st [x] = Config.qmf.synHop cfg.hop cfg.hyb st x) ∧
    (∀ (e' slot' : Nat) (hops : List (List F32)), (∀ x ∈ hops, allFinite x = true) →
      qmfAnalysisChannel e cfg chan slot st hops = qmfAnalysisChannel e' cfg chan slot' st hops) ∧
    (∀ (e' slot' : Nat) (bins : List (List C32)), (∀ x ∈ bins, allFinite (flatten x) = true) →
      qmfSynthesisChannel e cfg chan slot st bins = qmfSynthesisChannel e' cfg chan slot' st bins)

/-- R192, R193, R27: the two queries. Any slot that is no QMF handle is WRONG_HANDLE; on a QMF handle RESULT0 becomes the
delay, or the band count, and nothing else changes; and it is the same for every call and every handle with the same hop
and mode. A value that 32 bits cannot hold leaves RESULT0 free (log entry 18). -/
def Obligations.QmfQueries : Prop :=
  (∀ (h : Nat) (s : State), h < s.numHandles →
    ((∀ cfg st, s.slot h ≠ .qmf cfg st) →
      Rejects (.qmfGetDelay h) s .wrongHandle ∧ Rejects (.qmfGetNbands h) s .wrongHandle) ∧
    (∀ cfg st, s.slot h = .qmf cfg st →
      (∃ t, exec (.qmfGetDelay h) s = .next t ∧ ResultSet s t ∧
        (qmfDelay cfg.hop cfg.hyb < 2 ^ 32 → t.result0.toNat = qmfDelay cfg.hop cfg.hyb)) ∧
      (∃ t, exec (.qmfGetNbands h) s = .next t ∧ ResultSet s t ∧
        (qmfNBands cfg.hop cfg.hyb < 2 ^ 32 → t.result0.toNat = qmfNBands cfg.hop cfg.hyb)))) ∧
  (∀ (h h' : Nat) (s s' : State) (cfg cfg' : QmfCfg) (st st' : QmfState), h < s.numHandles → h' < s'.numHandles →
    s.slot h = .qmf cfg st → s'.slot h' = .qmf cfg' st' → cfg.hop = cfg'.hop → cfg.hyb = cfg'.hyb →
    (∃ t t', exec (.qmfGetDelay h) s = .next t ∧ exec (.qmfGetDelay h') s' = .next t' ∧ t.result0 = t'.result0) ∧
    ∃ t t', exec (.qmfGetNbands h) s = .next t ∧ exec (.qmfGetNbands h') s' = .next t' ∧ t.result0 = t'.result0)

/-- R194: QMF_GET_CENTRE_FREQS. Its tests in order; otherwise centre frequency k stands at dst + 4k, and no other byte,
register or slot changes. A sample rate is good when its bits are a finite value above zero. The band count is OPEN, so
the tests that need it stand in the conclusion. -/
def Obligations.QmfGetCentreFreqs : Prop :=
  ∀ (h : Nat) (s : State) (cfg : QmfCfg) (st : QmfState), h < s.numHandles → s.slot h = .qmf cfg st →
    (if s.arg 0 = 0 ∨ 0x7F800000 ≤ s.arg 0 then Rejects (.qmfGetCentreFreqs h) s .badParam
      else if s.arg 1 ≠ qmfNBands cfg.hop cfg.hyb then Rejects (.qmfGetCentreFreqs h) s .dimension
      else if s.arg 2 % 4 ≠ 0 then Rejects (.qmfGetCentreFreqs h) s .misaligned
      else if s.params.dmemBytes < s.arg 2 + 4 * qmfNBands cfg.hop cfg.hyb then
        Rejects (.qmfGetCentreFreqs h) s .outOfRange
      else Completes (.qmfGetCentreFreqs h) s) ∧
    (s.arg 0 ≠ 0 → s.arg 0 < 0x7F800000 → s.arg 2 % 4 = 0 →
      ∃ t, exec (.qmfGetCentreFreqs h) s = .next t ∧
        if s.arg 1 ≠ qmfNBands cfg.hop cfg.hyb then RejectedFrom s t .dimension ∧ SameSlots s t ∧ SameMemory s t
        else if s.params.dmemBytes < s.arg 2 + 4 * qmfNBands cfg.hop cfg.hyb then
          RejectedFrom s t .outOfRange ∧ SameSlots s t ∧ SameMemory s t
        else BlockStored s t (s.arg 2) (4 * qmfNBands cfg.hop cfg.hyb) ∧
          ∀ k < qmfNBands cfg.hop cfg.hyb,
            t.loadF32 (s.arg 2 + 4 * k) = Config.qmf.cf cfg.hop cfg.hyb (BitVec.ofNat 32 (s.arg 0)) k)

/-- R211, R220: CONV_CREATE. Its tests in order; otherwise the slot becomes a CONV handle whose partition spectra are
those of the filter matrix, with zero history and pos 0, and nothing else changes. -/
def Obligations.ConvCreate : Prop :=
  ∀ (h : Nat) (s : State) (cfg : ConvCfg), h < s.numHandles →
    cfg = ⟨s.arg 0, s.arg 1, s.arg 2, s.arg 3⟩ →
    (s.slot h ≠ .free → Rejects (.convCreate h) s .handleInUse) ∧
    (s.slot h = .free →
      if cfg.block = 0 ∨ cfg.len = 0 ∨ cfg.nIn = 0 ∨ cfg.nOut = 0 then Rejects (.convCreate h) s .badParam
      else if s.params.maxChannels < cfg.nIn ∨ s.params.maxChannels < cfg.nOut then Rejects (.convCreate h) s .badParam
      else if s.params.fftSupported (2 * cfg.block) = false then Rejects (.convCreate h) s .unsupportedLength
      else if s.arg 4 % 4 ≠ 0 then Rejects (.convCreate h) s .misaligned
      else if s.params.dmemBytes < s.arg 4 + 4 * cfg.nOut * cfg.nIn * cfg.len then Rejects (.convCreate h) s .outOfRange
      else if s.privFree < 2 * (cfg.block + 1) * ceilDiv cfg.len cfg.block * cfg.nIn * cfg.nOut +
          2 * (cfg.block + 1) * ceilDiv cfg.len cfg.block * cfg.nIn + cfg.block * cfg.nIn then
        Rejects (.convCreate h) s .noResources
      else Completes (.convCreate h) s) ∧
    (s.slot h = .free → cfg.len ≠ 0 → countOk s.params cfg.nIn → countOk s.params cfg.nOut →
      s.params.fftSupported (2 * cfg.block) = true → s.arg 4 % 4 = 0 →
      s.arg 4 + 4 * cfg.nOut * cfg.nIn * cfg.len ≤ s.params.dmemBytes →
      2 * (cfg.block + 1) * ceilDiv cfg.len cfg.block * cfg.nIn * cfg.nOut +
        2 * (cfg.block + 1) * ceilDiv cfg.len cfg.block * cfg.nIn + cfg.block * cfg.nIn ≤ s.privFree →
      ∃ t st, exec (.convCreate h) s = .next t ∧ SlotSet s t h ∧ t.slot h = .conv cfg st ∧ st.pos = 0 ∧
        st.prev = List.replicate cfg.nIn (List.replicate cfg.block 0x00000000#32) ∧
        st.hist = List.replicate cfg.nIn (List.replicate (ceilDiv cfg.len cfg.block)
          (List.replicate (cfg.block + 1) ⟨0x00000000#32, 0x00000000#32⟩)) ∧
        ∀ o < cfg.nOut, ∀ i < cfg.nIn, ∀ p < ceilDiv cfg.len cfg.block,
          ((st.hf.getD o []).getD i []).getD p [] =
            rfft s.draws ⟨.convPartition, p, i, o, 0⟩ (2 * cfg.block) ((List.range (2 * cfg.block)).map fun m =>
              if m < cfg.block ∧ p * cfg.block + m < cfg.len then
                s.loadF32 (s.arg 4 + 4 * ((o * cfg.nIn + i) * cfg.len + (p * cfg.block + m)))
              else 0x00000000#32))

/-- R222, R223: CONV_APPLY on two good buffers completes. The spectrum of the previous and the new block of input channel
i goes into history slot pos and into no other; the new block becomes the previous one; pos advances modulo P; and
sample n of output channel o, at dst + 4(o * B + n), is sample B + n of the inverse transform of the spectrum accumulated
from +0.0 with the partitions outer and the input channels inner. The filter spectra, the configuration and every other
byte, register and slot are unchanged. One step of the accumulation of finite spectra is, bin by bin, cadd of the bin and
of cmul of the filter bin and the input bin. -/
def Obligations.ConvApplyCompletes : Prop :=
  (∀ (e : Nat) (st : DrawSite) (bins : Nat) (y hf x : List C32), y.all c32IsFinite = true → hf.all c32IsFinite = true →
    x.all c32IsFinite = true → (macStep e st bins y hf x).length = bins ∧
      ∀ k < bins, (macStep e st bins y hf x).getD k c32Zero =
        cadd ⟨nanOf (freeC32 e st k).re, nanOf (freeC32 e st k).im⟩ (y.getD k c32Zero)
          (cmul ⟨nanOf (freeC32 e st k).re, nanOf (freeC32 e st k).im⟩ (hf.getD k c32Zero) (x.getD k c32Zero))) ∧
  ∀ (h : Nat) (s : State) (cfg : ConvCfg) (st : ConvState), h < s.numHandles → s.slot h = .conv cfg st →
    BuffersOk s (s.arg 0) (4 * cfg.nIn * cfg.block) (s.arg 1) (4 * cfg.nOut * cfg.block) →
    ∃ t hist, exec (.convApply h) s = .next t ∧ StreamStored s t h (s.arg 1) (4 * cfg.nOut * cfg.block) ∧
      t.slot h = .conv cfg
        { hf := st.hf
          prev := (List.range cfg.nIn).map fun i => (List.range cfg.block).map fun n =>
            s.loadF32 (s.arg 0 + 4 * (i * cfg.block) + 4 * n)
          hist := hist
          pos := (st.pos + 1) % ceilDiv cfg.len cfg.block } ∧
      hist.length = cfg.nIn ∧
      (∀ i < cfg.nIn, hist.getD i [] = (st.hist.getD i []).set st.pos
        (rfft s.draws ⟨.convInput, 0, i, 0, 0⟩ (2 * cfg.block)
          (st.prev.getD i [] ++ (List.range cfg.block).map fun n => s.loadF32 (s.arg 0 + 4 * (i * cfg.block) + 4 * n)))) ∧
      ∀ o < cfg.nOut, ∀ n < cfg.block,
        t.loadF32 (s.arg 1 + 4 * (o * cfg.block + n)) =
          (irfft s.draws ⟨.convInverse, 0, 0, o, 0⟩ (2 * cfg.block)
            (((List.range (ceilDiv cfg.len cfg.block)).flatMap fun p => (List.range cfg.nIn).map fun i => (p, i)).foldl
              (fun y pi => macStep s.draws ⟨.convMac, pi.1, pi.2, o, 0⟩ (cfg.block + 1) y
                (((st.hf.getD o []).getD pi.2 []).getD pi.1 [])
                ((hist.getD pi.2 []).getD
                  ((st.pos + ceilDiv cfg.len cfg.block - pi.1) % ceilDiv cfg.len cfg.block) []))
              (List.replicate (cfg.block + 1) ⟨0x00000000#32, 0x00000000#32⟩))).getD (cfg.block + n) f32Zero

/-- R212, R224: the source's configuration (L = 512, B = 2048, 32 inputs, 40 outputs) needs 5,442,112 private words and is
accepted on an empty pool at every aligned filter address in range, whatever the parameters within the bounds of R6; the
default pool then has 2,946,496 words free. -/
def Obligations.SourceConvolutionAccepted : Prop :=
  ∀ (h : Nat) (s : State), s.ParamsOk → h < s.numHandles → (∀ k, s.slot k = .free) → s.arg 0 = 2048 → s.arg 1 = 512 →
    s.arg 2 = 32 → s.arg 3 = 40 → s.arg 4 % 4 = 0 → s.arg 4 + 2621440 ≤ s.params.dmemBytes →
    ∃ t, exec (.convCreate h) s = .next t ∧ CompletedFrom s t ∧ (t.slot h).req = 5442112 ∧
      t.privFree = s.params.privWords - 5442112 ∧ (s.params = Config.defaultParams → t.privFree = 2946496)

/-- R240: DESTROY. A FREE slot is WRONG_HANDLE; any other slot becomes FREE, nothing else changes, and its private words
return to the pool (which holds all words the slots own, as every reachable state has it). -/
def Obligations.Destroy : Prop :=
  ∀ (h : Nat) (s : State), h < s.numHandles →
    (s.slot h = .free → Rejects (.destroy h) s .wrongHandle) ∧
    (s.slot h ≠ .free →
      ∃ t, exec (.destroy h) s = .next t ∧ SlotSet s t h ∧ t.slot h = .free ∧
        (s.PoolOk → t.privFree = s.privFree + (s.slot h).req) ∧ Rejects (.destroy h) t .wrongHandle)

/-- R33, R46, R65, R27: the frame of every command. Whatever a command does, it changes no parameter, no argument register,
no enable, no slot but its own, no byte outside its write footprint, and RESULT0 only if it is a query. What the latch
then holds is unspecified (R36) and not stated. -/
def Obligations.CommandFrame : Prop :=
  ∀ (i : Instr) (s t : State), exec i s = .next t →
    SameHostSide s t ∧ SameOtherSlots s t i.hid ∧ (i.isQuery = false → t.result0 = s.result0) ∧
      ∀ a, (∀ r, (footprintOf i (s.slot i.hid) s.latch.arg).wf = some r → r.contains a = false) →
        t.readByte a = s.readByte a

/-- R40, R161, R221: only the create commands, DESTROY and STFT_CHANNEL_CHANGE change the kind or the configuration of a
slot; no other changes it or the filter set of a CONV handle, and no command moves a hop or a window. -/
def Obligations.ConfigurationIsImmutable : Prop :=
  ∀ (i : Instr) (s t : State), exec i s = .next t →
    (i.reconfigures = false → ∀ h, (s.slot h).sameConfig (t.slot h)) ∧
    (∀ h c st d st', s.slot h = .stft c st → t.slot h = .stft d st' → d.win = c.win ∧ d.hop = c.hop)

/-- R31: PRIV_FREE changes only when a create, destroy or channel-change command completes, or at reset, when it becomes
PRIV_WORDS: no other command, no rejection, and no other access of the host changes it. -/
def Obligations.PrivFreeChanges : Prop :=
  (∀ (i : Instr) (s t : State), exec i s = .next t → i.reconfigures = false → t.privFree = s.privFree) ∧
  (∀ (i : Instr) (s t : State) (c : ErrCode), exec i s = .next t → s.status.err = false → RejectedFrom s t c →
    t.privFree = s.privFree) ∧
  (∀ (a : HostAccess) (s t : State), hostStep a s = .next t → a ≠ .hwReset →
    (∀ v, a = wr 0x004 v → v.getLsbD 31 = false) → t.privFree = s.privFree) ∧
  (∀ (s : State) (v : Word), v.getLsbD 31 = true →
    (∃ t, hostStep (wr 0x004 v) s = .next t ∧ t.privFree = s.params.privWords) ∧
      ∃ t, hostStep .hwReset s = .next t ∧ t.privFree = s.params.privWords)

/-- Every step from a state that meets the invariant ends in one: parameters within their bounds (R6), slots well formed (R40 to R45), the pool not overdrawn
(R31, R41), data memory canonical, STATUS legal (R24, R264), the command in progress watched (R300). -/
def Obligations.InvariantKept : Prop :=
  ∀ s t : State, s.Inv → step s = .next t → t.Inv

/-- The invariant holds after reset. -/
def Obligations.InvariantAtReset : Prop := State.reset.Inv
end

