-- ==== Sys2Proof/Laws/State.lean ====
section
/-! SUPPORT. One lemma per field of State per update, so that no later proof unfolds a record update. -/

namespace Sys2Proof.Machine

@[simp] theorem State.setSlot_params (s : State) (h : Nat) (hd : Handle) :
    (s.setSlot h hd).params = s.params := rfl
@[simp] theorem State.setSlot_ctrl (s : State) (h : Nat) (hd : Handle) :
    (s.setSlot h hd).ctrl = s.ctrl := rfl
@[simp] theorem State.setSlot_status (s : State) (h : Nat) (hd : Handle) :
    (s.setSlot h hd).status = s.status := rfl
@[simp] theorem State.setSlot_errCmd (s : State) (h : Nat) (hd : Handle) :
    (s.setSlot h hd).errCmd = s.errCmd := rfl
@[simp] theorem State.setSlot_result0 (s : State) (h : Nat) (hd : Handle) :
    (s.setSlot h hd).result0 = s.result0 := rfl
@[simp] theorem State.setSlot_args (s : State) (h : Nat) (hd : Handle) :
    (s.setSlot h hd).args = s.args := rfl
@[simp] theorem State.setSlot_latch (s : State) (h : Nat) (hd : Handle) :
    (s.setSlot h hd).latch = s.latch := rfl
@[simp] theorem State.setSlot_handles (s : State) (h : Nat) (hd : Handle) :
    (s.setSlot h hd).handles = s.handles.set h hd := rfl
@[simp] theorem State.setSlot_mem (s : State) (h : Nat) (hd : Handle) :
    (s.setSlot h hd).mem = s.mem := rfl
@[simp] theorem State.setSlot_memEpoch (s : State) (h : Nat) (hd : Handle) :
    (s.setSlot h hd).memEpoch = s.memEpoch := rfl
@[simp] theorem State.setSlot_last (s : State) (h : Nat) (hd : Handle) :
    (s.setSlot h hd).last = s.last := rfl
@[simp] theorem State.setSlot_older (s : State) (h : Nat) (hd : Handle) :
    (s.setSlot h hd).older = s.older := rfl
@[simp] theorem State.setSlot_host (s : State) (h : Nat) (hd : Handle) :
    (s.setSlot h hd).host = s.host := rfl
@[simp] theorem State.setSlot_hostValue (s : State) (h : Nat) (hd : Handle) :
    (s.setSlot h hd).hostValue = s.hostValue := rfl
@[simp] theorem State.setSlot_delay (s : State) (h : Nat) (hd : Handle) :
    (s.setSlot h hd).delay = s.delay := rfl
@[simp] theorem State.setSlot_draws (s : State) (h : Nat) (hd : Handle) :
    (s.setSlot h hd).draws = s.draws := rfl

@[simp] theorem State.memWrite_params (s : State) (a n v : Nat) :
    (s.memWrite a n v).params = s.params := rfl
@[simp] theorem State.memWrite_ctrl (s : State) (a n v : Nat) :
    (s.memWrite a n v).ctrl = s.ctrl := rfl
@[simp] theorem State.memWrite_status (s : State) (a n v : Nat) :
    (s.memWrite a n v).status = s.status := rfl
@[simp] theorem State.memWrite_errCmd (s : State) (a n v : Nat) :
    (s.memWrite a n v).errCmd = s.errCmd := rfl
@[simp] theorem State.memWrite_result0 (s : State) (a n v : Nat) :
    (s.memWrite a n v).result0 = s.result0 := rfl
@[simp] theorem State.memWrite_args (s : State) (a n v : Nat) :
    (s.memWrite a n v).args = s.args := rfl
@[simp] theorem State.memWrite_latch (s : State) (a n v : Nat) :
    (s.memWrite a n v).latch = s.latch := rfl
@[simp] theorem State.memWrite_handles (s : State) (a n v : Nat) :
    (s.memWrite a n v).handles = s.handles := rfl
@[simp] theorem State.memWrite_mem (s : State) (a n v : Nat) :
    (s.memWrite a n v).mem = memStoreBytes s.mem a (bytesOf v n) := rfl
@[simp] theorem State.memWrite_memEpoch (s : State) (a n v : Nat) :
    (s.memWrite a n v).memEpoch = s.memEpoch := rfl
@[simp] theorem State.memWrite_last (s : State) (a n v : Nat) :
    (s.memWrite a n v).last = s.last := rfl
@[simp] theorem State.memWrite_older (s : State) (a n v : Nat) :
    (s.memWrite a n v).older = s.older := rfl
@[simp] theorem State.memWrite_host (s : State) (a n v : Nat) :
    (s.memWrite a n v).host = s.host := rfl
@[simp] theorem State.memWrite_hostValue (s : State) (a n v : Nat) :
    (s.memWrite a n v).hostValue = s.hostValue := rfl
@[simp] theorem State.memWrite_delay (s : State) (a n v : Nat) :
    (s.memWrite a n v).delay = s.delay := rfl
@[simp] theorem State.memWrite_draws (s : State) (a n v : Nat) :
    (s.memWrite a n v).draws = s.draws := rfl

@[simp] theorem State.storeF32s_params (s : State) (a : Nat) (x : List F32) :
    (s.storeF32s a x).params = s.params := rfl
@[simp] theorem State.storeF32s_ctrl (s : State) (a : Nat) (x : List F32) :
    (s.storeF32s a x).ctrl = s.ctrl := rfl
@[simp] theorem State.storeF32s_status (s : State) (a : Nat) (x : List F32) :
    (s.storeF32s a x).status = s.status := rfl
@[simp] theorem State.storeF32s_errCmd (s : State) (a : Nat) (x : List F32) :
    (s.storeF32s a x).errCmd = s.errCmd := rfl
@[simp] theorem State.storeF32s_result0 (s : State) (a : Nat) (x : List F32) :
    (s.storeF32s a x).result0 = s.result0 := rfl
@[simp] theorem State.storeF32s_args (s : State) (a : Nat) (x : List F32) :
    (s.storeF32s a x).args = s.args := rfl
@[simp] theorem State.storeF32s_latch (s : State) (a : Nat) (x : List F32) :
    (s.storeF32s a x).latch = s.latch := rfl
@[simp] theorem State.storeF32s_handles (s : State) (a : Nat) (x : List F32) :
    (s.storeF32s a x).handles = s.handles := rfl
@[simp] theorem State.storeF32s_mem (s : State) (a : Nat) (x : List F32) :
    (s.storeF32s a x).mem = memStoreWords s.mem a x := rfl
@[simp] theorem State.storeF32s_memEpoch (s : State) (a : Nat) (x : List F32) :
    (s.storeF32s a x).memEpoch = s.memEpoch := rfl
@[simp] theorem State.storeF32s_last (s : State) (a : Nat) (x : List F32) :
    (s.storeF32s a x).last = s.last := rfl
@[simp] theorem State.storeF32s_older (s : State) (a : Nat) (x : List F32) :
    (s.storeF32s a x).older = s.older := rfl
@[simp] theorem State.storeF32s_host (s : State) (a : Nat) (x : List F32) :
    (s.storeF32s a x).host = s.host := rfl
@[simp] theorem State.storeF32s_hostValue (s : State) (a : Nat) (x : List F32) :
    (s.storeF32s a x).hostValue = s.hostValue := rfl
@[simp] theorem State.storeF32s_delay (s : State) (a : Nat) (x : List F32) :
    (s.storeF32s a x).delay = s.delay := rfl
@[simp] theorem State.storeF32s_draws (s : State) (a : Nat) (x : List F32) :
    (s.storeF32s a x).draws = s.draws := rfl

@[simp] theorem State.storeCs_params (s : State) (a : Nat) (x : List C32) :
    (s.storeCs a x).params = s.params := rfl
@[simp] theorem State.storeCs_ctrl (s : State) (a : Nat) (x : List C32) :
    (s.storeCs a x).ctrl = s.ctrl := rfl
@[simp] theorem State.storeCs_status (s : State) (a : Nat) (x : List C32) :
    (s.storeCs a x).status = s.status := rfl
@[simp] theorem State.storeCs_errCmd (s : State) (a : Nat) (x : List C32) :
    (s.storeCs a x).errCmd = s.errCmd := rfl
@[simp] theorem State.storeCs_result0 (s : State) (a : Nat) (x : List C32) :
    (s.storeCs a x).result0 = s.result0 := rfl
@[simp] theorem State.storeCs_args (s : State) (a : Nat) (x : List C32) :
    (s.storeCs a x).args = s.args := rfl
@[simp] theorem State.storeCs_latch (s : State) (a : Nat) (x : List C32) :
    (s.storeCs a x).latch = s.latch := rfl
@[simp] theorem State.storeCs_handles (s : State) (a : Nat) (x : List C32) :
    (s.storeCs a x).handles = s.handles := rfl
@[simp] theorem State.storeCs_mem (s : State) (a : Nat) (x : List C32) :
    (s.storeCs a x).mem = memStoreWords s.mem a (flatten x) := rfl
@[simp] theorem State.storeCs_memEpoch (s : State) (a : Nat) (x : List C32) :
    (s.storeCs a x).memEpoch = s.memEpoch := rfl
@[simp] theorem State.storeCs_last (s : State) (a : Nat) (x : List C32) :
    (s.storeCs a x).last = s.last := rfl
@[simp] theorem State.storeCs_older (s : State) (a : Nat) (x : List C32) :
    (s.storeCs a x).older = s.older := rfl
@[simp] theorem State.storeCs_host (s : State) (a : Nat) (x : List C32) :
    (s.storeCs a x).host = s.host := rfl
@[simp] theorem State.storeCs_hostValue (s : State) (a : Nat) (x : List C32) :
    (s.storeCs a x).hostValue = s.hostValue := rfl
@[simp] theorem State.storeCs_delay (s : State) (a : Nat) (x : List C32) :
    (s.storeCs a x).delay = s.delay := rfl
@[simp] theorem State.storeCs_draws (s : State) (a : Nat) (x : List C32) :
    (s.storeCs a x).draws = s.draws := rfl

@[simp] theorem State.observeIrq_params (b s : State) :
    (b.observeIrq s).params = s.params := rfl
@[simp] theorem State.observeIrq_ctrl (b s : State) :
    (b.observeIrq s).ctrl = s.ctrl := rfl
@[simp] theorem State.observeIrq_status (b s : State) :
    (b.observeIrq s).status = s.status := rfl
@[simp] theorem State.observeIrq_errCmd (b s : State) :
    (b.observeIrq s).errCmd = s.errCmd := rfl
@[simp] theorem State.observeIrq_result0 (b s : State) :
    (b.observeIrq s).result0 = s.result0 := rfl
@[simp] theorem State.observeIrq_args (b s : State) :
    (b.observeIrq s).args = s.args := rfl
@[simp] theorem State.observeIrq_latch (b s : State) :
    (b.observeIrq s).latch = s.latch := rfl
@[simp] theorem State.observeIrq_handles (b s : State) :
    (b.observeIrq s).handles = s.handles := rfl
@[simp] theorem State.observeIrq_mem (b s : State) :
    (b.observeIrq s).mem = s.mem := rfl
@[simp] theorem State.observeIrq_memEpoch (b s : State) :
    (b.observeIrq s).memEpoch = s.memEpoch := rfl
@[simp] theorem State.observeIrq_last (b s : State) :
    (b.observeIrq s).last = if !b.irq && s.irqForEnd then none else s.last := rfl
@[simp] theorem State.observeIrq_older (b s : State) :
    (b.observeIrq s).older = s.older := rfl
@[simp] theorem State.observeIrq_host (b s : State) :
    (b.observeIrq s).host = s.host := rfl
@[simp] theorem State.observeIrq_hostValue (b s : State) :
    (b.observeIrq s).hostValue = s.hostValue := rfl
@[simp] theorem State.observeIrq_delay (b s : State) :
    (b.observeIrq s).delay = s.delay := rfl
@[simp] theorem State.observeIrq_draws (b s : State) :
    (b.observeIrq s).draws = s.draws := rfl

@[simp] theorem State.reject_params (s : State) (c : ErrCode) :
    (s.reject c).params = s.params := rfl
@[simp] theorem State.reject_ctrl (s : State) (c : ErrCode) :
    (s.reject c).ctrl = s.ctrl := rfl
@[simp] theorem State.reject_status (s : State) (c : ErrCode) :
    (s.reject c).status = { s.status with busy := false, err := true, errCode := c } := rfl
@[simp] theorem State.reject_errCmd (s : State) (c : ErrCode) :
    (s.reject c).errCmd = s.latch.cmd := rfl
@[simp] theorem State.reject_result0 (s : State) (c : ErrCode) :
    (s.reject c).result0 = s.result0 := rfl
@[simp] theorem State.reject_args (s : State) (c : ErrCode) :
    (s.reject c).args = s.args := rfl
@[simp] theorem State.reject_latch (s : State) (c : ErrCode) :
    (s.reject c).latch = freeLatch s.draws := rfl
@[simp] theorem State.reject_handles (s : State) (c : ErrCode) :
    (s.reject c).handles = s.handles := rfl
@[simp] theorem State.reject_mem (s : State) (c : ErrCode) :
    (s.reject c).mem = s.mem := rfl
@[simp] theorem State.reject_memEpoch (s : State) (c : ErrCode) :
    (s.reject c).memEpoch = s.memEpoch := rfl
@[simp] theorem State.reject_older (s : State) (c : ErrCode) :
    (s.reject c).older = s.older := rfl
@[simp] theorem State.reject_host (s : State) (c : ErrCode) :
    (s.reject c).host = s.host := rfl
@[simp] theorem State.reject_hostValue (s : State) (c : ErrCode) :
    (s.reject c).hostValue = s.hostValue := rfl
@[simp] theorem State.reject_delay (s : State) (c : ErrCode) :
    (s.reject c).delay = s.delay := rfl
@[simp] theorem State.reject_draws (s : State) (c : ErrCode) :
    (s.reject c).draws = s.draws + 1 := rfl

@[simp] theorem State.complete_params (s : State) :
    s.complete.params = s.params := rfl
@[simp] theorem State.complete_ctrl (s : State) :
    s.complete.ctrl = s.ctrl := rfl
@[simp] theorem State.complete_status (s : State) :
    s.complete.status = { s.status with busy := false, done := true } := rfl
@[simp] theorem State.complete_errCmd (s : State) :
    s.complete.errCmd = s.errCmd := rfl
@[simp] theorem State.complete_result0 (s : State) :
    s.complete.result0 = s.result0 := rfl
@[simp] theorem State.complete_args (s : State) :
    s.complete.args = s.args := rfl
@[simp] theorem State.complete_latch (s : State) :
    s.complete.latch = freeLatch s.draws := rfl
@[simp] theorem State.complete_handles (s : State) :
    s.complete.handles = s.handles := rfl
@[simp] theorem State.complete_mem (s : State) :
    s.complete.mem = s.mem := rfl
@[simp] theorem State.complete_memEpoch (s : State) :
    s.complete.memEpoch = s.memEpoch := rfl
@[simp] theorem State.complete_older (s : State) :
    s.complete.older = s.older := rfl
@[simp] theorem State.complete_host (s : State) :
    s.complete.host = s.host := rfl
@[simp] theorem State.complete_hostValue (s : State) :
    s.complete.hostValue = s.hostValue := rfl
@[simp] theorem State.complete_delay (s : State) :
    s.complete.delay = s.delay := rfl
@[simp] theorem State.complete_draws (s : State) :
    s.complete.draws = s.draws + 1 := rfl

@[simp] theorem State.acknowledge_params (s : State) (v : Word) :
    (s.acknowledge v).params = s.params := rfl
@[simp] theorem State.acknowledge_ctrl (s : State) (v : Word) :
    (s.acknowledge v).ctrl = s.ctrl := rfl
@[simp] theorem State.acknowledge_status (s : State) (v : Word) :
    (s.acknowledge v).status = s.status.writeOneToClear v := rfl
@[simp] theorem State.acknowledge_errCmd (s : State) (v : Word) :
    (s.acknowledge v).errCmd = s.errCmd := rfl
@[simp] theorem State.acknowledge_result0 (s : State) (v : Word) :
    (s.acknowledge v).result0 = s.result0 := rfl
@[simp] theorem State.acknowledge_args (s : State) (v : Word) :
    (s.acknowledge v).args = s.args := rfl
@[simp] theorem State.acknowledge_latch (s : State) (v : Word) :
    (s.acknowledge v).latch = s.latch := rfl
@[simp] theorem State.acknowledge_handles (s : State) (v : Word) :
    (s.acknowledge v).handles = s.handles := rfl
@[simp] theorem State.acknowledge_mem (s : State) (v : Word) :
    (s.acknowledge v).mem = s.mem := rfl
@[simp] theorem State.acknowledge_memEpoch (s : State) (v : Word) :
    (s.acknowledge v).memEpoch = s.memEpoch := rfl
@[simp] theorem State.acknowledge_last (s : State) (v : Word) :
    (s.acknowledge v).last = s.last := rfl
@[simp] theorem State.acknowledge_older (s : State) (v : Word) :
    (s.acknowledge v).older = s.older := rfl
@[simp] theorem State.acknowledge_host (s : State) (v : Word) :
    (s.acknowledge v).host = s.host := rfl
@[simp] theorem State.acknowledge_hostValue (s : State) (v : Word) :
    (s.acknowledge v).hostValue = s.hostValue := rfl
@[simp] theorem State.acknowledge_delay (s : State) (v : Word) :
    (s.acknowledge v).delay = s.delay := rfl
@[simp] theorem State.acknowledge_draws (s : State) (v : Word) :
    (s.acknowledge v).draws = s.draws := rfl

@[simp] theorem State.accept_params (s : State) (w : Word) :
    (s.accept w).params = s.params := rfl
@[simp] theorem State.accept_ctrl (s : State) (w : Word) :
    (s.accept w).ctrl = s.ctrl := rfl
@[simp] theorem State.accept_status (s : State) (w : Word) :
    (s.accept w).status = { s.status with done := false, busy := true } := rfl
@[simp] theorem State.accept_errCmd (s : State) (w : Word) :
    (s.accept w).errCmd = s.errCmd := rfl
@[simp] theorem State.accept_result0 (s : State) (w : Word) :
    (s.accept w).result0 = s.result0 := rfl
@[simp] theorem State.accept_args (s : State) (w : Word) :
    (s.accept w).args = s.args := rfl
@[simp] theorem State.accept_latch (s : State) (w : Word) :
    (s.accept w).latch = ⟨w, s.args⟩ := rfl
@[simp] theorem State.accept_handles (s : State) (w : Word) :
    (s.accept w).handles = s.handles := rfl
@[simp] theorem State.accept_mem (s : State) (w : Word) :
    (s.accept w).mem = s.mem := rfl
@[simp] theorem State.accept_memEpoch (s : State) (w : Word) :
    (s.accept w).memEpoch = s.memEpoch := rfl
@[simp] theorem State.accept_last (s : State) (w : Word) :
    (s.accept w).last = some (s.accept w).latchedFootprint := rfl
@[simp] theorem State.accept_older (s : State) (w : Word) :
    (s.accept w).older = s.watched := rfl
@[simp] theorem State.accept_host (s : State) (w : Word) :
    (s.accept w).host = s.host := rfl
@[simp] theorem State.accept_hostValue (s : State) (w : Word) :
    (s.accept w).hostValue = s.hostValue := rfl
@[simp] theorem State.accept_delay (s : State) (w : Word) :
    (s.accept w).delay = Config.tCmd s.draws := rfl
@[simp] theorem State.accept_draws (s : State) (w : Word) :
    (s.accept w).draws = s.draws + 1 := rfl

@[simp] theorem State.resetRegisters_params (s : State) :
    s.resetRegisters.params = s.params := rfl
@[simp] theorem State.resetRegisters_ctrl (s : State) :
    s.resetRegisters.ctrl = ⟨false, false⟩ := rfl
@[simp] theorem State.resetRegisters_status (s : State) :
    s.resetRegisters.status = ⟨false, false, false, false, .noError⟩ := rfl
@[simp] theorem State.resetRegisters_errCmd (s : State) :
    s.resetRegisters.errCmd = 0#32 := rfl
@[simp] theorem State.resetRegisters_result0 (s : State) :
    s.resetRegisters.result0 = 0#32 := rfl
@[simp] theorem State.resetRegisters_args (s : State) :
    s.resetRegisters.args = Vector.replicate 8 0#32 := rfl
@[simp] theorem State.resetRegisters_latch (s : State) :
    s.resetRegisters.latch = freeLatch s.draws := rfl
@[simp] theorem State.resetRegisters_handles (s : State) :
    s.resetRegisters.handles = List.replicate s.numHandles .free := rfl
@[simp] theorem State.resetRegisters_mem (s : State) :
    s.resetRegisters.mem = s.mem := rfl
@[simp] theorem State.resetRegisters_memEpoch (s : State) :
    s.resetRegisters.memEpoch = s.memEpoch := rfl
@[simp] theorem State.resetRegisters_last (s : State) :
    s.resetRegisters.last = s.last := rfl
@[simp] theorem State.resetRegisters_older (s : State) :
    s.resetRegisters.older = s.older := rfl
@[simp] theorem State.resetRegisters_host (s : State) :
    s.resetRegisters.host = s.host := rfl
@[simp] theorem State.resetRegisters_hostValue (s : State) :
    s.resetRegisters.hostValue = s.hostValue := rfl
@[simp] theorem State.resetRegisters_delay (s : State) :
    s.resetRegisters.delay = 0 := rfl
@[simp] theorem State.resetRegisters_draws (s : State) :
    s.resetRegisters.draws = s.draws + 1 := rfl

@[simp] theorem State.softReset_params (s : State) :
    s.softReset.params = s.params := rfl
@[simp] theorem State.softReset_ctrl (s : State) :
    s.softReset.ctrl = ⟨false, false⟩ := rfl
@[simp] theorem State.softReset_status (s : State) :
    s.softReset.status = ⟨false, false, false, false, .noError⟩ := rfl
@[simp] theorem State.softReset_errCmd (s : State) :
    s.softReset.errCmd = 0#32 := rfl
@[simp] theorem State.softReset_result0 (s : State) :
    s.softReset.result0 = 0#32 := rfl
@[simp] theorem State.softReset_args (s : State) :
    s.softReset.args = Vector.replicate 8 0#32 := rfl
@[simp] theorem State.softReset_latch (s : State) :
    s.softReset.latch = freeLatch s.draws := rfl
@[simp] theorem State.softReset_handles (s : State) :
    s.softReset.handles = List.replicate s.numHandles .free := rfl
@[simp] theorem State.softReset_mem (s : State) :
    s.softReset.mem = s.memAfterAbort := rfl
@[simp] theorem State.softReset_memEpoch (s : State) :
    s.softReset.memEpoch = s.memEpoch := rfl
@[simp] theorem State.softReset_last (s : State) :
    s.softReset.last = s.last := rfl
@[simp] theorem State.softReset_older (s : State) :
    s.softReset.older = s.older := rfl
@[simp] theorem State.softReset_host (s : State) :
    s.softReset.host = s.host := rfl
@[simp] theorem State.softReset_hostValue (s : State) :
    s.softReset.hostValue = s.hostValue := rfl
@[simp] theorem State.softReset_delay (s : State) :
    s.softReset.delay = 0 := rfl
@[simp] theorem State.softReset_draws (s : State) :
    s.softReset.draws = s.draws + 1 := rfl

@[simp] theorem State.hardReset_params (s : State) :
    s.hardReset.params = s.params := rfl
@[simp] theorem State.hardReset_ctrl (s : State) :
    s.hardReset.ctrl = ⟨false, false⟩ := rfl
@[simp] theorem State.hardReset_status (s : State) :
    s.hardReset.status = ⟨false, false, false, false, .noError⟩ := rfl
@[simp] theorem State.hardReset_errCmd (s : State) :
    s.hardReset.errCmd = 0#32 := rfl
@[simp] theorem State.hardReset_result0 (s : State) :
    s.hardReset.result0 = 0#32 := rfl
@[simp] theorem State.hardReset_args (s : State) :
    s.hardReset.args = Vector.replicate 8 0#32 := rfl
@[simp] theorem State.hardReset_latch (s : State) :
    s.hardReset.latch = freeLatch s.draws := rfl
@[simp] theorem State.hardReset_handles (s : State) :
    s.hardReset.handles = List.replicate s.numHandles .free := rfl
@[simp] theorem State.hardReset_mem (s : State) :
    s.hardReset.mem = [] := rfl
@[simp] theorem State.hardReset_memEpoch (s : State) :
    s.hardReset.memEpoch = s.draws := rfl
@[simp] theorem State.hardReset_last (s : State) :
    s.hardReset.last = none := rfl
@[simp] theorem State.hardReset_older (s : State) :
    s.hardReset.older = [] := rfl
@[simp] theorem State.hardReset_host (s : State) :
    s.hardReset.host = s.host := rfl
@[simp] theorem State.hardReset_hostValue (s : State) :
    s.hardReset.hostValue = s.hostValue := rfl
@[simp] theorem State.hardReset_delay (s : State) :
    s.hardReset.delay = 0 := rfl
@[simp] theorem State.hardReset_draws (s : State) :
    s.hardReset.draws = s.draws + 1 := rfl

end Sys2Proof.Machine
end

