-- ==== Sys2Proof/Laws/Memory.lean ====
section
/-! SUPPORT. What the operations on data memory do: a read after a write, the bytes a write leaves alone, and the
canonical form. -/

namespace Sys2Proof.Machine

@[simp] theorem memLookup_memStore (m : List Host.Cell) (a : Nat) (v : Byte) (x : Nat) :
    memLookup (memStore m a v) x = if x = a then some v else memLookup m x := by
  induction m with
  | nil => simp [memStore, memLookup, eq_comm]
  | cons cell rest ih =>
    obtain ⟨key, b⟩ := cell
    simp only [memStore]
    split
    · simp only [memLookup, eq_comm (a := a)]
    · split
      · subst_vars; simp only [memLookup, eq_comm (a := key)]; split <;> rfl
      · simp only [memLookup, ih]; split <;> split <;> simp_all

theorem memLookup_memStoreBytes (m : List Host.Cell) (a : Nat) (bs : List Byte) (x : Nat) :
    memLookup (memStoreBytes m a bs) x =
      if a ≤ x ∧ x < a + bs.length then bs[x - a]? else memLookup m x := by
  induction bs generalizing m a with
  | nil => simp [memStoreBytes]
  | cons b bs ih =>
    rw [memStoreBytes, ih, memLookup_memStore]
    by_cases hx : x = a
    · subst hx; simp
    · by_cases h : a + 1 ≤ x ∧ x < a + 1 + bs.length
      · have h2 : a ≤ x ∧ x < a + (b :: bs).length := by simp; omega
        obtain ⟨k, rfl⟩ : ∃ k, x = a + 1 + k := ⟨x - (a + 1), by omega⟩
        rw [if_pos h, if_pos h2]
        simp [show a + 1 + k - a = k + 1 by omega]
      · have h2 : ¬ (a ≤ x ∧ x < a + (b :: bs).length) := by simp at h ⊢; omega
        rw [if_neg h, if_neg h2, if_neg hx]

theorem memStoreBytes_append (m : List Host.Cell) (a : Nat) (bs cs : List Byte) :
    memStoreBytes m a (bs ++ cs) = memStoreBytes (memStoreBytes m a bs) (a + bs.length) cs := by
  induction bs generalizing m a with
  | nil => simp [memStoreBytes]
  | cons b bs ih => simp [memStoreBytes, ih, Nat.add_assoc, Nat.add_comm 1]

@[simp] theorem length_bytesOf (v n : Nat) : (bytesOf v n).length = n := by simp [bytesOf]

/-- The bytes of words in memory order. -/
def wordBytes (ws : List Word) : List Byte := ws.flatMap fun w => bytesOf w.toNat 4

@[simp] theorem length_wordBytes (ws : List Word) : (wordBytes ws).length = 4 * ws.length := by
  induction ws with
  | nil => rfl
  | cons w ws ih => simp [wordBytes] at ih ⊢; omega

theorem memStoreWords_eq (m : List Host.Cell) (a : Nat) (ws : List Word) :
    memStoreWords m a ws = memStoreBytes m a (wordBytes ws) := by
  induction ws generalizing m a with
  | nil => rfl
  | cons w ws ih =>
    rw [memStoreWords, ih]
    simp [wordBytes, memStoreBytes_append]

theorem getElem?_wordBytes (ws : List Word) (j i : Nat) (hj : j < ws.length) (hi : i < 4) :
    (wordBytes ws)[4 * j + i]? = some (byteOf ws[j].toNat i) := by
  induction ws generalizing j with
  | nil => simp at hj
  | cons w ws ih =>
    have e : wordBytes (w :: ws) = bytesOf w.toNat 4 ++ wordBytes ws := by simp [wordBytes]
    rw [e]
    cases j with
    | zero =>
      rw [List.getElem?_append_left (by simpa using hi)]
      simp [bytesOf, hi]
    | succ j =>
      rw [List.getElem?_append_right (by simp; omega)]
      have : 4 * (j + 1) + i - (bytesOf w.toNat 4).length = 4 * j + i := by simp; omega
      rw [this, ih j (by simpa using hj)]
      simp

/-- Byte i of word j of a block of words, after the block is stored. -/
theorem memLookup_memStoreWords (m : List Host.Cell) (a : Nat) (ws : List Word) (j i : Nat) (hj : j < ws.length)
    (hi : i < 4) : memLookup (memStoreWords m a ws) (a + 4 * j + i) = some (byteOf ws[j].toNat i) := by
  rw [memStoreWords_eq, memLookup_memStoreBytes, if_pos (by simp; omega)]
  rw [show a + 4 * j + i - a = 4 * j + i by omega, getElem?_wordBytes ws j i hj hi]

/-- A block of words leaves every byte outside it alone. -/
theorem memLookup_memStoreWords_outside (m : List Host.Cell) (a : Nat) (ws : List Word) (x : Nat)
    (h : x < a ∨ a + 4 * ws.length ≤ x) : memLookup (memStoreWords m a ws) x = memLookup m x := by
  rw [memStoreWords_eq, memLookup_memStoreBytes, if_neg (by simp; omega)]

theorem memWfFrom_mono {size low low' : Nat} {m : List Host.Cell} (h : low' ≤ low) (hm : memWfFrom size low m = true) :
    memWfFrom size low' m = true := by
  cases m with
  | nil => rfl
  | cons c rest =>
    simp only [memWfFrom, Bool.and_eq_true, decide_eq_true_eq] at hm ⊢
    exact ⟨⟨le_trans h hm.1.1, hm.1.2⟩, hm.2⟩

theorem memWfFrom_memStore {size low : Nat} {m : List Host.Cell} {a : Nat} (v : Byte) (hm : memWfFrom size low m = true)
    (hl : low ≤ a) (ha : a < size) : memWfFrom size low (memStore m a v) = true := by
  induction m generalizing low with
  | nil => simp [memStore, memWfFrom, hl, ha]
  | cons c rest ih =>
    obtain ⟨key, b⟩ := c
    simp only [memWfFrom, Bool.and_eq_true, decide_eq_true_eq] at hm
    simp only [memStore]
    split
    · next h => simp [memWfFrom, hl, ha, hm, show a + 1 ≤ key by omega]
    · split
      · next h => subst h; simp [memWfFrom, hl, ha, hm]
      · next h1 h2 =>
        simp [memWfFrom, hm, ih hm.2 (by omega)]

/-- Storing a byte inside DMEM keeps the canonical form. -/
theorem Memory.wf_memStore {size : Nat} {m : List Host.Cell} {a : Nat} (v : Byte) (hm : Memory.wf size m = true)
    (ha : a < size) : Memory.wf size (memStore m a v) = true :=
  memWfFrom_memStore v hm (Nat.zero_le a) ha

theorem Memory.wf_memStoreBytes {size : Nat} {m : List Host.Cell} {a : Nat} {bs : List Byte} (hm : Memory.wf size m = true)
    (ha : a + bs.length ≤ size) : Memory.wf size (memStoreBytes m a bs) = true := by
  induction bs generalizing m a with
  | nil => exact hm
  | cons b bs ih =>
    simp only [List.length_cons] at ha
    exact ih (Memory.wf_memStore b hm (by omega)) (by omega)

theorem Memory.wf_memStoreWords {size : Nat} {m : List Host.Cell} {a : Nat} {ws : List Word} (hm : Memory.wf size m = true)
    (ha : a + 4 * ws.length ≤ size) : Memory.wf size (memStoreWords m a ws) = true := by
  rw [memStoreWords_eq]; exact Memory.wf_memStoreBytes hm (by simpa using ha)

theorem Memory.wf_reset : Memory.wf State.reset.params.dmemBytes State.reset.mem = true := rfl

@[simp] theorem length_flatten (x : List C32) : (flatten x).length = 2 * x.length := by
  induction x with
  | nil => rfl
  | cons c x ih => simp [flatten, ih]; omega

theorem getElem?_flatten_re (x : List C32) (k : Nat) : (flatten x)[2 * k]? = x[k]?.map C32.re := by
  induction x generalizing k with
  | nil => simp [flatten]
  | cons c x ih =>
    cases k with
    | zero => rfl
    | succ k => simp [flatten, show 2 * (k + 1) = 2 * k + 1 + 1 by omega, ih]

theorem getElem?_flatten_im (x : List C32) (k : Nat) : (flatten x)[2 * k + 1]? = x[k]?.map C32.im := by
  induction x generalizing k with
  | nil => simp [flatten]
  | cons c x ih =>
    cases k with
    | zero => rfl
    | succ k => simp [flatten, show 2 * (k + 1) + 1 = 2 * k + 1 + 1 + 1 by omega, ih]

/-- A read of one byte depends on the list and the epoch of data memory only. -/
theorem State.readByte_congr {s t : State} (hm : s.mem = t.mem) (he : s.memEpoch = t.memEpoch) (a : Nat) :
    s.readByte a = t.readByte a := by simp [State.readByte, hm, he]

theorem State.memRead_congr {s t : State} {a n : Nat} (h : ∀ j < n, s.readByte (a + j) = t.readByte (a + j)) :
    s.memRead a n = t.memRead a n := by
  unfold State.memRead
  congr 1
  exact List.map_congr_left fun j hj => h j (List.mem_range.mp hj)

theorem State.loadF32_congr {s t : State} {a : Nat} (h : ∀ j < 4, s.readByte (a + j) = t.readByte (a + j)) :
    s.loadF32 a = t.loadF32 a := by
  rw [State.loadF32, State.loadF32, State.memRead_congr h]

theorem State.loadF32_storeF32s_outside (s : State) (base : Nat) (x : List F32) (a : Nat)
    (h : a + 4 ≤ base ∨ base + 4 * x.length ≤ a) : (s.storeF32s base x).loadF32 a = s.loadF32 a := by
  apply State.loadF32_congr
  intro j hj
  simp only [State.readByte, State.storeF32s_mem, State.storeF32s_memEpoch]
  rw [memLookup_memStoreWords_outside]
  omega

theorem State.readByte_storeF32s_outside (s : State) (base : Nat) (x : List F32) (a : Nat)
    (h : a < base ∨ base + 4 * x.length ≤ a) : (s.storeF32s base x).readByte a = s.readByte a := by
  simp only [State.readByte, State.storeF32s_mem, State.storeF32s_memEpoch]
  rw [memLookup_memStoreWords_outside _ _ _ _ h]

theorem State.readByte_storeCs_outside (s : State) (base : Nat) (x : List C32) (a : Nat)
    (h : a < base ∨ base + 8 * x.length ≤ a) : (s.storeCs base x).readByte a = s.readByte a := by
  simp only [State.readByte, State.storeCs_mem, State.storeCs_memEpoch]
  rw [memLookup_memStoreWords_outside]
  simp; omega

theorem byteOf_toNat (v j : Nat) : (byteOf v j).toNat = v / 2 ^ (8 * j) % 256 := by
  simp [byteOf]

theorem valueOf_four (v : Nat) (hv : v < 2 ^ 32) :
    valueOf [byteOf v 0, byteOf v 1, byteOf v 2, byteOf v 3] = v := by
  simp only [valueOf, byteOf_toNat]
  norm_num
  omega

/-- Words read back as they were stored. -/
theorem State.loadF32_storeF32s (s : State) (base : Nat) (x : List F32) (j : Nat) (hj : j < x.length) :
    (s.storeF32s base x).loadF32 (base + 4 * j) = x[j] := by
  have h : ∀ i < 4, (s.storeF32s base x).readByte (base + 4 * j + i) = byteOf x[j].toNat i := by
    intro i hi
    simp only [State.readByte, State.storeF32s_mem]
    rw [memLookup_memStoreWords _ _ _ _ _ hj hi]
  have e : (s.storeF32s base x).memRead (base + 4 * j) 4 = x[j].toNat := by
    unfold State.memRead
    rw [show List.range 4 = [0, 1, 2, 3] from rfl]
    simp only [List.map_cons, List.map_nil]
    rw [h 0 (by omega), h 1 (by omega), h 2 (by omega), h 3 (by omega)]
    exact valueOf_four _ x[j].isLt
  rw [State.loadF32, e]; simp

theorem State.storeCs_eq (s : State) (base : Nat) (x : List C32) : s.storeCs base x = s.storeF32s base (flatten x) :=
  rfl

/-- Complex samples read back as they were stored. -/
theorem State.loadC_storeCs (s : State) (base : Nat) (x : List C32) (k : Nat) (hk : k < x.length) :
    (s.storeCs base x).loadC (base + 8 * k) = x[k] := by
  have hre : 2 * k < (flatten x).length := by simp; omega
  have him : 2 * k + 1 < (flatten x).length := by simp; omega
  have e1 := State.loadF32_storeF32s s base (flatten x) (2 * k) hre
  have e2 := State.loadF32_storeF32s s base (flatten x) (2 * k + 1) him
  have g1 : (flatten x)[2 * k] = x[k].re := by
    have := getElem?_flatten_re x k
    rw [List.getElem?_eq_getElem hre, List.getElem?_eq_getElem hk] at this
    simpa using this
  have g2 : (flatten x)[2 * k + 1] = x[k].im := by
    have := getElem?_flatten_im x k
    rw [List.getElem?_eq_getElem him, List.getElem?_eq_getElem hk] at this
    simpa using this
  rw [State.loadC, State.storeCs_eq, show base + 8 * k = base + 4 * (2 * k) by omega,
    show base + 4 * (2 * k) + 4 = base + 4 * (2 * k + 1) by omega, e1, e2, g1, g2]

/-- A data-memory value read back as it was stored, at the width it was stored with. -/
theorem State.readByte_memWrite (s : State) (a n v j : Nat) (hj : j < n) :
    (s.memWrite a n v).readByte (a + j) = byteOf v j := by
  simp only [State.readByte, State.memWrite_mem]
  rw [memLookup_memStoreBytes, if_pos (by simp; omega)]
  simp [bytesOf, hj]

theorem State.readByte_memWrite_outside (s : State) (a n v x : Nat) (h : x < a ∨ a + n ≤ x) :
    (s.memWrite a n v).readByte x = s.readByte x := by
  simp only [State.readByte, State.memWrite_mem, State.memWrite_memEpoch]
  rw [memLookup_memStoreBytes, if_neg (by simp; omega)]

end Sys2Proof.Machine
end

