-- ==== Sys2Proof/Laws/Ops.lean ====
section
/-! SUPPORT. What the shared operations do: the handle table, the pool, the tests of a command, rejection and
completion. -/

namespace Sys2Proof.Machine

/-- A slot after a slot is set. -/
theorem State.slot_setSlot (s : State) (h h' : Nat) (hd : Handle) :
    (s.setSlot h hd).slot h' = if h' = h ∧ h < s.numHandles then hd else s.slot h' := by
  rw [State.slot, State.setSlot_handles, List.getElem?_set]
  by_cases e : h = h'
  · subst e
    by_cases hh : h < s.numHandles
    · have hh' : h < s.handles.length := hh
      simp [hh, hh']
    · have hh' : ¬h < s.handles.length := hh
      simp [State.slot, hh, hh']
  · rw [if_neg e, if_neg (fun x => e x.1.symm)]; rfl

/-! NUM_HANDLES is the same after every operation. -/

@[simp] theorem State.numHandles_setSlot (s : State) (h : Nat) (hd : Handle) :
    (s.setSlot h hd).numHandles = s.numHandles := List.length_set
@[simp] theorem State.numHandles_memWrite (s : State) (a n v : Nat) : (s.memWrite a n v).numHandles = s.numHandles := rfl
@[simp] theorem State.numHandles_storeF32s (s : State) (a : Nat) (x : List F32) :
    (s.storeF32s a x).numHandles = s.numHandles := rfl
@[simp] theorem State.numHandles_storeCs (s : State) (a : Nat) (x : List C32) :
    (s.storeCs a x).numHandles = s.numHandles := rfl
@[simp] theorem State.numHandles_observeIrq (b s : State) : (b.observeIrq s).numHandles = s.numHandles := rfl
@[simp] theorem State.numHandles_reject (s : State) (c : ErrCode) : (s.reject c).numHandles = s.numHandles := rfl
@[simp] theorem State.numHandles_complete (s : State) : s.complete.numHandles = s.numHandles := rfl
@[simp] theorem State.numHandles_acknowledge (s : State) (v : Word) : (s.acknowledge v).numHandles = s.numHandles := rfl
@[simp] theorem State.numHandles_accept (s : State) (w : Word) : (s.accept w).numHandles = s.numHandles := rfl
@[simp] theorem State.numHandles_resetRegisters (s : State) : s.resetRegisters.numHandles = s.numHandles :=
  List.length_replicate
@[simp] theorem State.numHandles_softReset (s : State) : s.softReset.numHandles = s.numHandles := List.length_replicate
@[simp] theorem State.numHandles_hardReset (s : State) : s.hardReset.numHandles = s.numHandles := List.length_replicate

@[simp] theorem State.slot_setSlot_self (s : State) (h : Nat) (hd : Handle) (hh : h < s.numHandles) :
    (s.setSlot h hd).slot h = hd := by simp [State.slot_setSlot, hh]

theorem State.slot_setSlot_ne (s : State) {h h' : Nat} (hd : Handle) (hne : h' ≠ h) :
    (s.setSlot h hd).slot h' = s.slot h' := by simp [State.slot_setSlot, hne]

/-- Setting a slot to what it holds changes nothing. -/
theorem State.setSlot_slot (s : State) (h : Nat) (hh : h < s.numHandles) : s.setSlot h (s.slot h) = s := by
  have hh' : h < s.handles.length := hh
  have : s.handles.set h (s.slot h) = s.handles := by
    rw [State.slot, List.getElem?_eq_getElem hh', Option.getD_some, List.set_getElem_self]
  simp [State.setSlot, this]

@[simp] theorem State.slot_reject (s : State) (c : ErrCode) (h : Nat) : (s.reject c).slot h = s.slot h := rfl
@[simp] theorem State.slot_complete (s : State) (h : Nat) : s.complete.slot h = s.slot h := rfl
@[simp] theorem State.slot_storeF32s (s : State) (a : Nat) (x : List F32) (h : Nat) :
    (s.storeF32s a x).slot h = s.slot h := rfl
@[simp] theorem State.slot_storeCs (s : State) (a : Nat) (x : List C32) (h : Nat) :
    (s.storeCs a x).slot h = s.slot h := rfl
@[simp] theorem State.slot_accept (s : State) (w : Word) (h : Nat) : (s.accept w).slot h = s.slot h := rfl

@[simp] theorem State.readByte_setSlot (s : State) (h : Nat) (hd : Handle) (a : Nat) :
    (s.setSlot h hd).readByte a = s.readByte a := rfl
@[simp] theorem State.readByte_reject (s : State) (c : ErrCode) (a : Nat) : (s.reject c).readByte a = s.readByte a := rfl
@[simp] theorem State.readByte_complete (s : State) (a : Nat) : s.complete.readByte a = s.readByte a := rfl
@[simp] theorem State.loadF32_complete (s : State) (a : Nat) : s.complete.loadF32 a = s.loadF32 a := rfl
@[simp] theorem State.loadC_complete (s : State) (a : Nat) : s.complete.loadC a = s.loadC a := rfl

/-- After reset every slot is FREE. -/
theorem State.slot_reset (h : Nat) : State.reset.slot h = .free := by
  simp only [State.slot, State.reset, List.getElem?_replicate]
  split <;> rfl

/-- The first failing test is none exactly when no test fails. -/
theorem firstError_eq_none {ts : Tests} : firstError ts = none ↔ ∀ t ∈ ts, t.1 = false := by
  induction ts with
  | nil => simp [firstError]
  | cons t ts ih =>
    obtain ⟨b, c⟩ := t
    cases b <;> simp [firstError, ih]

/-- The code reported is that of a failing test before which no test fails (R263). -/
theorem firstError_eq_some {ts : Tests} {c : ErrCode} :
    firstError ts = some c ↔ ∃ pre post, ts = pre ++ (true, c) :: post ∧ ∀ t ∈ pre, t.1 = false := by
  induction ts with
  | nil => simp [firstError]
  | cons t ts ih =>
    obtain ⟨b, d⟩ := t
    cases b with
    | true =>
      simp only [firstError, if_true, Option.some.injEq]
      constructor
      · rintro rfl; exact ⟨[], ts, rfl, by simp⟩
      · rintro ⟨pre, post, he, hp⟩
        cases pre with
        | nil => simp at he; exact he.1
        | cons p pre =>
          simp only [List.cons_append, List.cons.injEq] at he
          have := hp p (by simp)
          rw [← he.1] at this
          simp at this
    | false =>
      simp only [firstError, Bool.false_eq_true, if_false, ih]
      constructor
      · rintro ⟨pre, post, rfl, hp⟩
        exact ⟨(false, d) :: pre, post, rfl, by simpa using hp⟩
      · rintro ⟨pre, post, he, hp⟩
        cases pre with
        | nil => simp at he
        | cons p pre =>
          simp only [List.cons_append, List.cons.injEq] at he
          exact ⟨pre, post, he.2, fun t ht => hp t (by simp [ht])⟩

/-- Everything a command's tests can lead to. -/
theorem finish_cases (s : State) (ts : Tests) (p : State) :
    (∃ c, firstError ts = some c ∧ finish s ts p = .next (s.reject c)) ∨
      (firstError ts = none ∧ finish s ts p = .next p.complete) := by
  unfold finish
  cases firstError ts with
  | some c => exact .inl ⟨c, rfl, rfl⟩
  | none => exact .inr ⟨rfl, rfl⟩

theorem finish_of_none {s : State} {ts : Tests} (p : State) (h : firstError ts = none) :
    finish s ts p = .next p.complete := by rw [finish, h]

theorem finish_of_some {s : State} {ts : Tests} {c : ErrCode} (p : State) (h : firstError ts = some c) :
    finish s ts p = .next (s.reject c) := by rw [finish, h]

theorem onSlot_of_lt {h : Nat} {s : State} (f : Handle → Host.Outcome State Fault Refusal)
    (hh : h < s.numHandles) : onSlot h s f = f (s.slot h) := if_pos hh

theorem onSlot_of_ge {h : Nat} {s : State} (f : Handle → Host.Outcome State Fault Refusal)
    (hh : s.numHandles ≤ h) : onSlot h s f = .next (s.reject .badHandle) := if_neg (by omega)

/-- The private words owned after a slot is set: its old words are returned, its new ones taken (R31, R41). -/
theorem State.privUsed_setSlot (s : State) (h : Nat) (hd : Handle) (hh : h < s.numHandles) :
    (s.setSlot h hd).privUsed + (s.slot h).req = s.privUsed + hd.req := by
  have key : ∀ (l : List Handle) (k : Nat), k < l.length →
      ((l.set k hd).map Handle.req).sum + (l[k]?.getD .free).req = (l.map Handle.req).sum + hd.req := by
    intro l
    induction l with
    | nil => intro k hk; simp at hk
    | cons a l ih =>
      intro k hk
      cases k with
      | zero => simp; omega
      | succ k =>
        have := ih k (by simpa using hk)
        simp only [List.set_cons_succ, List.map_cons, List.sum_cons, List.getElem?_cons_succ]
        omega
  have := key s.handles h hh
  simpa [State.privUsed, State.slot, State.setSlot] using this

@[simp] theorem State.privUsed_reject (s : State) (c : ErrCode) : (s.reject c).privUsed = s.privUsed := rfl
@[simp] theorem State.privUsed_complete (s : State) : s.complete.privUsed = s.privUsed := rfl

/-- The tests of a command's buffers all pass exactly when every base is aligned, every footprint in range, and the
footprints disjoint (R66 to R68). -/
theorem bufferTests_pass {dmem : Nat} {bases : List Nat} {fp : Footprint} :
    firstError (bufferTests dmem bases fp) = none ↔
      (∀ b ∈ bases, b % 4 = 0) ∧ fp.inRange dmem = true ∧ fp.disjoint = true := by
  rw [firstError_eq_none]
  simp [bufferTests]

/-- A footprint that is only read is in range when its last byte is (R66). -/
theorem inRange_reads (dmem base size : Nat) :
    Footprint.inRange dmem ⟨some ⟨base, size⟩, none⟩ = decide (base + size ≤ dmem) := by
  simp [Footprint.inRange, ByteRange.inRange]

/-- A footprint that is only written is in range when its last byte is (R66). -/
theorem inRange_writes (dmem base size : Nat) :
    Footprint.inRange dmem ⟨none, some ⟨base, size⟩⟩ = decide (base + size ≤ dmem) := by
  simp [Footprint.inRange, ByteRange.inRange]

end Sys2Proof.Machine
end

