-- ==== Sys2Proof/Laws/Transform.lean ====
section
/-! SUPPORT. Lengths and elements of the results of transforms and element-wise steps. -/

namespace Sys2Proof.Machine

@[simp] theorem length_rfft (e : Nat) (st : DrawSite) (n : Nat) (x : List F32) :
    (rfft e st n x).length = realBins n := by
  unfold rfft FftFns.rfftOut; split <;> simp

@[simp] theorem length_irfft (e : Nat) (st : DrawSite) (n : Nat) (x : List C32) :
    (irfft e st n x).length = n := by
  unfold irfft FftFns.irfftOut; split <;> simp

@[simp] theorem length_cfft (e : Nat) (st : DrawSite) (n : Nat) (x : List C32) :
    (cfft e st n x).length = n := by
  unfold cfft FftFns.cfftOut; split <;> simp

@[simp] theorem length_icfft (e : Nat) (st : DrawSite) (n : Nat) (x : List C32) :
    (icfft e st n x).length = n := by
  unfold icfft FftFns.icfftOut; split <;> simp

@[simp] theorem length_windowed (e : Nat) (st : DrawSite) (w h : Nat) (x : List F32) :
    (windowed e st w h x).length = w := by simp [windowed]

@[simp] theorem length_overlapAdd (e : Nat) (st : DrawSite) (w h : Nat) (x y : List F32) :
    (overlapAdd e st w h x y).length = w := by simp [overlapAdd]

@[simp] theorem length_macStep (e : Nat) (st : DrawSite) (n : Nat) (x y z : List C32) :
    (macStep e st n x y z).length = n := by simp [macStep]

@[simp] theorem length_frameOf (b c t : Nat) (f : Nat → Nat → Nat → C32) :
    (frameOf b c t f).length = b * c * t := by simp [frameOf]

@[simp] theorem length_blockOf (c t : Nat) (f : Nat → Nat → F32) : (blockOf c t f).length = c * t := by
  simp [blockOf]

@[simp] theorem length_loadF32s (s : State) (a n : Nat) : (s.loadF32s a n).length = n := by simp [State.loadF32s]

@[simp] theorem length_loadCs (s : State) (a n : Nat) : (s.loadCs a n).length = n := by simp [State.loadCs]

@[simp] theorem length_zeros (n : Nat) : (zeros n).length = n := by simp [zeros]

theorem frame_index_lt {B C T b c t : Nat} (hb : b < B) (hc : c < C) (ht : t < T) :
    (b * C + c) * T + t < B * C * T := by
  have h1 : b * C + c + 1 ≤ B * C := by
    have : (b + 1) * C ≤ B * C := Nat.mul_le_mul_right C hb
    rw [Nat.add_mul] at this; omega
  have h2 : (b * C + c + 1) * T ≤ B * C * T := Nat.mul_le_mul_right T h1
  rw [Nat.add_mul] at h2; omega

/-- Element (b, c, t) of a frame is number (b * C + c) * T + t (R63). -/
theorem getElem?_frameOf {B C T b c t : Nat} (f : Nat → Nat → Nat → C32) (hb : b < B) (hc : c < C) (ht : t < T) :
    (frameOf B C T f)[(b * C + c) * T + t]? = some (f b c t) := by
  have hlt := frame_index_lt hb hc ht
  have e1 : ((b * C + c) * T + t) / (C * T) = b := by
    rw [show (b * C + c) * T + t = c * T + t + C * T * b by ring]
    have : c * T + t < C * T := by
      have := Nat.mul_le_mul_right T (show c + 1 ≤ C from hc)
      rw [Nat.add_mul] at this; omega
    rw [Nat.add_mul_div_left _ _ (by omega), Nat.div_eq_of_lt this, Nat.zero_add]
  have e2 : ((b * C + c) * T + t) / T = b * C + c := by
    rw [Nat.add_comm, Nat.add_mul_div_right _ _ (by omega), Nat.div_eq_of_lt ht, Nat.zero_add]
  have e3 : (b * C + c) % C = c := by
    rw [Nat.add_comm, Nat.add_mul_mod_self_right, Nat.mod_eq_of_lt hc]
  have e4 : ((b * C + c) * T + t) % T = t := by
    rw [Nat.add_comm, Nat.add_mul_mod_self_right, Nat.mod_eq_of_lt ht]
  simp [frameOf, hlt, e1, e2, e3, e4]

/-- Element (c, t) of a time block is number c * n + t (R63). -/
theorem getElem?_blockOf {C N c t : Nat} (f : Nat → Nat → F32) (hc : c < C) (ht : t < N) :
    (blockOf C N f)[c * N + t]? = some (f c t) := by
  have hlt : c * N + t < C * N := by
    have := Nat.mul_le_mul_right N (show c + 1 ≤ C from hc)
    rw [Nat.add_mul] at this; omega
  have e1 : (c * N + t) / N = c := by
    rw [Nat.add_comm, Nat.add_mul_div_right _ _ (by omega), Nat.div_eq_of_lt ht, Nat.zero_add]
  have e2 : (c * N + t) % N = t := by
    rw [Nat.add_comm, Nat.add_mul_mod_self_right, Nat.mod_eq_of_lt ht]
  simp [blockOf, hlt, e1, e2]

end Sys2Proof.Machine
end

