-- ==== Sys2Proof/Laws/Range.lean ====
section
/-! SUPPORT. A transform whose ideal result lies in binary32 range is found to be one (spec/40_fft.md R123, R130): so
R122 (a) holds of the transforms the commands use. -/

namespace Sys2Proof.Machine
open Finset

/-- The value of a pair of integers in units of 2^-149. -/
noncomputable def pairValue (z : UnitPair) : ℂ := ⟨(z.1 : ℝ) / 2 ^ 149, (z.2 : ℝ) / 2 ^ 149⟩

/-- The factor by which result `k` weighs input `j`. -/
noncomputable def weight (inverse : Bool) (n k j : Nat) : ℂ :=
  if inverse then Complex.exp (2 * Real.pi * Complex.I * k * j / n)
  else Complex.exp (-(2 * Real.pi * Complex.I * k * j / n))

theorem cos_mod (m n : Nat) (hn : 0 < n) : Real.cos (2 * Real.pi * (m % n : Nat) / n) = Real.cos (2 * Real.pi * m / n) ∧
    Real.sin (2 * Real.pi * (m % n : Nat) / n) = Real.sin (2 * Real.pi * m / n) := by
  have hn' : (n : ℝ) ≠ 0 := by exact_mod_cast hn.ne'
  have e : 2 * Real.pi * (m : ℝ) / n = 2 * Real.pi * (m % n : Nat) / n + ((m / n : Nat) : ℝ) * (2 * Real.pi) := by
    have : (m : ℝ) = n * (m / n : Nat) + (m % n : Nat) := by exact_mod_cast (Nat.div_add_mod m n).symm
    rw [mul_comm (2 * Real.pi), mul_div_assoc, this]
    generalize ((m / n : Nat) : ℝ) = q
    generalize ((m % n : Nat) : ℝ) = r
    field_simp; ring
  rw [e, Real.cos_add_nat_mul_two_pi, Real.sin_add_nat_mul_two_pi]
  exact ⟨rfl, rfl⟩

theorem turnOf_le (inverse : Bool) (n k j : Nat) (hn : 0 < n) : turnOf inverse n k j ≤ n := by
  unfold turnOf
  split <;> exact (Nat.mod_lt _ hn).le

theorem weight_re (inverse : Bool) (n k j : Nat) (hn : 0 < n) (z : UnitPair) :
    (pairValue z * weight inverse n k j).re = (z.1 * Real.cos (2 * Real.pi * (turnOf inverse n k j : Nat) / n) +
      z.2 * Real.sin (2 * Real.pi * (turnOf inverse n k j : Nat) / n)) / 2 ^ 149 := by
  have hn' : (n : ℝ) ≠ 0 := by exact_mod_cast hn.ne'
  have hm := cos_mod (k * j) n hn
  have key : ∀ θ : ℝ, Complex.exp (θ * Complex.I) = ⟨Real.cos θ, Real.sin θ⟩ := fun θ => by
    rw [Complex.exp_mul_I]; apply Complex.ext <;> simp [Complex.cos_ofReal_re, Complex.sin_ofReal_re]
  cases inverse with
  | false =>
    have e : -(2 * Real.pi * Complex.I * k * j / n) = ((-(2 * Real.pi * (k * j : Nat) / n) : ℝ) : ℂ) * Complex.I := by
      push_cast; ring
    simp only [weight, turnOf, Bool.false_eq_true, if_false, hm.1, hm.2, e, key, pairValue, Complex.mul_re,
      Real.cos_neg, Real.sin_neg]
    ring
  | true =>
    have e : 2 * Real.pi * Complex.I * k * j / n = ((2 * Real.pi * (k * j : Nat) / n : ℝ) : ℂ) * Complex.I := by
      push_cast; ring
    have h2 := cos_mod (n - k * j % n) n hn
    have e3 : 2 * Real.pi * ((n - k * j % n : Nat) : ℝ) / n = 2 * Real.pi - 2 * Real.pi * (k * j % n : Nat) / n := by
      rw [Nat.cast_sub (Nat.mod_lt _ hn).le]; field_simp
    have hc : Real.cos (2 * Real.pi * ((n - k * j % n : Nat) : ℝ) / n) = Real.cos (2 * Real.pi * (k * j : Nat) / n) := by
      rw [e3, Real.cos_two_pi_sub, hm.1]
    have hs : Real.sin (2 * Real.pi * ((n - k * j % n : Nat) : ℝ) / n) = -Real.sin (2 * Real.pi * (k * j : Nat) / n) := by
      rw [e3, Real.sin_two_pi_sub, hm.2]
    simp only [weight, turnOf, if_true, h2.1, h2.2, hc, hs, e, key, pairValue, Complex.mul_re]
    ring

theorem sum_mapIdx (z : List UnitPair) (f : Nat → UnitPair → Int) :
    (z.mapIdx f).sum = ∑ j ∈ range z.length, f j (z.getD j 0) := by
  induction z generalizing f with
  | nil => simp
  | cons a z ih =>
    rw [List.mapIdx_cons, List.sum_cons, ih, List.length_cons, sum_range_succ']
    simp [add_comm]

theorem sumSize_eq (z : List UnitPair) :
    sumSize z = ∑ j ∈ range z.length, ((z.getD j 0).1.natAbs + (z.getD j 0).2.natAbs) := by
  induction z with
  | nil => simp [sumSize]
  | cons a z ih =>
    rw [List.length_cons, sum_range_succ']
    simp only [sumSize, List.map_cons, List.sum_cons] at ih ⊢
    rw [ih]
    simp [add_comm]

/-- The computed real part of a result lies within the error of the real part. -/
theorem idealRe_spec (p : Nat) (hp : 16 ≤ p) (inverse : Bool) (n : Nat) (hn : 0 < n) (z : List UnitPair) (k : Nat) :
    |(idealRe p inverse n z k : ℝ) -
        2 ^ p * (2 ^ 149 * (∑ j ∈ range z.length, pairValue (z.getD j 0) * weight inverse n k j).re)| ≤
      ((sumSize z * turnError p : Nat) : ℝ) := by
  rw [idealRe, sum_mapIdx, sumSize_eq, Complex.re_sum, mul_sum, mul_sum]
  push_cast
  rw [← sum_sub_distrib, sum_mul]
  refine (abs_sum_le_sum_abs _ _).trans (sum_le_sum fun j _ => ?_)
  have ht := turnOf_le inverse n k j hn
  have hc := cosTurn_spec p (turnOf inverse n k j) n hp hn ht
  have hs := sinTurn_spec p (turnOf inverse n k j) n hp hn (by omega)
  rw [weight_re inverse n k j hn]
  set C := (cosTurn p (turnOf inverse n k j) n : ℝ)
  set S := (sinTurn p (turnOf inverse n k j) n : ℝ)
  set c := Real.cos (2 * Real.pi * (turnOf inverse n k j : Nat) / n)
  set s := Real.sin (2 * Real.pi * (turnOf inverse n k j : Nat) / n)
  generalize z.getD j 0 = w
  have e : (w.1 : ℝ) * C + w.2 * S - 2 ^ p * (2 ^ 149 * ((w.1 * c + w.2 * s) / 2 ^ 149)) =
      w.1 * (C - 2 ^ p * c) + w.2 * (S - 2 ^ p * s) := by
    rw [mul_div_cancel₀ _ (by positivity)]; ring
  rw [e]
  have h1 : |(w.1 : ℝ) * (C - 2 ^ p * c)| ≤ |(w.1 : ℝ)| * turnError p := by
    rw [abs_mul]; exact mul_le_mul_of_nonneg_left hc (abs_nonneg _)
  have h2 : |(w.2 : ℝ) * (S - 2 ^ p * s)| ≤ |(w.2 : ℝ)| * turnError p := by
    rw [abs_mul]; exact mul_le_mul_of_nonneg_left hs (abs_nonneg _)
  refine (abs_add_le _ _).trans ((add_le_add h1 h2).trans (le_of_eq ?_))
  rw [Nat.cast_natAbs, Nat.cast_natAbs, Int.cast_abs, Int.cast_abs]; ring

/-- A real part within the limit is not found beyond it. -/
theorem verdict_ne_false {limit err : Nat} {v : Int} {V : ℝ} (h : |(v : ℝ) - V| ≤ (err : ℝ)) (hV : |V| ≤ (limit : ℝ)) :
    verdict limit err v ≠ some false := by
  have hv : |(v : ℝ)| ≤ (limit : ℝ) + err := by
    have := abs_sub_abs_le_abs_sub (v : ℝ) V
    linarith
  have hn : v.natAbs ≤ limit + err := by
    have : ((v.natAbs : Nat) : ℝ) ≤ ((limit + err : Nat) : ℝ) := by
      rw [Nat.cast_natAbs, Int.cast_abs]; push_cast; exact hv
    exact_mod_cast this
  unfold verdict
  split
  · simp
  · rw [if_neg (by omega)]; simp

theorem reInRange_of_le {limit : Nat} (hl : 1 ≤ limit) {inverse : Bool} {n : Nat} (hn : 0 < n) {z : List UnitPair} {k : Nat}
    (h : |2 ^ 149 * (∑ j ∈ range z.length, pairValue (z.getD j 0) * weight inverse n k j).re| ≤ (limit : ℝ)) :
    reInRange limit inverse n z k = true := by
  have key : ∀ p, 16 ≤ p → verdict (limit * 2 ^ p) (sumSize z * turnError p) (idealRe p inverse n z k) ≠ some false := by
    intro p hp
    refine verdict_ne_false (idealRe_spec p hp inverse n hn z k) ?_
    rw [abs_mul, abs_of_pos (by positivity : (0 : ℝ) < 2 ^ p)]
    push_cast
    rw [mul_comm]
    exact mul_le_mul_of_nonneg_right h (by positivity)
  have hbits : 16 ≤ exactBits n (sumSize z) limit := by
    have : 3 ≤ Nat.log2 (4 * sumSize z + 4 * limit + 4) := by
      rw [Nat.le_log2 (by omega)]; omega
    unfold exactBits
    have h1 : 4 * 1 * (3 + 1) ≤ 4 * n * (Nat.log2 (4 * sumSize z + 4 * limit + 4) + 1) :=
      Nat.mul_le_mul (by omega) (by omega)
    omega
  have h64 := key 64 (by norm_num)
  have hex := key _ hbits
  unfold reInRange
  simp only []
  split
  · rename_i b hb
    cases b with
    | true => rfl
    | false => exact absurd hb h64
  · cases hv : verdict (limit * 2 ^ exactBits n (sumSize z) limit) (sumSize z * turnError (exactBits n (sumSize z) limit))
        (idealRe (exactBits n (sumSize z) limit) inverse n z k) with
    | none => rfl
    | some b =>
      cases b with
      | true => rfl
      | false => exact absurd hv hex

theorem quarterTurn_getD (z : List UnitPair) (j : Nat) :
    pairValue ((quarterTurn z).getD j 0) = -Complex.I * pairValue (z.getD j 0) := by
  have e : (quarterTurn z).getD j 0 = ((z.getD j 0).2, -(z.getD j 0).1) := by
    simp only [quarterTurn, List.getD_eq_getElem?_getD, List.getElem?_map]
    cases z[j]? <;> rfl
  rw [e]
  apply Complex.ext <;> simp [pairValue]
  ring

/-- Sums within the limit are found to be in range. -/
theorem idealInRange_of_sums {t : Transform} {n : Nat} {x : List F32} (hn : 0 < n)
    (h : ∀ k < t.outputs n, ∃ T : ℂ,
      T = ∑ j ∈ range (idealInput t n x).length, pairValue ((idealInput t n x).getD j 0) * weight t.inverse n k j ∧
        |2 ^ 149 * T.re| ≤ (rangeLimit t n : ℝ) ∧ |2 ^ 149 * T.im| ≤ (rangeLimit t n : ℝ)) :
    idealInRange t n x = true := by
  have hl : 1 ≤ rangeLimit t n := by
    have hm : 1 ≤ f32MaxMag := by decide
    unfold rangeLimit
    split
    · exact Nat.mul_pos hn hm
    · exact hm
  unfold idealInRange
  simp only [Bool.or_eq_true, List.all_eq_true, List.mem_range, Bool.and_eq_true]
  right
  intro k hk
  obtain ⟨T, hT, hre, him⟩ := h k hk
  refine ⟨reInRange_of_le hl hn (by rw [← hT]; exact hre), reInRange_of_le hl hn ?_⟩
  have e : (∑ j ∈ range (quarterTurn (idealInput t n x)).length,
      pairValue ((quarterTurn (idealInput t n x)).getD j 0) * weight t.inverse n k j).re = T.im := by
    have hq : (quarterTurn (idealInput t n x)).length = (idealInput t n x).length := by simp [quarterTurn]
    rw [hq, hT]
    simp only [quarterTurn_getD, mul_assoc, ← mul_sum]
    simp
  rw [e]
  exact him

theorem abs_scaled_le {v : ℝ} {m : Nat} (h : |v| ≤ (f32MaxMag : ℝ) / 2 ^ 149) :
    |2 ^ 149 * ((m : ℝ) * v)| ≤ ((m * f32MaxMag : Nat) : ℝ) := by
  have hm : (0 : ℝ) ≤ m := Nat.cast_nonneg m
  rw [abs_mul, abs_mul, abs_of_nonneg hm, abs_of_pos (by positivity : (0 : ℝ) < 2 ^ 149)]
  rw [le_div_iff₀ (by positivity)] at h
  rw [Nat.cast_mul]
  calc (2 : ℝ) ^ 149 * ((m : ℝ) * |v|) = m * (|v| * 2 ^ 149) := by ring
    _ ≤ m * (f32MaxMag : ℝ) := mul_le_mul_of_nonneg_left h hm

/-- A forward transform whose ideal results are in range is found to be so. -/
theorem idealInRange_of_dft {t : Transform} (ht : t.inverse = false) {n : Nat} (hn : 0 < n) {x : List F32}
    (hlen : (idealInput t n x).length = n) {xv yv : Nat → ℂ} (hv : ∀ j < n, xv j = pairValue ((idealInput t n x).getD j 0))
    (hd : IsDft n xv yv) (hout : t.outputs n ≤ n) (hr : ∀ k < t.outputs n, InRange (yv k)) : idealInRange t n x = true := by
  refine idealInRange_of_sums hn fun k hk => ⟨yv k, ?_, ?_, ?_⟩
  · rw [hd k (by omega), hlen, ht]
    exact sum_congr rfl fun j hj => by rw [hv j (mem_range.mp hj)]; rfl
  · simpa [rangeLimit, ht] using abs_scaled_le (m := 1) (hr k hk).1
  · simpa [rangeLimit, ht] using abs_scaled_le (m := 1) (hr k hk).2

/-- An inverse transform whose ideal results are in range is found to be so. -/
theorem idealInRange_of_idft {t : Transform} (ht : t.inverse = true) {n : Nat} (hn : 0 < n) {x : List F32}
    (hlen : (idealInput t n x).length = n) {xv yv : Nat → ℂ} (hv : ∀ j < n, xv j = pairValue ((idealInput t n x).getD j 0))
    (hd : IsIdft n xv yv) (hout : t.outputs n = n) (hr : ∀ k < n, InRange (yv k)) : idealInRange t n x = true := by
  have hn' : (n : ℂ) ≠ 0 := by exact_mod_cast hn.ne'
  refine idealInRange_of_sums hn fun k hk => ?_
  rw [hout] at hk
  refine ⟨n * yv k, ?_, ?_, ?_⟩
  · rw [hd k hk, hlen, ht, mul_div_cancel₀ _ hn']
    exact sum_congr rfl fun j hj => by
      rw [hv j (mem_range.mp hj), weight, if_pos rfl, mul_right_comm _ (j : ℂ)]
  · have := abs_scaled_le (m := n) (hr k hk).1
    simpa [rangeLimit, ht] using this
  · have := abs_scaled_le (m := n) (hr k hk).2
    simpa [rangeLimit, ht] using this

theorem pairValue_of (c : C32) : pairValue (f32Int c.re, f32Int c.im) = complexOf c := by
  apply Complex.ext <;> simp [pairValue, complexOf, f32Rat]

theorem getD_unitPairs (x : List C32) (k : Nat) :
    (unitPairs (flatten x)).getD k 0 = (f32Int (x.getD k c32Zero).re, f32Int (x.getD k c32Zero).im) := by
  have h0 : f32Int f32Zero = 0 := by decide
  rw [unitPairs_flatten]
  simp only [List.getD_eq_getElem?_getD, List.getElem?_map]
  cases x[k]? with
  | none => simp [c32Zero, h0]; rfl
  | some _ => rfl

theorem allFinite_iff {x : List F32} : allFinite x = true ↔ ∀ k < x.length, f32IsFinite (x.getD k f32Zero) = true := by
  rw [allFinite, List.all_eq_true]
  constructor
  · intro h k hk
    rw [List.getD_eq_getElem _ _ hk]; exact h _ (List.getElem_mem hk)
  · intro h v hv
    obtain ⟨k, hk, rfl⟩ := List.mem_iff_getElem.mp hv
    have := h k hk
    rwa [List.getD_eq_getElem _ _ hk] at this

theorem allFinite_flatten_of {x : List C32} (h : ∀ k < x.length, c32IsFinite (x.getD k c32Zero) = true) :
    allFinite (flatten x) = true := by
  refine allFinite_flatten fun c hc => ?_
  obtain ⟨k, hk, rfl⟩ := List.mem_iff_getElem.mp hc
  have := h k hk
  rwa [List.getD_eq_getElem _ _ hk] at this

theorem rfft_defined {n : Nat} (hn : lengthOk n) {x : List F32} {xv yv : Nat → ℂ} (hx : x.length = n)
    (hv : ∀ j < n, IsValue ((asComplex x).getD j c32Zero) (xv j)) (hd : IsDft n xv yv)
    (hr : ∀ k < realBins n, InRange (yv k)) : transformDefined .rfft n x = true := by
  have h2 := hn.2.1
  unfold transformDefined
  rw [Bool.and_eq_true]
  refine ⟨allFinite_iff.mpr fun k hk => ?_, idealInRange_of_dft rfl (by omega) (by simp [idealInput, hx]) ?_ hd ?_ hr⟩
  · have := (hv k (by omega)).1
    rw [getD_asComplex] at this
    simp only [c32IsFinite, Bool.and_eq_true] at this
    exact this.1
  · intro j hj
    have e : (idealInput .rfft n x).getD j 0 = (f32Int (x.getD j f32Zero), f32Int f32Zero) := by
      have h0 : f32Int f32Zero = 0 := by decide
      simp only [idealInput, List.getD_eq_getElem?_getD, List.getElem?_map]
      cases x[j]? with
      | none => simp [h0]; rfl
      | some _ => simp [h0]
    rw [e, (hv j hj).eq, getD_asComplex]
    exact (pairValue_of _).symm
  · simp only [Transform.outputs, realBins]; omega

theorem cfft_defined {n : Nat} (hn : lengthOk n) {x : List C32} {xv yv : Nat → ℂ} (hx : x.length = n)
    (hv : ∀ j < n, IsValue (x.getD j c32Zero) (xv j)) (hd : IsDft n xv yv) (hr : ∀ k < n, InRange (yv k)) :
    transformDefined .cfft n (flatten x) = true := by
  have h2 := hn.2.1
  unfold transformDefined
  rw [Bool.and_eq_true]
  refine ⟨allFinite_flatten_of fun k hk => (hv k (by omega)).1,
    idealInRange_of_dft rfl (by omega) (by simp [idealInput, unitPairs_flatten, hx]) ?_ hd le_rfl hr⟩
  intro j hj
  simp only [idealInput, getD_unitPairs, pairValue_of]
  exact (hv j hj).eq

theorem icfft_defined {n : Nat} (hn : lengthOk n) {x : List C32} {xv yv : Nat → ℂ} (hx : x.length = n)
    (hv : ∀ j < n, IsValue (x.getD j c32Zero) (xv j)) (hd : IsIdft n xv yv) (hr : ∀ k < n, InRange (yv k)) :
    transformDefined .icfft n (flatten x) = true := by
  have h2 := hn.2.1
  unfold transformDefined
  rw [Bool.and_eq_true]
  refine ⟨allFinite_flatten_of fun k hk => (hv k (by omega)).1,
    idealInRange_of_idft rfl (by omega) (by simp [idealInput, unitPairs_flatten, hx]) ?_ hd rfl hr⟩
  intro j hj
  simp only [idealInput, getD_unitPairs, pairValue_of]
  exact (hv j hj).eq

theorem irfft_defined {n : Nat} (hn : lengthOk n) {x : List C32} {xv yv zv : Nat → ℂ} (hx : x.length = realBins n)
    (hv : ∀ k < realBins n, IsValue (x.getD k c32Zero) (xv k)) (he : IsHermitianExtension n xv yv) (hd : IsIdft n yv zv)
    (hr : ∀ k < n, InRange (zv k)) : transformDefined .irfft n (flatten x) = true := by
  have h2 := hn.2.1
  have h1 := hn.1
  unfold transformDefined
  rw [Bool.and_eq_true]
  refine ⟨allFinite_flatten_of fun k hk => (hv k (by omega)).1,
    idealInRange_of_idft rfl (by omega) (by simp [idealInput, hermitian]) ?_ hd rfl hr⟩
  intro k hk
  simp only [realBins] at hv
  have e : (idealInput .irfft n (flatten x)).getD k 0 =
      if k = 0 ∨ k = n / 2 then (f32Int (x.getD k c32Zero).re, 0)
      else if k < n / 2 then (f32Int (x.getD k c32Zero).re, f32Int (x.getD k c32Zero).im)
      else (f32Int (x.getD (n - k) c32Zero).re, -f32Int (x.getD (n - k) c32Zero).im) := by
    simp only [idealInput, hermitian]
    rw [getD_map_range _ _ _ _ hk]
    simp only [getD_unitPairs]
  rw [e]
  split
  · rename_i h
    have : yv k = ((xv k).re : ℂ) := by rcases h with rfl | rfl; exacts [he.1.1, he.1.2]
    rw [this, (hv k (by omega)).2.1]
    apply Complex.ext
    · rw [Complex.ofReal_re]; simp [pairValue, f32Rat]
    · rw [Complex.ofReal_im]; simp [pairValue]
  · split
    · rw [(he.2 k (by omega) (by omega)).1, pairValue_of]
      exact (hv k (by omega)).eq
    · have := (he.2 (n - k) (by omega) (by omega)).2
      rw [Nat.sub_sub_self hk.le] at this
      rw [this, (hv (n - k) (by omega)).eq]
      apply Complex.ext <;> simp [pairValue, complexOf, f32Rat]
      ring

theorem fft_accuracy : FftAccuracy := by
  intro e st n hn
  obtain ⟨h1, h2, h3, h4⟩ := Config.fft.accurate n hn
  refine ⟨fun x xv yv hx hv hd hr => ?_, fun x xv yv zv hx hv he hd hr => ?_, fun x xv yv hx hv hd hr => ?_,
    fun x xv yv hx hv hd hr => ?_⟩
  · rw [rfft, if_pos (rfft_defined hn hx hv hd hr)]; exact h1 x xv yv hx hv hd hr
  · rw [irfft, if_pos (irfft_defined hn hx hv he hd hr)]; exact h2 x xv yv zv hx hv he hd hr
  · rw [cfft, if_pos (cfft_defined hn hx hv hd hr)]; exact h3 x xv yv hx hv hd hr
  · rw [icfft, if_pos (icfft_defined hn hx hv hd hr)]; exact h4 x xv yv hx hv hd hr

end Sys2Proof.Machine
end

