-- ==== Sys2Proof/Laws/Accuracy.lean ====
section
/-! SUPPORT. The spec's acceptance properties hold of the steps the commands compute, since FFT_NUM and the filterbank
have them (spec/40_fft.md R122, spec/41_stft.md R170, spec/42_qmf.md R188, spec/43_conv.md R224). -/

namespace Sys2Proof.Machine

/-! Multiply-accumulate steps. -/

theorem all_c32 {x : List C32} {n : Nat} (hx : x.length = n) (h : ∀ k < n, c32IsFinite (x.getD k c32Zero) = true) :
    x.all c32IsFinite = true := by
  rw [List.all_eq_true]
  intro v hv
  obtain ⟨k, hk, rfl⟩ := List.mem_iff_getElem.mp hv
  have := h k (by omega)
  rwa [List.getD_eq_getElem _ _ hk] at this

theorem length_macBins (bins : Nat) (y hf x : List C32) : (macBins bins y hf x).length = bins := by simp [macBins]

/-- Where the accumulated spectrum is finite, the data is, and the step is the one for finite data. -/
theorem macStep_of_finite {e : Nat} {st : DrawSite} {bins : Nat} {y hf x : List C32} (hy : y.length = bins)
    (hh : hf.length = bins) (hx : x.length = bins) (h : (macBins bins y hf x).all c32IsFinite = true) :
    y.all c32IsFinite = true ∧ macStep e st bins y hf x = macBins bins y hf x := by
  have hk : ∀ k < bins, c32IsFinite (cadd ⟨f32NaN, f32NaN⟩ (y.getD k c32Zero)
      (cmul ⟨f32NaN, f32NaN⟩ (hf.getD k c32Zero) (x.getD k c32Zero))) = true := fun k hk =>
    List.all_eq_true.mp h _ (List.mem_map.mpr ⟨k, List.mem_range.mpr hk, rfl⟩)
  have fy := all_c32 hy fun k h => (mac_finite (hk k h)).1.1
  have fh := all_c32 hh fun k h => (mac_finite (hk k h)).1.2.1
  have fx := all_c32 hx fun k h => (mac_finite (hk k h)).1.2.2
  refine ⟨fy, List.map_congr_left fun k h => ?_⟩
  simp only [fy, fh, fx, Bool.and_self, if_true]
  exact (mac_finite (hk k (List.mem_range.mp h))).2 _

/-- One operand pair of an accumulation, with the place its free values would come from. -/
abbrev MacRow := DrawSite × List C32 × List C32

theorem mac_fold {e bins : Nat} (rows : List MacRow) (y : List C32) (hy : y.length = bins)
    (hr : ∀ r ∈ rows, r.2.1.length = bins ∧ r.2.2.length = bins)
    (h : (rows.foldl (fun y r => macBins bins y r.2.1 r.2.2) y).all c32IsFinite = true) :
    y.all c32IsFinite = true ∧ rows.foldl (fun y r => macStep e r.1 bins y r.2.1 r.2.2) y =
      rows.foldl (fun y r => macBins bins y r.2.1 r.2.2) y := by
  induction rows generalizing y with
  | nil => exact ⟨h, rfl⟩
  | cons r rows ih =>
    have hr1 := hr r (by simp)
    obtain ⟨f, e2⟩ := ih (macBins bins y r.2.1 r.2.2) (length_macBins ..) (fun q hq => hr q (by simp [hq])) h
    obtain ⟨fy, e1⟩ := macStep_of_finite (e := e) (st := r.1) hy hr1.1 hr1.2 f
    exact ⟨fy, by rw [List.foldl_cons, List.foldl_cons, e1]; exact e2⟩

theorem all_of_allFinite_flatten {x : List C32} (h : allFinite (flatten x) = true) : x.all c32IsFinite = true := by
  induction x with
  | nil => rfl
  | cons c x ih =>
    simp only [flatten, allFinite, List.all_cons, Bool.and_eq_true] at h
    simp only [List.all_cons, Bool.and_eq_true, c32IsFinite]
    exact ⟨⟨h.1, h.2.1⟩, ih h.2.2⟩

theorem allFinite_of_defined {t : Transform} {n : Nat} {x : List F32} (h : transformDefined t n x = true) :
    allFinite x = true := by
  unfold transformDefined at h
  simp only [Bool.and_eq_true] at h
  exact h.1

/-! Transforms of moderate samples. -/

theorem many_below {n : Nat} (hn : n ≤ 2 ^ 33) : n * (2 * 2 ^ (1 + 149)) ≤ f32MaxMag := by
  have h1 : n * (2 * 2 ^ (1 + 149)) ≤ 2 ^ 33 * (2 * 2 ^ (1 + 149)) := Nat.mul_le_mul_right _ hn
  exact h1.trans (by decide)

theorem rfft_of_moderate {n : Nat} (hn : lengthOk n) {x : List F32} (hx : x.length = n)
    (h : ∀ v ∈ x, f32IsFinite v = true ∧ |f32Rat v| ≤ 2 ^ 1) (e : Nat) (st : DrawSite) :
    rfft e st n x = Config.fft.rfftOut n x := by
  rw [rfft, if_pos]
  unfold transformDefined idealInRange
  simp only [Bool.and_eq_true, Bool.or_eq_true, decide_eq_true_eq]
  refine ⟨allFinite_of fun v hv => (h v hv).1, .inl ?_⟩
  refine (sumSize_le (m := 2 ^ (1 + 149)) fun p hp => ?_).trans ?_
  · simp only [idealInput] at hp
    obtain ⟨v, hv, rfl⟩ := List.mem_map.mp hp
    exact ⟨natAbs_le_of_rat (h v hv).2, Nat.zero_le _⟩
  · simp only [idealInput, List.length_map, hx, rangeLimit, Transform.inverse, Bool.false_eq_true, if_false]
    exact many_below hn.2.2

theorem cfft_of_moderate {n : Nat} (hn : lengthOk n) {x : List C32} (hx : x.length = n)
    (h : ∀ c ∈ x, partsBelow 1 c) (e : Nat) (st : DrawSite) : cfft e st n x = Config.fft.cfftOut n x := by
  rw [cfft, if_pos]
  unfold transformDefined idealInRange
  simp only [Bool.and_eq_true, Bool.or_eq_true, decide_eq_true_eq]
  refine ⟨allFinite_flatten fun c hc => by simp [c32IsFinite, (h c hc).1.1, (h c hc).2.1], .inl ?_⟩
  refine (sumSize_le (m := 2 ^ (1 + 149)) fun p hp => ?_).trans ?_
  · simp only [idealInput, unitPairs_flatten] at hp
    obtain ⟨c, hc, rfl⟩ := List.mem_map.mp hp
    exact ⟨natAbs_le_of_rat (h c hc).1.2, natAbs_le_of_rat (h c hc).2.2⟩
  · simp only [idealInput, unitPairs_flatten, List.length_map, hx, rangeLimit, Transform.inverse, Bool.false_eq_true, if_false]
    exact many_below hn.2.2

theorem unit_moderate {v : F32} (h : unitRange v) : f32IsFinite v = true ∧ |f32Rat v| ≤ 2 ^ 1 :=
  ⟨h.1, h.2.trans (by norm_num)⟩

theorem irfft_of_invertible {n : Nat} {x : List C32} (h : invertible n x) (e : Nat) (st : DrawSite) :
    irfft e st n x = Config.fft.irfftOut n x := by
  exact if_pos h

/-- R122 (b). -/
theorem fft_roundTrip : FftRoundTrip := by
  intro e e' st st' n hn
  obtain ⟨h1, h2⟩ := Config.fft.roundTrips n hn
  constructor
  · intro x hx hu j hj
    rw [rfft_of_moderate hn hx fun v hv => unit_moderate (hu v hv), irfft_of_invertible (h1 x hx hu).1]
    exact (h1 x hx hu).2 j hj
  · intro x hx hu j hj
    rw [cfft_of_moderate hn hx fun c hc => ⟨unit_moderate (hu c hc).1, unit_moderate (hu c hc).2⟩, icfft, if_pos (h2 x hx hu).1]
    exact (h2 x hx hu).2 j hj

/-! R224. -/

theorem zip_map_range {α β γ : Type} {n : Nat} {x : List α} {y : List β} (hx : x.length = n) (hy : y.length = n) (a : α) (b : β)
    (g : α × β → γ) : (x.zip y).map g = (List.range n).map fun i => g (x.getD i a, y.getD i b) := by
  refine List.ext_getElem (by simp [hx, hy]) fun i h1 h2 => ?_
  simp only [List.length_map, List.length_range] at h2
  simp [List.getD_eq_getElem?_getD, hx, hy, h2]

/-- With one partition, an accumulated spectrum that is finite is `macRow` of its operands. -/
theorem accumulate_eq {e o : Nat} {c : ConvCfg} {st : ConvState} {hist : List (List (List C32))} {f g : Nat → List C32}
    (hparts : c.parts = 1) (hpos : st.pos = 0)
    (hl : ∀ i < c.nIn, (f i).length = c.block + 1 ∧ (g i).length = c.block + 1)
    (hf : ∀ i < c.nIn, ((st.hf.getD o []).getD i []).getD 0 [] = f i) (hg : ∀ i < c.nIn, (hist.getD i []).getD 0 [] = g i)
    (hfin : (macRow (c.block + 1) ((List.range c.nIn).map fun i => (f i, g i))).all c32IsFinite = true) :
    convAccumulate e c st hist o = macRow (c.block + 1) ((List.range c.nIn).map fun i => (f i, g i)) := by
  set row : Nat → MacRow := fun i => (⟨.convMac, 0, i, o, 0⟩, f i, g i) with hrow
  have hm : macRow (c.block + 1) ((List.range c.nIn).map fun i => (f i, g i)) =
      ((List.range c.nIn).map row).foldl (fun y r => macBins (c.block + 1) y r.2.1 r.2.2)
        (List.replicate (c.block + 1) c32Zero) := by
    rw [macRow, List.foldl_map, List.foldl_map]
  rw [hm] at hfin ⊢
  rw [← (mac_fold (e := e) _ _ List.length_replicate (fun r hr => by
    obtain ⟨i, hi, rfl⟩ := List.mem_map.mp hr
    exact hl i (List.mem_range.mp hi)) hfin).2, convAccumulate]
  have horder : macOrder c = (List.range c.nIn).map fun i => (0, i) := by
    simp [macOrder, hparts]
  rw [horder, List.foldl_map, List.foldl_map]
  refine List.foldl_ext _ _ _ fun y i hi => ?_
  have hi := List.mem_range.mp hi
  simp only [hparts, hpos, Nat.mod_one, hf i hi, hg i hi, hrow]

/-- R224. -/
theorem conv_equality : ConvEquality := by
  intro e nOut o st hist taps blocks ht hb hut hub hpos hhf hhist n hn
  obtain ⟨hinv, hnear⟩ := Config.fft.convolves taps blocks ht hb hut hub
  have hlen : lengthOk 4096 := ⟨by norm_num, by norm_num, by norm_num⟩
  have mem : ∀ (l : List (List F32)) (hl : l.length = 32) (i : Nat) (hi : i < 32), l.getD i [] ∈ l := fun l hl i hi => by
    rw [List.getD_eq_getElem _ _ (by omega)]; exact List.getElem_mem _
  rw [zip_map_range ht hb [] []] at hinv hnear
  have hl : ∀ x, (Config.fft.rfftOut 4096 x).length = 2048 + 1 := fun x => by simp [FftFns.rfftOut, realBins]
  have hparts : (⟨2048, 512, 32, nOut⟩ : ConvCfg).parts = 1 := by simp [ConvCfg.parts, ceilDiv]
  have key := accumulate_eq (e := e) (o := o) (c := ⟨2048, 512, 32, nOut⟩) (st := st) (hist := hist) hparts hpos
    (fun i _ => ⟨hl _, hl _⟩)
    (fun i hi => by
      have h1 := hut _ (mem taps ht i hi)
      rw [hhf i hi, rfft_of_moderate hlen (by rw [List.length_append, h1.1, length_zeros]) fun v hv => ?_]
      rcases List.mem_append.mp hv with hv | hv
      · exact unit_moderate (h1.2 v hv)
      · exact unit_moderate (zeros_unit v hv))
    (fun i hi => by
      have h2 := hub _ (mem blocks hb i hi)
      rw [hhist i hi, rfft_of_moderate hlen h2.1 fun v hv => unit_moderate (h2.2 v hv)])
    (all_of_allFinite_flatten (allFinite_of_defined hinv))
  rw [convOutput, key]
  rw [show 2 * (⟨2048, 512, 32, nOut⟩ : ConvCfg).block = 4096 by simp, irfft_of_invertible hinv]
  exact hnear n hn

/-! R188. -/

theorem analysis_eq {e : Nat} {cfg : QmfCfg} {chan : Nat} (hops : List (List F32)) (slot : Nat) (st : List Word)
    (h : ∀ x ∈ hops, allFinite x = true) :
    (qmfAnalysisChannel e cfg chan slot st hops).2 = Config.qmf.analyse cfg.hop cfg.hyb st hops := by
  induction hops generalizing slot st with
  | nil => rfl
  | cons x hops ih =>
    simp only [qmfAnalysisChannel, qmfAnaHop, h x (by simp), if_true, QmfFns.analyse]
    rw [ih _ _ fun y hy => h y (by simp [hy])]

theorem synthesis_eq {e : Nat} {cfg : QmfCfg} {chan : Nat} (bands : List (List C32)) (slot : Nat) (st : List Word)
    (h : ∀ x ∈ bands, allFinite (flatten x) = true) :
    (qmfSynthesisChannel e cfg chan slot st bands).2 = Config.qmf.synthesise cfg.hop cfg.hyb st bands := by
  induction bands generalizing slot st with
  | nil => rfl
  | cons x bands ih =>
    simp only [qmfSynthesisChannel, qmfSynHop, h x (by simp), if_true, QmfFns.synthesise]
    rw [ih _ _ fun y hy => h y (by simp [hy])]

theorem qmf_roundTrip : QmfRoundTrip := by
  intro e e' cfg chan hops hok hu t ht
  obtain ⟨hf, hr⟩ := Config.qmf.roundTrips cfg.hop cfg.hyb hok hops hu
  rw [qmfIdentity, qmfAna0, qmfSyn0, analysis_eq hops 0 _ fun x hx => allFinite_of fun v hv => ((hu x hx).2 v hv).1, synthesis_eq _ 0 _ hf]
  exact hr t ht

/-! R170. -/

theorem windowed_eq {e w h : Nat} {st : DrawSite} {buf : List F32} (hb : ∀ v ∈ buf, f32IsFinite v = true)
    (hw : ∀ n < w, f32IsFinite (stftWin w h n) = true) : windowed e st w h buf = windowedBy w h buf := by
  refine List.map_congr_left fun n hn => ?_
  simp only [allFinite_of hb, if_true]
  have hv : f32IsFinite (buf.getD n f32Zero) = true := by
    rcases getD_mem_or buf n f32Zero with hm | hm
    · exact hb _ hm
    · rw [hm]; exact finite_zero
  exact (fmul_finite_args hv (hw n (List.mem_range.mp hn)) _).1

theorem getD_allFinite {x : List F32} (h : allFinite x = true) (n : Nat) : f32IsFinite (x.getD n f32Zero) = true := by
  rcases getD_mem_or x n f32Zero with hm | hm
  · exact List.all_eq_true.mp h _ hm
  · rw [hm]; exact finite_zero

theorem overlapAdd_eq {e w h : Nat} {st : DrawSite} {acc y : List F32} (ha : allFinite acc = true) (hy : allFinite y = true)
    (hw : ∀ n < w, f32IsFinite (stftWin w h n) = true) :
    overlapAdd e st w h acc y = (List.range w).map fun n => overlapOne w h n (acc.getD n f32Zero) (y.getD n f32Zero) := by
  refine List.map_congr_left fun n hn => ?_
  simp only [ha, hy, Bool.and_self, if_true]
  have hm := fmul_finite_args (getD_allFinite hy n) (hw n (List.mem_range.mp hn))
  rw [(hm _).1, fadd_nan_irrel (getD_allFinite ha n) (hm _).2, overlapOne]

/-- What one slot of an identity round trip computes on moderate samples. -/
theorem slot_trip {e e' : Nat} {cfg : StftCfg} {chan slot slot' : Nat} {buf new acc : List F32} (hn : lengthOk cfg.win)
    (hw : ∀ n < cfg.win, f32IsFinite (stftWin cfg.win cfg.hop n) = true ∧ |f32Rat (stftWin cfg.win cfg.hop n)| ≤ 1.001)
    (hu : ∀ v ∈ buf.drop cfg.hop ++ new, unitRange v) (ha : allFinite acc = true)
    (hinv : invertible cfg.win (Config.fft.rfftOut cfg.win (windowedBy cfg.win cfg.hop (buf.drop cfg.hop ++ new))))
    (hfin : allFinite (Config.fft.segmentTrip cfg.win cfg.hop (buf.drop cfg.hop ++ new)) = true) :
    let sum := (List.range cfg.win).map fun n => overlapOne cfg.win cfg.hop n (acc.getD n f32Zero)
      ((Config.fft.segmentTrip cfg.win cfg.hop (buf.drop cfg.hop ++ new)).getD n f32Zero)
    (stftForwardHop e cfg chan slot buf new).1 = buf.drop cfg.hop ++ new ∧
      stftBackwardHop e' cfg chan slot' acc (stftForwardHop e cfg chan slot buf new).2 =
        (sum.drop cfg.hop ++ zeros cfg.hop, sum.take cfg.hop) := by
  refine ⟨rfl, ?_⟩
  have e1 : (stftForwardHop e cfg chan slot buf new).2 =
      Config.fft.rfftOut cfg.win (windowedBy cfg.win cfg.hop (buf.drop cfg.hop ++ new)) := by
    simp only [stftForwardHop]
    rw [windowed_eq (fun v hv => (hu v hv).1) (fun n h => (hw n h).1)]
    refine rfft_of_moderate hn (length_windowedBy ..) (fun v hv => ?_) _ _
    have := windowedBy_finite hu hw v hv
    exact ⟨this.1, this.2.trans (by norm_num)⟩
  simp only [stftBackwardHop]
  unfold FftFns.segmentTrip at hfin ⊢
  rw [e1, irfft_of_invertible hinv, overlapAdd_eq ha hfin fun n h => (hw n h).1]

/-- Sample by sample within the tolerance. -/
def Near (tol : ℚ) (out x : List F32) : Prop := List.Forall₂ (fun a v => near tol a (f32Rat v)) out x

theorem near_of_getD {tol : ℚ} {out x : List F32} (h : out.length = x.length)
    (hk : ∀ n < x.length, near tol (out.getD n f32Zero) (f32Rat (x.getD n f32Zero))) : Near tol out x := by
  refine List.forall₂_iff_get.mpr ⟨h, fun i h1 h2 => ?_⟩
  have := hk i h2
  rwa [List.getD_eq_getElem _ _ h1, List.getD_eq_getElem _ _ h2] at this

theorem Near.getD {tol : ℚ} {out x : List F32} (h : Near tol out x) {n : Nat} (hn : n < x.length) :
    near tol (out.getD n f32Zero) (f32Rat (x.getD n f32Zero)) := by
  obtain ⟨h1, h2⟩ := List.forall₂_iff_get.mp h
  rw [List.getD_eq_getElem _ _ (by omega), List.getD_eq_getElem _ _ hn]
  exact h2 n (by omega) hn

theorem Near.append {tol : ℚ} {a b x y : List F32} (h1 : Near tol a x) (h2 : Near tol b y) : Near tol (a ++ b) (x ++ y) :=
  List.rel_append h1 h2

theorem allFinite_zeros (n : Nat) : allFinite (zeros n) = true :=
  allFinite_of fun v hv => by rw [List.eq_of_mem_replicate hv]; exact finite_zero

theorem windowedBy_self {w : Nat} {x : List F32} (hx : x.length = w) (hu : ∀ v ∈ x, unitRange v) : windowedBy w w x = x := by
  refine List.ext_getElem (by rw [length_windowedBy, hx]) fun n h1 h2 => ?_
  simp only [windowedBy, List.getElem_map, List.getElem_range, stftWin_self, List.getD_eq_getElem _ _ h2]
  exact fmul_one (hu _ (List.getElem_mem h2)).1 _

theorem overlapOne_self {w n : Nat} {y : F32} (h : f32IsFinite y = true) :
    f32IsFinite (overlapOne w w n f32Zero y) = true ∧ f32Rat (overlapOne w w n f32Zero y) = f32Rat y := by
  rw [overlapOne, stftWin_self, fmul_one h]
  exact zero_fadd h _

/-- H = W: the window is 1.0, so one segment comes back as R122 (b) says. -/
theorem whole_facts {w : Nat} (hn : lengthOk w) {x : List F32} (hx : x.length = w) (hu : ∀ v ∈ x, unitRange v) :
    invertible w (Config.fft.rfftOut w (windowedBy w w x)) ∧ allFinite (Config.fft.segmentTrip w w x) = true ∧
      ∀ n < w, near (1 / 100000) (overlapOne w w n f32Zero ((Config.fft.segmentTrip w w x).getD n f32Zero))
        (f32Rat (x.getD n f32Zero)) := by
  obtain ⟨h1, h2⟩ := (Config.fft.roundTrips w hn).1 x hx hu
  simp only [FftFns.segmentTrip, windowedBy_self hx hu]
  refine ⟨h1, allFinite_of fun v hv => ?_, fun n h => ?_⟩
  · obtain ⟨j, hj, rfl⟩ := List.mem_iff_getElem.mp hv
    rw [← List.getD_eq_getElem _ f32Zero hj]
    exact (h2 j (by simpa [FftFns.irfftOut] using hj)).1
  · obtain ⟨f, v⟩ := overlapOne_self (w := w) (n := n) (h2 n h).1
    exact ⟨f, v.symm ▸ (h2 n h).2⟩

/-- H = W: every hop comes back at once. -/
theorem block_stream {e e' : Nat} {cfg : StftCfg} {chan : Nat} (hn : lengthOk cfg.win) (hh : cfg.hop = cfg.win)
    (hops : List (List F32)) (hu : ∀ x ∈ hops, x.length = cfg.win ∧ ∀ v ∈ x, unitRange v) (slot slot' : Nat) (buf : List F32)
    (hb : buf.length = cfg.win) :
    Near (1 / 100000) (stftBackwardChannel e' cfg chan slot' (zeros cfg.win)
      (stftForwardChannel e cfg chan slot buf hops).2).2 hops.flatten := by
  induction hops generalizing slot slot' buf with
  | nil => exact List.Forall₂.nil
  | cons x hops ih =>
    obtain ⟨hx, hxu⟩ := hu x (by simp)
    have hsh : buf.drop cfg.hop ++ x = x := by rw [hh, ← hb, List.drop_length, List.nil_append]
    obtain ⟨h1, h2, h3⟩ := whole_facts hn hx hxu
    have hw : ∀ n < cfg.win, f32IsFinite (stftWin cfg.win cfg.hop n) = true ∧ |f32Rat (stftWin cfg.win cfg.hop n)| ≤ 1.001 := by
      intro n _
      rw [hh, stftWin_self, f32Rat_one]
      exact ⟨by decide, by norm_num⟩
    obtain ⟨s1, s2⟩ := slot_trip (e := e) (e' := e') (chan := chan) (slot := slot) (slot' := slot') (acc := zeros cfg.win) hn hw (hsh.symm ▸ hxu)
      (allFinite_zeros _) (by rw [hsh, hh]; exact h1) (by rw [hsh, hh]; exact h2)
    simp only [stftForwardChannel, stftBackwardChannel, s1, s2, List.flatten_cons]
    rw [hsh]
    refine Near.append ?_ ?_
    · refine near_of_getD (by simp [hx, hh]) fun n hnx => ?_
      rw [hh, List.take_of_length_le (by simp), getD_map_range _ _ _ _ (by omega)]
      have hz : (zeros cfg.win).getD n f32Zero = f32Zero := by
        rcases getD_mem_or (zeros cfg.win) n f32Zero with hm | hm
        · exact List.eq_of_mem_replicate hm
        · exact hm
      rw [hz]
      exact h3 n (by omega)
    · have : (List.map (fun n => overlapOne cfg.win cfg.hop n ((zeros cfg.win).getD n f32Zero)
          ((Config.fft.segmentTrip cfg.win cfg.hop x).getD n f32Zero)) (List.range cfg.win)).drop cfg.hop = [] := by
        rw [hh, List.drop_eq_nil_of_le (by simp)]
      rw [this, List.nil_append, hh]
      exact ih (fun y hy => hu y (by simp [hy])) _ _ x hx

/-- What the second half of a segment leaves in the accumulator. -/
noncomputable def tail (w : Nat) (buf : List F32) : List F32 :=
  ((List.range (w / 2)).map fun n =>
    overlapOne w (w / 2) (w / 2 + n) f32Zero ((Config.fft.segmentTrip w (w / 2) buf).getD (w / 2 + n) f32Zero)) ++ zeros (w / 2)

theorem half_facts {w : Nat} (hn : lengthOk w) {one two : List F32} (h1 : one.length = w) (h2 : two.length = w)
    (u1 : ∀ v ∈ one, unitRange v) (u2 : ∀ v ∈ two, unitRange v)
    (hs : ∀ n < w / 2, one.getD (w / 2 + n) f32Zero = two.getD n f32Zero) :
    (invertible w (Config.fft.rfftOut w (windowedBy w (w / 2) one)) ∧
      allFinite (Config.fft.segmentTrip w (w / 2) one) = true) ∧ allFinite (tail w one) = true := by
  obtain ⟨a, b, c⟩ := Config.fft.overlaps w hn one two h1 h2 u1 u2 hs
  refine ⟨⟨a, b⟩, allFinite_of fun v hv => ?_⟩
  rcases List.mem_append.mp hv with hv | hv
  · obtain ⟨n, hk, rfl⟩ := List.mem_map.mp hv
    exact (fadd_finite (c n (List.mem_range.mp hk)).1).1
  · exact List.all_eq_true.mp (allFinite_zeros _) v hv

theorem half_any {w : Nat} (hn : lengthOk w) {one : List F32} (h1 : one.length = w) (u1 : ∀ v ∈ one, unitRange v) :
    (invertible w (Config.fft.rfftOut w (windowedBy w (w / 2) one)) ∧
      allFinite (Config.fft.segmentTrip w (w / 2) one) = true) ∧ allFinite (tail w one) = true := by
  have he := hn.1
  refine half_facts (two := one.drop (w / 2) ++ zeros (w / 2)) hn h1 (by simp [h1]; omega) u1 (fun v hv => ?_) fun n hk => ?_
  · rcases List.mem_append.mp hv with hv | hv
    · exact u1 v (List.mem_of_mem_drop hv)
    · exact zeros_unit v hv
  · simp only [List.getD_eq_getElem?_getD]
    rw [List.getElem?_append_left (by simp [h1]; omega), List.getElem?_drop]

theorem getD_zeros (n k : Nat) : (zeros n).getD k f32Zero = f32Zero := by
  rcases getD_mem_or (zeros n) k f32Zero with hm | hm
  · exact List.eq_of_mem_replicate hm
  · exact hm

/-- The accumulator after a slot, where its second half was zero before. -/
theorem tail_eq {w : Nat} (he : w % 2 = 0) {buf acc : List F32} (ha : ∀ n < w / 2, acc.getD (w / 2 + n) f32Zero = f32Zero) :
    ((List.range w).map fun n => overlapOne w (w / 2) n (acc.getD n f32Zero)
      ((Config.fft.segmentTrip w (w / 2) buf).getD n f32Zero)).drop (w / 2) ++ zeros (w / 2) = tail w buf := by
  rw [tail]
  congr 1
  refine List.ext_getElem (by simp; omega) fun n h1 h2 => ?_
  simp only [List.length_map, List.length_range] at h2
  simp only [List.getElem_drop, List.getElem_map, List.getElem_range]
  rw [ha n h2]

theorem tail_second {w : Nat} (buf : List F32) (n : Nat) : (tail w buf).getD (w / 2 + n) f32Zero = f32Zero := by
  have := getD_zeros (w / 2) n
  simp only [tail, List.getD_eq_getElem?_getD] at this ⊢
  rw [List.getElem?_append_right (by simp)]
  simpa using this

theorem tail_first {w n : Nat} (buf : List F32) (hn : n < w / 2) : (tail w buf).getD n f32Zero =
    overlapOne w (w / 2) (w / 2 + n) f32Zero ((Config.fft.segmentTrip w (w / 2) buf).getD (w / 2 + n) f32Zero) := by
  simp only [tail, List.getD_eq_getElem?_getD]
  rw [List.getElem?_append_left (by simpa using hn)]
  simp [hn]

section Half
variable {cfg : StftCfg} (hn : lengthOk cfg.win) (hh : cfg.hop = cfg.win / 2)
include hn hh

theorem half_window : ∀ n < cfg.win,
    f32IsFinite (stftWin cfg.win cfg.hop n) = true ∧ |f32Rat (stftWin cfg.win cfg.hop n)| ≤ 1.001 := by
  intro n hk
  have he := hn.1
  have h2 : cfg.win = 2 * (cfg.win / 2) := by omega
  rw [hh, h2, Nat.mul_div_cancel_left _ (by norm_num)]
  exact ⟨(stftWin_spec (cfg.win / 2) n (by omega)).1, abs_window_le _ _ (by omega)⟩

/-- One slot with half overlap. -/
theorem half_slot {e e' chan slot slot' : Nat} {buf new acc : List F32} (hb : buf.length = cfg.win)
    (hu : ∀ v ∈ buf.drop cfg.hop, unitRange v) (hx : new.length = cfg.hop) (hxu : ∀ v ∈ new, unitRange v)
    (hacc : allFinite acc = true) (ha : ∀ n < cfg.win / 2, acc.getD (cfg.win / 2 + n) f32Zero = f32Zero) :
    stftBackwardHop e' cfg chan slot' acc (stftForwardHop e cfg chan slot buf new).2 =
      (tail cfg.win (buf.drop cfg.hop ++ new), (List.range cfg.hop).map fun n => overlapOne cfg.win cfg.hop n
        (acc.getD n f32Zero) ((Config.fft.segmentTrip cfg.win cfg.hop (buf.drop cfg.hop ++ new)).getD n f32Zero)) := by
  have he := hn.1
  have hlen : (buf.drop cfg.hop ++ new).length = cfg.win := by simp [hb, hx]; omega
  have hus : ∀ v ∈ buf.drop cfg.hop ++ new, unitRange v := fun v hv => by
    rcases List.mem_append.mp hv with hv | hv
    · exact hu v hv
    · exact hxu v hv
  have hf := half_any hn hlen hus
  rw [(slot_trip hn (half_window hn hh) hus hacc (by rw [hh] at hf ⊢; exact hf.1.1) (by rw [hh] at hf ⊢; exact hf.1.2)).2]
  refine Prod.ext ?_ ?_
  · have := tail_eq (buf := buf.drop cfg.hop ++ new) he ha
    simpa only [hh] using this
  · refine List.ext_getElem (by simp; omega) fun n h1 h2 => ?_
    simp

/-- H = W/2: every hop comes back one hop later, once the accumulator holds the tail of the last segment. -/
theorem half_stream {e e' chan : Nat} (hops : List (List F32)) (hu : ∀ x ∈ hops, x.length = cfg.hop ∧ ∀ v ∈ x, unitRange v)
    (slot slot' : Nat) (buf : List F32) (hb : buf.length = cfg.win) (hbu : ∀ v ∈ buf, unitRange v) :
    Near (1 / 1000000) (stftBackwardChannel e' cfg chan slot' (tail cfg.win buf)
      (stftForwardChannel e cfg chan slot buf hops).2).2
      ((buf.drop cfg.hop ++ hops.flatten).take hops.flatten.length) := by
  have he := hn.1
  induction hops generalizing slot slot' buf with
  | nil => exact List.Forall₂.nil
  | cons x hops ih =>
    obtain ⟨hx, hxu⟩ := hu x (by simp)
    have hlen : (buf.drop cfg.hop ++ x).length = cfg.win := by simp [hb, hx]; omega
    have hus : ∀ v ∈ buf.drop cfg.hop ++ x, unitRange v := fun v hv => by
      rcases List.mem_append.mp hv with hv | hv
      · exact hbu v (List.mem_of_mem_drop hv)
      · exact hxu v hv
    have hstep := half_slot (e := e) (e' := e') (chan := chan) (slot := slot) (slot' := slot') hn hh hb
      (fun v hv => hbu v (List.mem_of_mem_drop hv)) hx hxu (half_any hn hb hbu).2 fun n _ => tail_second buf n
    have hfirst : (stftForwardHop e cfg chan slot buf x).1 = buf.drop cfg.hop ++ x := rfl
    simp only [stftForwardChannel, stftBackwardChannel, hstep, hfirst, List.flatten_cons, List.length_append]
    have hd : (buf.drop cfg.hop).length = cfg.hop := by simp [hb]; omega
    have e1 : (buf.drop cfg.hop ++ (x ++ hops.flatten)).take (x.length + hops.flatten.length) =
        buf.drop cfg.hop ++ (((buf.drop cfg.hop ++ x).drop cfg.hop ++ hops.flatten).take hops.flatten.length) := by
      rw [List.drop_append_of_le_length (by omega), List.drop_eq_nil_of_le (le_of_eq hd), List.nil_append,
        List.take_append, List.take_of_length_le (by omega)]
      congr 2
      omega
    rw [e1]
    refine Near.append ?_ (ih (fun y hy => hu y (by simp [hy])) _ _ _ hlen hus)
    refine near_of_getD (by simp [hb]; omega) fun n hk => ?_
    have hk' : n < cfg.win / 2 := by omega
    rw [getD_map_range _ _ _ _ (by omega), tail_first buf hk']
    have hs : ∀ n < cfg.win / 2, buf.getD (cfg.win / 2 + n) f32Zero = (buf.drop cfg.hop ++ x).getD n f32Zero := by
      intro n hk
      simp only [List.getD_eq_getElem?_getD]
      rw [List.getElem?_append_left (by omega), List.getElem?_drop, hh]
    have := (Config.fft.overlaps cfg.win hn buf _ hb hlen hbu hus hs).2.2 n hk'
    have e2 : (buf.drop cfg.hop ++ x).getD n f32Zero = (buf.drop cfg.hop).getD n f32Zero := by
      simp only [List.getD_eq_getElem?_getD]
      rw [List.getElem?_append_left (by omega)]
    rw [e2] at this
    simpa only [hh] using this

end Half

/-- R170. -/
theorem stft_roundTrip : StftRoundTrip := by
  intro e e' cfg chan hops hn hw hu t ht
  have he := hn.1
  have h2 := hn.2.1
  rcases hw with hw | hw
  · rw [if_pos hw]
    rw [hw, Nat.sub_self, Nat.add_zero] at ht ⊢
    exact (block_stream hn hw hops (fun x hx => hw ▸ hu x hx) 0 0 _ (length_zeros _)).getD ht
  · have hh : cfg.hop = cfg.win / 2 := by omega
    have hd : cfg.win - cfg.hop = cfg.hop := by omega
    rw [if_neg (by omega)]
    cases hops with
    | nil => simp at ht
    | cons x hops =>
      obtain ⟨hx, hxu⟩ := hu x (by simp)
      have hb := length_zeros cfg.win
      have hlen : ((zeros cfg.win).drop cfg.hop ++ x).length = cfg.win := by simp [hx]; omega
      have hus : ∀ v ∈ (zeros cfg.win).drop cfg.hop ++ x, unitRange v := fun v hv => by
        rcases List.mem_append.mp hv with hv | hv
        · exact zeros_unit v (List.mem_of_mem_drop hv)
        · exact hxu v hv
      have hstep := half_slot (e := e) (e' := e') (chan := chan) (slot := 0) (slot' := 0) (acc := zeros cfg.win) hn hh hb
        (fun v hv => zeros_unit v (List.mem_of_mem_drop hv)) hx hxu (allFinite_zeros _) fun n _ => getD_zeros _ _
      have hfirst : (stftForwardHop e cfg chan 0 (zeros cfg.win) x).1 = (zeros cfg.win).drop cfg.hop ++ x := rfl
      have hs := half_stream hn hh (e := e) (e' := e') (chan := chan) hops (fun y hy => hu y (by simp [hy])) 1 1 _ hlen hus
      simp only [stftIdentity, stftForwardChannel, stftBackwardChannel, hstep, hfirst, Nat.zero_add]
      have e1 : ((zeros cfg.win).drop cfg.hop ++ x).drop cfg.hop = x := by
        rw [List.drop_append_of_le_length (by simp; omega), List.drop_eq_nil_of_le (by simp; omega), List.nil_append]
      rw [e1] at hs
      rw [List.flatten_cons, List.length_append] at ht
      have := hs.getD (n := t) (by rw [List.length_take, List.length_append]; omega)
      rw [hd]
      simp only [List.flatten_cons, List.getD_eq_getElem?_getD] at this ⊢
      rw [List.getElem?_append_right (by simp), List.length_map, List.length_range, Nat.add_sub_cancel]
      rwa [List.getElem?_take_of_lt (by omega)] at this

end Sys2Proof.Machine
end

