-- ==== Sys2Proof/Laws/Handles.lean ====
section
/-! SUPPORT. Every slot a command writes is well formed: the buffers a command leaves have the sizes the slot's
configuration gives (spec/10_state.md R43 to R45). -/

namespace Sys2Proof.Machine

/-- What a passed test says. -/
theorem of_firstError_none {ts : Tests} {t : Bool × ErrCode} (h : firstError ts = none) (ht : t ∈ ts) : t.1 = false :=
  firstError_eq_none.mp h t ht

theorem countOk_of {p : Params} {n : Nat} (h : ¬n = 0) (h' : ¬p.maxChannels < n) : countOk p n := ⟨by omega, by omega⟩

theorem shaped_replicate {α : Type} (n k : Nat) (x : List α) (hx : x.length = k) :
    shaped (List.replicate n x) n k :=
  ⟨List.length_replicate, fun y hy => by rw [List.eq_of_mem_replicate hy, hx]⟩

theorem shaped_map_range {α : Type} (n k : Nat) (f : Nat → List α) (hf : ∀ c < n, (f c).length = k) :
    shaped ((List.range n).map f) n k := by
  refine ⟨by simp, fun y hy => ?_⟩
  obtain ⟨c, hc, rfl⟩ := List.mem_map.mp hy
  exact hf c (List.mem_range.mp hc)

theorem shaped_getD {α : Type} {l : List (List α)} {n k c : Nat} (h : shaped l n k) (hc : c < n) :
    (l.getD c []).length = k := by
  have hc' : c < l.length := by rw [h.1]; exact hc
  rw [List.getD_eq_getElem?_getD, List.getElem?_eq_getElem hc']
  exact h.2 _ (List.getElem_mem hc')

theorem shaped_zeroState_inbuf (c : StftCfg) : shaped c.zeroState.inbuf c.nIn c.win :=
  shaped_replicate _ _ _ (by simp)

theorem shaped_zeroState_acc (c : StftCfg) : shaped c.zeroState.acc c.nOut c.win :=
  shaped_replicate _ _ _ (by simp)

/-- STFT_CREATE leaves a well-formed slot (R160). -/
theorem stftCreate_ok {s : State} {cfg : StftCfg} (h0 : firstError (stftCreateTests s cfg) = none) :
    cfg.ok s.params cfg.zeroState := by
  simp only [firstError_eq_none, stftCreateTests, List.forall_mem_cons, Bool.or_eq_false_iff, beq_eq_false_iff_ne,
    decide_eq_false_iff_not, bne_eq_false_iff_eq, Bool.not_eq_false'] at h0
  obtain ⟨⟨⟨⟨h1, h2⟩, h3⟩, h4⟩, ⟨h5, h6⟩, ⟨h7, h8⟩, h9, -⟩ := h0
  refine ⟨h9, by omega, by omega, h4, ⟨by omega, by omega⟩, ⟨by omega, by omega⟩, shaped_zeroState_inbuf _,
    shaped_zeroState_acc _⟩

/-- STFT_FLUSH leaves a well-formed slot (R168). -/
theorem stftFlush_ok {p : Params} {cfg : StftCfg} {st : StftState} (h : cfg.ok p st) : cfg.ok p cfg.zeroState :=
  ⟨h.1, h.2.1, h.2.2.1, h.2.2.2.1, h.2.2.2.2.1, h.2.2.2.2.2.1, shaped_zeroState_inbuf _, shaped_zeroState_acc _⟩

/-- STFT_CHANNEL_CHANGE leaves a well-formed slot (R166). -/
theorem channelChange_ok {s : State} {cfg : StftCfg} {st : StftState} {ni no e : Nat} (h : cfg.ok s.params st)
    (h0 : firstError (channelChangeTests s cfg ni no) = none) :
    StftCfg.ok s.params { cfg with nIn := ni, nOut := no } (StftCfg.freeState { cfg with nIn := ni, nOut := no } e) := by
  simp only [firstError_eq_none, channelChangeTests, List.forall_mem_cons, Bool.or_eq_false_iff, beq_eq_false_iff_ne,
    decide_eq_false_iff_not] at h0
  obtain ⟨⟨⟨⟨h1, h2⟩, h3⟩, h4⟩, -⟩ := h0
  exact ⟨h.1, h.2.1, h.2.2.1, h.2.2.2.1, countOk_of h1 h3, countOk_of h2 h4,
    shaped_map_range _ _ _ (by simp), shaped_map_range _ _ _ (by simp)⟩

theorem length_stftForwardChannel (e : Nat) (cfg : StftCfg) (chan slot : Nat) (buf : List F32)
    (hops : List (List F32)) (hw : cfg.hop ≤ cfg.win) (hb : buf.length = cfg.win)
    (hh : ∀ x ∈ hops, x.length = cfg.hop) : (stftForwardChannel e cfg chan slot buf hops).1.length = cfg.win := by
  induction hops generalizing slot buf with
  | nil => exact hb
  | cons x rest ih =>
    simp only [stftForwardChannel]
    refine ih _ _ ?_ fun y hy => hh y (by simp [hy])
    simp [stftForwardHop, hb, hh x (by simp)]; omega

theorem length_stftBackwardChannel (e : Nat) (cfg : StftCfg) (chan slot : Nat) (acc : List F32)
    (bins : List (List C32)) (hw : cfg.hop ≤ cfg.win) (hb : acc.length = cfg.win) :
    (stftBackwardChannel e cfg chan slot acc bins).1.length = cfg.win := by
  induction bins generalizing slot acc with
  | nil => exact hb
  | cons x rest ih =>
    simp only [stftBackwardChannel]
    refine ih _ _ ?_
    simp [stftBackwardHop]; omega

theorem length_of_mem_blockHops {s : State} {src size hop c : Nat} {x : List F32}
    (h : x ∈ s.blockHops src size hop c) : x.length = hop := by
  obtain ⟨k, -, rfl⟩ := List.mem_map.mp h
  simp

/-- STFT_FORWARD leaves a well-formed slot (R162). -/
theorem stftForward_ok {s : State} {cfg : StftCfg} {st : StftState} (h : cfg.ok s.params st) :
    cfg.ok s.params (stftForwardState s cfg st) := by
  obtain ⟨h1, h2, h3, h4, h5, h6, h7, h8⟩ := h
  refine ⟨h1, h2, h3, h4, h5, h6, ?_, h8⟩
  simp only [stftForwardState, stftForwardAll, List.map_map]
  exact shaped_map_range _ _ _ fun c hc =>
    length_stftForwardChannel _ _ _ _ _ _ h3 (shaped_getD h7 hc) fun x hx => length_of_mem_blockHops hx

/-- STFT_BACKWARD leaves a well-formed slot (R164). -/
theorem stftBackward_ok {s : State} {cfg : StftCfg} {st : StftState} (h : cfg.ok s.params st) :
    cfg.ok s.params (stftBackwardState s cfg st) := by
  obtain ⟨h1, h2, h3, h4, h5, h6, h7, h8⟩ := h
  refine ⟨h1, h2, h3, h4, h5, h6, h7, ?_⟩
  simp only [stftBackwardState, stftBackwardAll, List.map_map]
  exact shaped_map_range _ _ _ fun c hc => length_stftBackwardChannel _ _ _ _ _ _ h3 (shaped_getD h8 hc)

/-- QMF_CREATE leaves a well-formed slot (R190). -/
theorem qmfCreate_ok {s : State} {hop hyb ni no : Nat} (h0 : firstError (qmfCreateTests s hop hyb ni no) = none) :
    QmfCfg.ok s.params ⟨hop, hyb == 1, ni, no⟩ (QmfCfg.initState ⟨hop, hyb == 1, ni, no⟩) := by
  simp only [firstError_eq_none, qmfCreateTests, List.forall_mem_cons, Bool.or_eq_false_iff, beq_eq_false_iff_ne,
    decide_eq_false_iff_not, Bool.not_eq_false'] at h0
  obtain ⟨-, ⟨⟨⟨h1, h2⟩, h3⟩, h4⟩, h5, -⟩ := h0
  exact ⟨h5, countOk_of h1 h3, countOk_of h2 h4, shaped_replicate _ _ _ (by simp [qmfAna0, QmfFns.ana0]),
    shaped_replicate _ _ _ (by simp [qmfSyn0, QmfFns.syn0])⟩

theorem length_qmfAnalysisChannel (e : Nat) (cfg : QmfCfg) (chan slot : Nat) (st : List Word)
    (hops : List (List F32)) (hb : st.length = Config.qmf.anaWords cfg.hop cfg.hyb) :
    (qmfAnalysisChannel e cfg chan slot st hops).1.length = Config.qmf.anaWords cfg.hop cfg.hyb := by
  induction hops generalizing slot st with
  | nil => exact hb
  | cons x rest ih => exact ih _ _ (by unfold qmfAnaHop QmfFns.anaHop; split <;> simp)

theorem length_qmfSynthesisChannel (e : Nat) (cfg : QmfCfg) (chan slot : Nat) (st : List Word)
    (bins : List (List C32)) (hb : st.length = Config.qmf.synWords cfg.hop cfg.hyb) :
    (qmfSynthesisChannel e cfg chan slot st bins).1.length = Config.qmf.synWords cfg.hop cfg.hyb := by
  induction bins generalizing slot st with
  | nil => exact hb
  | cons x rest ih => exact ih _ _ (by unfold qmfSynHop QmfFns.synHop; split <;> simp)

/-- QMF_ANALYSIS leaves a well-formed slot (R191). -/
theorem qmfAnalysis_ok {s : State} {cfg : QmfCfg} {st : QmfState} (h : cfg.ok s.params st) :
    cfg.ok s.params (qmfAnalysisState s cfg st) := by
  obtain ⟨h1, h2, h3, h4, h5⟩ := h
  refine ⟨h1, h2, h3, ?_, h5⟩
  simp only [qmfAnalysisState, qmfAnalysisAll, List.map_map]
  exact shaped_map_range _ _ _ fun c hc => length_qmfAnalysisChannel _ _ _ _ _ _ (shaped_getD h4 hc)

/-- QMF_SYNTHESIS leaves a well-formed slot (R195). -/
theorem qmfSynthesis_ok {s : State} {cfg : QmfCfg} {st : QmfState} (h : cfg.ok s.params st) :
    cfg.ok s.params (qmfSynthesisState s cfg st) := by
  obtain ⟨h1, h2, h3, h4, h5⟩ := h
  refine ⟨h1, h2, h3, h4, ?_⟩
  simp only [qmfSynthesisState, qmfSynthesisAll, List.map_map]
  exact shaped_map_range _ _ _ fun c hc => length_qmfSynthesisChannel _ _ _ _ _ _ (shaped_getD h5 hc)

theorem ConvCfg.parts_pos {c : ConvCfg} (hb : 1 ≤ c.block) (hl : 1 ≤ c.len) : 1 ≤ c.parts := by
  unfold ConvCfg.parts ceilDiv
  exact (Nat.one_le_div_iff (by omega)).mpr (by omega)

theorem realBins_double (b : Nat) : realBins (2 * b) = b + 1 := by simp [realBins]

/-- CONV_CREATE leaves a well-formed slot (R220). -/
theorem convCreate_ok {s : State} {cfg : ConvCfg} {flt : Nat} (h0 : firstError (convCreateTests s cfg) = none) :
    cfg.ok s.params (s.convInit cfg flt) := by
  have t1 := of_firstError_none h0 (t := (cfg.block == 0 || cfg.len == 0 || cfg.nIn == 0 || cfg.nOut == 0, .badParam))
    (by simp [convCreateTests])
  have t2 := of_firstError_none h0
    (t := (s.params.maxChannels < cfg.nIn || s.params.maxChannels < cfg.nOut, .badParam)) (by simp [convCreateTests])
  have t3 := of_firstError_none h0 (t := (!s.params.fftSupported (2 * cfg.block), .unsupportedLength))
    (by simp [convCreateTests])
  simp only [Bool.or_eq_false_iff, beq_eq_false_iff_ne, decide_eq_false_iff_not, Bool.not_eq_false'] at t1 t2 t3
  obtain ⟨⟨⟨h1, h2⟩, h3⟩, h4⟩ := t1
  have hp := ConvCfg.parts_pos (c := cfg) (by omega) (by omega)
  refine ⟨by omega, by omega, t3, ⟨by omega, by omega⟩, ⟨by omega, by omega⟩, ⟨?_, ?_⟩,
    shaped_replicate _ _ _ (by simp), ⟨?_, ?_⟩, hp⟩
  · simp [State.convInit, State.partitionSpectra]
  · intro x hx
    simp only [State.convInit, State.partitionSpectra] at hx
    obtain ⟨o, -, rfl⟩ := List.mem_map.mp hx
    refine ⟨by simp, fun y hy => ?_⟩
    obtain ⟨i, -, rfl⟩ := List.mem_map.mp hy
    exact shaped_map_range _ _ _ fun p _ => by simp [realBins_double]
  · simp [State.convInit]
  · intro x hx
    rw [List.eq_of_mem_replicate hx]
    exact shaped_replicate _ _ _ (by simp)

/-- CONV_APPLY leaves a well-formed slot (R222). -/
theorem convApply_ok {s : State} {cfg : ConvCfg} {st : ConvState} (h : cfg.ok s.params st) :
    cfg.ok s.params (convApplyState s cfg st) := by
  obtain ⟨h1, h2, h3, h4, h5, h6, h7, ⟨h8, h9⟩, h10⟩ := h
  refine ⟨h1, h2, h3, h4, h5, h6, shaped_map_range _ _ _ fun c _ => by simp [State.convBlock], ⟨?_, ?_⟩,
    Nat.mod_lt _ (by omega)⟩
  · simp [convApplyState, State.convHist]
  · intro x hx
    simp only [convApplyState, State.convHist] at hx
    obtain ⟨i, hi, rfl⟩ := List.mem_map.mp hx
    have hi' : i < st.hist.length := by rw [h8]; exact List.mem_range.mp hi
    have hx' := h9 _ (List.getElem_mem hi')
    rw [List.getD_eq_getElem?_getD, List.getElem?_eq_getElem hi']
    refine ⟨by simpa using hx'.1, fun y hy => ?_⟩
    rcases List.mem_or_eq_of_mem_set hy with hy | rfl
    · exact hx'.2 y hy
    · simp [realBins_double]

end Sys2Proof.Machine
end

