-- ==== Sys2Proof/Laws/Exec.lean ====
section
/-! SUPPORT. Everything a command can do, said once: it is rejected, or it sets its own slot, stores words over its
write footprint, and sets RESULT0. Proofs about all commands cite `exec_shape`; proofs about one cite its lemma. -/

namespace Sys2Proof.Machine

/-- What a command that completes writes: its slot, the words it stores and where, and RESULT0. -/
structure Effect where
  hd     : Handle
  base   : Nat
  words  : List Word
  result : Word

/-- The state a command leaves, before its completion. -/
def State.perform (s : State) (h : Nat) (e : Effect) : State :=
  { (s.setSlot h e.hd).storeF32s e.base e.words with result0 := e.result }

/-- The words stored are those of the write footprint, in range; or none is stored. -/
def Effect.Fits (e : Effect) (i : Instr) (s : State) : Prop :=
  e.words = [] ∨
    ((footprintOf i (s.slot i.hid) s.latch.arg).wf = some ⟨e.base, 4 * e.words.length⟩ ∧
      e.base + 4 * e.words.length ≤ s.params.dmemBytes)

/-- What the slot then owns fits in the pool, and it stays well formed; only the commands that say so change the slot's
configuration, and only queries set RESULT0. -/
def Effect.Keeps (e : Effect) (i : Instr) (s : State) : Prop :=
  e.hd.req ≤ (s.slot i.hid).req + s.privFree ∧ ((s.slot i.hid).ok s.params → e.hd.ok s.params) ∧
    (i.reconfigures = true ∨ (s.slot i.hid).sameConfig e.hd) ∧ (i.isQuery = true ∨ e.result = s.result0)

/-- Rejected with an error code, or performed in full and completed. -/
def CommandShape (i : Instr) (s : State) : Prop :=
  (∃ c, c ≠ .noError ∧ exec i s = .next (s.reject c)) ∨
    ∃ e : Effect, i.hid < s.numHandles ∧ e.Fits i s ∧ e.Keeps i s ∧
      exec i s = .next (s.perform i.hid e).complete

theorem perform_slot_only (s : State) (h : Nat) (hd : Handle) :
    s.perform h ⟨hd, 0, [], s.result0⟩ = s.setSlot h hd := rfl

theorem perform_same_slot (s : State) {h : Nat} (hh : h < s.numHandles) (base : Nat) (ws : List Word) (r : Word) :
    s.perform h ⟨s.slot h, base, ws, r⟩ = { s.storeF32s base ws with result0 := r } := by
  rw [State.perform, State.setSlot_slot s h hh]

/-- A slot index at or above NUM_HANDLES is rejected with BAD_HANDLE, whatever the command (R244). -/
theorem exec_badHandle (i : Instr) (s : State) (hh : s.numHandles ≤ i.hid) :
    exec i s = .next (s.reject .badHandle) := by
  cases i <;> simp only [exec, execRfftCreate, execRfftForward, execRfftBackward, execCfftCreate, execCfftForward, execCfftBackward,
    execDestroy, execStftCreate, execStftForward, execStftBackward, execStftChannelChange, execStftFlush,
    execQmfCreate, execQmfAnalysis, execQmfSynthesis, execQmfGetDelay, execQmfGetNbands, execQmfGetCentreFreqs,
    execConvCreate, execConvApply] <;>
    exact onSlot_of_ge _ hh

/-- A test list raises error codes only: no test reports NONE. -/
def Tests.raise (ts : Tests) : Prop := ∀ t ∈ ts, t.2 ≠ .noError

/-- What `finish` does has the shape if the performed state is one effect, which fits once every test passes. -/
theorem shape_of_finish {i : Instr} {s p : State} {ts : Tests} (hh : i.hid < s.numHandles) (e : Effect)
    (he : exec i s = finish s ts p) (hp : p = s.perform i.hid e) (hcode : Tests.raise ts)
    (hkeep : firstError ts = none → e.Keeps i s)
    (hfit : firstError ts = none → e.Fits i s) : CommandShape i s := by
  rcases finish_cases s ts p with ⟨c, hc0, hc⟩ | ⟨h0, h1⟩
  · obtain ⟨pre, post, rfl, -⟩ := firstError_eq_some.mp hc0
    exact .inl ⟨c, hcode (true, c) (by simp), by rw [he, hc]⟩
  · exact .inr ⟨e, hh, hfit h0, hkeep h0, by rw [he, h1, hp]⟩

/-- A command's write footprint is in range once its tests, which hold the buffer tests, pass. -/
theorem wf_inRange_of_tests {dmem : Nat} {ts : Tests} {bases : List Nat} {fp : Footprint} {r : ByteRange}
    (h : firstError ts = none) (hsub : ∀ t ∈ bufferTests dmem bases fp, t ∈ ts) (hr : fp.wf = some r) :
    r.base + r.size ≤ dmem := by
  have h2 : firstError (bufferTests dmem bases fp) = none :=
    firstError_eq_none.mpr fun t ht => firstError_eq_none.mp h t (hsub t ht)
  have h3 := (bufferTests_pass.mp h2).2.1
  simp only [Footprint.inRange, hr, Option.all_some, Bool.and_eq_true, ByteRange.inRange, decide_eq_true_eq] at h3
  exact h3.2

theorem raise_bufferTests (dmem : Nat) (bases : List Nat) (fp : Footprint) : Tests.raise (bufferTests dmem bases fp) := by
  simp [Tests.raise, bufferTests]

theorem raise_blockTests (size hop dmem : Nat) (bases : List Nat) (fp : Footprint) :
    Tests.raise (blockSizeTest size hop :: bufferTests dmem bases fp) := by
  simp [Tests.raise, bufferTests, blockSizeTest]

@[simp] theorem Handle.sameConfig_refl (hd : Handle) : hd.sameConfig hd := by cases hd <;> simp [Handle.sameConfig]

/-- Slots of one configuration own as many private words (R41). -/
theorem Handle.req_of_sameConfig {a b : Handle} (h : a.sameConfig b) : b.req = a.req := by
  cases a <;> cases b <;> simp_all [Handle.sameConfig, Handle.req, ConvCfg.parts]

/-- A command that leaves its slot alone keeps it. -/
theorem keeps_same {i : Instr} {s : State} {h base : Nat} {ws : List Word} {r : Word} (hi : i.hid = h)
    (hq : i.isQuery = true ∨ r = s.result0) : Effect.Keeps ⟨s.slot h, base, ws, r⟩ i s := by
  subst hi
  exact ⟨Nat.le_add_right _ _, id, .inr (Handle.sameConfig_refl _), hq⟩

theorem keeps_ok {s : State} {h : Nat} {old new : Handle} (hs : s.slot h = old) (hok : old.ok s.params → new.ok s.params) :
    (s.slot h).ok s.params → new.ok s.params := by rw [hs]; exact hok

theorem fftCreate_ok {s : State} {n : Nat} (h0 : firstError (fftCreateTests s n) = none) :
    s.params.fftSupported n = true := by
  simpa using of_firstError_none h0 (t := (!s.params.fftSupported n, .unsupportedLength)) (by simp [fftCreateTests])

theorem stftCreate_req {s : State} {h : Nat} {cfg : StftCfg} {st : StftState} {hd : Handle} (_ : s.slot h = hd)
    (h0 : firstError (stftCreateTests s cfg) = none) : (Handle.stft cfg st).req ≤ (s.slot h).req + s.privFree := by
  have := firstError_eq_none.mp h0 (s.privFree < (cfg.nIn + cfg.nOut) * cfg.win, .noResources)
    (by simp [stftCreateTests])
  simp only [decide_eq_false_iff_not, Nat.not_lt] at this
  exact le_trans this (Nat.le_add_left _ _)

theorem channelChange_req {s : State} {h ni no : Nat} {cfg : StftCfg} {st st' : StftState}
    (hs : s.slot h = .stft cfg st) (h0 : firstError (channelChangeTests s cfg ni no) = none) :
    (Handle.stft { cfg with nIn := ni, nOut := no } st').req ≤ (s.slot h).req + s.privFree := by
  have := firstError_eq_none.mp h0
    (s.privFree + (cfg.nIn + cfg.nOut) * cfg.win < (ni + no) * cfg.win, .noResources) (by simp [channelChangeTests])
  simp only [decide_eq_false_iff_not, Nat.not_lt] at this
  rw [hs, Nat.add_comm]
  exact this

theorem qmfCreate_req {s : State} {h hop hyb ni no : Nat} {st : QmfState} {hd : Handle} (_ : s.slot h = hd)
    (h0 : firstError (qmfCreateTests s hop hyb ni no) = none) :
    (Handle.qmf ⟨hop, hyb == 1, ni, no⟩ st).req ≤ (s.slot h).req + s.privFree := by
  have := firstError_eq_none.mp h0 (s.privFree < qmfStateWords hop (hyb == 1) ni no, .noResources)
    (by simp [qmfCreateTests])
  simp only [decide_eq_false_iff_not, Nat.not_lt] at this
  exact le_trans this (Nat.le_add_left _ _)

theorem convCreate_req {s : State} {h : Nat} {cfg : ConvCfg} {st : ConvState}
    (h0 : firstError (convCreateTests s cfg) = none) :
    (Handle.conv cfg st).req ≤ (s.slot h).req + s.privFree := by
  have := firstError_eq_none.mp h0 (decide (s.privFree < (Handle.conv cfg ⟨[], [], [], 0⟩).req), .noResources)
    (by simp [convCreateTests])
  simp only [decide_eq_false_iff_not, Nat.not_lt] at this
  exact le_trans this (Nat.le_add_left _ _)

theorem rfftCreate_shape (h : Nat) (s : State) : CommandShape (.rfftCreate h) s := by
  by_cases hh : h < s.numHandles
  case neg => exact .inl ⟨.badHandle, by decide, exec_badHandle _ s (Nat.le_of_not_lt hh)⟩
  cases hs : s.slot h with
  | free =>
    exact shape_of_finish (i := .rfftCreate h) hh ⟨_, 0, [], s.result0⟩ (by simp only [exec, execRfftCreate, onSlot_of_lt _ hh, hs]; rfl) rfl
      (by simp [Tests.raise, fftCreateTests]) (fun h0 => ⟨Nat.zero_le _, by exact fun _ => fftCreate_ok h0, .inl rfl, .inr rfl⟩) fun _ => .inl rfl
  | rfft _ => exact .inl ⟨.handleInUse, by decide, by simp only [exec, execRfftCreate, onSlot_of_lt _ hh, hs]⟩
  | cfft _ => exact .inl ⟨.handleInUse, by decide, by simp only [exec, execRfftCreate, onSlot_of_lt _ hh, hs]⟩
  | stft _ _ => exact .inl ⟨.handleInUse, by decide, by simp only [exec, execRfftCreate, onSlot_of_lt _ hh, hs]⟩
  | qmf _ _ => exact .inl ⟨.handleInUse, by decide, by simp only [exec, execRfftCreate, onSlot_of_lt _ hh, hs]⟩
  | conv _ _ => exact .inl ⟨.handleInUse, by decide, by simp only [exec, execRfftCreate, onSlot_of_lt _ hh, hs]⟩

theorem cfftCreate_shape (h : Nat) (s : State) : CommandShape (.cfftCreate h) s := by
  by_cases hh : h < s.numHandles
  case neg => exact .inl ⟨.badHandle, by decide, exec_badHandle _ s (Nat.le_of_not_lt hh)⟩
  cases hs : s.slot h with
  | free =>
    exact shape_of_finish (i := .cfftCreate h) hh ⟨_, 0, [], s.result0⟩ (by simp only [exec, execCfftCreate, onSlot_of_lt _ hh, hs]; rfl) rfl
      (by simp [Tests.raise, fftCreateTests]) (fun h0 => ⟨Nat.zero_le _, by exact fun _ => fftCreate_ok h0, .inl rfl, .inr rfl⟩) fun _ => .inl rfl
  | rfft _ => exact .inl ⟨.handleInUse, by decide, by simp only [exec, execCfftCreate, onSlot_of_lt _ hh, hs]⟩
  | cfft _ => exact .inl ⟨.handleInUse, by decide, by simp only [exec, execCfftCreate, onSlot_of_lt _ hh, hs]⟩
  | stft _ _ => exact .inl ⟨.handleInUse, by decide, by simp only [exec, execCfftCreate, onSlot_of_lt _ hh, hs]⟩
  | qmf _ _ => exact .inl ⟨.handleInUse, by decide, by simp only [exec, execCfftCreate, onSlot_of_lt _ hh, hs]⟩
  | conv _ _ => exact .inl ⟨.handleInUse, by decide, by simp only [exec, execCfftCreate, onSlot_of_lt _ hh, hs]⟩

theorem stftCreate_shape (h : Nat) (s : State) : CommandShape (.stftCreate h) s := by
  by_cases hh : h < s.numHandles
  case neg => exact .inl ⟨.badHandle, by decide, exec_badHandle _ s (Nat.le_of_not_lt hh)⟩
  cases hs : s.slot h with
  | free =>
    exact shape_of_finish (i := .stftCreate h) hh ⟨_, 0, [], s.result0⟩ (by simp only [exec, execStftCreate, onSlot_of_lt _ hh, hs]; rfl) rfl
      (by simp [Tests.raise, stftCreateTests]) (fun h0 => ⟨stftCreate_req hs h0, by exact fun _ => stftCreate_ok h0, .inl rfl, .inr rfl⟩) fun _ => .inl rfl
  | rfft _ => exact .inl ⟨.handleInUse, by decide, by simp only [exec, execStftCreate, onSlot_of_lt _ hh, hs]⟩
  | cfft _ => exact .inl ⟨.handleInUse, by decide, by simp only [exec, execStftCreate, onSlot_of_lt _ hh, hs]⟩
  | stft _ _ => exact .inl ⟨.handleInUse, by decide, by simp only [exec, execStftCreate, onSlot_of_lt _ hh, hs]⟩
  | qmf _ _ => exact .inl ⟨.handleInUse, by decide, by simp only [exec, execStftCreate, onSlot_of_lt _ hh, hs]⟩
  | conv _ _ => exact .inl ⟨.handleInUse, by decide, by simp only [exec, execStftCreate, onSlot_of_lt _ hh, hs]⟩

theorem qmfCreate_shape (h : Nat) (s : State) : CommandShape (.qmfCreate h) s := by
  by_cases hh : h < s.numHandles
  case neg => exact .inl ⟨.badHandle, by decide, exec_badHandle _ s (Nat.le_of_not_lt hh)⟩
  cases hs : s.slot h with
  | free =>
    exact shape_of_finish (i := .qmfCreate h) hh ⟨_, 0, [], s.result0⟩ (by simp only [exec, execQmfCreate, onSlot_of_lt _ hh, hs]; rfl) rfl
      (by simp [Tests.raise, qmfCreateTests]) (fun h0 => ⟨qmfCreate_req hs h0, by exact fun _ => qmfCreate_ok h0, .inl rfl, .inr rfl⟩) fun _ => .inl rfl
  | rfft _ => exact .inl ⟨.handleInUse, by decide, by simp only [exec, execQmfCreate, onSlot_of_lt _ hh, hs]⟩
  | cfft _ => exact .inl ⟨.handleInUse, by decide, by simp only [exec, execQmfCreate, onSlot_of_lt _ hh, hs]⟩
  | stft _ _ => exact .inl ⟨.handleInUse, by decide, by simp only [exec, execQmfCreate, onSlot_of_lt _ hh, hs]⟩
  | qmf _ _ => exact .inl ⟨.handleInUse, by decide, by simp only [exec, execQmfCreate, onSlot_of_lt _ hh, hs]⟩
  | conv _ _ => exact .inl ⟨.handleInUse, by decide, by simp only [exec, execQmfCreate, onSlot_of_lt _ hh, hs]⟩

theorem convCreate_shape (h : Nat) (s : State) : CommandShape (.convCreate h) s := by
  by_cases hh : h < s.numHandles
  case neg => exact .inl ⟨.badHandle, by decide, exec_badHandle _ s (Nat.le_of_not_lt hh)⟩
  cases hs : s.slot h with
  | free =>
    exact shape_of_finish (i := .convCreate h) hh ⟨_, 0, [], s.result0⟩ (by simp only [exec, execConvCreate, onSlot_of_lt _ hh, hs]; rfl) rfl
      (by simp [Tests.raise, convCreateTests, bufferTests]) (fun h0 => ⟨convCreate_req h0, by exact fun _ => convCreate_ok h0, .inl rfl, .inr rfl⟩) fun _ => .inl rfl
  | rfft _ => exact .inl ⟨.handleInUse, by decide, by simp only [exec, execConvCreate, onSlot_of_lt _ hh, hs]⟩
  | cfft _ => exact .inl ⟨.handleInUse, by decide, by simp only [exec, execConvCreate, onSlot_of_lt _ hh, hs]⟩
  | stft _ _ => exact .inl ⟨.handleInUse, by decide, by simp only [exec, execConvCreate, onSlot_of_lt _ hh, hs]⟩
  | qmf _ _ => exact .inl ⟨.handleInUse, by decide, by simp only [exec, execConvCreate, onSlot_of_lt _ hh, hs]⟩
  | conv _ _ => exact .inl ⟨.handleInUse, by decide, by simp only [exec, execConvCreate, onSlot_of_lt _ hh, hs]⟩

theorem stftChannelChange_shape (h : Nat) (s : State) : CommandShape (.stftChannelChange h) s := by
  by_cases hh : h < s.numHandles
  case neg => exact .inl ⟨.badHandle, by decide, exec_badHandle _ s (Nat.le_of_not_lt hh)⟩
  cases hs : s.slot h with
  | free => exact .inl ⟨.wrongHandle, by decide, by simp only [exec, execStftChannelChange, onSlot_of_lt _ hh, hs]⟩
  | rfft _ => exact .inl ⟨.wrongHandle, by decide, by simp only [exec, execStftChannelChange, onSlot_of_lt _ hh, hs]⟩
  | cfft _ => exact .inl ⟨.wrongHandle, by decide, by simp only [exec, execStftChannelChange, onSlot_of_lt _ hh, hs]⟩
  | stft cfg st =>
    exact shape_of_finish (i := .stftChannelChange h) hh ⟨_, 0, [], s.result0⟩ (by simp only [exec, execStftChannelChange, onSlot_of_lt _ hh, hs]; rfl) rfl
      (by simp [Tests.raise, channelChangeTests]) (fun h0 => ⟨channelChange_req hs h0, by exact keeps_ok hs fun h => channelChange_ok h h0, .inl rfl, .inr rfl⟩) fun _ => .inl rfl
  | qmf _ _ => exact .inl ⟨.wrongHandle, by decide, by simp only [exec, execStftChannelChange, onSlot_of_lt _ hh, hs]⟩
  | conv _ _ => exact .inl ⟨.wrongHandle, by decide, by simp only [exec, execStftChannelChange, onSlot_of_lt _ hh, hs]⟩

theorem stftFlush_shape (h : Nat) (s : State) : CommandShape (.stftFlush h) s := by
  by_cases hh : h < s.numHandles
  case neg => exact .inl ⟨.badHandle, by decide, exec_badHandle _ s (Nat.le_of_not_lt hh)⟩
  cases hs : s.slot h with
  | free => exact .inl ⟨.wrongHandle, by decide, by simp only [exec, execStftFlush, onSlot_of_lt _ hh, hs]⟩
  | rfft _ => exact .inl ⟨.wrongHandle, by decide, by simp only [exec, execStftFlush, onSlot_of_lt _ hh, hs]⟩
  | cfft _ => exact .inl ⟨.wrongHandle, by decide, by simp only [exec, execStftFlush, onSlot_of_lt _ hh, hs]⟩
  | stft cfg st =>
    exact shape_of_finish (i := .stftFlush h) hh ⟨_, 0, [], s.result0⟩ (by simp only [exec, execStftFlush, onSlot_of_lt _ hh, hs]; rfl) rfl
      (by simp [Tests.raise]) (fun _ => ⟨by simp [Instr.hid, hs, Handle.req], by exact keeps_ok hs stftFlush_ok, .inr (by simp [Instr.hid, hs, Handle.sameConfig]), .inr rfl⟩) fun _ => .inl rfl
  | qmf _ _ => exact .inl ⟨.wrongHandle, by decide, by simp only [exec, execStftFlush, onSlot_of_lt _ hh, hs]⟩
  | conv _ _ => exact .inl ⟨.wrongHandle, by decide, by simp only [exec, execStftFlush, onSlot_of_lt _ hh, hs]⟩

theorem destroy_shape (h : Nat) (s : State) : CommandShape (.destroy h) s := by
  by_cases hh : h < s.numHandles
  case neg => exact .inl ⟨.badHandle, by decide, exec_badHandle _ s (Nat.le_of_not_lt hh)⟩
  cases hs : s.slot h with
  | free => exact .inl ⟨.wrongHandle, by decide, by simp only [exec, execDestroy, onSlot_of_lt _ hh, hs]⟩
  | rfft _ =>
    exact shape_of_finish (i := .destroy h) hh ⟨_, 0, [], s.result0⟩ (by simp only [exec, execDestroy, onSlot_of_lt _ hh, hs]; rfl) rfl
      (by simp [Tests.raise]) (fun _ => ⟨Nat.zero_le _, by exact fun _ => trivial, .inl rfl, .inr rfl⟩) fun _ => .inl rfl
  | cfft _ =>
    exact shape_of_finish (i := .destroy h) hh ⟨_, 0, [], s.result0⟩ (by simp only [exec, execDestroy, onSlot_of_lt _ hh, hs]; rfl) rfl
      (by simp [Tests.raise]) (fun _ => ⟨Nat.zero_le _, by exact fun _ => trivial, .inl rfl, .inr rfl⟩) fun _ => .inl rfl
  | stft _ _ =>
    exact shape_of_finish (i := .destroy h) hh ⟨_, 0, [], s.result0⟩ (by simp only [exec, execDestroy, onSlot_of_lt _ hh, hs]; rfl) rfl
      (by simp [Tests.raise]) (fun _ => ⟨Nat.zero_le _, by exact fun _ => trivial, .inl rfl, .inr rfl⟩) fun _ => .inl rfl
  | qmf _ _ =>
    exact shape_of_finish (i := .destroy h) hh ⟨_, 0, [], s.result0⟩ (by simp only [exec, execDestroy, onSlot_of_lt _ hh, hs]; rfl) rfl
      (by simp [Tests.raise]) (fun _ => ⟨Nat.zero_le _, by exact fun _ => trivial, .inl rfl, .inr rfl⟩) fun _ => .inl rfl
  | conv _ _ =>
    exact shape_of_finish (i := .destroy h) hh ⟨_, 0, [], s.result0⟩ (by simp only [exec, execDestroy, onSlot_of_lt _ hh, hs]; rfl) rfl
      (by simp [Tests.raise]) (fun _ => ⟨Nat.zero_le _, by exact fun _ => trivial, .inl rfl, .inr rfl⟩) fun _ => .inl rfl

theorem qmfGetDelay_shape (h : Nat) (s : State) : CommandShape (.qmfGetDelay h) s := by
  by_cases hh : h < s.numHandles
  case neg => exact .inl ⟨.badHandle, by decide, exec_badHandle _ s (Nat.le_of_not_lt hh)⟩
  cases hs : s.slot h with
  | free => exact .inl ⟨.wrongHandle, by decide, by simp only [exec, execQmfGetDelay, onSlot_of_lt _ hh, hs]⟩
  | rfft _ => exact .inl ⟨.wrongHandle, by decide, by simp only [exec, execQmfGetDelay, onSlot_of_lt _ hh, hs]⟩
  | cfft _ => exact .inl ⟨.wrongHandle, by decide, by simp only [exec, execQmfGetDelay, onSlot_of_lt _ hh, hs]⟩
  | stft _ _ => exact .inl ⟨.wrongHandle, by decide, by simp only [exec, execQmfGetDelay, onSlot_of_lt _ hh, hs]⟩
  | qmf cfg st =>
    exact shape_of_finish (i := .qmfGetDelay h) hh ⟨s.slot h, 0, [], _⟩ (by simp only [exec, execQmfGetDelay, onSlot_of_lt _ hh, hs]; rfl) (by rw [show Instr.hid _ = h from rfl, perform_same_slot s hh]; rfl)
      (by simp [Tests.raise]) (fun _ => keeps_same rfl (.inl rfl)) fun _ => .inl rfl
  | conv _ _ => exact .inl ⟨.wrongHandle, by decide, by simp only [exec, execQmfGetDelay, onSlot_of_lt _ hh, hs]⟩

theorem qmfGetNbands_shape (h : Nat) (s : State) : CommandShape (.qmfGetNbands h) s := by
  by_cases hh : h < s.numHandles
  case neg => exact .inl ⟨.badHandle, by decide, exec_badHandle _ s (Nat.le_of_not_lt hh)⟩
  cases hs : s.slot h with
  | free => exact .inl ⟨.wrongHandle, by decide, by simp only [exec, execQmfGetNbands, onSlot_of_lt _ hh, hs]⟩
  | rfft _ => exact .inl ⟨.wrongHandle, by decide, by simp only [exec, execQmfGetNbands, onSlot_of_lt _ hh, hs]⟩
  | cfft _ => exact .inl ⟨.wrongHandle, by decide, by simp only [exec, execQmfGetNbands, onSlot_of_lt _ hh, hs]⟩
  | stft _ _ => exact .inl ⟨.wrongHandle, by decide, by simp only [exec, execQmfGetNbands, onSlot_of_lt _ hh, hs]⟩
  | qmf cfg st =>
    exact shape_of_finish (i := .qmfGetNbands h) hh ⟨s.slot h, 0, [], _⟩ (by simp only [exec, execQmfGetNbands, onSlot_of_lt _ hh, hs]; rfl) (by rw [show Instr.hid _ = h from rfl, perform_same_slot s hh]; rfl)
      (by simp [Tests.raise]) (fun _ => keeps_same rfl (.inl rfl)) fun _ => .inl rfl
  | conv _ _ => exact .inl ⟨.wrongHandle, by decide, by simp only [exec, execQmfGetNbands, onSlot_of_lt _ hh, hs]⟩

theorem rfftForward_shape (h : Nat) (s : State) : CommandShape (.rfftForward h) s := by
  by_cases hh : h < s.numHandles
  case neg => exact .inl ⟨.badHandle, by decide, exec_badHandle _ s (Nat.le_of_not_lt hh)⟩
  cases hs : s.slot h with
  | free => exact .inl ⟨.wrongHandle, by decide, by simp only [exec, execRfftForward, onSlot_of_lt _ hh, hs]⟩
  | rfft n =>
    refine shape_of_finish (i := .rfftForward h) hh ⟨s.slot h, _, _, s.result0⟩
      (by simp only [exec, execRfftForward, onSlot_of_lt _ hh, hs]; rfl)
      (by rw [show Instr.hid _ = h from rfl, perform_same_slot s hh]; rfl)
      (raise_bufferTests _ _ _) (fun _ => keeps_same rfl (.inr rfl)) fun h0 => .inr ?_
    have hr := wf_inRange_of_tests h0 (fun t ht => ht) rfl
    constructor
    · simp [Instr.hid, hs, footprintOf, rfftForwardFootprint, Footprint.between, State.arg]; try omega
    · simp [State.arg] at hr ⊢; omega
  | cfft _ => exact .inl ⟨.wrongHandle, by decide, by simp only [exec, execRfftForward, onSlot_of_lt _ hh, hs]⟩
  | stft _ _ => exact .inl ⟨.wrongHandle, by decide, by simp only [exec, execRfftForward, onSlot_of_lt _ hh, hs]⟩
  | qmf _ _ => exact .inl ⟨.wrongHandle, by decide, by simp only [exec, execRfftForward, onSlot_of_lt _ hh, hs]⟩
  | conv _ _ => exact .inl ⟨.wrongHandle, by decide, by simp only [exec, execRfftForward, onSlot_of_lt _ hh, hs]⟩

theorem rfftBackward_shape (h : Nat) (s : State) : CommandShape (.rfftBackward h) s := by
  by_cases hh : h < s.numHandles
  case neg => exact .inl ⟨.badHandle, by decide, exec_badHandle _ s (Nat.le_of_not_lt hh)⟩
  cases hs : s.slot h with
  | free => exact .inl ⟨.wrongHandle, by decide, by simp only [exec, execRfftBackward, onSlot_of_lt _ hh, hs]⟩
  | rfft n =>
    refine shape_of_finish (i := .rfftBackward h) hh ⟨s.slot h, _, _, s.result0⟩
      (by simp only [exec, execRfftBackward, onSlot_of_lt _ hh, hs]; rfl)
      (by rw [show Instr.hid _ = h from rfl, perform_same_slot s hh]; rfl)
      (raise_bufferTests _ _ _) (fun _ => keeps_same rfl (.inr rfl)) fun h0 => .inr ?_
    have hr := wf_inRange_of_tests h0 (fun t ht => ht) rfl
    constructor
    · simp [Instr.hid, hs, footprintOf, rfftBackwardFootprint, Footprint.between, State.arg]; try omega
    · simp [State.arg] at hr ⊢; omega
  | cfft _ => exact .inl ⟨.wrongHandle, by decide, by simp only [exec, execRfftBackward, onSlot_of_lt _ hh, hs]⟩
  | stft _ _ => exact .inl ⟨.wrongHandle, by decide, by simp only [exec, execRfftBackward, onSlot_of_lt _ hh, hs]⟩
  | qmf _ _ => exact .inl ⟨.wrongHandle, by decide, by simp only [exec, execRfftBackward, onSlot_of_lt _ hh, hs]⟩
  | conv _ _ => exact .inl ⟨.wrongHandle, by decide, by simp only [exec, execRfftBackward, onSlot_of_lt _ hh, hs]⟩

theorem cfftForward_shape (h : Nat) (s : State) : CommandShape (.cfftForward h) s := by
  by_cases hh : h < s.numHandles
  case neg => exact .inl ⟨.badHandle, by decide, exec_badHandle _ s (Nat.le_of_not_lt hh)⟩
  cases hs : s.slot h with
  | free => exact .inl ⟨.wrongHandle, by decide, by simp only [exec, execCfftForward, onSlot_of_lt _ hh, hs]⟩
  | rfft _ => exact .inl ⟨.wrongHandle, by decide, by simp only [exec, execCfftForward, onSlot_of_lt _ hh, hs]⟩
  | cfft n =>
    refine shape_of_finish (i := .cfftForward h) hh ⟨s.slot h, _, _, s.result0⟩
      (by simp only [exec, execCfftForward, onSlot_of_lt _ hh, hs]; rfl)
      (by rw [show Instr.hid _ = h from rfl, perform_same_slot s hh]; rfl)
      (raise_bufferTests _ _ _) (fun _ => keeps_same rfl (.inr rfl)) fun h0 => .inr ?_
    have hr := wf_inRange_of_tests h0 (fun t ht => ht) rfl
    constructor
    · simp [Instr.hid, hs, footprintOf, cfftFootprint, Footprint.between, State.arg]; try omega
    · simp [State.arg] at hr ⊢; omega
  | stft _ _ => exact .inl ⟨.wrongHandle, by decide, by simp only [exec, execCfftForward, onSlot_of_lt _ hh, hs]⟩
  | qmf _ _ => exact .inl ⟨.wrongHandle, by decide, by simp only [exec, execCfftForward, onSlot_of_lt _ hh, hs]⟩
  | conv _ _ => exact .inl ⟨.wrongHandle, by decide, by simp only [exec, execCfftForward, onSlot_of_lt _ hh, hs]⟩

theorem cfftBackward_shape (h : Nat) (s : State) : CommandShape (.cfftBackward h) s := by
  by_cases hh : h < s.numHandles
  case neg => exact .inl ⟨.badHandle, by decide, exec_badHandle _ s (Nat.le_of_not_lt hh)⟩
  cases hs : s.slot h with
  | free => exact .inl ⟨.wrongHandle, by decide, by simp only [exec, execCfftBackward, onSlot_of_lt _ hh, hs]⟩
  | rfft _ => exact .inl ⟨.wrongHandle, by decide, by simp only [exec, execCfftBackward, onSlot_of_lt _ hh, hs]⟩
  | cfft n =>
    refine shape_of_finish (i := .cfftBackward h) hh ⟨s.slot h, _, _, s.result0⟩
      (by simp only [exec, execCfftBackward, onSlot_of_lt _ hh, hs]; rfl)
      (by rw [show Instr.hid _ = h from rfl, perform_same_slot s hh]; rfl)
      (raise_bufferTests _ _ _) (fun _ => keeps_same rfl (.inr rfl)) fun h0 => .inr ?_
    have hr := wf_inRange_of_tests h0 (fun t ht => ht) rfl
    constructor
    · simp [Instr.hid, hs, footprintOf, cfftFootprint, Footprint.between, State.arg]; try omega
    · simp [State.arg] at hr ⊢; omega
  | stft _ _ => exact .inl ⟨.wrongHandle, by decide, by simp only [exec, execCfftBackward, onSlot_of_lt _ hh, hs]⟩
  | qmf _ _ => exact .inl ⟨.wrongHandle, by decide, by simp only [exec, execCfftBackward, onSlot_of_lt _ hh, hs]⟩
  | conv _ _ => exact .inl ⟨.wrongHandle, by decide, by simp only [exec, execCfftBackward, onSlot_of_lt _ hh, hs]⟩

theorem qmfGetCentreFreqs_shape (h : Nat) (s : State) : CommandShape (.qmfGetCentreFreqs h) s := by
  by_cases hh : h < s.numHandles
  case neg => exact .inl ⟨.badHandle, by decide, exec_badHandle _ s (Nat.le_of_not_lt hh)⟩
  cases hs : s.slot h with
  | free => exact .inl ⟨.wrongHandle, by decide, by simp only [exec, execQmfGetCentreFreqs, onSlot_of_lt _ hh, hs]⟩
  | rfft _ => exact .inl ⟨.wrongHandle, by decide, by simp only [exec, execQmfGetCentreFreqs, onSlot_of_lt _ hh, hs]⟩
  | cfft _ => exact .inl ⟨.wrongHandle, by decide, by simp only [exec, execQmfGetCentreFreqs, onSlot_of_lt _ hh, hs]⟩
  | stft _ _ => exact .inl ⟨.wrongHandle, by decide, by simp only [exec, execQmfGetCentreFreqs, onSlot_of_lt _ hh, hs]⟩
  | qmf cfg st =>
    refine shape_of_finish (i := .qmfGetCentreFreqs h) hh ⟨s.slot h, _, _, s.result0⟩
      (by simp only [exec, execQmfGetCentreFreqs, onSlot_of_lt _ hh, hs]; rfl)
      (by rw [show Instr.hid _ = h from rfl, perform_same_slot s hh]; rfl)
      (by simp [Tests.raise, centreFreqsTests, bufferTests]) (fun _ => keeps_same rfl (.inr rfl)) fun h0 => .inr ?_
    have hr := wf_inRange_of_tests h0 (fun t ht => by simp only [centreFreqsTests, List.mem_append]; exact .inr ht) rfl
    constructor
    · simp [Instr.hid, hs, footprintOf, centreFreqsFootprint, centreFreqs, State.arg]; try omega
    · simp [State.arg, centreFreqs] at hr ⊢; omega
  | conv _ _ => exact .inl ⟨.wrongHandle, by decide, by simp only [exec, execQmfGetCentreFreqs, onSlot_of_lt _ hh, hs]⟩

theorem stftForward_shape (h : Nat) (s : State) : CommandShape (.stftForward h) s := by
  by_cases hh : h < s.numHandles
  case neg => exact .inl ⟨.badHandle, by decide, exec_badHandle _ s (Nat.le_of_not_lt hh)⟩
  cases hs : s.slot h with
  | free => exact .inl ⟨.wrongHandle, by decide, by simp only [exec, execStftForward, onSlot_of_lt _ hh, hs]⟩
  | rfft _ => exact .inl ⟨.wrongHandle, by decide, by simp only [exec, execStftForward, onSlot_of_lt _ hh, hs]⟩
  | cfft _ => exact .inl ⟨.wrongHandle, by decide, by simp only [exec, execStftForward, onSlot_of_lt _ hh, hs]⟩
  | stft cfg st =>
    refine shape_of_finish (i := .stftForward h) hh ⟨_, s.arg 2, flatten (stftForwardFrame s cfg st), s.result0⟩
      (by simp only [exec, execStftForward, onSlot_of_lt _ hh, hs]; rfl) rfl
      (raise_blockTests _ _ _ _ _) (fun _ => ⟨by simp [Instr.hid, hs, Handle.req], by exact keeps_ok hs stftForward_ok, .inr (by simp [Instr.hid, hs, Handle.sameConfig]), .inr rfl⟩) fun h0 => .inr ?_
    have hr := wf_inRange_of_tests h0 (fun t ht => List.mem_cons_of_mem _ ht) rfl
    constructor
    · simp only [Instr.hid, hs, footprintOf, blockToFrameFootprint, Footprint.between, stftForwardFrame, length_flatten, length_frameOf]
      exact congrArg some (congrArg (ByteRange.mk _) (by simp only [State.arg]; ring))
    · refine le_trans (le_of_eq ?_) hr
      simp only [State.arg, stftForwardFrame, length_flatten, length_frameOf]; ring
  | qmf _ _ => exact .inl ⟨.wrongHandle, by decide, by simp only [exec, execStftForward, onSlot_of_lt _ hh, hs]⟩
  | conv _ _ => exact .inl ⟨.wrongHandle, by decide, by simp only [exec, execStftForward, onSlot_of_lt _ hh, hs]⟩

theorem stftBackward_shape (h : Nat) (s : State) : CommandShape (.stftBackward h) s := by
  by_cases hh : h < s.numHandles
  case neg => exact .inl ⟨.badHandle, by decide, exec_badHandle _ s (Nat.le_of_not_lt hh)⟩
  cases hs : s.slot h with
  | free => exact .inl ⟨.wrongHandle, by decide, by simp only [exec, execStftBackward, onSlot_of_lt _ hh, hs]⟩
  | rfft _ => exact .inl ⟨.wrongHandle, by decide, by simp only [exec, execStftBackward, onSlot_of_lt _ hh, hs]⟩
  | cfft _ => exact .inl ⟨.wrongHandle, by decide, by simp only [exec, execStftBackward, onSlot_of_lt _ hh, hs]⟩
  | stft cfg st =>
    refine shape_of_finish (i := .stftBackward h) hh ⟨_, s.arg 2, stftBackwardBlock s cfg st, s.result0⟩
      (by simp only [exec, execStftBackward, onSlot_of_lt _ hh, hs]; rfl) rfl
      (raise_blockTests _ _ _ _ _) (fun _ => ⟨by simp [Instr.hid, hs, Handle.req], by exact keeps_ok hs stftBackward_ok, .inr (by simp [Instr.hid, hs, Handle.sameConfig]), .inr rfl⟩) fun h0 => .inr ?_
    have hr := wf_inRange_of_tests h0 (fun t ht => List.mem_cons_of_mem _ ht) rfl
    constructor
    · simp only [Instr.hid, hs, footprintOf, frameToBlockFootprint, Footprint.between, stftBackwardBlock, length_blockOf]
      exact congrArg some (congrArg (ByteRange.mk _) (by simp only [State.arg]; ring))
    · refine le_trans (le_of_eq ?_) hr
      simp only [State.arg, stftBackwardBlock, length_blockOf]; ring
  | qmf _ _ => exact .inl ⟨.wrongHandle, by decide, by simp only [exec, execStftBackward, onSlot_of_lt _ hh, hs]⟩
  | conv _ _ => exact .inl ⟨.wrongHandle, by decide, by simp only [exec, execStftBackward, onSlot_of_lt _ hh, hs]⟩

theorem qmfAnalysis_shape (h : Nat) (s : State) : CommandShape (.qmfAnalysis h) s := by
  by_cases hh : h < s.numHandles
  case neg => exact .inl ⟨.badHandle, by decide, exec_badHandle _ s (Nat.le_of_not_lt hh)⟩
  cases hs : s.slot h with
  | free => exact .inl ⟨.wrongHandle, by decide, by simp only [exec, execQmfAnalysis, onSlot_of_lt _ hh, hs]⟩
  | rfft _ => exact .inl ⟨.wrongHandle, by decide, by simp only [exec, execQmfAnalysis, onSlot_of_lt _ hh, hs]⟩
  | cfft _ => exact .inl ⟨.wrongHandle, by decide, by simp only [exec, execQmfAnalysis, onSlot_of_lt _ hh, hs]⟩
  | stft _ _ => exact .inl ⟨.wrongHandle, by decide, by simp only [exec, execQmfAnalysis, onSlot_of_lt _ hh, hs]⟩
  | qmf cfg st =>
    refine shape_of_finish (i := .qmfAnalysis h) hh ⟨_, s.arg 2, flatten (qmfAnalysisFrame s cfg st), s.result0⟩
      (by simp only [exec, execQmfAnalysis, onSlot_of_lt _ hh, hs]; rfl) rfl
      (raise_blockTests _ _ _ _ _) (fun _ => ⟨by simp [Instr.hid, hs, Handle.req], by exact keeps_ok hs qmfAnalysis_ok, .inr (by simp [Instr.hid, hs, Handle.sameConfig]), .inr rfl⟩) fun h0 => .inr ?_
    have hr := wf_inRange_of_tests h0 (fun t ht => List.mem_cons_of_mem _ ht) rfl
    constructor
    · simp only [Instr.hid, hs, footprintOf, blockToFrameFootprint, Footprint.between, qmfAnalysisFrame, length_flatten, length_frameOf]
      exact congrArg some (congrArg (ByteRange.mk _) (by simp only [State.arg]; ring))
    · refine le_trans (le_of_eq ?_) hr
      simp only [State.arg, qmfAnalysisFrame, length_flatten, length_frameOf]; ring
  | conv _ _ => exact .inl ⟨.wrongHandle, by decide, by simp only [exec, execQmfAnalysis, onSlot_of_lt _ hh, hs]⟩

theorem qmfSynthesis_shape (h : Nat) (s : State) : CommandShape (.qmfSynthesis h) s := by
  by_cases hh : h < s.numHandles
  case neg => exact .inl ⟨.badHandle, by decide, exec_badHandle _ s (Nat.le_of_not_lt hh)⟩
  cases hs : s.slot h with
  | free => exact .inl ⟨.wrongHandle, by decide, by simp only [exec, execQmfSynthesis, onSlot_of_lt _ hh, hs]⟩
  | rfft _ => exact .inl ⟨.wrongHandle, by decide, by simp only [exec, execQmfSynthesis, onSlot_of_lt _ hh, hs]⟩
  | cfft _ => exact .inl ⟨.wrongHandle, by decide, by simp only [exec, execQmfSynthesis, onSlot_of_lt _ hh, hs]⟩
  | stft _ _ => exact .inl ⟨.wrongHandle, by decide, by simp only [exec, execQmfSynthesis, onSlot_of_lt _ hh, hs]⟩
  | qmf cfg st =>
    refine shape_of_finish (i := .qmfSynthesis h) hh ⟨_, s.arg 2, qmfSynthesisBlock s cfg st, s.result0⟩
      (by simp only [exec, execQmfSynthesis, onSlot_of_lt _ hh, hs]; rfl) rfl
      (raise_blockTests _ _ _ _ _) (fun _ => ⟨by simp [Instr.hid, hs, Handle.req], by exact keeps_ok hs qmfSynthesis_ok, .inr (by simp [Instr.hid, hs, Handle.sameConfig]), .inr rfl⟩) fun h0 => .inr ?_
    have hr := wf_inRange_of_tests h0 (fun t ht => List.mem_cons_of_mem _ ht) rfl
    constructor
    · simp only [Instr.hid, hs, footprintOf, frameToBlockFootprint, Footprint.between, qmfSynthesisBlock, length_blockOf]
      exact congrArg some (congrArg (ByteRange.mk _) (by simp only [State.arg]; ring))
    · refine le_trans (le_of_eq ?_) hr
      simp only [State.arg, qmfSynthesisBlock, length_blockOf]; ring
  | conv _ _ => exact .inl ⟨.wrongHandle, by decide, by simp only [exec, execQmfSynthesis, onSlot_of_lt _ hh, hs]⟩

theorem convApply_shape (h : Nat) (s : State) : CommandShape (.convApply h) s := by
  by_cases hh : h < s.numHandles
  case neg => exact .inl ⟨.badHandle, by decide, exec_badHandle _ s (Nat.le_of_not_lt hh)⟩
  cases hs : s.slot h with
  | free => exact .inl ⟨.wrongHandle, by decide, by simp only [exec, execConvApply, onSlot_of_lt _ hh, hs]⟩
  | rfft _ => exact .inl ⟨.wrongHandle, by decide, by simp only [exec, execConvApply, onSlot_of_lt _ hh, hs]⟩
  | cfft _ => exact .inl ⟨.wrongHandle, by decide, by simp only [exec, execConvApply, onSlot_of_lt _ hh, hs]⟩
  | stft _ _ => exact .inl ⟨.wrongHandle, by decide, by simp only [exec, execConvApply, onSlot_of_lt _ hh, hs]⟩
  | qmf _ _ => exact .inl ⟨.wrongHandle, by decide, by simp only [exec, execConvApply, onSlot_of_lt _ hh, hs]⟩
  | conv cfg st =>
    refine shape_of_finish (i := .convApply h) hh ⟨_, s.arg 1, convApplyBlock s cfg st, s.result0⟩
      (by simp only [exec, execConvApply, onSlot_of_lt _ hh, hs]; rfl) rfl
      (raise_bufferTests _ _ _) (fun _ => ⟨by simp [Instr.hid, hs, Handle.req], by exact keeps_ok hs convApply_ok, .inr (by simp [Instr.hid, hs, Handle.sameConfig, convApplyState]), .inr rfl⟩) fun h0 => .inr ?_
    have hr := wf_inRange_of_tests h0 (fun t ht => ht) rfl
    constructor
    · simp only [Instr.hid, hs, footprintOf, convApplyFootprint, Footprint.between, convApplyBlock, length_blockOf]
      exact congrArg some (congrArg (ByteRange.mk _) (by ring))
    · refine le_trans (le_of_eq ?_) hr
      simp only [State.arg, convApplyBlock, length_blockOf]; ring

/-- Every command is rejected, or performed in full and completed (R12, R243). -/
theorem exec_shape (i : Instr) (s : State) : CommandShape i s := by
  cases i with
  | rfftCreate h => exact rfftCreate_shape h s
  | rfftForward h => exact rfftForward_shape h s
  | rfftBackward h => exact rfftBackward_shape h s
  | cfftCreate h => exact cfftCreate_shape h s
  | cfftForward h => exact cfftForward_shape h s
  | cfftBackward h => exact cfftBackward_shape h s
  | destroy h => exact destroy_shape h s
  | stftCreate h => exact stftCreate_shape h s
  | stftForward h => exact stftForward_shape h s
  | stftBackward h => exact stftBackward_shape h s
  | stftChannelChange h => exact stftChannelChange_shape h s
  | stftFlush h => exact stftFlush_shape h s
  | qmfCreate h => exact qmfCreate_shape h s
  | qmfAnalysis h => exact qmfAnalysis_shape h s
  | qmfSynthesis h => exact qmfSynthesis_shape h s
  | qmfGetDelay h => exact qmfGetDelay_shape h s
  | qmfGetNbands h => exact qmfGetNbands_shape h s
  | qmfGetCentreFreqs h => exact qmfGetCentreFreqs_shape h s
  | convCreate h => exact convCreate_shape h s
  | convApply h => exact convApply_shape h s

end Sys2Proof.Machine
end

