-- ==== Sys2Proof/Laws/HostPort.lean ====
section
/-! SUPPORT. What a host access does to a run: it goes through exactly where it is not forbidden (spec/10_state.md R34,
spec/20_memory.md R60, R71, spec/70_reset_and_hazards.md R300), and only a reset ends a command (R291). -/

namespace Sys2Proof.Machine

theorem regAccessRefusal_none {o w : Nat} : regAccessRefusal o w = none ↔ ¬(w ≠ 4 ∨ o % 4 ≠ 0 ∨ 256 ≤ o) := by
  unfold regAccessRefusal
  split_ifs <;> simp <;> omega

theorem memAccessFault_none {s : State} {a n : Nat} : s.memAccessFault a n = none ↔
    ¬(s.params.dmemBytes < a + n ∨ ∃ fp ∈ s.watched, ∃ j < n, fp.touches (a + j) = true) := by
  unfold State.memAccessFault State.races
  split_ifs <;> simp_all

/-- An access of the host goes through exactly where it is not forbidden. -/
theorem hostStep_next_iff {access : HostAccess} {s : State} :
    (∃ t, hostStep access s = .next t) ↔ ¬ForbiddenAccess access s := by
  cases access <;> simp only [hostStep, ForbiddenAccess, ← regAccessRefusal_none, ← memAccessFault_none]
  case hwReset => simp
  all_goals split <;> simp_all

/-- An access that goes through while a command is in progress is a reset, or leaves the command and its turn alone. -/
theorem hostStep_busy {access : HostAccess} {s t : State} (hb : s.status.busy = true) (ht : hostStep access s = .next t) :
    t.status.busy = false ∨ (t.status.busy = true ∧ t.host = s.host ∧ t.delay = s.delay) := by
  cases access with
  | readReg o w =>
    simp only [hostStep] at ht
    split at ht <;> cases ht
    unfold State.observeStatus
    split <;> exact .inr ⟨hb, rfl, rfl⟩
  | writeReg o w v =>
    simp only [hostStep] at ht
    split at ht <;> cases ht
    cases regAt o
    case ctrl =>
      simp only [State.writeReg, State.writeCtrl]
      split
      · exact .inl rfl
      · exact .inr ⟨hb, rfl, rfl⟩
    all_goals simp [State.writeReg, State.offerCommand, State.acknowledge, hb]
  | readMem a n =>
    simp only [hostStep] at ht
    split at ht <;> cases ht
    exact .inr ⟨hb, rfl, rfl⟩
  | writeMem a n v =>
    simp only [hostStep] at ht
    split at ht <;> cases ht
    exact .inr ⟨hb, rfl, rfl⟩
  | hwReset =>
    simp only [hostStep] at ht
    cases ht
    exact .inl rfl

end Sys2Proof.Machine
end

