-- ==== Sys2Proof/Laws/PerInstr.lean ====
section
/-! SUPPORT. Statements made of every command on its own. Family EncodingFields: the fields of a command's word
(spec/30_encoding.md R90). -/

namespace Sys2Proof.Laws.EncodingFields

/-- The three fields of the word of a well-formed command are its opcode, its slot index, and zero. -/
def Statement (i : Instr) : Prop :=
  i.WellFormed = true →
    opField (encode i) = i.opcode ∧ hidField (encode i) = i.hid ∧ rsvField (encode i) = 0

/-- A command word, whose opcode has 8 bits, as a number. -/
theorem encode_toNat {i : Instr} (h : i.hid < 256) (ho : i.opcode < 256) :
    (encode i).toNat = i.hid * 2 ^ 8 + i.opcode := by
  have h1 : i.hid % 2 ^ 32 = i.hid := Nat.mod_eq_of_lt (by omega)
  have h2 : i.opcode % 2 ^ 32 = i.opcode := Nat.mod_eq_of_lt (by omega)
  have h3 : (i.hid <<< 8) % 2 ^ 32 = i.hid <<< 8 := Nat.mod_eq_of_lt (by rw [Nat.shiftLeft_eq]; omega)
  rw [encode, BitVec.toNat_or, BitVec.toNat_shiftLeft, BitVec.toNat_ofNat, BitVec.toNat_ofNat, h1, h2, h3,
    ← Nat.shiftLeft_add_eq_or_of_lt (by omega), Nat.shiftLeft_eq]

/-- The statement for a command whose opcode has 8 bits. -/
theorem of_opcode_lt {i : Instr} (ho : i.opcode < 256) : Statement i := by
  intro h
  have hh : i.hid < 256 := by simpa [Instr.WellFormed] using h
  have e := encode_toNat hh ho
  simp only [opField, hidField, rsvField, BitVec.extractLsb'_toNat, e, Nat.shiftRight_eq_div_pow]
  omega

theorem rfftCreate (h : Nat) : Statement (.rfftCreate h) := of_opcode_lt (by simp [Instr.opcode])
theorem rfftForward (h : Nat) : Statement (.rfftForward h) := of_opcode_lt (by simp [Instr.opcode])
theorem rfftBackward (h : Nat) : Statement (.rfftBackward h) := of_opcode_lt (by simp [Instr.opcode])
theorem cfftCreate (h : Nat) : Statement (.cfftCreate h) := of_opcode_lt (by simp [Instr.opcode])
theorem cfftForward (h : Nat) : Statement (.cfftForward h) := of_opcode_lt (by simp [Instr.opcode])
theorem cfftBackward (h : Nat) : Statement (.cfftBackward h) := of_opcode_lt (by simp [Instr.opcode])
theorem destroy (h : Nat) : Statement (.destroy h) := of_opcode_lt (by simp [Instr.opcode])
theorem stftCreate (h : Nat) : Statement (.stftCreate h) := of_opcode_lt (by simp [Instr.opcode])
theorem stftForward (h : Nat) : Statement (.stftForward h) := of_opcode_lt (by simp [Instr.opcode])
theorem stftBackward (h : Nat) : Statement (.stftBackward h) := of_opcode_lt (by simp [Instr.opcode])
theorem stftChannelChange (h : Nat) : Statement (.stftChannelChange h) := of_opcode_lt (by simp [Instr.opcode])
theorem stftFlush (h : Nat) : Statement (.stftFlush h) := of_opcode_lt (by simp [Instr.opcode])
theorem qmfCreate (h : Nat) : Statement (.qmfCreate h) := of_opcode_lt (by simp [Instr.opcode])
theorem qmfAnalysis (h : Nat) : Statement (.qmfAnalysis h) := of_opcode_lt (by simp [Instr.opcode])
theorem qmfSynthesis (h : Nat) : Statement (.qmfSynthesis h) := of_opcode_lt (by simp [Instr.opcode])
theorem qmfGetDelay (h : Nat) : Statement (.qmfGetDelay h) := of_opcode_lt (by simp [Instr.opcode])
theorem qmfGetNbands (h : Nat) : Statement (.qmfGetNbands h) := of_opcode_lt (by simp [Instr.opcode])
theorem qmfGetCentreFreqs (h : Nat) : Statement (.qmfGetCentreFreqs h) := of_opcode_lt (by simp [Instr.opcode])
theorem convCreate (h : Nat) : Statement (.convCreate h) := of_opcode_lt (by simp [Instr.opcode])
theorem convApply (h : Nat) : Statement (.convApply h) := of_opcode_lt (by simp [Instr.opcode])

end Sys2Proof.Laws.EncodingFields
end

