-- ==== Sys2Proof/Tests/Slice0.lean ====
section
/-! SUPPORT. Tests of the model against the vectors of spec/95_test_vectors.md, each theorem naming its vector, and for
every statement with hypotheses a witness: a concrete state and operands that meet them. -/

namespace Sys2Proof.Machine.Tests

open Sys2Proof Sys2Proof.Machine

set_option Elab.async false

/-- The state after reset with `hd` in slot `h` and a command in progress whose latched arguments start with `a`. -/
def busyOn (h : Nat) (hd : Handle) (a : List Word) : State :=
  { (State.reset.setSlot h hd) with
    status := ⟨true, false, false, false, .noError⟩
    latch := ⟨0#32, Vector.ofFn fun k : Fin 8 => a.getD k 0#32⟩ }

/-- STATUS after a step, as a number. -/
def statusOf : Host.Outcome State Fault Refusal → Option Nat
  | .next t => some t.status.word.toNat
  | .fault _ => none
  | .refused _ => none

/-- One number read from the state after a step. -/
def readOf (f : State → Nat) : Host.Outcome State Fault Refusal → Option Nat
  | .next t => some (f t)
  | .fault _ => none
  | .refused _ => none

/-- The slot after a step. -/
def slotOf (h : Nat) : Host.Outcome State Fault Refusal → Option Handle
  | .next t => some (t.slot h)
  | .fault _ => none
  | .refused _ => none

/-- An STFT handle with zero buffers. -/
def stftZero (w hop nIn nOut : Nat) : Handle := .stft ⟨w, hop, nIn, nOut⟩ (StftCfg.zeroState ⟨w, hop, nIn, nOut⟩)

/-- The CONV configuration of V-CONV-1. -/
def convCfg : ConvCfg := ⟨2, 3, 1, 1⟩

/-- A CONV state of that configuration with every spectrum zero. -/
def convZero : ConvState where
  hf := [[[[c32Zero, c32Zero, c32Zero], [c32Zero, c32Zero, c32Zero]]]]
  prev := [[0#32, 0#32]]
  hist := [[[c32Zero, c32Zero, c32Zero], [c32Zero, c32Zero, c32Zero]]]
  pos := 0

/-- A draw site for steps that draw nothing. -/
def site : DrawSite := ⟨.fftCommand, 0, 0, 0, 0⟩

/-! Well-formedness (R90): an index that fits in HID is well formed, one that does not is refused. -/

theorem test_wellFormed_255 : (Instr.rfftCreate 255).WellFormed = true := by decide

theorem test_illFormed_256 : (Instr.rfftCreate 256).WellFormed = false := by decide

/-! Decoding, V-ENC-1: the word for slot 0 in hexadecimal, and for slot 10 bit by bit (RSV, HID, OP). -/

theorem test_decode_rfftCreate : decode 0x00000001#32 = .ok (.rfftCreate 0) ∧
    decode 0b00000000000000000000101000000001#32 = .ok (.rfftCreate 10) := by decide

theorem test_decode_rfftForward : decode 0x00000002#32 = .ok (.rfftForward 0) ∧
    decode 0b00000000000000000000101000000010#32 = .ok (.rfftForward 10) := by decide

theorem test_decode_rfftBackward : decode 0x00000003#32 = .ok (.rfftBackward 0) ∧
    decode 0b00000000000000000000101000000011#32 = .ok (.rfftBackward 10) := by decide

theorem test_decode_cfftCreate : decode 0x00000004#32 = .ok (.cfftCreate 0) ∧
    decode 0b00000000000000000000101000000100#32 = .ok (.cfftCreate 10) := by decide

theorem test_decode_cfftForward : decode 0x00000005#32 = .ok (.cfftForward 0) ∧
    decode 0b00000000000000000000101000000101#32 = .ok (.cfftForward 10) := by decide

theorem test_decode_cfftBackward : decode 0x00000006#32 = .ok (.cfftBackward 0) ∧
    decode 0b00000000000000000000101000000110#32 = .ok (.cfftBackward 10) := by decide

theorem test_decode_destroy : decode 0x0000000F#32 = .ok (.destroy 0) ∧
    decode 0b00000000000000000000101000001111#32 = .ok (.destroy 10) := by decide

theorem test_decode_stftCreate : decode 0x00000010#32 = .ok (.stftCreate 0) ∧
    decode 0b00000000000000000000101000010000#32 = .ok (.stftCreate 10) := by decide

theorem test_decode_stftForward : decode 0x00000011#32 = .ok (.stftForward 0) ∧
    decode 0b00000000000000000000101000010001#32 = .ok (.stftForward 10) := by decide

theorem test_decode_stftBackward : decode 0x00000012#32 = .ok (.stftBackward 0) ∧
    decode 0b00000000000000000000101000010010#32 = .ok (.stftBackward 10) := by decide

theorem test_decode_stftChannelChange : decode 0x00000013#32 = .ok (.stftChannelChange 0) ∧
    decode 0b00000000000000000000101000010011#32 = .ok (.stftChannelChange 10) := by decide

theorem test_decode_stftFlush : decode 0x00000014#32 = .ok (.stftFlush 0) ∧
    decode 0b00000000000000000000101000010100#32 = .ok (.stftFlush 10) := by decide

theorem test_decode_qmfCreate : decode 0x00000020#32 = .ok (.qmfCreate 0) ∧
    decode 0b00000000000000000000101000100000#32 = .ok (.qmfCreate 10) := by decide

theorem test_decode_qmfAnalysis : decode 0x00000021#32 = .ok (.qmfAnalysis 0) ∧
    decode 0b00000000000000000000101000100001#32 = .ok (.qmfAnalysis 10) := by decide

theorem test_decode_qmfSynthesis : decode 0x00000022#32 = .ok (.qmfSynthesis 0) ∧
    decode 0b00000000000000000000101000100010#32 = .ok (.qmfSynthesis 10) := by decide

theorem test_decode_qmfGetDelay : decode 0x00000023#32 = .ok (.qmfGetDelay 0) ∧
    decode 0b00000000000000000000101000100011#32 = .ok (.qmfGetDelay 10) := by decide

theorem test_decode_qmfGetNbands : decode 0x00000024#32 = .ok (.qmfGetNbands 0) ∧
    decode 0b00000000000000000000101000100100#32 = .ok (.qmfGetNbands 10) := by decide

theorem test_decode_qmfGetCentreFreqs : decode 0x00000025#32 = .ok (.qmfGetCentreFreqs 0) ∧
    decode 0b00000000000000000000101000100101#32 = .ok (.qmfGetCentreFreqs 10) := by decide

theorem test_decode_convCreate : decode 0x00000030#32 = .ok (.convCreate 0) ∧
    decode 0b00000000000000000000101000110000#32 = .ok (.convCreate 10) := by decide

theorem test_decode_convApply : decode 0x00000031#32 = .ok (.convApply 0) ∧
    decode 0b00000000000000000000101000110001#32 = .ok (.convApply 10) := by decide

/-- V-ENC-2: each word, latched and performed, leaves that STATUS and itself in ERR_CMD. -/
theorem test_illegal_words : ∀ p ∈ [(0x00000000#32, 0x104), (0x00000007#32, 0x104), (0x0000000E#32, 0x104),
    (0x00000015#32, 0x104), (0x00000026#32, 0x104), (0x00000032#32, 0x104), (0x000000FF#32, 0x104),
    (0x00010002#32, 0x104), (0x80000001#32, 0x104), (0x00001000#32, 0x104), (0x00001001#32, 0x204),
    (0x0000FF0F#32, 0x204)],
    statusOf (step (State.reset.withFetchWord 32 p.1.toNat)) = some p.2 ∧
      readOf (fun t => t.errCmd.toNat) (step (State.reset.withFetchWord 32 p.1.toNat)) = some p.1.toNat := by
  decide +kernel

/-- V-ENC-3: the expansion of two assembly commands. -/
theorem test_issue : issue (.convCreate 5) [2#32, 3#32, 1#32, 1#32, 0x400#32] =
      [wr 0x040 2#32, wr 0x044 3#32, wr 0x048 1#32, wr 0x04C 1#32, wr 0x050 0x400#32, wr 0x00C 0x00000530#32] ∧
    issue (.qmfGetCentreFreqs 4) [0x473B8000#32, 5#32, 0x3000#32] =
      [wr 0x040 0x473B8000#32, wr 0x044 5#32, wr 0x048 0x3000#32, wr 0x00C 0x00000425#32] := by decide

/-- The decoder reads a table word of fewer bits with the bits above them zero. -/
theorem test_decodeTableWord : decodeTableWord 32 0x00000F31 = some (.convApply 15) ∧
    decodeTableWord 16 0x00000F31 = some (.convApply 15) ∧ decodeTableWord 32 0x00010031 = none := by decide

/-! Registers, acceptance and interrupts. -/

/-- V-SYS-1: reserved offsets read 0 after reset. -/
theorem test_reserved_reads : ∀ o ∈ [0x02C, 0x03C, 0x060, 0x0FC],
    readOf State.hostValue (hostStep (rd o) State.reset) = some 0 := by decide +kernel

/-- V-SYS-2: writes with no effect, on a state whose STATUS is 0x0000050C. -/
def rejectedState : State := { State.reset with status := ⟨false, false, true, true, .badParam⟩ }

theorem test_writes_without_effect : ∀ p ∈ [(0x000, 0#32), (0x014, 5#32), (0x024, 0#32), (0x030, 0xFFFFFFFF#32),
    (0x008, 1#32), (0x008, 0xFFFFFFF0#32)], statusOf (hostStep (wr p.1 p.2) rejectedState) = some 0x50C ∧
      readOf (fun t => t.result0.toNat + t.privFree + t.errCmd.toNat) (hostStep (wr p.1 p.2) rejectedState) =
        some 0x800000 := by decide +kernel

/-- V-SYS-3: write 1 to clear. -/
theorem test_w1c : statusOf (hostStep (wr 0x008 0x8#32) rejectedState) = some 0x504 ∧
    statusOf (hostStep (wr 0x008 0x4#32) rejectedState) = some 0x008 ∧
    statusOf (hostStep (wr 0x008 0x2#32) { State.reset with status := ⟨false, true, false, true, .noError⟩ }) =
      some 0x008 := by decide +kernel

/-- V-SYS-4: a CMD write while ERR = 1 is ignored; ERR_CMD and the slot stay. -/
theorem test_ignored_write : statusOf (hostStep (wr 0x00C 1#32)
      { State.reset with status := ⟨false, false, true, false, .illegalCmd⟩, errCmd := 7#32 }) = some 0x10C ∧
    readOf (fun t => t.errCmd.toNat) (hostStep (wr 0x00C 1#32)
      { State.reset with status := ⟨false, false, true, false, .illegalCmd⟩, errCmd := 7#32 }) = some 7 := by
  decide +kernel

/-- V-SYS-5: a write to ARG0 after acceptance changes the register and not the latched argument. -/
theorem test_arguments_latched :
    readOf (fun t => t.arg 0) (hostStep (wr 0x040 7#32)
      (State.accept { State.reset with args := Vector.replicate 8 8#32 } 1#32)) = some 8 ∧
    readOf (fun t => (t.readReg (.arg 0)).toNat) (hostStep (wr 0x040 7#32)
      (State.accept { State.reset with args := Vector.replicate 8 8#32 } 1#32)) = some 7 := by decide +kernel

/-- V-SYS-7: the level of `irq` for the CTRL and STATUS of each row. -/
theorem test_irq : ∀ p ∈ [((false, false), Status.mk false true false false .noError, false),
    ((true, false), Status.mk false true false false .noError, true),
    ((true, false), Status.mk false false true false .badParam, false),
    ((false, true), Status.mk false false true false .badParam, true),
    ((false, true), Status.mk false false false true .noError, true),
    ((false, true), Status.mk false true false false .noError, false),
    ((true, true), Status.mk false false false false .noError, false),
    ((true, true), Status.mk true false false false .noError, false)],
    State.irq { State.reset with ctrl := ⟨p.1.1, p.1.2⟩, status := p.2.1 } = p.2.2 := by decide +kernel

/-- V-SYS-8: reserved bits of CTRL are ignored, and SRST leaves both enables 0. -/
theorem test_ctrl : readOf (fun t => t.ctrl.word.toNat) (hostStep (wr 0x004 0x7FFFFFFF#32) State.reset) = some 3 ∧
    readOf (fun t => t.ctrl.word.toNat) (hostStep (wr 0x004 0x80000003#32) State.reset) = some 0 := by decide +kernel

/-- V-SYS-9: a soft reset frees the slots and clears the registers. -/
theorem test_softReset :
    readOf (fun t => t.status.word.toNat + t.errCmd.toNat + t.result0.toNat + (t.readReg (.arg 0)).toNat)
      (hostStep srst { (rejectedState.setSlot 0 (.rfft 4)) with
        errCmd := 0x530#32, result0 := 7#32, args := Vector.replicate 8 0x100#32 }) = some 0 ∧
    slotOf 0 (hostStep srst (rejectedState.setSlot 0 (.rfft 4))) = some .free := by decide +kernel

/-- R34: register accesses that are not aligned and 32 bits wide are refused. -/
theorem test_register_refusals : (∀ p ∈ [(0x008, 1), (0x008, 2), (0x006, 4)],
    hostStep (.readReg p.1 p.2) State.reset = .refused .registerAccessNotAlignedWord) ∧
    hostStep (rd 0x100) State.reset = .refused .registerOffsetOutside := by
  constructor
  · intro p hp
    fin_cases hp <;> rfl
  · rfl

/-- R71: no byte of data memory lies at or above DMEM_BYTES. -/
theorem test_dmem_top : hostStep (.readMem 0xFFFFFFFF 2) State.reset = .fault .dmemAddressOutside := rfl

/-- V-SYS-6: DESTROY of a FREE slot, and of an STFT slot that owns 8 words. -/
theorem test_destroy : statusOf (exec (.destroy 3) (busyOn 2 (stftZero 4 2 1 1) [])) = some 0x404 ∧
    statusOf (exec (.destroy 2) (busyOn 2 (stftZero 4 2 1 1) [])) = some 0x002 ∧
    (busyOn 2 (stftZero 4 2 1 1) []).privFree = 0x7FFFF8 ∧
    readOf State.privFree (exec (.destroy 2) (busyOn 2 (stftZero 4 2 1 1) [])) = some 0x800000 := by decide +kernel

/-! Data layout. -/

/-- V-MEM-1: 10 + 0i stored at 0x200. -/
theorem test_little_endian : (List.range 8).map (fun j =>
    (State.reset.storeCs 0x200 [⟨0x41200000#32, 0#32⟩]).readByte (0x200 + j)) =
      [0x00#8, 0x00#8, 0x20#8, 0x41#8, 0x00#8, 0x00#8, 0x00#8, 0x00#8] := by decide +kernel

/-- V-MEM-2: in a frame of 3 bands, 2 channels and 4 slots, element (2, 1, 3) is number 23; in a block of 8 samples a
channel, sample 5 of channel 1 is number 13. -/
theorem test_layout : (frameOf 3 2 4 fun b c s => ⟨BitVec.ofNat 32 b, BitVec.ofNat 32 (16 * c + s)⟩)[23]? =
      some ⟨2#32, 19#32⟩ ∧
    (blockOf 2 8 fun c n => BitVec.ofNat 32 (16 * c + n))[13]? = some 21#32 := by decide +kernel

/-- V-MEM-3: the footprints of STFT_FORWARD and CONV_APPLY. -/
theorem test_footprints :
    footprintOf (.stftForward 2) (stftZero 4 2 2 1)
        (Vector.ofFn fun k : Fin 8 => [0x100#32, 4#32, 0x200#32].getD k 0#32) =
      ⟨some ⟨0x100, 0x20⟩, some ⟨0x200, 0x60⟩⟩ ∧
    footprintOf (.convApply 5) (.conv ⟨2, 3, 2, 1⟩ convZero)
        (Vector.ofFn fun k : Fin 8 => [0x500#32, 0x600#32].getD k 0#32) =
      ⟨some ⟨0x500, 0x10⟩, some ⟨0x600, 8⟩⟩ := by decide +kernel

/-- R65: a command that is rejected for the kind of its slot has the ranges whose numbers the slot gives: N of a CFFT
slot; of a CONV slot with 2 inputs and 1 output, one side of a stream; none of an RFFT slot for a stream. -/
theorem test_wrongKind_footprints :
    footprintOf (.rfftForward 2) (.cfft 4) (Vector.ofFn fun k : Fin 8 => [0x100#32, 0x200#32].getD k 0#32) =
      ⟨some ⟨0x100, 0x10⟩, some ⟨0x200, 0x18⟩⟩ ∧
    footprintOf (.stftForward 2) (.conv ⟨2, 3, 2, 1⟩ convZero)
        (Vector.ofFn fun k : Fin 8 => [0x100#32, 4#32, 0x200#32].getD k 0#32) = ⟨some ⟨0x100, 0x20⟩, none⟩ ∧
    footprintOf (.qmfSynthesis 2) (.conv ⟨2, 3, 2, 1⟩ convZero)
        (Vector.ofFn fun k : Fin 8 => [0x100#32, 4#32, 0x200#32].getD k 0#32) = ⟨none, some ⟨0x200, 0x10⟩⟩ ∧
    footprintOf (.qmfAnalysis 2) (stftZero 4 2 2 1)
        (Vector.ofFn fun k : Fin 8 => [0x100#32, 4#32, 0x200#32].getD k 0#32) =
      ⟨some ⟨0x100, 0x20⟩, some ⟨0x200, 0x60⟩⟩ ∧
    footprintOf (.stftForward 2) (.rfft 4)
        (Vector.ofFn fun k : Fin 8 => [0x100#32, 4#32, 0x200#32].getD k 0#32) = ⟨none, none⟩ := by decide +kernel

/-- R65: CONV_CREATE reads its filter matrix of 4·nOut·nIn·L bytes whatever the slot holds, and at a slot index that does
not exist too. -/
theorem test_convCreate_footprint :
    (State.latchedFootprint { (busyOn 5 (.rfft 4) []) with
      latch := ⟨0x00000530#32, Vector.ofFn fun k : Fin 8 => [2#32, 3#32, 1#32, 2#32, 0x400#32].getD k 0#32⟩ }).rf =
      some ⟨0x400, 24⟩ ∧
    (State.latchedFootprint { (busyOn 5 (.rfft 4) []) with
      latch := ⟨0x0000FF30#32, Vector.ofFn fun k : Fin 8 => [2#32, 3#32, 1#32, 2#32, 0x400#32].getD k 0#32⟩ }).rf =
      some ⟨0x400, 24⟩ := by decide +kernel

/-- R74, R300: the end of the last command has been observed and that of an earlier one has not; an `irq` that rises
again when IE_DONE is cleared and set leaves the earlier footprint watched, and so does a soft reset; a read of STATUS
does not. -/
def observedLast : State := { State.reset with
  ctrl := ⟨true, false⟩, status := ⟨false, true, false, false, .noError⟩, older := [⟨none, some ⟨0x200, 8⟩⟩] }

/-- The state after a host access that ends in one. -/
def after (a : HostAccess) (s : State) : State :=
  match hostStep a s with
  | .next t => t
  | .fault _ => s
  | .refused _ => s

theorem test_watch_survives :
    (after (wr 0x004 1#32) (after (wr 0x004 0#32) observedLast)).memAccessFault 0x200 4 = some .footprintRace ∧
    (after (rd 0x008) observedLast).memAccessFault 0x200 4 = none ∧
    (after srst observedLast).memAccessFault 0x200 4 = some .footprintRace ∧
    (after (rd 0x008) (after srst observedLast)).memAccessFault 0x200 4 = none := by decide +kernel

/-! The FFT family. -/

/-- V-FFT-8: create outcomes. -/
theorem test_rfftCreate : ∀ p ∈ [(2#32, 0x002), (6#32, 0x002), (960#32, 0x002), (30720#32, 0x002), (65536#32, 0x002),
    (0#32, 0x504), (1#32, 0x604), (14#32, 0x604), (131072#32, 0x604), (0xFFFFFFFF#32, 0x604)],
    statusOf (exec (.rfftCreate 0) (busyOn 1 .free [p.1])) = some p.2 := by decide +kernel

/-- V-FFT-8: HANDLE_IN_USE wins over BAD_PARAM; and the slot a create fills. -/
theorem test_rfftCreate_slot : statusOf (exec (.rfftCreate 0) (busyOn 0 (.rfft 4) [0#32])) = some 0x304 ∧
    slotOf 0 (exec (.rfftCreate 0) (busyOn 1 .free [960#32])) = some (.rfft 960) := by decide +kernel

/-- V-FFT-8: the complex create commands. -/
theorem test_cfftCreate : slotOf 0 (exec (.cfftCreate 0) (busyOn 1 .free [80#32])) = some (.cfft 80) ∧
    statusOf (exec (.cfftCreate 0) (busyOn 1 .free [7#32])) = some 0x604 := by decide +kernel

/-- V-FFT-9: call-time checks of RFFT_FORWARD with N = 4. -/
theorem test_rfftForward : ∀ p ∈ [(0x100#32, 0x110#32, 0x002), (0x100#32, 0x10C#32, 0xB04),
    (0x100#32, 0x0E8#32, 0x002), (0x100#32, 0x0EC#32, 0xB04), (0x102#32, 0x200#32, 0x904),
    (0x100#32, 0x201#32, 0x904), (0xFFFFFFF0#32, 0x0#32, 0x002), (0xFFFFFFF4#32, 0x0#32, 0xA04),
    (0x0#32, 0xFFFFFFEC#32, 0xA04), (0xFFFFFFF6#32, 0x0#32, 0x904), (0x100#32, 0x100#32, 0xB04)],
    statusOf (exec (.rfftForward 0) (busyOn 0 (.rfft 4) [p.1, p.2.1])) = some p.2.2 := by decide +kernel

/-- RFFT_BACKWARD with N = 4 reads 24 bytes and writes 16 (R126). -/
theorem test_rfftBackward : ∀ p ∈ [(0x100#32, 0x118#32, 0x002), (0x100#32, 0x114#32, 0xB04),
    (0x100#32, 0x0F0#32, 0x002), (0x100#32, 0x0F4#32, 0xB04), (0xFFFFFFE8#32, 0x0#32, 0x002),
    (0xFFFFFFEC#32, 0x0#32, 0xA04)],
    statusOf (exec (.rfftBackward 0) (busyOn 0 (.rfft 4) [p.1, p.2.1])) = some p.2.2 := by decide +kernel

/-- V-FFT-9: the complex transform on a real handle is WRONG_HANDLE; with N = 2, RF and WF have 16 bytes (R128). -/
theorem test_cfftForward : statusOf (exec (.cfftForward 0) (busyOn 0 (.rfft 4) [0x100#32, 0x200#32])) = some 0x404 ∧
    statusOf (exec (.cfftForward 0) (busyOn 0 (.cfft 2) [0x100#32, 0x110#32])) = some 0x002 ∧
    statusOf (exec (.cfftForward 0) (busyOn 0 (.cfft 2) [0x100#32, 0x10C#32])) = some 0xB04 := by decide +kernel

/-- The same for the complex inverse (R129). -/
theorem test_cfftBackward : statusOf (exec (.cfftBackward 0) (busyOn 0 (.rfft 4) [0x100#32, 0x200#32])) = some 0x404 ∧
    statusOf (exec (.cfftBackward 0) (busyOn 0 (.cfft 2) [0x100#32, 0x0F0#32])) = some 0x002 ∧
    statusOf (exec (.cfftBackward 0) (busyOn 0 (.cfft 2) [0x100#32, 0x0F4#32])) = some 0xB04 := by decide +kernel

/-- V-FFT-2, D15: the imaginary parts of bins 0 and N/2 are dropped, and no other. -/
theorem test_realEnds : realEnds 4 [⟨0x41200000#32, 0x40A00000#32⟩, ⟨0xC0000000#32, 0x40000000#32⟩,
      ⟨0xC0000000#32, 0x40E00000#32⟩] =
    [⟨0x41200000#32, 0#32⟩, ⟨0xC0000000#32, 0x40000000#32⟩, ⟨0xC0000000#32, 0#32⟩] := by decide +kernel

/-- R123, R130: 1e38·[1, 1, 1, -1], whose sum of magnitudes is larger than any finite value, has a transform in range,
and 1e38·[1, 1, 1, 1] has not. -/
theorem test_rfft_range :
    transformDefined .rfft 4 [0x7E967699#32, 0x7E967699#32, 0x7E967699#32, 0xFE967699#32] = true ∧
    transformDefined .rfft 4 [0x7E967699#32, 0x7E967699#32, 0x7E967699#32, 0x7E967699#32] = false := by decide +kernel

/-- R126: the imaginary parts of bins 0 and N/2 do not count, however large. -/
theorem test_irfft_range : transformDefined .irfft 4
    (flatten [⟨0x3F800000#32, 0x7F7FFFFF#32⟩, ⟨0x7F7FFFFF#32, 0#32⟩, ⟨0x3F800000#32, 0x7F7FFFFF#32⟩]) = true := by
  decide +kernel

/-- R123, R130: eight bins of the largest finite value have an inverse in range, since it is divided by N. -/
theorem test_icfft_range : transformDefined .icfft 8 (flatten (List.replicate 8 ⟨0x7F7FFFFF#32, 0#32⟩)) = true := by
  decide +kernel

/-! The STFT family. -/

/-- V-STFT-0: the window tables. -/
theorem test_windows : (List.range 4).map (stftWin 4 4) = List.replicate 4 0x3F800000#32 ∧
    (List.range 4).map (stftWin 4 2) = [0x00000000#32, 0x3F3504F3#32, 0x3F800000#32, 0x3F3504F3#32] ∧
    (List.range 4).map (stftWin 4 1) = [0x00000000#32, 0x3F000000#32, 0x3F3504F3#32, 0x3F000000#32] := by
  decide +kernel

/-- V-STFT-0, W = 8. -/
theorem test_windows_eight : (List.range 8).map (stftWin 8 4) = [0x00000000#32, 0x3EC3EF15#32, 0x3F3504F3#32,
      0x3F6C835E#32, 0x3F800000#32, 0x3F6C835E#32, 0x3F3504F3#32, 0x3EC3EF15#32] ∧
    (List.range 8).map (stftWin 8 2) = [0x00000000#32, 0x3E8A8BD4#32, 0x3F000000#32, 0x3F273D75#32, 0x3F3504F3#32,
      0x3F273D75#32, 0x3F000000#32, 0x3E8A8BD4#32] := by decide +kernel

/-- V-STFT-1: the windowed segments of slots 0 and 2. -/
theorem test_segments : windowed 0 site 4 2 [0#32, 0#32, 0x3F800000#32, 0x40000000#32] =
      [0#32, 0#32, 0x3F800000#32, 0x3FB504F3#32] ∧
    windowed 0 site 4 2 [0x40400000#32, 0x40800000#32, 0x40A00000#32, 0x40C00000#32] =
      [0#32, 0x403504F3#32, 0x40A00000#32, 0x4087C3B6#32] := by decide +kernel

/-- V-STFT-2: overlap-add of the segments of slots 1 and 2, after the shift of the first accumulator. -/
theorem test_overlapAdd : (overlapAdd 0 site 4 2 (zeros 4) [0#32, 0#32, 0x3F800000#32, 0x3FB504F3#32]).drop 2 =
      [0x3F800000#32, 0x3F7FFFFF#32] ∧
    (overlapAdd 0 site 4 2 [0x3F800000#32, 0x3F7FFFFF#32, 0#32, 0#32]
      [0#32, 0x3FB504F3#32, 0x40400000#32, 0x403504F3#32]).take 2 = [0x3F800000#32, 0x3FFFFFFF#32] := by decide +kernel

/-- V-STFT-1: three hops of H = 2 leave the last W samples in the buffer. -/
theorem test_stftForward_buffer : (stftForwardChannel 0 ⟨4, 2, 1, 1⟩ 0 0 (zeros 4)
      [[0x3F800000#32, 0x40000000#32], [0x40400000#32, 0x40800000#32], [0x40A00000#32, 0x40C00000#32]]).1 =
    [0x40400000#32, 0x40800000#32, 0x40A00000#32, 0x40C00000#32] := by decide +kernel

/-- V-STFT-7: create outcomes. -/
theorem test_stftCreate : ∀ p ∈ [([4#32, 2#32, 1#32, 1#32], 0x002), ([6#32, 3#32, 1#32, 1#32], 0x002),
    ([6#32, 4#32, 1#32, 1#32], 0x504), ([4#32, 8#32, 1#32, 1#32], 0x504), ([0#32, 1#32, 1#32, 1#32], 0x504),
    ([4#32, 0#32, 1#32, 1#32], 0x504), ([4#32, 2#32, 0#32, 1#32], 0x504), ([4#32, 2#32, 257#32, 1#32], 0x504),
    ([5#32, 5#32, 1#32, 1#32], 0x604), ([14#32, 7#32, 1#32, 1#32], 0x604),
    ([65536#32, 32768#32, 64#32, 64#32], 0x002), ([65536#32, 32768#32, 65#32, 64#32], 0xC04),
    ([5#32, 5#32, 0#32, 1#32], 0x504)],
    statusOf (exec (.stftCreate 2) (busyOn 2 .free p.1)) = some p.2 := by decide +kernel

/-- V-STFT-7: PRIV_FREE after a create of 8 words, and of the whole pool. -/
theorem test_stftCreate_pool :
    readOf State.privFree (exec (.stftCreate 2) (busyOn 2 .free [4#32, 2#32, 1#32, 1#32])) = some 0x7FFFF8 ∧
    readOf State.privFree (exec (.stftCreate 2) (busyOn 2 .free [65536#32, 32768#32, 64#32, 64#32])) = some 0 := by
  decide +kernel

/-- V-STFT-7: call outcomes of STFT_FORWARD with W = 4, H = 2, and completion on good buffers. -/
theorem test_stftForward : ∀ p ∈ [([0x100#32, 3#32, 0x200#32], 0x704), ([0x100#32, 0#32, 0x200#32], 0x704),
    ([0x100#32, 2#32, 0x104#32], 0xB04), ([0x100#32, 6#32, 0x200#32], 0x002)],
    statusOf (exec (.stftForward 2) (busyOn 2 (stftZero 4 2 1 1) p.1)) = some p.2 := by decide +kernel

/-- V-STFT-7: BLOCK_SIZE wins over MISALIGNED in STFT_BACKWARD. -/
theorem test_stftBackward : ∀ p ∈ [([0x100#32, 3#32, 0x102#32], 0x704), ([0x100#32, 2#32, 0x102#32], 0x904),
    ([0x100#32, 6#32, 0x300#32], 0x002)],
    statusOf (exec (.stftBackward 2) (busyOn 2 (stftZero 4 2 1 1) p.1)) = some p.2 := by decide +kernel

/-- An STFT handle that owns the whole pool; its buffers are left out, since no test reads them. -/
def wholePool : Handle := .stft ⟨65536, 32768, 64, 64⟩ ⟨[], []⟩

/-- V-STFT-7: channel changes on the handle that owns the whole pool. -/
theorem test_stftChannelChange : ∀ p ∈ [([65#32, 64#32], 0xC04), ([64#32, 64#32], 0x002), ([0#32, 1#32], 0x504)],
    statusOf (exec (.stftChannelChange 2) (busyOn 2 wholePool p.1)) = some p.2 := by decide +kernel

/-- V-STFT-9: PRIV_FREE decreases by 8 when one channel of W = 4 on each side becomes two. -/
theorem test_stftChannelChange_pool : (busyOn 2 (stftZero 4 2 1 1) [2#32, 2#32]).privFree = 0x7FFFF8 ∧
    readOf State.privFree (exec (.stftChannelChange 2) (busyOn 2 (stftZero 4 2 1 1) [2#32, 2#32])) =
      some 0x7FFFF0 := by decide +kernel

/-- V-STFT-7, V-STFT-8: STFT_FLUSH of an RFFT slot, and of buffers that are not zero. -/
theorem test_stftFlush : statusOf (exec (.stftFlush 3) (busyOn 3 (.rfft 4) [])) = some 0x404 ∧
    slotOf 2 (exec (.stftFlush 2) (busyOn 2 (.stft ⟨2, 1, 1, 1⟩ ⟨[[1#32, 2#32]], [[3#32, 4#32]]⟩) [])) =
      some (.stft ⟨2, 1, 1, 1⟩ ⟨[[0#32, 0#32]], [[0#32, 0#32]]⟩) := by decide +kernel

/-! The QMF family: what does not depend on the OPEN functions. -/

/-- V-QMF-1: the BAD_PARAM rows, which no hop size changes. -/
theorem test_qmfCreate : ∀ p ∈ [[0#32, 0#32, 1#32, 1#32], [64#32, 2#32, 1#32, 1#32], [64#32, 1#32, 0#32, 1#32],
    [64#32, 1#32, 1#32, 257#32]],
    statusOf (exec (.qmfCreate 4) (busyOn 4 .free p)) = some 0x504 := by decide +kernel

/-- A QMF handle of hop 64, whose channel states are left out, since no test reads them. -/
def qmf64 : Handle := .qmf ⟨64, false, 2, 2⟩ ⟨[[], []], [[], []]⟩

/-- V-QMF-4: block sizes that are no positive multiple of the hop; and an STFT slot. -/
theorem test_qmfAnalysis : (∀ p ∈ [[0x1000#32, 65#32, 0x8000#32], [0x1000#32, 0#32, 0x8000#32]],
      statusOf (exec (.qmfAnalysis 4) (busyOn 4 qmf64 p)) = some 0x704) ∧
    statusOf (exec (.qmfAnalysis 2) (busyOn 2 (stftZero 4 2 1 1) [0x1000#32, 4#32, 0x8000#32])) = some 0x404 := by
  decide +kernel

/-- R195: BLOCK_SIZE wins over MISALIGNED, and MISALIGNED is next. -/
theorem test_qmfSynthesis : statusOf (exec (.qmfSynthesis 4) (busyOn 4 qmf64 [0x1002#32, 65#32, 0x8000#32])) =
      some 0x704 ∧
    statusOf (exec (.qmfSynthesis 4) (busyOn 4 qmf64 [0x1002#32, 64#32, 0x8000#32])) = some 0x904 := by decide +kernel

/-- V-QMF-2: a query on a FREE slot is WRONG_HANDLE and leaves RESULT0 as it was. -/
theorem test_qmfGetDelay : statusOf (exec (.qmfGetDelay 6) (busyOn 4 qmf64 [])) = some 0x404 ∧
    readOf (fun t => t.result0.toNat) (exec (.qmfGetDelay 6) { (busyOn 4 qmf64 []) with result0 := 7#32 }) = some 7 ∧
    statusOf (exec (.qmfGetDelay 4) (busyOn 4 qmf64 [])) = some 0x002 := by decide +kernel

theorem test_qmfGetNbands : statusOf (exec (.qmfGetNbands 6) (busyOn 4 qmf64 [])) = some 0x404 ∧
    statusOf (exec (.qmfGetNbands 4) (busyOn 4 qmf64 [])) = some 0x002 := by decide +kernel

/-- V-QMF-3: sample rates that are BAD_PARAM, whatever the band count. -/
theorem test_qmfGetCentreFreqs : ∀ a ∈ [[0x00000000#32, 5#32, 0x3000#32], [0x80000000#32, 5#32, 0x3000#32],
    [0xBF800000#32, 5#32, 0x3000#32], [0x7F800000#32, 5#32, 0x3000#32], [0x7FC00000#32, 5#32, 0x3000#32]],
    statusOf (exec (.qmfGetCentreFreqs 4) (busyOn 4 qmf64 a)) = some 0x504 := by decide +kernel

/-- V-QMF-3: sample rates that are accepted. -/
theorem test_sampleRates : sampleRateOk 0x473B8000#32 = true ∧ sampleRateOk 0x00000001#32 = true := by decide

/-! The convolution family. -/

/-- V-CONV-4: create outcomes. -/
theorem test_convCreate : ∀ p ∈ [([2048#32, 512#32, 32#32, 40#32, 0#32], 0x002),
    ([2048#32, 512#32, 32#32, 64#32, 0#32], 0xC04), ([0#32, 3#32, 1#32, 1#32, 0x400#32], 0x504),
    ([2#32, 0#32, 1#32, 1#32, 0x400#32], 0x504), ([2#32, 3#32, 0#32, 1#32, 0x400#32], 0x504),
    ([2#32, 3#32, 1#32, 257#32, 0x400#32], 0x504), ([1#32, 3#32, 1#32, 1#32, 0x400#32], 0x002),
    ([3#32, 3#32, 1#32, 1#32, 0x400#32], 0x002), ([7#32, 3#32, 1#32, 1#32, 0x400#32], 0x604),
    ([32768#32, 3#32, 1#32, 1#32, 0x400#32], 0x002), ([32769#32, 3#32, 1#32, 1#32, 0x400#32], 0x604),
    ([2#32, 3#32, 1#32, 1#32, 0x402#32], 0x904), ([2#32, 3#32, 1#32, 1#32, 0xFFFFFFF8#32], 0xA04),
    ([2#32, 3#32, 1#32, 1#32, 0xFFFFFFF4#32], 0x002)],
    statusOf (exec (.convCreate 5) (busyOn 5 .free p.1)) = some p.2 := by decide +kernel

/-- V-CONV-1: the partitions of h = [1, 2, 3] with B = 2, zero-filled and zero-padded; and the 26 private words. -/
theorem test_partitions :
    (State.reset.storeF32s 0x400 [0x3F800000#32, 0x40000000#32, 0x40400000#32]).partition convCfg 0x400 0 0 0 =
      [0x3F800000#32, 0x40000000#32, 0#32, 0#32] ∧
    (State.reset.storeF32s 0x400 [0x3F800000#32, 0x40000000#32, 0x40400000#32]).partition convCfg 0x400 0 0 1 =
      [0x40400000#32, 0#32, 0#32, 0#32] ∧ (Handle.conv convCfg convZero).req = 26 := by decide +kernel

/-- V-CONV-5: call-time checks. -/
theorem test_convApply : ∀ p ∈ [([0x500#32, 0x500#32], 0xB04), ([0x500#32, 0x504#32], 0xB04),
    ([0x500#32, 0x508#32], 0x002), ([0x501#32, 0x600#32], 0x904)],
    statusOf (exec (.convApply 5) (busyOn 5 (.conv convCfg convZero) p.1)) = some p.2 := by decide +kernel

/-- V-CONV-1: Y of apply 1, from the ideal spectra: partition 0 meets slot 1, partition 1 meets slot 0. -/
theorem test_accumulate : convAccumulate 0 convCfg
      { convZero with
        hf := [[[[⟨0x40400000#32, 0#32⟩, ⟨0x3F800000#32, 0xC0000000#32⟩, ⟨0xBF800000#32, 0#32⟩],
          [⟨0x40400000#32, 0#32⟩, ⟨0x40400000#32, 0#32⟩, ⟨0x40400000#32, 0#32⟩]]]]
        pos := 1 }
      [[[⟨0x3F800000#32, 0#32⟩, ⟨0xBF800000#32, 0#32⟩, ⟨0x3F800000#32, 0#32⟩],
        [⟨0x3F800000#32, 0#32⟩, ⟨0x3F800000#32, 0#32⟩, ⟨0x3F800000#32, 0#32⟩]]] 0 =
    [⟨0x40C00000#32, 0#32⟩, ⟨0xC0000000#32, 0xC0000000#32⟩, ⟨0x40000000#32, 0#32⟩] := by decide +kernel

/-! Priority of errors and arithmetic. -/

/-- V-ERR-1: the rows with several errors at once. -/
theorem test_priority : statusOf (step (State.reset.withFetchWord 32 0x00011002)) = some 0x104 ∧
    statusOf (exec (.rfftForward 16) (busyOn 0 (.rfft 4) [0x102#32, 0x102#32])) = some 0x204 ∧
    statusOf (exec (.rfftCreate 0) (busyOn 0 (.rfft 4) [7#32])) = some 0x304 ∧
    statusOf (exec (.stftForward 2) (busyOn 2 (stftZero 4 2 1 1) [0x101#32, 3#32, 0x101#32])) = some 0x704 ∧
    statusOf (exec (.rfftForward 0) (busyOn 0 (.rfft 4) [0xFFFFFFF6#32, 0xFFFFFFF6#32])) = some 0x904 ∧
    statusOf (exec (.rfftForward 0) (busyOn 0 (.rfft 4) [0xFFFFFFF4#32, 0xFFFFFFF4#32])) = some 0xA04 ∧
    statusOf (exec (.convCreate 5) (busyOn 5 .free [2048#32, 512#32, 32#32, 64#32, 2#32])) = some 0x904 := by
  decide +kernel

/-- R123: binary32 sums by hand: 1 + 2^-24 is a tie that rounds to even, 1 + 2^-23 + 2^-24 one that rounds up, the
largest finite value doubled is an infinity, and a subnormal sum is exact. -/
theorem test_fadd : fadd 0#32 0x3F800000#32 0x33800000#32 = 0x3F800000#32 ∧
    fadd 0#32 0x3F800001#32 0x33800000#32 = 0x3F800002#32 ∧
    fadd 0#32 0x7F7FFFFF#32 0x7F7FFFFF#32 = 0x7F800000#32 ∧
    fadd 0#32 0x00000001#32 0x007FFFFF#32 = 0x00800000#32 ∧ fadd 0#32 0x3F800000#32 0xBF800000#32 = 0#32 ∧
    fadd 0#32 0x80000000#32 0x80000000#32 = 0x80000000#32 := by decide +kernel

/-- R123: binary32 products by hand: gradual underflow, a tie at half the smallest subnormal, an overflow, and a
negative zero. -/
theorem test_fmul : fmul 0#32 0x00800000#32 0x3F000000#32 = 0x00400000#32 ∧
    fmul 0#32 0x00000001#32 0x3F000000#32 = 0#32 ∧ fmul 0#32 0x00000003#32 0x3F000000#32 = 0x00000002#32 ∧
    fmul 0#32 0x7F000000#32 0x40000000#32 = 0x7F800000#32 ∧ fmul 0#32 0x80000000#32 0x3F800000#32 = 0x80000000#32 ∧
    fmul 0#32 0x40400000#32 0xC0000000#32 = 0xC0C00000#32 := by decide +kernel

/-! Witnesses: for every statement with hypotheses, values that meet them, clause by clause. -/

theorem test_witness_DecodeEncodeRoundTrip : (Instr.convApply 0).WellFormed = true ∧ (Instr.convApply 255).WellFormed = true :=
  by decide

theorem test_witness_DecodeSelectsRow : (rsvField 0x0000FF31#32 = 0 ∧ opField 0x0000FF31#32 = (Instr.convApply 255).opcode ∧
      hidField 0x0000FF31#32 = (Instr.convApply 255).hid) ∧
    0x0000FF31#32 &&& 0xFFFF00FF#32 = BitVec.ofNat 32 (Instr.convApply 255).opcode := by decide

theorem test_witness_DecodedWordIsEncoding : decode 0x0000FF31#32 = .ok (.convApply 255) := by decide

/-- A state whose latched command word is `w`. -/
def withWord (w : Word) : State := { State.reset with latch := ⟨w, Vector.replicate 8 0#32⟩ }

/-- Each disjunct, at its boundaries. -/
theorem test_witness_IllegalWordRejected : rsvField (withWord 0x00010001#32).latch.cmd ≠ 0 ∧
    opField (withWord 0x00000000#32).latch.cmd = 0x00 ∧
    (∀ p ∈ [(0x07#32, 0), (0x0E#32, 0)],
      0x07 ≤ opField (withWord p.1).latch.cmd ∧ opField (withWord p.1).latch.cmd ≤ 0x0E + p.2) ∧
    (∀ p ∈ [(0x15#32, 0), (0x1F#32, 0)],
      0x15 ≤ opField (withWord p.1).latch.cmd ∧ opField (withWord p.1).latch.cmd ≤ 0x1F + p.2) ∧
    (∀ p ∈ [(0x26#32, 0), (0x2F#32, 0)],
      0x26 ≤ opField (withWord p.1).latch.cmd ∧ opField (withWord p.1).latch.cmd ≤ 0x2F + p.2) ∧
    (∀ p ∈ [(0x32#32, 0), (0xFF#32, 0)], 0x32 + p.2 ≤ opField (withWord p.1).latch.cmd) := by decide +kernel

theorem test_witness_PreludeOrder : decode (withWord 0x00001007#32).latch.cmd = .error .unassignedOp ∧
    (decode (withWord 0x00001001#32).latch.cmd = .ok (.rfftCreate 16) ∧
      State.reset.numHandles ≤ (Instr.rfftCreate 16).hid) ∧
    (decode (withWord 0x00000F01#32).latch.cmd = .ok (.rfftCreate 15) ∧
      (Instr.rfftCreate 15).hid < State.reset.numHandles) := by decide +kernel

/-- A busy state with one host access pending and `n` host accesses left to go first. -/
def busyWithHost (n : Nat) : State :=
  { withWord 0x00000001#32 with
    status := ⟨true, false, false, false, .noError⟩, host := [rd 0x008], delay := n }

theorem test_witness_StepRunsLatchedCommand :
    ((busyWithHost 0).status.busy = true ∧ (busyWithHost 0).delay = 0 ∧
      decode (busyWithHost 0).latch.cmd = .ok (.rfftCreate 0)) ∧
    decode ({ busyWithHost 0 with latch := ⟨0x00000007#32, Vector.replicate 8 0#32⟩ } : State).latch.cmd =
      .error .unassignedOp ∧
    ({ busyWithHost 1 with host := [] } : State).host = [] ∧
    ((busyWithHost 1).host = [rd 0x008] ∧ (busyWithHost 1).delay ≠ 0) ∧
    ({ State.reset with host := [rd 0x008] } : State).status.busy = false := by decide +kernel

theorem test_witness_PlacedWordRuns : decodeTableWord 32 0x00000F31 = some (.convApply 15) := by decide

theorem test_witness_IdleHoldsState :
    (State.reset.status.busy = false ∧ step State.reset = .next State.reset ∧ State.reset.host = []) ∧
    ∃ s t : State, s.status.busy = false ∧ step s = .next t ∧ s.host = [rd 0x000] ∧
      (∀ o w v, rd 0x000 ≠ .writeReg o w v) ∧ rd 0x000 ≠ .hwReset ∧ (∀ a n v, rd 0x000 ≠ .writeMem a n v) :=
  ⟨⟨rfl, rfl, rfl⟩, { State.reset with host := [rd 0x000] }, _, rfl, rfl, rfl, fun _ _ _ => nofun, nofun,
    fun _ _ _ => nofun⟩

/-- A state whose latched RFFT_FORWARD is in progress on an RFFT slot of length 4. -/
def forwardState : State := { busyOn 0 (.rfft 4) [0x100#32, 0x200#32] with
  latch := ⟨0x00000002#32, Vector.ofFn fun k : Fin 8 => [0x100#32, 0x200#32].getD k 0#32⟩
  last := some ⟨some ⟨0x100, 0x10⟩, some ⟨0x200, 0x18⟩⟩ }

/-- The turns of both parties; and a state whose next access is allowed, and whose next accesses are forbidden: register
accesses just outside the space, not aligned and too narrow, and memory accesses over the top and in a footprint. -/
theorem test_witness_CommandEndsSoon : (busyWithHost 1).status.busy = true ∧
    (busyWithHost 0).delay = 0 ∧ ({ busyWithHost 1 with host := [] } : State).host = [] ∧
    ((busyWithHost 1).host = [rd 0x008] ∧ (busyWithHost 1).delay ≠ 0) ∧
    (¬ForbiddenAccess (rd 0x008) (busyWithHost 1) ∧ ¬ForbiddenAccess (rd 0x0FC) (busyWithHost 1) ∧
      ¬ForbiddenAccess (.readMem 0xFFFFFFFC 4) (busyWithHost 1)) ∧
    ForbiddenAccess (rd 0x100) (busyWithHost 1) ∧ ForbiddenAccess (wr 0x009 0#32) (busyWithHost 1) ∧
    ForbiddenAccess (.readReg 0x008 2) (busyWithHost 1) ∧ ForbiddenAccess (.writeMem 0xFFFFFFFD 4 0) (busyWithHost 1) ∧
    ForbiddenAccess (.readMem 0x0FD 4) forwardState :=
  ⟨rfl, rfl, rfl, by decide, ⟨by unfold ForbiddenAccess rd; decide, by unfold ForbiddenAccess rd; decide,
    fun h => h.elim (by decide) (by rintro ⟨fp, h, -⟩; cases h)⟩,
    .inr (.inr (by decide)), .inr (.inl (by decide)), .inl (by decide), .inl (by decide),
    .inr ⟨⟨some ⟨0x100, 0x10⟩, some ⟨0x200, 0x18⟩⟩, .head _, 3, by decide, by decide⟩⟩

theorem test_witness_SlotKindErrors :
    ((Instr.rfftCreate 0).hid < State.reset.numHandles ∧
      slotFits (.rfftCreate 0) ((busyOn 0 (.rfft 4) []).slot 0) = false) ∧
    ((Instr.stftFlush 15).hid < State.reset.numHandles ∧
      slotFits (.stftFlush 15) ((busyOn 0 (.rfft 4) []).slot 15) = false) := by decide +kernel

theorem test_witness_OutcomeIgnoresData : ∃ s s' : State, s.mem ≠ s'.mem ∧ s.params = s'.params ∧ s.latch = s'.latch ∧ s.handles = s'.handles ∧
    s.status.err = false ∧ s'.status.err = false ∧ ∃ t, engineStep s = .next t ∧ RejectedFrom s t .badParam :=
  ⟨withWord 0x00000001#32, (withWord 0x00000001#32).storeF32s 0 [0x7F800000#32], by decide +kernel, rfl, rfl, rfl, rfl, rfl,
    _, rfl, ⟨rfl, rfl⟩⟩

theorem test_witness_CommandWrite : (busyWithHost 1).status.busy = true ∧ rejectedState.status.err = true ∧
    State.reset.status.busy = false ∧ State.reset.status.err = false := by decide +kernel

theorem test_witness_ArgumentsAreLatched : State.reset.status.busy = false ∧ State.reset.status.err = false :=
  by decide

theorem test_witness_CtrlWrite : (0x00000003#32).getLsbD 31 = false ∧ (0x80000000#32).getLsbD 31 = true ∧
    State.reset.status.busy = false ∧ (withWord 0x00000001#32).latchedFootprint.wf = none ∧
    forwardState.latchedFootprint.wf = some ⟨0x200, 0x18⟩ := by decide +kernel

/-- Each clause at the boundaries of its offsets. -/
theorem test_witness_RegisterAccess : (3 ≠ 4 ∨ 0x008 % 4 ≠ 0) ∧ (4 ≠ 4 ∨ 0x009 % 4 ≠ 0) ∧
    (∀ o ∈ [0x000, 0x010, 0x03C, 0x060, 0x0FC],
      o % 4 = 0 ∧ (o = 0x000 ∨ (0x010 ≤ o ∧ o < 0x040) ∨ (0x060 ≤ o ∧ o < 0x100))) ∧
    (∀ o ∈ [0x000, 0x028, 0x02C, 0x03C, 0x040, 0x05C, 0x060, 0x0FC], o % 4 = 0 ∧ o < 0x100) := by decide

theorem test_witness_ParametersNeverChange : ∃ t, step { State.reset with host := [srst] } = .next t := ⟨_, rfl⟩

/-- A racing access one byte inside each end of the write footprint, and accesses just outside it. -/
theorem test_witness_HostMemoryAccess :
    (0x0FD + 4 ≤ Config.defaultParams.dmemBytes ∧ ∃ fp ∈ forwardState.watched, ∃ j < 4, fp.touches (0x0FD + j) = true) ∧
    (0x217 + 1 ≤ Config.defaultParams.dmemBytes ∧ ∃ fp ∈ forwardState.watched, ∃ j < 1, fp.touches (0x217 + j) = true) ∧
    (∀ fp ∈ forwardState.watched, ∀ j < 4, fp.touches (0x0FC + j) = false) ∧
    (∀ fp ∈ forwardState.watched, ∀ j < 4, fp.touches (0x218 + j) = false) := by decide +kernel

theorem test_witness_WatchedFootprints : (State.reset.status.busy = false ∧ State.reset.status.err = false) ∧
    (∃ t, engineStep forwardState = .next t) ∧ (0x00000001#32).getLsbD 31 = false ∧ (0x80000000#32).getLsbD 31 = true ∧
    ∃ t, hostStep (.readMem 0x300 4) forwardState = .next t ∧ HostAccess.readMem 0x300 4 ≠ rd 0x008 ∧
      (∀ v, HostAccess.readMem 0x300 4 ≠ wr 0x004 v) ∧ (∀ v, HostAccess.readMem 0x300 4 ≠ wr 0x00C v) ∧
      HostAccess.readMem 0x300 4 ≠ .hwReset ∧ (Handle.cfft 4 = .rfft 4 ∨ Handle.cfft 4 = .cfft 4) ∧
      decode 0x00000F31#32 = .ok (.convApply 15) ∧ decode 0x00000007#32 = .error .unassignedOp ∧
      (∃ c st, stftZero 4 2 3 1 = .stft c st ∧ 2 = c.hop ∧ 3 = c.win / 2 + 1 ∧ 3 = c.nIn ∧ 1 = c.nOut) ∧
      ∃ c st, qmf64 = .qmf c st ∧ 64 = c.hop ∧ qmfNBands 64 false = qmfNBands c.hop c.hyb ∧ 2 = c.nIn ∧ 2 = c.nOut :=
  ⟨⟨rfl, rfl⟩, ⟨_, rfl⟩, by decide, by decide, _, rfl, nofun, fun _ => nofun, fun _ => nofun, nofun, .inr rfl, by decide,
    by decide, ⟨_, _, rfl, rfl, rfl, rfl, rfl⟩, ⟨_, _, rfl, rfl, rfl, rfl, rfl⟩⟩

/-- Parameters with the smallest bounds and a set of lengths that is not the default. -/
def otherParams : Params where
  lengths     := .listed [2, 4, 8, 16, 32, 64, 80, 128, 256, 512, 960, 1024, 2048, 4096, 8192, 16384, 30720]
  fftNmax     := 30720
  maxChannels := 40
  dmemBytes   := 0
  privWords   := 5442112

theorem test_witness_SupportedLengths : (otherParams.fftSupported 30720 = true ∧ otherParams.fftSupported 6 = false) ∧
    (Config.defaultParams.lengths = .fiveSmooth ∧ 30720 ≤ Config.defaultParams.fftNmax ∧
      Config.defaultParams.fftNmax < 2 ^ 64) ∧ (1 ≤ 1 ∧ 2 ^ 1 ≤ Config.defaultParams.fftNmax) ∧
    (1 ≤ 16 ∧ 2 ^ 16 ≤ Config.defaultParams.fftNmax) ∧
    otherParams.lengths =
      .listed [2, 4, 8, 16, 32, 64, 80, 128, 256, 512, 960, 1024, 2048, 4096, 8192, 16384, 30720] := by decide +kernel

/-- Every power of two from 2 to the bound is supported if those below 2^32 are. -/
theorem powers_of (p : Params) (hp : p.fftNmax < 2 ^ 32)
    (h : ∀ k < 32, 1 ≤ k → 2 ^ k ≤ p.fftNmax → p.fftSupported (2 ^ k) = true) :
    ∀ k, 1 ≤ k → 2 ^ k ≤ p.fftNmax → p.fftSupported (2 ^ k) = true := by
  intro k hk hle
  refine h k ?_ hk hle
  by_contra hn
  exact absurd (lt_of_le_of_lt (Nat.pow_le_pow_right (by decide) (Nat.le_of_not_lt hn)) (lt_of_le_of_lt hle hp)) (by decide)

theorem defaultParams_ok : Config.defaultParams.Ok := by
  refine ⟨by decide, by decide, by decide, by decide, by decide, by decide, by decide, by decide,
    powers_of _ (by decide) (by decide +kernel), by decide +kernel⟩

theorem otherParams_ok : otherParams.Ok := by
  refine ⟨by decide, by decide, by decide, by decide, by decide, by decide, by decide, by decide,
    powers_of _ (by decide) (by decide +kernel), by decide +kernel⟩

theorem reset_paramsOk : State.reset.ParamsOk := ⟨defaultParams_ok, by decide, by decide⟩

theorem test_witness_FftCreate : (busyOn 0 (.rfft 4) []).slot 0 ≠ .free ∧
    ((busyOn 1 .free [0#32]).slot 15 = .free ∧ (busyOn 1 .free [0#32]).arg 0 = 0) ∧
    ((busyOn 1 .free [65538#32]).arg 0 ≠ 0 ∧ Config.defaultParams.fftSupported ((busyOn 1 .free [65538#32]).arg 0) = false) ∧
    Config.defaultParams.fftSupported ((busyOn 1 .free [2#32]).arg 0) = true ∧
    Config.defaultParams.fftSupported ((busyOn 1 .free [65536#32]).arg 0) = true := by decide +kernel

theorem test_witness_RfftForwardCompletes : ∃ (h n : Nat) (s : State), h < s.numHandles ∧ s.slot h = .rfft n ∧
    BuffersOk s (s.arg 0) (4 * n) (s.arg 1) (8 * (n / 2 + 1)) :=
  ⟨15, 4, busyOn 15 (.rfft 4) [0x100#32, 0x110#32], by decide, by decide +kernel, by unfold BuffersOk; decide +kernel⟩

theorem test_witness_RfftBackwardCompletes : ∃ (h n : Nat) (s : State), h < s.numHandles ∧ s.slot h = .rfft n ∧
    BuffersOk s (s.arg 0) (8 * (n / 2 + 1)) (s.arg 1) (4 * n) :=
  ⟨0, 4, busyOn 0 (.rfft 4) [0x100#32, 0x0F0#32], by decide, by decide +kernel, by unfold BuffersOk; decide +kernel⟩

theorem test_witness_CfftCompletes : ∃ (h n : Nat) (s : State), h < s.numHandles ∧ s.slot h = .cfft n ∧
    BuffersOk s (s.arg 0) (8 * n) (s.arg 1) (8 * n) :=
  ⟨0, 4, busyOn 0 (.cfft 4) [0xFFFFFFE0#32, 0#32], by decide, by decide +kernel, by unfold BuffersOk; decide +kernel⟩

/-- The slots of the three clauses, and buffers one word on either side of each test. -/
theorem test_witness_BlockBufferErrors :
    (busyOn 0 (.rfft 4) [0x102#32, 0x200#32]).slot 0 = .rfft 4 ∧ (busyOn 0 (.rfft 4) [0x102#32, 0x200#32]).arg 0 % 4 ≠ 0 ∧
    (busyOn 0 (.cfft 4) [0xFFFFFFE4#32, 0#32]).slot 0 = .cfft 4 ∧
    Config.defaultParams.dmemBytes < (busyOn 0 (.cfft 4) [0xFFFFFFE4#32, 0#32]).arg 0 + 8 * 4 ∧
    (busyOn 0 (.conv convCfg convZero) [0x100#32, 0x104#32]).slot 0 = .conv convCfg convZero ∧
    (busyOn 0 (.conv convCfg convZero) [0x100#32, 0x104#32]).arg 1 <
      (busyOn 0 (.conv convCfg convZero) [0x100#32, 0x104#32]).arg 0 + 4 * convCfg.nIn * convCfg.block := by
  decide +kernel

theorem test_witness_TransformsAreDeterministic : transformDefined .rfft 2 [0x3F800000#32, 0x40000000#32] = true ∧
    transformDefined .irfft 2 (flatten [⟨0x3F800000#32, 0#32⟩, ⟨0x40000000#32, 0#32⟩]) = true ∧
    transformDefined .cfft 2 (flatten [⟨0x3F800000#32, 0#32⟩, ⟨0x40000000#32, 0#32⟩]) = true ∧
    transformDefined .icfft 2 (flatten [⟨0x3F800000#32, 0#32⟩, ⟨0x40000000#32, 0#32⟩]) = true := by decide +kernel

theorem test_witness_ZeroTransform : allZero [0#32, 0x80000000#32] = true ∧
    allZero (flatten [⟨0#32, 0x80000000#32⟩, ⟨0#32, 0#32⟩]) = true := by decide +kernel

theorem test_witness_ImaginaryEndsIgnored : ∃ x y : List C32, x ≠ y ∧ x.length = y.length ∧
    (∀ k, (x.getD k c32Zero).re = (y.getD k c32Zero).re) ∧
    (∀ k, k ≠ 0 → k ≠ 4 / 2 → (x.getD k c32Zero).im = (y.getD k c32Zero).im) ∧
    transformDefined .irfft 4 (flatten x) = true ∧ transformDefined .irfft 4 (flatten y) = true := by
  refine ⟨[⟨1#32, 0#32⟩, ⟨2#32, 3#32⟩, ⟨4#32, 0#32⟩], [⟨1#32, 5#32⟩, ⟨2#32, 3#32⟩, ⟨4#32, 7#32⟩], by decide, rfl, ?_, ?_,
    by decide +kernel, by decide +kernel⟩
  · intro k
    match k with
    | 0 => rfl
    | 1 => rfl
    | 2 => rfl
    | k + 3 => rfl
  · intro k h0 h2
    match k with
    | 0 => exact absurd rfl h0
    | 1 => rfl
    | 2 => exact absurd rfl h2
    | k + 3 => rfl

theorem test_witness_WindowTable : 4 ≠ 2 ∧ 0 < 1 ∧ 0 < 32768 := by decide

theorem test_witness_UnitArithmetic : f32IsFinite 0x7F7FFFFF#32 = true ∧ f32IsFinite 0x80000000#32 = true ∧
    (f32IsFinite 0x00000001#32 = true ∧ f32Mag 0x00000001#32 ≠ 0) ∧
    ([0x00000001#32, 0xBF800000#32].length = 2 ∧ allFinite [0x00000001#32, 0xBF800000#32] = true) := by decide +kernel

/-- The free slot, and arguments of each clause at a boundary of its range: W = H, and the whole pool. -/
theorem test_witness_StftCreate : ∃ s : State, s.slot 2 = .free ∧ s.params.fftSupported (s.arg 0) = true ∧ s.arg 1 ≠ 0 ∧
    s.arg 1 ≤ s.arg 0 ∧ s.arg 0 % s.arg 1 = 0 ∧ countOk s.params (s.arg 2) ∧ countOk s.params (s.arg 3) ∧
    (s.arg 2 + s.arg 3) * s.arg 0 ≤ s.privFree :=
  ⟨busyOn 2 .free [65536#32, 65536#32, 64#32, 64#32], by unfold countOk; decide +kernel⟩

theorem test_witness_StreamErrors :
    (busyOn 2 (stftZero 4 2 1 1) [0x100#32, 0#32]).slot 2 = stftZero 4 2 1 1 ∧
    (busyOn 2 (stftZero 4 2 1 1) [0x100#32, 0#32]).arg 1 = 0 ∧
    (busyOn 2 qmf64 [0x1000#32, 65#32]).slot 2 = qmf64 ∧ (busyOn 2 qmf64 [0x1000#32, 65#32]).arg 1 % 64 ≠ 0 := by
  decide +kernel

theorem test_witness_StftForwardCompletes : ∃ (h : Nat) (s : State) (cfg : StftCfg) (st : StftState),
    h < s.numHandles ∧ s.slot h = .stft cfg st ∧ s.arg 1 ≠ 0 ∧ s.arg 1 % cfg.hop = 0 ∧
    BuffersOk s (s.arg 0) (4 * cfg.nIn * s.arg 1)
      (s.arg 2) (8 * (cfg.win / 2 + 1) * cfg.nIn * (s.arg 1 / cfg.hop)) :=
  ⟨2, busyOn 2 (stftZero 4 2 2 1) [0x100#32, 4#32, 0x120#32], ⟨4, 2, 2, 1⟩, StftCfg.zeroState ⟨4, 2, 2, 1⟩, by decide,
    rfl, by decide +kernel, by decide +kernel, by unfold BuffersOk; decide +kernel⟩

theorem test_witness_StftForwardHops : (zeros 4).length = (StftCfg.mk 4 2 1 1).win ∧
    (StftCfg.mk 4 2 1 1).hop ≤ (StftCfg.mk 4 2 1 1).win ∧
    (∀ x ∈ [[1#32, 2#32], [3#32, 4#32]], x.length = (StftCfg.mk 4 2 1 1).hop) ∧
    allFinite [0x3F800000#32, 0xFF7FFFFF#32] = true := by decide +kernel

theorem test_witness_StftBackwardCompletes : ∃ (h : Nat) (s : State) (cfg : StftCfg) (st : StftState),
    h < s.numHandles ∧ s.slot h = .stft cfg st ∧ s.arg 1 ≠ 0 ∧ s.arg 1 % cfg.hop = 0 ∧
    BuffersOk s (s.arg 0) (8 * (cfg.win / 2 + 1) * cfg.nOut * (s.arg 1 / cfg.hop))
      (s.arg 2) (4 * cfg.nOut * s.arg 1) :=
  ⟨2, busyOn 2 (stftZero 4 2 1 2) [0x100#32, 4#32, 0x160#32], ⟨4, 2, 1, 2⟩, StftCfg.zeroState ⟨4, 2, 1, 2⟩, by decide,
    rfl, by decide +kernel, by decide +kernel, by unfold BuffersOk; decide +kernel⟩

theorem test_witness_StftBackwardHops : (StftCfg.mk 4 4 1 1).hop ≤ (StftCfg.mk 4 4 1 1).win ∧
    allFinite [0x3F800000#32, 0xFF7FFFFF#32] = true := by decide +kernel

theorem test_witness_StftChannelChange : ∃ (h : Nat) (s : State) (cfg : StftCfg) (st : StftState),
    h < s.numHandles ∧ s.slot h = .stft cfg st ∧ countOk s.params (s.arg 0) ∧ countOk s.params (s.arg 1) ∧
    (s.arg 0 + s.arg 1) * cfg.win ≤ s.privFree + (cfg.nIn + cfg.nOut) * cfg.win :=
  ⟨2, busyOn 2 wholePool [64#32, 64#32], ⟨65536, 32768, 64, 64⟩, ⟨[], []⟩, by decide, rfl, by unfold countOk; decide +kernel,
    by unfold countOk; decide +kernel, by decide +kernel⟩

theorem test_witness_StftFlush : (∃ s : State, s.slot 3 = .rfft 4 ∧ ∀ cfg st, s.slot 3 ≠ .stft cfg st) ∧
    ∃ s : State, s.slot 2 = stftZero 4 2 1 1 :=
  ⟨⟨busyOn 3 (.rfft 4) [], rfl, fun _ _ => nofun⟩, busyOn 2 (stftZero 4 2 1 1) [], rfl⟩

theorem test_witness_QmfParameters : ∃ hop, qmfHopOk hop = true :=
  let ⟨hop, _, _, h⟩ := Config.qmf.someHop
  ⟨hop, h⟩

theorem test_witness_QmfCreate : ∃ s : State, s.slot 4 = .free ∧ qmfHopOk (s.arg 0) = true ∧ s.arg 1 ≤ 1 ∧
    countOk s.params (s.arg 2) ∧ countOk s.params (s.arg 3) := by
  obtain ⟨hop, -, hlt, hok⟩ := Config.qmf.someHop
  refine ⟨busyOn 4 .free [BitVec.ofNat 32 hop, 1#32, 256#32, 1#32], rfl, ?_, ?_, ?_, ?_⟩
  · have : (busyOn 4 .free [BitVec.ofNat 32 hop, 1#32, 256#32, 1#32]).arg 0 = hop := by
      show (BitVec.ofNat 32 hop).toNat = hop
      rw [BitVec.toNat_ofNat, Nat.mod_eq_of_lt hlt]
    rw [this]
    exact hok
  · show (1#32).toNat ≤ 1
    decide
  · show countOk Config.defaultParams (256#32).toNat
    unfold countOk
    decide
  · show countOk Config.defaultParams (1#32).toNat
    unfold countOk
    decide

/-- A QMF handle of hop 1 with one channel each way. -/
def qmfOne : Handle := .qmf ⟨1, false, 1, 1⟩ ⟨[[]], [[]]⟩

/-- A state with that handle in slot 4, whose data memory is large enough for one slot of its bands, however many the
OPEN count is: the statements about it hold for every parameter. -/
def qmfState (a : List Word) : State := { (busyOn 4 qmfOne a) with
  params := { Config.defaultParams with dmemBytes := 0x10000 + 8 * qmfNBands 1 false } }

theorem test_witness_QmfAnalysisCompletes : ∃ (h : Nat) (s : State) (cfg : QmfCfg) (st : QmfState),
    h < s.numHandles ∧ s.slot h = .qmf cfg st ∧ s.arg 1 ≠ 0 ∧ s.arg 1 % cfg.hop = 0 ∧
    BuffersOk s (s.arg 0) (4 * cfg.nIn * s.arg 1)
      (s.arg 2) (8 * qmfNBands cfg.hop cfg.hyb * cfg.nIn * (s.arg 1 / cfg.hop)) := by
  refine ⟨4, qmfState [0x1000#32, 1#32, 0x8000#32], ⟨1, false, 1, 1⟩, ⟨[[]], [[]]⟩, by decide, rfl, by decide +kernel,
    by decide +kernel, ?_⟩
  have e0 : (qmfState [0x1000#32, 1#32, 0x8000#32]).arg 0 = 0x1000 := by decide +kernel
  have e1 : (qmfState [0x1000#32, 1#32, 0x8000#32]).arg 1 = 1 := by decide +kernel
  have e2 : (qmfState [0x1000#32, 1#32, 0x8000#32]).arg 2 = 0x8000 := by decide +kernel
  have e3 : (qmfState [0x1000#32, 1#32, 0x8000#32]).params.dmemBytes = 0x10000 + 8 * qmfNBands 1 false := rfl
  simp only [e0, e1, e2, BuffersOk, e3, Nat.div_self (show 0 < 1 by decide), Nat.mul_one]
  exact ⟨by decide, by decide, by omega, by omega, by omega⟩

theorem test_witness_QmfSynthesisCompletes : ∃ (h : Nat) (s : State) (cfg : QmfCfg) (st : QmfState),
    h < s.numHandles ∧ s.slot h = .qmf cfg st ∧ s.arg 1 ≠ 0 ∧ s.arg 1 % cfg.hop = 0 ∧
    BuffersOk s (s.arg 0) (8 * qmfNBands cfg.hop cfg.hyb * cfg.nOut * (s.arg 1 / cfg.hop))
      (s.arg 2) (4 * cfg.nOut * s.arg 1) := by
  refine ⟨4, qmfState [0x8000#32, 1#32, 0x1000#32], ⟨1, false, 1, 1⟩, ⟨[[]], [[]]⟩, by decide, rfl, by decide +kernel,
    by decide +kernel, ?_⟩
  have e0 : (qmfState [0x8000#32, 1#32, 0x1000#32]).arg 0 = 0x8000 := by decide +kernel
  have e1 : (qmfState [0x8000#32, 1#32, 0x1000#32]).arg 1 = 1 := by decide +kernel
  have e2 : (qmfState [0x8000#32, 1#32, 0x1000#32]).arg 2 = 0x1000 := by decide +kernel
  have e3 : (qmfState [0x8000#32, 1#32, 0x1000#32]).params.dmemBytes = 0x10000 + 8 * qmfNBands 1 false := rfl
  simp only [e0, e1, e2, BuffersOk, e3, Nat.div_self (show 0 < 1 by decide), Nat.mul_one]
  exact ⟨by decide, by decide, by omega, by omega, by omega⟩

theorem test_witness_QmfBlocksCompose : (∀ x ∈ [[0x3F800000#32]], allFinite x = true) ∧
    ∀ x ∈ [[(⟨0x3F800000#32, 0#32⟩ : C32)]], allFinite (flatten x) = true := by decide +kernel

theorem test_witness_QmfQueries : (∃ s : State, s.slot 6 = .free ∧ ∀ cfg st, s.slot 6 ≠ .qmf cfg st) ∧
    ∃ s : State, s.slot 4 = qmf64 := ⟨⟨State.reset, rfl, fun _ _ => nofun⟩, busyOn 4 qmf64 [], rfl⟩

theorem test_witness_QmfGetCentreFreqs : ∃ (h : Nat) (s : State) (cfg : QmfCfg) (st : QmfState),
    h < s.numHandles ∧ s.slot h = .qmf cfg st ∧ s.arg 0 ≠ 0 ∧ s.arg 0 < 0x7F800000 ∧ s.arg 2 % 4 = 0 :=
  ⟨4, busyOn 4 qmfOne [0x473B8000#32, 5#32, 0x3000#32], ⟨1, false, 1, 1⟩, ⟨[[]], [[]]⟩, by decide, rfl,
    by decide +kernel⟩

theorem test_witness_ConvCreate : ∃ (h : Nat) (s : State) (cfg : ConvCfg), h < s.numHandles ∧
    cfg = ⟨s.arg 0, s.arg 1, s.arg 2, s.arg 3⟩ ∧ s.slot h = .free ∧ cfg.len ≠ 0 ∧ countOk s.params cfg.nIn ∧ countOk s.params cfg.nOut ∧
    s.params.fftSupported (2 * cfg.block) = true ∧ s.arg 4 % 4 = 0 ∧
    s.arg 4 + 4 * cfg.nOut * cfg.nIn * cfg.len ≤ s.params.dmemBytes ∧
    2 * (cfg.block + 1) * ceilDiv cfg.len cfg.block * cfg.nIn * cfg.nOut +
      2 * (cfg.block + 1) * ceilDiv cfg.len cfg.block * cfg.nIn + cfg.block * cfg.nIn ≤ s.privFree :=
  ⟨5, busyOn 4 .free [2#32, 3#32, 1#32, 1#32, 0xFFFFFFF4#32], ⟨2, 3, 1, 1⟩, by decide, by decide +kernel, rfl,
    by decide, by unfold countOk; decide, by unfold countOk; decide, by decide +kernel, by decide +kernel,
    by decide +kernel, by decide +kernel⟩

theorem test_witness_ConvApplyCompletes : [(⟨0x3F800000#32, 0xFF7FFFFF#32⟩ : C32)].all c32IsFinite = true ∧
    ∃ (h : Nat) (s : State) (cfg : ConvCfg) (st : ConvState), h < s.numHandles ∧ s.slot h = .conv cfg st ∧
      BuffersOk s (s.arg 0) (4 * cfg.nIn * cfg.block) (s.arg 1) (4 * cfg.nOut * cfg.block) :=
  ⟨by decide, 5, busyOn 5 (.conv convCfg convZero) [0x500#32, 0x508#32], convCfg, convZero, by decide, rfl,
    by unfold BuffersOk; decide +kernel⟩

/-- The filter matrix at the last address that holds it, with the default parameters; and with others. -/
theorem test_witness_SourceConvolutionAccepted : (∃ s : State, s.ParamsOk ∧ (∀ k, s.slot k = .free) ∧ s.arg 0 = 2048 ∧
    s.arg 1 = 512 ∧ s.arg 2 = 32 ∧ s.arg 3 = 40 ∧ s.arg 4 % 4 = 0 ∧ s.arg 4 + 2621440 ≤ s.params.dmemBytes ∧
    s.params = Config.defaultParams) ∧
    ∃ s : State, s.ParamsOk ∧ s.params ≠ Config.defaultParams :=
  ⟨⟨{ State.reset with
      latch := ⟨0#32, Vector.ofFn fun k : Fin 8 => [2048#32, 512#32, 32#32, 40#32, 0xFFD80000#32].getD k 0#32⟩ },
    reset_paramsOk, fun k => State.slot_reset k, by decide +kernel⟩,
    { State.reset with params := otherParams }, ⟨otherParams_ok, by decide, by decide⟩, by decide⟩

theorem test_witness_Destroy : State.reset.slot 15 = .free ∧
    ∃ s : State, s.slot 2 ≠ .free ∧ s.PoolOk :=
  ⟨rfl, busyOn 2 (stftZero 4 2 1 1) [], by decide +kernel, by unfold State.PoolOk; decide +kernel⟩

theorem test_witness_CommandFrame : ∃ t, exec (.rfftForward 0) forwardState = .next t ∧ (Instr.rfftForward 0).isQuery = false ∧
    ∀ r, (footprintOf (.rfftForward 0) (forwardState.slot 0) forwardState.latch.arg).wf = some r →
      r.contains 0x218 = false := by
  refine ⟨_, rfl, rfl, ?_⟩
  intro r hr
  have e : (footprintOf (.rfftForward 0) (forwardState.slot 0) forwardState.latch.arg).wf = some ⟨0x200, 0x18⟩ := by
    decide +kernel
  rw [e] at hr
  cases hr
  decide

theorem test_witness_ConfigurationIsImmutable : (∃ t, exec (.rfftForward 0) forwardState = .next t ∧
      (Instr.rfftForward 0).reconfigures = false) ∧
    ∃ t c st d st', exec (.stftFlush 2) (busyOn 2 (stftZero 4 2 1 1) []) = .next t ∧
      (busyOn 2 (stftZero 4 2 1 1) []).slot 2 = .stft c st ∧ t.slot 2 = .stft d st' :=
  ⟨⟨_, rfl, rfl⟩, _, _, _, _, _, rfl, rfl, rfl⟩

theorem test_witness_PrivFreeChanges : (∃ t, exec (.rfftForward 0) forwardState = .next t ∧
      (Instr.rfftForward 0).reconfigures = false) ∧
    (∃ t, exec (.rfftCreate 0) (busyOn 1 .free [7#32]) = .next t ∧ (busyOn 1 .free [7#32]).status.err = false ∧
      RejectedFrom (busyOn 1 .free [7#32]) t .unsupportedLength) ∧
    (∃ t, hostStep (wr 0x004 3#32) State.reset = .next t ∧ wr 0x004 3#32 ≠ .hwReset ∧
      ∀ v, wr 0x004 3#32 = wr 0x004 v → v.getLsbD 31 = false) ∧ (0x80000000#32).getLsbD 31 = true :=
  ⟨⟨_, rfl, rfl⟩, ⟨_, rfl, rfl, ⟨rfl, rfl⟩⟩, ⟨_, rfl, nofun, fun v hv => by cases hv; decide⟩, by decide⟩

/-- A state with a live slot, a command in progress and its footprint watched meets the invariant and takes a step. -/
theorem test_witness_InvariantKept : forwardState.Inv ∧ ∃ t, step forwardState = .next t := by
  refine ⟨⟨⟨defaultParams_ok, by decide, by decide⟩, ?_, ?_, rfl, ?_, ?_⟩, _, rfl⟩
  · intro h hh
    have : forwardState.slot h = .rfft 4 ∨ forwardState.slot h = .free := by
      match h with
      | 0 => exact .inl rfl
      | h + 1 =>
        right
        show ((State.reset.setSlot 0 (.rfft 4)).slot (h + 1)) = .free
        rw [State.slot_setSlot_ne _ _ (by omega)]
        exact State.slot_reset _
    rcases this with e | e <;> rw [e] <;> simp only [Handle.ok]
    decide +kernel
  · unfold State.PoolOk; decide +kernel
  · unfold State.StatusOk; decide +kernel
  · unfold State.WatchOk; decide +kernel

/-- The slot clause of the create statements. -/
theorem test_witness_create_in_use : (busyOn 2 (.rfft 4) []).slot 2 ≠ .free := by decide +kernel

end Sys2Proof.Machine.Tests
end

section
/-! SUPPORT. The supported transform lengths (spec/00_scope.md R6, spec/40_fft.md R120). -/

namespace Sys2Proof

/-- R6: whatever the set of lengths, a supported length is even and from 2 to FFT_NMAX. -/
theorem Params.bounds_of_fftSupported {p : Params} {n : Nat} (h : p.fftSupported n = true) :
    n % 2 = 0 ∧ 2 ≤ n ∧ n ≤ p.fftNmax := by
  simp only [Params.fftSupported, Bool.and_eq_true, beq_iff_eq, decide_eq_true_eq] at h
  obtain ⟨⟨⟨heven, hlow⟩, hhigh⟩, -⟩ := h
  exact ⟨heven, hlow, hhigh⟩

theorem Params.fftSupported_listed_iff {p : Params} {l : List Nat} (hl : p.lengths = .listed l) (n : Nat) :
    p.fftSupported n = true ↔ n % 2 = 0 ∧ 2 ≤ n ∧ n ≤ p.fftNmax ∧ n ∈ l := by
  simp [Params.fftSupported, hl, and_assoc]

theorem Params.fftSupported_fiveSmooth_iff {p : Params} (hl : p.lengths = .fiveSmooth) (n : Nat) :
    p.fftSupported n = true ↔ n % 2 = 0 ∧ 2 ≤ n ∧ n ≤ p.fftNmax ∧ n ∣ 30 ^ 64 := by
  simp only [Params.fftSupported, hl, Bool.and_eq_true, beq_iff_eq, decide_eq_true_eq, Nat.dvd_iff_mod_eq_zero, and_assoc]

/-- No prime factor other than 2, 3 and 5 (R120). -/
def FiveSmooth (n : Nat) : Prop := ∀ q, q.Prime → q ∣ n → q = 2 ∨ q = 3 ∨ q = 5

theorem prime_dvd_thirty_iff {q : Nat} (hq : q.Prime) : q ∣ 30 ↔ q = 2 ∨ q = 3 ∨ q = 5 := by
  rw [show 30 = 2 * 3 * 5 from rfl, hq.dvd_mul, hq.dvd_mul, Nat.prime_dvd_prime_iff_eq hq Nat.prime_two,
    Nat.prime_dvd_prime_iff_eq hq Nat.prime_three, Nat.prime_dvd_prime_iff_eq hq Nat.prime_five, or_assoc]

/-- A number below 2^k holds every prime at most k times, so it divides 30^k as soon as it has no prime factor but 2, 3
and 5. -/
theorem FiveSmooth.dvd_thirty_pow {n k : Nat} (h : FiveSmooth n) (hn : n ≠ 0) (hk : n < 2 ^ k) : n ∣ 30 ^ k := by
  rw [← Nat.factorization_prime_le_iff_dvd hn (by positivity)]
  intro q hq
  by_cases hdvd : q ∣ n
  · have hmult : n.factorization q ≤ k :=
      Nat.factorization_le_of_le_pow (hk.le.trans (Nat.pow_le_pow_left hq.two_le k))
    have hthirty : 1 ≤ (30 : Nat).factorization q :=
      hq.factorization_pos_of_dvd (by norm_num) ((prime_dvd_thirty_iff hq).mpr (h q hq hdvd))
    rw [Nat.factorization_pow, Finsupp.smul_apply, smul_eq_mul]
    exact hmult.trans (Nat.le_mul_of_pos_right k hthirty)
  · rw [Nat.factorization_eq_zero_of_not_dvd hdvd]
    exact Nat.zero_le _

theorem dvd_thirty_pow_iff_fiveSmooth {n k : Nat} (hn : n ≠ 0) (hk : n < 2 ^ k) : n ∣ 30 ^ k ↔ FiveSmooth n :=
  ⟨fun h _ hq hdvd => (prime_dvd_thirty_iff hq).mp (hq.dvd_of_dvd_pow (hdvd.trans h)), fun h => h.dvd_thirty_pow hn hk⟩

theorem fiveSmooth_two_pow (k : Nat) : FiveSmooth (2 ^ k) :=
  fun _ hq h => .inl (Nat.prime_eq_prime_of_dvd_pow hq Nat.prime_two h)

section DefaultSet

variable {p : Params} (hl : p.lengths = .fiveSmooth) (hmax : p.fftNmax < 2 ^ 64)
include hl hmax

/-- R120: the default set is that of the numbers without a prime factor other than 2, 3 and 5. -/
theorem Params.fftSupported_iff_fiveSmooth (n : Nat) :
    p.fftSupported n = true ↔ n % 2 = 0 ∧ 2 ≤ n ∧ n ≤ p.fftNmax ∧ FiveSmooth n := by
  rw [Params.fftSupported_fiveSmooth_iff hl]
  refine and_congr_right fun _ => and_congr_right fun hlow => and_congr_right fun hhigh => ?_
  exact dvd_thirty_pow_iff_fiveSmooth (by omega) (by omega)

theorem Params.fftSupported_two_pow {k : Nat} (hk : 1 ≤ k) (hle : 2 ^ k ≤ p.fftNmax) :
    p.fftSupported (2 ^ k) = true := by
  have heven : 2 ∣ 2 ^ k := dvd_pow_self 2 (by omega)
  exact (Params.fftSupported_iff_fiveSmooth hl hmax _).mpr
    ⟨Nat.mod_eq_zero_of_dvd heven, Nat.le_of_dvd (by positivity) heven, hle, fiveSmooth_two_pow k⟩

end DefaultSet

/-- R120: the default set has the lengths that the source names. -/
theorem Params.fftSupported_named {p : Params} (hl : p.lengths = .fiveSmooth) (hmax : 30720 ≤ p.fftNmax) :
    ∀ n ∈ [80, 960, 30720], p.fftSupported n = true := by
  intro n hn
  have hnumbers : n % 2 = 0 ∧ 2 ≤ n ∧ n ≤ 30720 ∧ n ∣ 30 ^ 64 := by
    revert n
    decide
  obtain ⟨heven, hlow, hhigh, hdvd⟩ := hnumbers
  exact (Params.fftSupported_fiveSmooth_iff hl n).mpr ⟨heven, hlow, hhigh.trans hmax, hdvd⟩

/-- Settles O26: below 2^64 the divisors of 30^64, which the model tests for, are the numbers with no prime factor but 2,
3 and 5. -/
theorem supportedLengths : Obligations.SupportedLengths :=
  ⟨fun _ _ h => Params.bounds_of_fftSupported h,
    fun _ hl hlow hhigh => ⟨Params.fftSupported_iff_fiveSmooth hl hhigh,
      fun _ hk hle => Params.fftSupported_two_pow hl hhigh hk hle, Params.fftSupported_named hl hlow⟩,
    fun _ _ hl n => Params.fftSupported_listed_iff hl n⟩

end Sys2Proof
end

section
/-! SUPPORT. Every step keeps the invariant (`State.Inv`): first what ends a command, then each access of the host. -/

namespace Sys2Proof.Machine

/-- The clauses on slots, pool and parameters read only these two fields, so a step that leaves them alone has to show
the others. -/
theorem State.Inv.of_same_slots {s t : State} (h : s.Inv) (hp : t.params = s.params) (hh : t.handles = s.handles)
    (hm : t.MemoryOk) (hs : t.StatusOk) (hw : t.WatchOk) : t.Inv where
  params := by simpa only [State.ParamsOk, State.numHandles, hp, hh] using h.params
  handles := by simpa only [State.HandlesOk, State.numHandles, State.slot, hp, hh] using h.handles
  pool := by simpa only [State.PoolOk, State.privUsed, hp, hh] using h.pool
  memory := hm
  status := hs
  watch := hw

/-- With no command in progress there is nothing to watch (R300). -/
theorem State.watchOk_of_idle {s : State} (hb : s.status.busy = false) : s.WatchOk := by simp [State.WatchOk, hb]

/-! The end of a command. -/

/-- The rejection of a command in progress leaves a legal STATUS, since its code is an error's (R264). -/
theorem State.StatusOk.reject {s : State} {c : ErrCode} (h : s.StatusOk) (hb : s.status.busy = true)
    (hc : c ≠ .noError) : (s.reject c).StatusOk := by
  obtain ⟨hbusy, -, -⟩ := h
  obtain ⟨hdone, -⟩ := hbusy hb
  simp [State.StatusOk, hdone, hc]

/-- A completion leaves a legal STATUS, since a command in progress has no ERR beside it (R243). -/
theorem State.StatusOk.complete {s : State} (h : s.StatusOk) (hb : s.status.busy = true) : s.complete.StatusOk := by
  obtain ⟨hbusy, hcode, -⟩ := h
  obtain ⟨-, herr⟩ := hbusy hb
  simpa [State.StatusOk, herr] using hcode

theorem State.Inv.reject {s : State} {c : ErrCode} (h : s.Inv) (hb : s.status.busy = true) (hc : c ≠ .noError) :
    (s.reject c).Inv :=
  h.of_same_slots rfl rfl h.memory (h.status.reject hb hc) (State.watchOk_of_idle rfl)

@[simp] theorem State.perform_params (s : State) (h : Nat) (e : Effect) : (s.perform h e).params = s.params := rfl
@[simp] theorem State.perform_status (s : State) (h : Nat) (e : Effect) : (s.perform h e).status = s.status := rfl
@[simp] theorem State.perform_mem (s : State) (h : Nat) (e : Effect) :
    (s.perform h e).mem = memStoreWords s.mem e.base e.words := rfl
@[simp] theorem State.numHandles_perform (s : State) (h : Nat) (e : Effect) :
    (s.perform h e).numHandles = s.numHandles := State.numHandles_setSlot s h e.hd
theorem State.slot_perform (s : State) (h h' : Nat) (e : Effect) :
    (s.perform h e).slot h' = (s.setSlot h e.hd).slot h' := rfl
theorem State.privUsed_perform (s : State) (h : Nat) (e : Effect) :
    (s.perform h e).privUsed = (s.setSlot h e.hd).privUsed := rfl

section Perform

variable {s : State} {i : Instr} {e : Effect}

theorem State.ParamsOk.perform (h : s.ParamsOk) : (s.perform i.hid e).ParamsOk := by
  simpa only [State.ParamsOk, State.perform_params, State.numHandles_perform] using h

theorem State.HandlesOk.perform (h : s.HandlesOk) (hk : e.Keeps i s) : (s.perform i.hid e).HandlesOk := by
  intro h' hh'
  rw [State.numHandles_perform] at hh'
  rw [State.perform_params, State.slot_perform, State.slot_setSlot]
  split
  · next hsame =>
    obtain ⟨-, hok, -⟩ := hk
    exact hok (h i.hid hsame.2)
  · exact h h' hh'

/-- What a slot newly owns fits in PRIV_FREE and the words it returns (R31, R41). -/
theorem State.PoolOk.perform (h : s.PoolOk) (hh : i.hid < s.numHandles) (hk : e.Keeps i s) :
    (s.perform i.hid e).PoolOk := by
  obtain ⟨hreq, -⟩ := hk
  have hset := State.privUsed_setSlot s i.hid e.hd hh
  simp only [State.PoolOk, State.privFree, State.privUsed_perform, State.perform_params] at h hreq ⊢
  omega

/-- The words stored lie below DMEM_BYTES (R66). -/
theorem State.MemoryOk.perform (h : s.MemoryOk) (hf : e.Fits i s) : (s.perform i.hid e).MemoryOk := by
  rw [State.MemoryOk, State.perform_params, State.perform_mem]
  rcases hf with hnone | ⟨-, hrange⟩
  · rw [hnone]
    exact h
  · exact Memory.wf_memStoreWords h hrange

end Perform

/-- The engine step of a command in progress keeps the invariant (R243, R244). -/
theorem State.Inv.engineStep {s t : State} (h : s.Inv) (hb : s.status.busy = true) (ht : engineStep s = .next t) :
    t.Inv := by
  unfold Machine.engineStep at ht
  split at ht
  · cases ht
    exact h.reject hb (by decide)
  · next i _ =>
    rcases exec_shape i s with ⟨c, hc, hex⟩ | ⟨e, hh, hfits, hkeeps, hex⟩ <;> rw [hex] at ht <;> cases ht
    · exact h.reject hb hc
    · have hstatus : (s.perform i.hid e).StatusOk := h.status
      exact ⟨h.params.perform, h.handles.perform hkeeps, h.pool.perform hh hkeeps, h.memory.perform hfits,
        hstatus.complete hb, State.watchOk_of_idle rfl⟩

/-! The accesses of the host. -/

theorem State.Inv.withHostValue {s : State} (h : s.Inv) (v : Nat) : State.Inv { s with hostValue := v } :=
  h.of_same_slots rfl rfl h.memory h.status h.watch

/-- A read of STATUS ends watches only while no command is in progress (R300). -/
theorem State.Inv.observeStatus {s : State} (h : s.Inv) (r : Reg) : (s.observeStatus r).Inv := by
  unfold State.observeStatus
  split
  · next hr => exact h.of_same_slots rfl rfl h.memory h.status (State.watchOk_of_idle hr.2)
  · exact h

/-- A rise of `irq` ends a watch only while no command is in progress (R300). -/
theorem State.Inv.observeIrq {s : State} (h : s.Inv) (before : State) : (before.observeIrq s).Inv := by
  refine h.of_same_slots rfl rfl h.memory h.status fun hb => ?_
  have hirq : s.irqForEnd = false := by
    have hbusy : s.status.busy = true := hb
    simp [State.irqForEnd, hbusy]
  rw [State.observeIrq_last, hirq, Bool.and_false]
  exact h.watch hb

theorem State.Inv.withCtrl {s : State} (h : s.Inv) (c : Ctrl) : State.Inv { s with ctrl := c } :=
  h.of_same_slots rfl rfl h.memory h.status h.watch

theorem State.Inv.withArgs {s : State} (h : s.Inv) (a : ArgFile) : State.Inv { s with args := a } :=
  h.of_same_slots rfl rfl h.memory h.status h.watch

/-- Clearing ERR clears ERRCODE with it (R246). -/
theorem State.StatusOk.acknowledge {s : State} (h : s.StatusOk) (v : Word) : (s.acknowledge v).StatusOk := by
  obtain ⟨hbusy, hcode, hdone⟩ := h
  simp only [State.StatusOk, State.acknowledge_status, Status.writeOneToClear]
  refine ⟨fun hb => by simp [hbusy hb], ?_, fun herr => ?_⟩
  · cases v.getLsbD 2 <;> simp [hcode]
  · have herr' : s.status.err = true := (Bool.and_eq_true_iff.mp herr).1
    simp [hdone herr']

theorem State.Inv.acknowledge {s : State} (h : s.Inv) (v : Word) : (s.acknowledge v).Inv :=
  h.of_same_slots rfl rfl h.memory (h.status.acknowledge v) h.watch

/-- An accepted command raises BUSY where ERR = 0, and is watched from then on (R241, R300). -/
theorem State.Inv.accept {s : State} (h : s.Inv) (herr : s.status.err = false) (w : Word) : (s.accept w).Inv := by
  obtain ⟨-, hcode, -⟩ := h.status
  exact h.of_same_slots rfl rfl h.memory ⟨fun _ => ⟨rfl, herr⟩, hcode, fun _ => rfl⟩ fun _ => rfl

theorem State.Inv.offerCommand {s : State} (h : s.Inv) (w : Word) : (s.offerCommand w).Inv := by
  unfold State.offerCommand
  split
  · exact h.of_same_slots rfl rfl h.memory h.status h.watch
  · next hfree =>
    obtain ⟨-, herr⟩ := Bool.or_eq_false_iff.mp (Bool.eq_false_of_not_eq_true hfree)
    exact h.accept herr w

/-- After a register reset only data memory is left to look at: every slot is FREE and no command is in progress (R290,
R291). -/
theorem State.Inv.of_resetRegisters {s t : State} (h : s.Inv) (hp : t.params = s.params)
    (hh : t.handles = s.resetRegisters.handles) (hs : t.status = s.resetRegisters.status) (hm : t.MemoryOk) : t.Inv where
  params := by
    have hn : t.numHandles = s.numHandles := by simp [State.numHandles, hh]
    simpa only [State.ParamsOk, hp, hn] using h.params
  handles k _ := by
    have hfree : t.slot k = .free := by
      simp only [State.slot, hh, State.resetRegisters_handles, List.getElem?_replicate]
      split <;> rfl
    rw [hfree]
    trivial
  pool := by simp [State.PoolOk, State.privUsed, hh, Handle.req]
  memory := hm
  status := by simp [State.StatusOk, hs]
  watch := State.watchOk_of_idle (by rw [hs]; rfl)

theorem abortedBytes_eq_nil {dmem : Nat} {r : ByteRange} (h : dmem ≤ r.base) (epoch : Nat) :
    abortedBytes epoch dmem r = [] := by
  simp [abortedBytes, Nat.sub_eq_zero_of_le h]

theorem length_abortedBytes_le (epoch dmem : Nat) (r : ByteRange) :
    (abortedBytes epoch dmem r).length ≤ dmem - r.base := by
  simp [abortedBytes]

/-- A soft reset makes bytes free only below DMEM_BYTES (R291). -/
theorem State.MemoryOk.memAfterAbort {s : State} (h : s.MemoryOk) :
    Memory.wf s.params.dmemBytes s.memAfterAbort = true := by
  unfold State.memAfterAbort
  split
  case isFalse => exact h
  split
  case h_2 => exact h
  next r _ =>
  rcases Nat.le_total s.params.dmemBytes r.base with hout | hin
  · rw [abortedBytes_eq_nil hout]
    exact h
  · have hlen := length_abortedBytes_le s.draws s.params.dmemBytes r
    exact Memory.wf_memStoreBytes h (by omega)

theorem State.Inv.softReset {s : State} (h : s.Inv) : s.softReset.Inv :=
  h.of_resetRegisters rfl rfl rfl h.memory.memAfterAbort

theorem State.Inv.hardReset {s : State} (h : s.Inv) : s.hardReset.Inv :=
  h.of_resetRegisters rfl rfl rfl rfl

theorem State.Inv.writeCtrl {s : State} (h : s.Inv) (v : Word) : (s.writeCtrl v).Inv := by
  unfold State.writeCtrl
  split
  · exact h.softReset
  · exact (h.withCtrl (Ctrl.ofWord v)).observeIrq s

/-- A write to CTRL, STATUS, CMD or an argument register keeps the invariant; any other is ignored (R34). -/
theorem State.Inv.writeReg {s : State} (h : s.Inv) (r : Reg) (v : Word) : (s.writeReg r v).Inv := by
  cases r
  case ctrl => exact h.writeCtrl v
  case status => exact h.acknowledge v
  case cmd => exact h.offerCommand v
  case arg k => exact h.withArgs (s.args.setIfInBounds k v)
  all_goals exact h

theorem State.Inv.memWrite {s : State} {a n : Nat} (h : s.Inv) (hin : a + n ≤ s.params.dmemBytes) (v : Nat) :
    (s.memWrite a n v).Inv :=
  h.of_same_slots rfl rfl (Memory.wf_memStoreBytes h.memory (by simpa using hin)) h.status h.watch

/-- Every access of the host that goes through keeps the invariant (R309). -/
theorem State.Inv.hostStep {access : HostAccess} {s t : State} (h : s.Inv) (ht : hostStep access s = .next t) :
    t.Inv := by
  cases access with
  | readReg o w =>
    simp only [Machine.hostStep] at ht
    split at ht <;> cases ht
    exact (h.observeStatus _).withHostValue _
  | writeReg o w v =>
    simp only [Machine.hostStep] at ht
    split at ht <;> cases ht
    exact h.writeReg _ v
  | readMem a n =>
    simp only [Machine.hostStep] at ht
    split at ht <;> cases ht
    exact h.withHostValue _
  | writeMem a n v =>
    simp only [Machine.hostStep] at ht
    split at ht <;> cases ht
    next hgo =>
    have hin : ¬s.params.dmemBytes < a + n := fun hout => memAccessFault_none.mp hgo (.inl hout)
    exact h.memWrite (Nat.le_of_not_lt hin) v
  | hwReset =>
    cases ht
    exact h.hardReset

/-- Taking the next access from the host's list changes nothing the invariant reads. -/
theorem State.Inv.takeAccess {s : State} (h : s.Inv) (rest : List HostAccess) (d : Nat) :
    State.Inv { s with host := rest, delay := d } :=
  h.of_same_slots rfl rfl h.memory h.status h.watch

/-- Settles O59, by the three kinds of step: the engine's, an idle one, and an access of the host. -/
theorem invariantKept : Obligations.InvariantKept := by
  intro s t h ht
  unfold step at ht
  split at ht
  case isTrue hturn =>
    have hbusy : s.status.busy = true := (Bool.and_eq_true_iff.mp hturn).1
    exact h.engineStep hbusy ht
  split at ht
  case h_1 =>
    cases ht
    exact h
  case h_2 access rest _ => exact (h.takeAccess rest (s.delay - 1)).hostStep ht

end Sys2Proof.Machine
end

section
/-! SUPPORT. What every command leaves alone: the statements over all commands, each from the two ends that a command can
have (`exec_next_cases`). -/

namespace Sys2Proof.Machine

/-- The two ends of a command: it is rejected, or one effect is performed and it completes (R12, R243). -/
theorem exec_next_cases {i : Instr} {s t : State} (ht : exec i s = .next t) :
    (∃ c, t = s.reject c) ∨
      ∃ e : Effect, i.hid < s.numHandles ∧ e.Fits i s ∧ e.Keeps i s ∧ t = (s.perform i.hid e).complete := by
  rcases exec_shape i s with ⟨c, -, hrej⟩ | ⟨e, hh, hfits, hkeeps, hperf⟩
  · rw [hrej] at ht
    cases ht
    exact .inl ⟨c, rfl⟩
  · rw [hperf] at ht
    cases ht
    exact .inr ⟨e, hh, hfits, hkeeps, rfl⟩

/-! The frame of a command. -/

theorem SameParams.refl (s : State) : SameParams s s := ⟨rfl, rfl⟩

theorem SameHostSide.reject (s : State) (c : ErrCode) : SameHostSide s (s.reject c) :=
  ⟨⟨rfl, rfl⟩, rfl, rfl, rfl, rfl, rfl, rfl⟩

theorem SameHostSide.complete_perform (s : State) (h : Nat) (e : Effect) :
    SameHostSide s (s.perform h e).complete :=
  ⟨⟨rfl, State.numHandles_perform s h e⟩, rfl, rfl, rfl, rfl, rfl, rfl⟩

theorem State.slot_complete_perform (s : State) {h : Nat} (hh : h < s.numHandles) (e : Effect) :
    (s.perform h e).complete.slot h = e.hd :=
  State.slot_setSlot_self s h e.hd hh

theorem SameOtherSlots.complete_perform (s : State) (h : Nat) (e : Effect) :
    SameOtherSlots s (s.perform h e).complete h :=
  fun _ hne => State.slot_setSlot_ne s e.hd hne

/-- An address outside a range lies below it or past its end (R65). -/
theorem ByteRange.contains_eq_false {r : ByteRange} {a : Nat} :
    r.contains a = false ↔ a < r.base ∨ r.base + r.size ≤ a := by
  simp only [ByteRange.contains, Bool.and_eq_false_iff, decide_eq_false_iff_not, Nat.not_le, Nat.not_lt]

/-- A performed command writes its write footprint only (R65). -/
theorem State.readByte_perform {i : Instr} {s : State} {e : Effect} (hfits : e.Fits i s) {a : Nat}
    (ha : ∀ r, (footprintOf i (s.slot i.hid) s.latch.arg).wf = some r → r.contains a = false) :
    (s.perform i.hid e).readByte a = s.readByte a := by
  have hstore : (s.perform i.hid e).readByte a = (s.storeF32s e.base e.words).readByte a := rfl
  rw [hstore]
  rcases hfits with hnone | ⟨hwf, -⟩
  · rw [hnone]
    rfl
  · exact State.readByte_storeF32s_outside s _ _ _ (ByteRange.contains_eq_false.mp (ha _ hwf))

/-- Settles O56: a rejection touches STATUS, ERR_CMD and the latch, and an effect its own slot, its write footprint, and
RESULT0 where the command is a query. -/
theorem commandFrame : Obligations.CommandFrame := by
  intro i s t ht
  rcases exec_next_cases ht with ⟨c, rfl⟩ | ⟨e, -, hfits, ⟨-, -, -, hresult⟩, rfl⟩
  · exact ⟨.reject s c, fun _ _ => rfl, fun _ => rfl, fun _ _ => rfl⟩
  · refine ⟨.complete_perform s i.hid e, .complete_perform s i.hid e, fun hquery => ?_,
      fun a ha => State.readByte_perform hfits ha⟩
    exact hresult.resolve_left (by simp [hquery])

/-! Kinds and configurations of slots. -/

/-- A slot in use has an index below NUM_HANDLES. -/
theorem State.lt_numHandles_of_slot {s : State} {h : Nat} (hused : s.slot h ≠ .free) : h < s.numHandles := by
  by_contra hge
  have hlen : s.handles.length ≤ h := Nat.le_of_not_lt hge
  exact hused (by simp [State.slot, hlen])

/-- The commands that may change a configuration are the creates, DESTROY and STFT_CHANNEL_CHANGE (R40). -/
theorem creates_or_eq_of_reconfigures {i : Instr} (hmoves : i.reconfigures = true) :
    i.creates = true ∨ i = .destroy i.hid ∨ i = .stftChannelChange i.hid := by
  cases i <;> cases hmoves <;> simp [Instr.creates, Instr.hid]

/-- A create command on a slot in use is rejected with HANDLE_IN_USE (R40). -/
theorem exec_handleInUse {i : Instr} {s : State} (hcreates : i.creates = true) (hused : s.slot i.hid ≠ .free) :
    exec i s = .next (s.reject .handleInUse) := by
  have hh := State.lt_numHandles_of_slot hused
  -- `hused` rules out the FREE arm of each command, the only one that is no rejection.
  cases i <;> cases hcreates <;> simp only [Instr.hid] at hh hused <;>
    simp only [exec, execRfftCreate, execCfftCreate, execStftCreate, execQmfCreate, execConvCreate,
      onSlot_of_lt _ hh]

/-- DESTROY of a slot in use leaves it FREE (R240). -/
theorem slot_of_destroy {s t : State} {h : Nat} (ht : exec (.destroy h) s = .next t) (hused : s.slot h ≠ .free) :
    t.slot h = .free := by
  have hh := State.lt_numHandles_of_slot hused
  simp only [exec, execDestroy, onSlot_of_lt _ hh] at ht
  cases ht
  exact State.slot_setSlot_self s h .free hh

/-- STFT_CHANNEL_CHANGE moves the channel counts of its slot at most (R166). -/
theorem slot_of_channelChange {s t : State} {h : Nat} {c : StftCfg} {st : StftState}
    (ht : exec (.stftChannelChange h) s = .next t) (hs : s.slot h = .stft c st) :
    t.slot h = s.slot h ∨ ∃ nIn nOut st', t.slot h = .stft { c with nIn := nIn, nOut := nOut } st' := by
  have hh : h < s.numHandles := State.lt_numHandles_of_slot (by simp [hs])
  simp only [exec, execStftChannelChange, onSlot_of_lt _ hh, hs] at ht
  rcases finish_cases s _ _ with ⟨code, -, hrej⟩ | ⟨-, hdone⟩
  · rw [hrej] at ht
    cases ht
    exact .inl rfl
  · rw [hdone] at ht
    cases ht
    exact .inr ⟨_, _, _, State.slot_setSlot_self s h _ hh⟩

/-- No other command changes the configuration of a slot (R40, R221). -/
theorem exec_sameConfig {i : Instr} {s t : State} (ht : exec i s = .next t) (hstays : i.reconfigures = false) (h : Nat) :
    (s.slot h).sameConfig (t.slot h) := by
  rcases exec_next_cases ht with ⟨c, rfl⟩ | ⟨e, hh, -, ⟨-, -, hconfig, -⟩, rfl⟩
  · exact Handle.sameConfig_refl _
  · by_cases hown : h = i.hid
    · subst hown
      rw [State.slot_complete_perform s hh]
      exact hconfig.resolve_left (by simp [hstays])
    · rw [SameOtherSlots.complete_perform s i.hid e h hown]
      exact Handle.sameConfig_refl _

/-- The hop and the window of an STFT handle stay as they were created (R161). -/
theorem exec_keeps_window {i : Instr} {s t : State} {h : Nat} {c d : StftCfg} {st st' : StftState}
    (ht : exec i s = .next t) (hs : s.slot h = .stft c st) (hd : t.slot h = .stft d st') :
    d.win = c.win ∧ d.hop = c.hop := by
  have of_same (hsame : t.slot h = s.slot h) : d.win = c.win ∧ d.hop = c.hop := by
    rw [hs, hd] at hsame
    cases hsame
    exact ⟨rfl, rfl⟩
  by_cases hown : h = i.hid
  case neg =>
    obtain ⟨-, hother, -⟩ := commandFrame i s t ht
    exact of_same (hother h hown)
  subst hown
  have hused : s.slot i.hid ≠ .free := by simp [hs]
  cases hmoves : i.reconfigures
  case false =>
    have hsame := exec_sameConfig ht hmoves i.hid
    rw [hs, hd] at hsame
    cases hsame
    exact ⟨rfl, rfl⟩
  rcases creates_or_eq_of_reconfigures hmoves with hcreates | hdestroy | hchange
  · rw [exec_handleInUse hcreates hused] at ht
    cases ht
    exact of_same rfl
  · rw [hdestroy] at ht
    have hfree := slot_of_destroy ht hused
    rw [hd] at hfree
    cases hfree
  · rw [hchange] at ht
    rcases slot_of_channelChange ht hs with hsame | ⟨nIn, nOut, st'', hnew⟩
    · exact of_same hsame
    · rw [hd] at hnew
      cases hnew
      exact ⟨rfl, rfl⟩

/-- Settles O57, from the effect of a command that leaves configurations alone, and the three kinds that do not. -/
theorem configurationIsImmutable : Obligations.ConfigurationIsImmutable :=
  fun _ _ _ ht => ⟨exec_sameConfig ht, fun _ _ _ _ _ hs hd => exec_keeps_window ht hs hd⟩

/-! The queries of a QMF handle. -/

/-- A rejection changes nothing but STATUS and ERR_CMD (R264). -/
theorem Rejects.of_exec {i : Instr} {s : State} {c : ErrCode} (h : exec i s = .next (s.reject c)) : Rejects i s c :=
  ⟨s.reject c, h, ⟨rfl, rfl⟩, .reject s c, rfl, fun _ => rfl, fun _ => rfl⟩

/-- A command that sets RESULT0 and completes (R27). -/
theorem ResultSet.of_result0 (s : State) (w : Word) : ResultSet s (State.complete { s with result0 := w }) :=
  ⟨⟨rfl, rfl⟩, ⟨⟨rfl, rfl⟩, rfl, rfl, rfl, rfl, rfl, rfl⟩, fun _ => rfl, fun _ => rfl⟩

section Queries

variable {h : Nat} {s : State}

theorem exec_query_wrongHandle (hh : h < s.numHandles) (hkind : ∀ cfg st, s.slot h ≠ .qmf cfg st) :
    exec (.qmfGetDelay h) s = .next (s.reject .wrongHandle) ∧
      exec (.qmfGetNbands h) s = .next (s.reject .wrongHandle) := by
  -- `hkind` rules out the QMF arm of both.
  simp only [exec, execQmfGetDelay, execQmfGetNbands, onSlot_of_lt _ hh, and_self]

variable {cfg : QmfCfg} {st : QmfState} (hs : s.slot h = .qmf cfg st)
include hs

theorem exec_qmfGetDelay : exec (.qmfGetDelay h) s =
    .next (State.complete { s with result0 := queryWord cfg 0 (qmfDelay cfg.hop cfg.hyb) }) := by
  have hh : h < s.numHandles := State.lt_numHandles_of_slot (by simp [hs])
  simp only [exec, execQmfGetDelay, onSlot_of_lt _ hh, hs]
  rfl

theorem exec_qmfGetNbands : exec (.qmfGetNbands h) s =
    .next (State.complete { s with result0 := queryWord cfg 1 (qmfNBands cfg.hop cfg.hyb) }) := by
  have hh : h < s.numHandles := State.lt_numHandles_of_slot (by simp [hs])
  simp only [exec, execQmfGetNbands, onSlot_of_lt _ hh, hs]
  rfl

end Queries

/-- A value that fits in 32 bits is the value of RESULT0 (R27). -/
theorem queryWord_toNat {v : Nat} (hv : v < 2 ^ 32) (cfg : QmfCfg) (query : Nat) :
    (queryWord cfg query v).toNat = v := by
  rw [queryWord, if_pos hv, BitVec.toNat_ofNat, Nat.mod_eq_of_lt hv]

/-- What a query answers depends on the hop and the mode only (R192, R193). -/
theorem queryWord_congr {cfg cfg' : QmfCfg} (hhop : cfg.hop = cfg'.hop) (hhyb : cfg.hyb = cfg'.hyb) (query v : Nat) :
    queryWord cfg query v = queryWord cfg' query v := by
  rw [queryWord, queryWord, hhop, hhyb]

/-- Settles O50, from what the two queries answer on a QMF slot and on any other. -/
theorem qmfQueries : Obligations.QmfQueries := by
  refine ⟨fun h s hh => ⟨fun hkind => ?_, fun cfg st hs => ?_⟩,
    fun h h' s s' cfg cfg' st st' _ _ hs hs' hhop hhyb => ?_⟩
  · obtain ⟨hdelay, hbands⟩ := exec_query_wrongHandle hh hkind
    exact ⟨.of_exec hdelay, .of_exec hbands⟩
  · exact ⟨⟨_, exec_qmfGetDelay hs, .of_result0 s _, fun hv => queryWord_toNat hv cfg 0⟩,
      ⟨_, exec_qmfGetNbands hs, .of_result0 s _, fun hv => queryWord_toNat hv cfg 1⟩⟩
  · refine ⟨⟨_, _, exec_qmfGetDelay hs, exec_qmfGetDelay hs', ?_⟩,
      ⟨_, _, exec_qmfGetNbands hs, exec_qmfGetNbands hs', ?_⟩⟩
    all_goals simp only [State.complete_result0, queryWord_congr hhop hhyb, hhop, hhyb]

/-! PRIV_FREE under commands. -/

/-- A command that leaves configurations alone leaves the pool alone (R31, R41). -/
theorem exec_privFree {i : Instr} {s t : State} (ht : exec i s = .next t) (hstays : i.reconfigures = false) :
    t.privFree = s.privFree := by
  rcases exec_next_cases ht with ⟨c, rfl⟩ | ⟨e, hh, -, ⟨-, -, hconfig, -⟩, rfl⟩
  · rfl
  · have hreq := Handle.req_of_sameConfig (hconfig.resolve_left (by simp [hstays]))
    have hset := State.privUsed_setSlot s i.hid e.hd hh
    have hused : (s.setSlot i.hid e.hd).privUsed = s.privUsed := by omega
    exact congrArg (s.params.privWords - ·) hused

/-- A rejection leaves the pool alone: a completion would leave ERR as it was (R31, R243, R264). -/
theorem privFree_of_rejectedFrom {i : Instr} {s t : State} {c : ErrCode} (ht : exec i s = .next t)
    (herr : s.status.err = false) (hrej : RejectedFrom s t c) : t.privFree = s.privFree := by
  rcases exec_next_cases ht with ⟨c, rfl⟩ | ⟨e, -, -, -, rfl⟩
  · rfl
  · obtain ⟨hstatus, -⟩ := hrej
    have : s.status.err = true := congrArg Status.err hstatus
    simp [this] at herr

end Sys2Proof.Machine
end

section
/-! SUPPORT. What an access of the host does to the registers: which writes are ignored (spec/10_state.md R34), what a
read returns, and that the parameters and, but for a reset, PRIV_FREE keep their values. -/

namespace Sys2Proof.Machine

/-! Offsets of registers. -/

theorem eq_of_regAt_ctrl {o : Nat} (h : regAt o = .ctrl) : o = 0x004 := by
  unfold regAt at h
  split at h
  case h_2 => rfl
  case h_12 => split at h <;> cases h
  all_goals cases h

theorem regAt_arg {o : Nat} (hlow : 0x040 ≤ o) (hhigh : o < 0x060) : regAt o = .arg ((o - 0x040) / 4) := by
  unfold regAt
  split
  case h_12 => exact if_pos ⟨hlow, hhigh⟩
  all_goals omega

/-- The offsets of no register (R34). -/
theorem regAt_reserved {o : Nat} (haligned : o % 4 = 0) (h : (0x028 < o ∧ o < 0x040) ∨ 0x060 ≤ o) :
    regAt o = .reserved := by
  have hnoarg : ¬(0x040 ≤ o ∧ o < 0x060) := by omega
  unfold regAt
  split
  case h_12 => exact if_neg hnoarg
  all_goals omega

/-- The registers that ignore a write: the read-only ones, and the offsets of none (R34). -/
def Reg.readOnly : Reg → Bool
  | .ctrl | .status | .cmd | .arg _ => false
  | _ => true

theorem State.writeReg_readOnly {r : Reg} (h : r.readOnly = true) (s : State) (v : Word) : s.writeReg r v = s := by
  cases r <;> cases h <;> rfl

theorem regAt_readOnly {o : Nat} (haligned : o % 4 = 0)
    (h : o = 0x000 ∨ (0x010 ≤ o ∧ o < 0x040) ∨ (0x060 ≤ o ∧ o < 0x100)) : (regAt o).readOnly = true := by
  by_cases hreserved : (0x028 < o ∧ o < 0x040) ∨ 0x060 ≤ o
  · rw [regAt_reserved haligned hreserved]
    rfl
  · have hregisters : ∀ k < 0x02C, k % 4 = 0 → k = 0x000 ∨ 0x010 ≤ k → (regAt k).readOnly = true := by decide
    exact hregisters o (by omega) haligned (by omega)

/-! What an access does. -/

section WriteReg

variable (s : State) (r : Reg) (v : Word)

@[simp] theorem State.writeReg_params : (s.writeReg r v).params = s.params := by
  cases r
  case ctrl =>
    simp only [State.writeReg, State.writeCtrl]
    split <;> rfl
  case cmd =>
    simp only [State.writeReg, State.offerCommand]
    split <;> rfl
  all_goals rfl

/-- Only a soft reset writes the handle table (R291). -/
theorem State.writeReg_handles (hreset : r = .ctrl → v.getLsbD 31 = false) :
    (s.writeReg r v).handles = s.handles := by
  cases r
  case ctrl =>
    have hv := hreset rfl
    simp only [State.writeReg, State.writeCtrl, hv, Bool.false_eq_true, if_false, State.observeIrq_handles]
  case cmd =>
    simp only [State.writeReg, State.offerCommand]
    split <;> rfl
  all_goals rfl

@[simp] theorem State.numHandles_writeReg : (s.writeReg r v).numHandles = s.numHandles := by
  by_cases hreset : r = .ctrl → v.getLsbD 31 = false
  · exact congrArg List.length (State.writeReg_handles s r v hreset)
  · simp only [Classical.not_imp, Bool.not_eq_false] at hreset
    obtain ⟨rfl, hv⟩ := hreset
    simp [State.writeReg, State.writeCtrl, hv]

end WriteReg

/-- A soft reset, as an access of the host (R291). -/
theorem hostStep_softReset {v : Word} (hv : v.getLsbD 31 = true) (s : State) :
    hostStep (wr 0x004 v) s = .next s.softReset := by
  have : s.writeCtrl v = s.softReset := if_pos hv
  exact congrArg Host.Outcome.next this

/-- An access of the host that goes through is a read, a write to a register or to data memory, or the hardware reset. -/
theorem hostStep_next_cases {access : HostAccess} {s t : State} (ht : hostStep access s = .next t) :
    t = { s with hostValue := t.hostValue, last := t.last, older := t.older } ∨
      (∃ o v, access = wr o v ∧ t = s.writeReg (regAt o) v) ∨ (∃ a n v, t = s.memWrite a n v) ∨
        (access = .hwReset ∧ t = s.hardReset) := by
  cases access with
  | readReg o w =>
    simp only [hostStep] at ht
    split at ht <;> cases ht
    unfold State.observeStatus
    split <;> exact .inl rfl
  | writeReg o w v =>
    simp only [hostStep] at ht
    split at ht <;> cases ht
    next hgo =>
    have hw : w = 4 := by
      have := regAccessRefusal_none.mp hgo
      omega
    exact .inr (.inl ⟨o, v, by rw [hw, wr], rfl⟩)
  | readMem a n =>
    simp only [hostStep] at ht
    split at ht <;> cases ht
    exact .inl rfl
  | writeMem a n v =>
    simp only [hostStep] at ht
    split at ht <;> cases ht
    exact .inr (.inr (.inl ⟨a, n, v, rfl⟩))
  | hwReset =>
    cases ht
    exact .inr (.inr (.inr ⟨rfl, rfl⟩))

/-! Parameters. -/

theorem SameParams.hostStep {access : HostAccess} {s t : State} (ht : hostStep access s = .next t) : SameParams s t := by
  rcases hostStep_next_cases ht with hread | ⟨o, v, -, rfl⟩ | ⟨a, n, v, rfl⟩ | ⟨-, rfl⟩
  · rw [hread]
    exact ⟨rfl, rfl⟩
  · exact ⟨State.writeReg_params s _ v, State.numHandles_writeReg s _ v⟩
  · exact ⟨rfl, rfl⟩
  · exact ⟨rfl, State.numHandles_hardReset s⟩

theorem SameParams.engineStep {s t : State} (ht : engineStep s = .next t) : SameParams s t := by
  unfold Machine.engineStep at ht
  split at ht
  · cases ht
    exact ⟨rfl, rfl⟩
  · next i _ =>
    obtain ⟨⟨hparams, -⟩, -⟩ := commandFrame i s t ht
    exact hparams

theorem SameParams.step {s t : State} (ht : step s = .next t) : SameParams s t := by
  unfold Machine.step at ht
  split at ht
  case isTrue => exact .engineStep ht
  split at ht
  case h_1 =>
    cases ht
    exact .refl s
  case h_2 =>
    obtain ⟨hparams, hslots⟩ := SameParams.hostStep ht
    exact ⟨hparams, hslots⟩

/-- Settles O21: the engine's step, an idle one and an access of the host keep the parameters, which is all that the four
registers read. -/
theorem parametersNeverChange : Obligations.ParametersNeverChange := by
  intro s t ht
  obtain ⟨hparams, hslots⟩ := SameParams.step ht
  refine ⟨⟨hparams, hslots⟩, ?_⟩
  rw [← hparams, ← hslots]
  exact ⟨rfl, rfl, rfl, rfl⟩

/-! PRIV_FREE. -/

theorem State.privFree_congr {s t : State} (hp : t.params = s.params) (hh : t.handles = s.handles) :
    t.privFree = s.privFree := by
  rw [State.privFree, State.privFree, State.privUsed, State.privUsed, hp, hh]

/-- With every slot FREE the whole pool is (R31). -/
theorem State.privFree_of_free {s t : State} (hp : t.params = s.params) {n : Nat}
    (hh : t.handles = List.replicate n .free) : t.privFree = s.params.privWords := by
  simp [State.privFree, State.privUsed, hp, hh, Handle.req]

theorem hostStep_privFree {access : HostAccess} {s t : State} (ht : hostStep access s = .next t)
    (hhard : access ≠ .hwReset) (hsoft : ∀ v, access = wr 0x004 v → v.getLsbD 31 = false) : t.privFree = s.privFree := by
  rcases hostStep_next_cases ht with hread | ⟨o, v, haccess, rfl⟩ | ⟨a, n, v, rfl⟩ | ⟨hreset, -⟩
  · rw [hread]
    rfl
  · refine State.privFree_congr (State.writeReg_params s _ v) (State.writeReg_handles s _ v fun hctrl => ?_)
    rw [eq_of_regAt_ctrl hctrl] at haccess
    exact hsoft v haccess
  · rfl
  · exact absurd hreset hhard

/-- Settles O58: the pool's words change with the handle table, which only the commands that reconfigure and the
resets write. -/
theorem privFreeChanges : Obligations.PrivFreeChanges :=
  ⟨fun _ _ _ => exec_privFree, fun _ _ _ _ => privFree_of_rejectedFrom, fun _ _ _ => hostStep_privFree, fun s _ hv =>
    ⟨⟨_, hostStep_softReset hv s, State.privFree_of_free rfl (State.softReset_handles s)⟩,
      ⟨_, rfl, State.privFree_of_free rfl (State.hardReset_handles s)⟩⟩⟩

/-! The words of STATUS and CTRL. -/

theorem ErrCode.toNat_lt (c : ErrCode) : c.toNat < 2 ^ 8 := by cases c <;> decide

theorem Status.word_toNat (st : Status) : st.word.toNat =
    st.busy.toNat + 2 * st.done.toNat + 4 * st.err.toNat + 8 * st.ign.toNat + 256 * st.errCode.toNat := by
  have hcode := st.errCode.toNat_lt
  have hbusy := st.busy.toNat_le
  have hdone := st.done.toNat_le
  have herr := st.err.toNat_le
  have hign := st.ign.toNat_le
  rw [Status.word, BitVec.toNat_ofNat, Nat.mod_eq_of_lt (by omega)]

theorem Ctrl.word_toNat (c : Ctrl) : c.word.toNat = c.ieDone.toNat + 2 * c.ieErr.toNat := by
  have hdone := c.ieDone.toNat_le
  have herr := c.ieErr.toNat_le
  rw [Ctrl.word, BitVec.toNat_ofNat, Nat.mod_eq_of_lt (by omega)]

/-- A bit of a word, as a digit of its value. -/
theorem getLsbD_eq_of_digit {w : Word} {k : Nat} {b : Bool} (h : w.toNat / 2 ^ k % 2 = b.toNat) : w.getLsbD k = b := by
  rw [BitVec.getLsbD, Nat.testBit_eq_decide_div_mod_eq, h]
  cases b <;> rfl

/-- The bits of STATUS and CTRL that make the interrupt (R23, R24). -/
theorem Status.getLsbD_word (st : Status) :
    st.word.getLsbD 1 = st.done ∧ st.word.getLsbD 2 = st.err ∧ st.word.getLsbD 3 = st.ign := by
  have hbusy := st.busy.toNat_le
  have hdone := st.done.toNat_le
  have herr := st.err.toNat_le
  have hign := st.ign.toNat_le
  refine ⟨getLsbD_eq_of_digit ?_, getLsbD_eq_of_digit ?_, getLsbD_eq_of_digit ?_⟩ <;> rw [Status.word_toNat] <;> omega

theorem Ctrl.getLsbD_word (c : Ctrl) : c.word.getLsbD 0 = c.ieDone ∧ c.word.getLsbD 1 = c.ieErr := by
  have hdone := c.ieDone.toNat_le
  have herr := c.ieErr.toNat_le
  refine ⟨getLsbD_eq_of_digit ?_, getLsbD_eq_of_digit ?_⟩ <;> rw [Ctrl.word_toNat] <;> omega

/-- Settles O22, from the bits of the two words. -/
theorem irqLevel : Obligations.IrqLevel := by
  refine ⟨fun s => ?_, rfl⟩
  obtain ⟨hdone, herr, hign⟩ := s.status.getLsbD_word
  obtain ⟨hieDone, hieErr⟩ := s.ctrl.getLsbD_word
  rw [hdone, herr, hign, hieDone, hieErr, State.irq]

/-! Reads. -/

theorem hostStep_misaligned {o w : Nat} (h : w ≠ 4 ∨ o % 4 ≠ 0) (s : State) (v : Word) :
    hostStep (.readReg o w) s = .refused .registerAccessNotAlignedWord ∧
      hostStep (.writeReg o w v) s = .refused .registerAccessNotAlignedWord := by
  have : regAccessRefusal o w = some .registerAccessNotAlignedWord := if_pos h
  simp only [hostStep, this, and_self]

section Aligned

variable {o : Nat} (haligned : o % 4 = 0) (hspace : o < 0x100)
include haligned hspace

theorem regAccessRefusal_aligned : regAccessRefusal o 4 = none := regAccessRefusal_none.mpr (by omega)

theorem hostStep_wr (s : State) (v : Word) : hostStep (wr o v) s = .next (s.writeReg (regAt o) v) := by
  simp only [wr, hostStep, regAccessRefusal_aligned haligned hspace]

/-- A read has no side effect but that of STATUS on what is watched (R74, R247). -/
theorem hostStep_rd (s : State) : ∃ t, hostStep (rd o) s = .next t ∧
    t = { s with hostValue := t.hostValue, last := t.last, older := t.older } ∧
      t.hostValue = (s.readReg (regAt o)).toNat := by
  have hgo : hostStep (rd o) s =
      .next { s.observeStatus (regAt o) with hostValue := (s.readReg (regAt o)).toNat } := by
    simp only [rd, hostStep, regAccessRefusal_aligned haligned hspace]
  refine ⟨_, hgo, ?_, rfl⟩
  unfold State.observeStatus
  split <;> rfl

end Aligned

/-- Settles O20: the register at an offset, and the value of each register. -/
theorem registerAccess : Obligations.RegisterAccess := by
  refine ⟨fun s o w v h => hostStep_misaligned h s v, fun s o v haligned h => ?_, fun s o haligned hspace => ?_⟩
  · rw [hostStep_wr haligned (by omega), State.writeReg_readOnly (regAt_readOnly haligned h)]
  · obtain ⟨t, ht, hsame, hvalue⟩ := hostStep_rd haligned hspace s
    refine ⟨t, ht, hsame, hvalue.trans ?_⟩
    by_cases hregister : o < 0x02C
    · have hoffsets : ∀ k < 0x02C, k % 4 = 0 → k = 0x000 ∨ k = 0x004 ∨ k = 0x008 ∨ k = 0x00C ∨ k = 0x010 ∨ k = 0x014 ∨
          k = 0x018 ∨ k = 0x01C ∨ k = 0x020 ∨ k = 0x024 ∨ k = 0x028 := by decide
      rcases hoffsets o hregister haligned with
        rfl | rfl | rfl | rfl | rfl | rfl | rfl | rfl | rfl | rfl | rfl
      · rfl
      · exact s.ctrl.word_toNat
      · exact s.status.word_toNat
      · rfl
      · rfl
      · rfl
      · exact BitVec.toNat_ofNat _ _
      · exact BitVec.toNat_ofNat _ _
      · exact BitVec.toNat_ofNat _ _
      · exact BitVec.toNat_ofNat _ _
      · exact BitVec.toNat_ofNat _ _
    · rw [if_neg (by omega), if_neg (by omega), if_neg (by omega), if_neg (by omega), if_neg (by omega),
        if_neg (by omega), if_neg (by omega), if_neg (by omega), if_neg (by omega), if_neg (by omega)]
      by_cases harg : 0x040 ≤ o ∧ o < 0x060
      · rw [if_pos harg, regAt_arg harg.1 harg.2]
        rfl
      · rw [if_neg harg, regAt_reserved haligned (by omega)]
        rfl

end Sys2Proof.Machine
end

section
/-! SUPPORT. A command in progress ends within one step more than the accesses of the host that may go first
(spec/70_reset_and_hazards.md R305, R308). -/

namespace Sys2Proof.Machine

/-! Whose turn it is. -/

/-- The engine's step ends the command: rejected or completed, BUSY falls (R243, R264). -/
theorem engineStep_ends (s : State) : ∃ t, engineStep s = .next t ∧ t.status.busy = false := by
  unfold engineStep
  split
  · exact ⟨_, rfl, rfl⟩
  · next i _ =>
    rcases exec_shape i s with ⟨c, -, hrej⟩ | ⟨e, -, -, -, hperf⟩
    · exact ⟨_, hrej, rfl⟩
    · exact ⟨_, hperf, rfl⟩

/-- With no access before it, the engine moves and ends the command (R305, R308). -/
theorem step_ends_of_engineTurn {s : State} (hbusy : s.status.busy = true) (hturn : s.host = [] ∨ s.delay = 0) :
    ∃ t, step s = .next t ∧ t.status.busy = false := by
  have hengine : s.engineTurn = true := by simpa [State.engineTurn, hbusy] using hturn
  have hstep : step s = engineStep s := if_pos hengine
  rw [hstep]
  exact engineStep_ends s

section HostTurn

variable {s : State} {access : HostAccess} {rest : List HostAccess} (hhost : s.host = access :: rest)
  (hdelay : s.delay ≠ 0)
include hhost hdelay

/-- While accesses of the host go first, a step is the next of them (R305). -/
theorem step_eq_hostStep : step s = hostStep access { s with host := rest, delay := s.delay - 1 } := by
  have hengine : s.engineTurn = false := by simp [State.engineTurn, hhost, hdelay]
  simp only [step, hengine, Bool.false_eq_true, if_false, hhost]

/-- Such a step goes through exactly where its access is not forbidden (log entries 14 and 17). -/
theorem step_next_iff_of_host : (∃ t, step s = .next t) ↔ ¬ForbiddenAccess access s := by
  rw [step_eq_hostStep hhost hdelay, hostStep_next_iff]
  cases access <;> exact Iff.rfl

/-- It leaves a command in progress with one access fewer before it, or is the reset that ends it (R291). -/
theorem step_busy_of_host {t : State} (hbusy : s.status.busy = true) (ht : step s = .next t) :
    t.status.busy = false ∨ (t.status.busy = true ∧ t.host = rest ∧ t.delay + 1 = s.delay) := by
  rw [step_eq_hostStep hhost hdelay] at ht
  rcases hostStep_busy (s := { s with host := rest, delay := s.delay - 1 }) hbusy ht with
    hidle | ⟨hbusy', hhost', hdelay'⟩
  · exact .inl hidle
  · refine .inr ⟨hbusy', hhost', ?_⟩
    rw [hdelay']
    exact Nat.sub_add_cancel (Nat.pos_of_ne_zero hdelay)

end HostTurn

/-! Runs. -/

/-- A command has ended, or the host's next access, which goes before the engine, is forbidden. -/
def State.EndedOrForbidden (t : State) : Prop :=
  t.status.busy = false ∨
    ∃ access rest, t.status.busy = true ∧ t.host = access :: rest ∧ t.delay ≠ 0 ∧ ForbiddenAccess access t

theorem run_succ_of_step {s s' : State} (hstep : step s = .next s') (k : Nat) :
    Host.Core.run Sys2Proof.core (k + 1) s = Host.Core.run Sys2Proof.core k s' := by
  have hcore : Sys2Proof.core.step s = .next s' := hstep
  simp only [Host.Core.run, hcore]

/-- A run that begins with the engine's turn ends the command in one step. -/
theorem run_one_of_engineTurn {s : State} (hbusy : s.status.busy = true) (hturn : s.host = [] ∨ s.delay = 0) :
    ∃ t, Host.Core.run Sys2Proof.core 1 s = .next t ∧ t.EndedOrForbidden := by
  obtain ⟨t, hstep, hidle⟩ := step_ends_of_engineTurn hbusy hturn
  exact ⟨t, run_succ_of_step hstep 0, .inl hidle⟩

/-- The bound, by induction on how many accesses of the host may go first (R308). -/
theorem run_reaches_end {n : Nat} {s : State} (hbusy : s.status.busy = true) (hn : min s.host.length s.delay ≤ n) :
    ∃ k t, k ≤ n + 1 ∧ Host.Core.run Sys2Proof.core k s = .next t ∧ t.EndedOrForbidden := by
  induction n generalizing s with
  | zero =>
    have hturn : s.host = [] ∨ s.delay = 0 := by
      rw [← List.length_eq_zero_iff]
      omega
    obtain ⟨t, hrun⟩ := run_one_of_engineTurn hbusy hturn
    exact ⟨1, t, by omega, hrun⟩
  | succ n ih =>
    by_cases hturn : s.host = [] ∨ s.delay = 0
    · obtain ⟨t, hrun⟩ := run_one_of_engineTurn hbusy hturn
      exact ⟨1, t, by omega, hrun⟩
    obtain ⟨hnonempty, hdelay⟩ := not_or.mp hturn
    obtain ⟨access, rest, hhost⟩ := List.exists_cons_of_ne_nil hnonempty
    by_cases hforbidden : ForbiddenAccess access s
    · exact ⟨0, s, by omega, rfl, .inr ⟨access, rest, hbusy, hhost, hdelay, hforbidden⟩⟩
    obtain ⟨s', hstep⟩ := (step_next_iff_of_host hhost hdelay).mpr hforbidden
    rcases step_busy_of_host hhost hdelay hbusy hstep with hidle | ⟨hbusy', hhost', hdelay'⟩
    · exact ⟨1, s', by omega, run_succ_of_step hstep 0, .inl hidle⟩
    · have hn' : min s'.host.length s'.delay ≤ n := by
        rw [hhost, List.length_cons] at hn
        rw [hhost']
        omega
      obtain ⟨k, t, hk, hrun, hend⟩ := ih hbusy' hn'
      exact ⟨k + 1, t, by omega, (run_succ_of_step hstep k).trans hrun, hend⟩

/-- Settles O11: the engine's turn ends the command, the host's turn brings it one access nearer, and a run is the
induction over both. -/
theorem commandEndsSoon : Obligations.CommandEndsSoon := by
  refine fun s hbusy => ⟨step_ends_of_engineTurn hbusy, fun access rest hhost hdelay => ⟨?_, fun hallowed => ?_⟩,
    run_reaches_end hbusy le_rfl⟩
  · rw [← not_iff_not, ← step_next_iff_of_host hhost hdelay, not_forall_not]
  · obtain ⟨t, ht⟩ := (step_next_iff_of_host hhost hdelay).mpr hallowed
    exact ⟨t, ht, step_busy_of_host hhost hdelay hbusy ht⟩

end Sys2Proof.Machine
end

section
/-! SUPPORT. What the three buffer tests make of a command that reads one range and writes another
(spec/20_memory.md R66 to R68, spec/60_exceptions.md R263). -/

namespace Sys2Proof.Machine

/-- The code that the buffer tests of two ranges report: the first that applies (R66 to R68, R263). -/
theorem firstError_bufferTests_between (dmem rBase rSize wBase wSize : Nat) :
    firstError (bufferTests dmem [rBase, wBase] (.between rBase rSize wBase wSize)) =
      if rBase % 4 ≠ 0 ∨ wBase % 4 ≠ 0 then some .misaligned
      else if dmem < rBase + rSize ∨ dmem < wBase + wSize then some .outOfRange
      else if wBase < rBase + rSize ∧ rBase < wBase + wSize then some .overlap
      else none := by
  have hrange : (!(Footprint.between rBase rSize wBase wSize).inRange dmem) = true ↔
      dmem < rBase + rSize ∨ dmem < wBase + wSize := by
    simp [Footprint.between, Footprint.inRange, ByteRange.inRange, or_iff_not_imp_left]
  have hoverlap : (!(Footprint.between rBase rSize wBase wSize).disjoint) = true ↔
      wBase < rBase + rSize ∧ rBase < wBase + wSize := by
    simp [Footprint.between, Footprint.disjoint, ByteRange.disjoint]
  simp only [bufferTests, firstError, hrange, hoverlap, List.any_cons, List.any_nil, Bool.or_false, Bool.or_eq_true,
    bne_iff_ne]

/-- A command whose tests are those of its two buffers ends as they say; what it performs has to leave STATUS and
ERR_CMD to the completion (R243, R263). -/
theorem BufferOutcome.of_finish {i : Instr} {s p : State} {rBase rSize wBase wSize : Nat}
    (hexec : exec i s =
      finish s (bufferTests s.params.dmemBytes [rBase, wBase] (.between rBase rSize wBase wSize)) p)
    (hstatus : p.status = s.status) (herrCmd : p.errCmd = s.errCmd) : BufferOutcome i s rBase rSize wBase wSize := by
  have hfirst := firstError_bufferTests_between s.params.dmemBytes rBase rSize wBase wSize
  unfold BufferOutcome
  split_ifs at hfirst ⊢
  · exact .of_exec (hexec.trans (finish_of_some p hfirst))
  · exact .of_exec (hexec.trans (finish_of_some p hfirst))
  · exact .of_exec (hexec.trans (finish_of_some p hfirst))
  · exact ⟨p.complete, hexec.trans (finish_of_none p hfirst), by simp [CompletedFrom, hstatus, herrCmd]⟩

/-! The five commands on a slot of their kind: the tests they make, and the state they leave before completion. -/

section BlockCommands

variable {h n : Nat} {s : State}

theorem exec_rfftForward (hs : s.slot h = .rfft n) : exec (.rfftForward h) s =
    finish s (bufferTests s.params.dmemBytes [s.arg 0, s.arg 1]
        (.between (s.arg 0) (4 * n) (s.arg 1) (8 * realBins n)))
      (s.storeCs (s.arg 1) (rfft s.draws fftSite n (s.loadF32s (s.arg 0) n))) := by
  have hh : h < s.numHandles := State.lt_numHandles_of_slot (by simp [hs])
  simp only [exec, execRfftForward, onSlot_of_lt _ hh, hs]
  rfl

theorem exec_rfftBackward (hs : s.slot h = .rfft n) : exec (.rfftBackward h) s =
    finish s (bufferTests s.params.dmemBytes [s.arg 0, s.arg 1]
        (.between (s.arg 0) (8 * realBins n) (s.arg 1) (4 * n)))
      (s.storeF32s (s.arg 1) (irfft s.draws fftSite n (s.loadCs (s.arg 0) (realBins n)))) := by
  have hh : h < s.numHandles := State.lt_numHandles_of_slot (by simp [hs])
  simp only [exec, execRfftBackward, onSlot_of_lt _ hh, hs]
  rfl

theorem exec_cfftForward (hs : s.slot h = .cfft n) : exec (.cfftForward h) s =
    finish s (bufferTests s.params.dmemBytes [s.arg 0, s.arg 1] (.between (s.arg 0) (8 * n) (s.arg 1) (8 * n)))
      (s.storeCs (s.arg 1) (cfft s.draws fftSite n (s.loadCs (s.arg 0) n))) := by
  have hh : h < s.numHandles := State.lt_numHandles_of_slot (by simp [hs])
  simp only [exec, execCfftForward, onSlot_of_lt _ hh, hs]
  rfl

theorem exec_cfftBackward (hs : s.slot h = .cfft n) : exec (.cfftBackward h) s =
    finish s (bufferTests s.params.dmemBytes [s.arg 0, s.arg 1] (.between (s.arg 0) (8 * n) (s.arg 1) (8 * n)))
      (s.storeCs (s.arg 1) (icfft s.draws fftSite n (s.loadCs (s.arg 0) n))) := by
  have hh : h < s.numHandles := State.lt_numHandles_of_slot (by simp [hs])
  simp only [exec, execCfftBackward, onSlot_of_lt _ hh, hs]
  rfl

theorem exec_convApply {c : ConvCfg} {st : ConvState} (hs : s.slot h = .conv c st) : exec (.convApply h) s =
    finish s (bufferTests s.params.dmemBytes [s.arg 0, s.arg 1]
        (.between (s.arg 0) (4 * c.nIn * c.block) (s.arg 1) (4 * c.nOut * c.block)))
      ((s.setSlot h (.conv c (convApplyState s c st))).storeF32s (s.arg 1) (convApplyBlock s c st)) := by
  have hh : h < s.numHandles := State.lt_numHandles_of_slot (by simp [hs])
  simp only [exec, execConvApply, onSlot_of_lt _ hh, hs]
  rfl

end BlockCommands

/-- Settles O31: on a slot of its kind each of the five commands makes the buffer tests of its two ranges, and no
other. -/
theorem blockBufferErrors : Obligations.BlockBufferErrors :=
  fun _ _ _ => ⟨fun _ hs => ⟨.of_finish (exec_rfftForward hs) rfl rfl, .of_finish (exec_rfftBackward hs) rfl rfl⟩,
    fun _ hs => ⟨.of_finish (exec_cfftForward hs) rfl rfl, .of_finish (exec_cfftBackward hs) rfl rfl⟩,
    fun _ _ hs => .of_finish (exec_convApply hs) rfl rfl⟩

end Sys2Proof.Machine
end

section
/-! SUPPORT. The byte order of data memory (spec/20_memory.md R61). -/

namespace Sys2Proof.Machine

/-- A value is the sum of its bytes, each at its place (R61). -/
theorem valueOf_map_range (byte : Nat → Byte) (n : Nat) :
    valueOf ((List.range n).map byte) = ∑ j ∈ Finset.range n, (byte j).toNat * 2 ^ (8 * j) := by
  induction n generalizing byte with
  | zero => rfl
  | succ n ih =>
    rw [List.range_succ_eq_map, List.map_cons, List.map_map, valueOf, ih, Finset.sum_range_succ', Finset.mul_sum,
      add_comm]
    congr 1
    · refine Finset.sum_congr rfl fun j _ => ?_
      simp only [Function.comp_apply, Nat.succ_eq_add_one]
      ring
    · simp

/-- The low bytes of a number make up the number modulo their span. -/
theorem sum_bytes (v n : Nat) :
    ∑ j ∈ Finset.range n, v / 2 ^ (8 * j) % 2 ^ 8 * 2 ^ (8 * j) = v % 2 ^ (8 * n) := by
  induction n with
  | zero => simp [Nat.mod_one]
  | succ n ih => rw [Finset.sum_range_succ, ih, Nat.mul_succ, pow_add, Nat.mod_mul, mul_comm (_ % 2 ^ 8)]

theorem State.memRead_eq_sum (s : State) (a n : Nat) :
    s.memRead a n = ∑ j ∈ Finset.range n, (s.readByte (a + j)).toNat * 2 ^ (8 * j) :=
  valueOf_map_range (fun j => s.readByte (a + j)) n

theorem State.toNat_readByte_memWrite (s : State) (a n v : Nat) {j : Nat} (hj : j < n) :
    ((s.memWrite a n v).readByte (a + j)).toNat = v / 2 ^ (8 * j) % 2 ^ 8 := by
  rw [State.readByte_memWrite s a n v j hj]
  exact byteOf_toNat v j

/-- A value reads back at the width it was written with, but for what that width cuts off (R61). -/
theorem State.memRead_memWrite (s : State) (a n v : Nat) : (s.memWrite a n v).memRead a n = v % 2 ^ (8 * n) := by
  rw [State.memRead_eq_sum, ← sum_bytes]
  refine Finset.sum_congr rfl fun j hj => ?_
  rw [State.toNat_readByte_memWrite s a n v (Finset.mem_range.mp hj)]

/-- Settles O23, from a read as the sum of its bytes, and the bytes a write leaves. -/
theorem littleEndian : Obligations.LittleEndian :=
  ⟨State.memRead_eq_sum, fun s a n v => ⟨fun _ hj => State.toNat_readByte_memWrite s a n v hj,
    State.readByte_memWrite_outside s a n v, State.memRead_memWrite s a n v⟩⟩

end Sys2Proof.Machine
end

section
/-! SUPPORT. Which footprints are watched (spec/20_memory.md R74, spec/70_reset_and_hazards.md R300), and the ranges of
every command (R65). -/

namespace Sys2Proof.Machine

/-! What starts and ends a watch. -/

section LatchedFootprint

variable {s : State}

theorem State.latchedFootprint_of_ok {i : Instr} (h : decode s.latch.cmd = .ok i) :
    s.latchedFootprint = footprintOf i (s.slot i.hid) s.latch.arg := by
  rw [State.latchedFootprint, h]

theorem State.latchedFootprint_of_error {e : DecodeError} (h : decode s.latch.cmd = .error e) :
    s.latchedFootprint = ⟨none, none⟩ := by
  rw [State.latchedFootprint, h, Footprint.empty]

end LatchedFootprint

theorem State.offerCommand_accepted {s : State} (hbusy : s.status.busy = false) (herr : s.status.err = false)
    (w : Word) : s.offerCommand w = s.accept w := if_neg (by simp [hbusy, herr])

/-- A read of STATUS with BUSY = 0 ends every watch, and one with BUSY = 1 none (R74). -/
theorem State.watched_observeStatus (s : State) :
    (s.observeStatus .status).watched = if s.status.busy = true then s.watched else [] := by
  cases hbusy : s.status.busy <;> simp [State.observeStatus, State.watched, hbusy]

theorem State.observeStatus_of_ne {r : Reg} (hr : r ≠ .status) (s : State) : s.observeStatus r = s :=
  if_neg fun h => hr h.1

/-- After `t`, the watches are those of `s`, but for the last command's where `irq` rose for its end (R300, log
entry 14). -/
def State.EndsWatchOnIrq (s t : State) : Prop :=
  t.older = s.older ∧ t.last = if s.irq = false ∧ t.irqForEnd = true then none else s.last

/-- What the interrupt output sees of `before` is all that counts of it. -/
theorem State.EndsWatchOnIrq.observeIrq {s before after : State} (hirq : before.irq = s.irq)
    (holder : after.older = s.older) (hlast : after.last = s.last) : s.EndsWatchOnIrq (before.observeIrq after) := by
  have hend : (before.observeIrq after).irqForEnd = after.irqForEnd := rfl
  refine ⟨holder, ?_⟩
  simp only [State.observeIrq_last, hirq, hend, hlast, Bool.and_eq_true, Bool.not_eq_true']

theorem State.EndsWatchOnIrq.reject (s : State) (c : ErrCode) : s.EndsWatchOnIrq (s.reject c) :=
  .observeIrq rfl rfl rfl

theorem State.EndsWatchOnIrq.complete_perform (s : State) (h : Nat) (e : Effect) :
    s.EndsWatchOnIrq (s.perform h e).complete :=
  .observeIrq rfl rfl rfl

/-- The engine step ends a watch only by the interrupt for the command's end (R300). -/
theorem State.EndsWatchOnIrq.engineStep {s t : State} (ht : engineStep s = .next t) : s.EndsWatchOnIrq t := by
  unfold Machine.engineStep at ht
  split at ht
  · cases ht
    exact .reject s _
  · rcases exec_next_cases ht with ⟨c, rfl⟩ | ⟨e, -, -, -, rfl⟩
    · exact .reject s c
    · exact .complete_perform s _ e

/-- A write of the enables ends a watch only by raising the interrupt (R245, R300). -/
theorem State.EndsWatchOnIrq.writeCtrl {v : Word} (hv : v.getLsbD 31 = false) (s : State) :
    s.EndsWatchOnIrq (s.writeCtrl v) := by
  have henables : s.writeCtrl v = s.observeIrq { s with ctrl := Ctrl.ofWord v } := if_neg (ne_true_of_eq_false hv)
  rw [henables]
  exact .observeIrq rfl rfl rfl

/-! The accesses that leave every watch alone. -/

theorem eq_of_regAt_status_or_cmd (o : Nat) :
    (regAt o = .status → o = 0x008) ∧ (regAt o = .cmd → o = 0x00C) := by
  unfold regAt
  split
  case h_12 => split <;> simp
  all_goals simp

theorem State.writeReg_watch {r : Reg} (hctrl : r ≠ .ctrl) (hcmd : r ≠ .cmd) (s : State) (v : Word) :
    (s.writeReg r v).last = s.last ∧ (s.writeReg r v).older = s.older := by
  cases r
  case ctrl => exact absurd rfl hctrl
  case cmd => exact absurd rfl hcmd
  all_goals exact ⟨rfl, rfl⟩

/-- A read of STATUS, a write to CTRL or CMD and the hardware reset are all the accesses that change a watch (R300). -/
theorem hostStep_watch {access : HostAccess} {s t : State} (ht : hostStep access s = .next t)
    (hstatus : access ≠ rd 0x008) (hctrl : ∀ v, access ≠ wr 0x004 v) (hcmd : ∀ v, access ≠ wr 0x00C v)
    (hreset : access ≠ .hwReset) : t.last = s.last ∧ t.older = s.older := by
  cases access with
  | readReg o w =>
    simp only [hostStep] at ht
    split at ht <;> cases ht
    next hgo =>
    obtain rfl : w = 4 := by
      have := regAccessRefusal_none.mp hgo
      omega
    have hother : regAt o ≠ .status := fun h => hstatus (by rw [(eq_of_regAt_status_or_cmd o).1 h, rd])
    rw [State.observeStatus_of_ne hother]
    exact ⟨rfl, rfl⟩
  | writeReg o w v =>
    simp only [hostStep] at ht
    split at ht <;> cases ht
    next hgo =>
    obtain rfl : w = 4 := by
      have := regAccessRefusal_none.mp hgo
      omega
    exact State.writeReg_watch (fun h => hctrl v (by rw [eq_of_regAt_ctrl h, wr]))
      (fun h => hcmd v (by rw [(eq_of_regAt_status_or_cmd o).2 h, wr])) s v
  | readMem a n =>
    simp only [hostStep] at ht
    split at ht <;> cases ht
    exact ⟨rfl, rfl⟩
  | writeMem a n v =>
    simp only [hostStep] at ht
    split at ht <;> cases ht
    exact ⟨rfl, rfl⟩
  | hwReset => exact absurd rfl hreset

/-- Settles O25: the operation behind each access says what it does to the watches, and the ranges are those of
`footprintOf` on each kind of slot. -/
theorem watchedFootprints : Obligations.WatchedFootprints := by
  refine ⟨fun s => rfl, fun s w hbusy herr => ?_, fun s => ?_, fun s t ht => State.EndsWatchOnIrq.engineStep ht,
    fun s v hv => ⟨s.writeCtrl v, rfl, State.EndsWatchOnIrq.writeCtrl hv s⟩,
    fun s v hv => ⟨s.softReset, hostStep_softReset hv s, rfl, rfl⟩, fun s => ⟨s.hardReset, rfl, rfl⟩,
    fun _ s t ht => hostStep_watch ht, fun h n slot a hslot => ?_, fun h hop nb nIn nOut slot a hslot => ?_,
    fun h c st a => ?_, fun h slot a => ?_⟩
  · have haccept : hostStep (wr 0x00C w) s = .next (s.accept w) :=
      congrArg Host.Outcome.next (State.offerCommand_accepted hbusy herr w)
    exact ⟨s.accept w, haccept, rfl, rfl, fun i hi => State.latchedFootprint_of_ok (s := s.accept w) hi,
      fun e he => State.latchedFootprint_of_error (s := s.accept w) he⟩
  · exact ⟨{ s.observeStatus .status with hostValue := (s.readReg .status).toNat }, rfl, s.watched_observeStatus⟩
  · rcases hslot with rfl | rfl <;> exact ⟨rfl, rfl, rfl, rfl⟩
  · rcases hslot with ⟨c, st, rfl, rfl, rfl, rfl, rfl⟩ | ⟨c, st, rfl, rfl, rfl, rfl, rfl⟩ <;>
      simp only [List.forall_mem_cons] <;>
      exact ⟨⟨rfl, rfl, nofun⟩, ⟨rfl, rfl, nofun⟩, rfl⟩
  · simp only [List.forall_mem_cons]
    exact ⟨rfl, ⟨rfl, rfl, nofun⟩, ⟨rfl, rfl, nofun⟩⟩
  · simp only [List.forall_mem_cons]
    exact ⟨rfl, rfl, rfl, rfl, rfl, rfl, rfl, rfl, rfl, rfl, nofun⟩

end Sys2Proof.Machine
end

section
/-! SUPPORT. The command word and its three fields: which words decode, and to which command (spec/30_encoding.md R90 to
R95, R98). -/

namespace Sys2Proof

/-! Opcodes. -/

/-- The opcodes of the table's rows (R93). -/
theorem Instr.opcode_assigned (i : Instr) :
    (0x01 ≤ i.opcode ∧ i.opcode ≤ 0x06) ∨ (0x0F ≤ i.opcode ∧ i.opcode ≤ 0x14) ∨
      (0x20 ≤ i.opcode ∧ i.opcode ≤ 0x25) ∨ (0x30 ≤ i.opcode ∧ i.opcode ≤ 0x31) := by
  cases i <;> simp [Instr.opcode]

theorem Instr.opcode_lt (i : Instr) : i.opcode < 256 := by
  have := i.opcode_assigned
  omega

theorem Instr.wellFormed_iff (i : Instr) : i.WellFormed = true ↔ i.hid < 256 := by
  rw [Instr.WellFormed, decide_eq_true_iff]

/-! Fields of a word. -/

theorem opField_lt (w : Word) : opField w < 256 := (w.extractLsb' 0 8).isLt

theorem hidField_lt (w : Word) : hidField w < 256 := (w.extractLsb' 8 8).isLt

/-- The three fields make up the word: no bit lies outside them (R90). -/
theorem toNat_eq_fields (w : Word) : w.toNat = rsvField w * 2 ^ 16 + hidField w * 2 ^ 8 + opField w := by
  have := w.isLt
  simp only [rsvField, hidField, opField, BitVec.extractLsb'_toNat, Nat.shiftRight_eq_div_pow]
  omega

/-- The match mask 0xFFFF00FF keeps RSV and OP, and clears HID (R94). -/
theorem fields_and_matchMask (w : Word) :
    rsvField (w &&& 0xFFFF00FF#32) = rsvField w ∧ hidField (w &&& 0xFFFF00FF#32) = 0 ∧
      opField (w &&& 0xFFFF00FF#32) = opField w := by
  have hrsv : (0xFFFF00FF#32).extractLsb' 16 16 = BitVec.allOnes 16 := by decide
  have hhid : (0xFFFF00FF#32).extractLsb' 8 8 = 0#8 := by decide
  have hop : (0xFFFF00FF#32).extractLsb' 0 8 = BitVec.allOnes 8 := by decide
  simp only [rsvField, hidField, opField, BitVec.extractLsb'_and, hrsv, hhid, hop, BitVec.and_allOnes,
    BitVec.and_zero, BitVec.toNat_ofNat, Nat.zero_mod, and_self]

theorem toNat_and_matchMask (w : Word) : (w &&& 0xFFFF00FF#32).toNat = rsvField w * 2 ^ 16 + opField w := by
  obtain ⟨hrsv, hhid, hop⟩ := fields_and_matchMask w
  rw [toNat_eq_fields, hrsv, hhid, hop, Nat.zero_mul, Nat.add_zero]

/-- A row is selected by one masked comparison (R94). -/
theorem and_matchMask_eq_opcode_iff (w : Word) (i : Instr) :
    (rsvField w = 0 ∧ opField w = i.opcode) ↔ w &&& 0xFFFF00FF#32 = BitVec.ofNat 32 i.opcode := by
  have hop := opField_lt w
  have hopcode := i.opcode_lt
  have hword : (BitVec.ofNat 32 i.opcode).toNat = i.opcode := by
    rw [BitVec.toNat_ofNat, Nat.mod_eq_of_lt (by omega)]
  rw [← BitVec.toNat_inj, toNat_and_matchMask, hword]
  omega

/-! Decoding. -/

/-- Each opcode has one row, and each row one opcode (R93). -/
theorem decodeRow_eq_ok_iff {op h : Nat} {i : Instr} : decodeRow op h = .ok i ↔ op = i.opcode ∧ h = i.hid := by
  constructor
  · intro hrow
    unfold decodeRow at hrow
    split at hrow <;> cases hrow <;> exact ⟨rfl, rfl⟩
  · rintro ⟨rfl, rfl⟩
    cases i <;> rfl

/-- What decodes, and to what (R94). -/
theorem decode_eq_ok_iff {w : Word} {i : Instr} :
    decode w = .ok i ↔ rsvField w = 0 ∧ opField w = i.opcode ∧ hidField w = i.hid := by
  unfold decode
  split
  · next hrsv => simp [hrsv]
  · next hrsv => rw [decodeRow_eq_ok_iff, and_iff_right (not_not.mp hrsv)]

/-- A word with a reserved bit set, or with an opcode of no row, does not decode (R95). -/
theorem exists_decode_eq_error {w : Word}
    (h : rsvField w ≠ 0 ∨ opField w = 0x00 ∨ (0x07 ≤ opField w ∧ opField w ≤ 0x0E) ∨
      (0x15 ≤ opField w ∧ opField w ≤ 0x1F) ∨ (0x26 ≤ opField w ∧ opField w ≤ 0x2F) ∨ 0x32 ≤ opField w) :
    ∃ e, decode w = .error e := by
  cases hdecode : decode w with
  | error e => exact ⟨e, rfl⟩
  | ok i =>
    obtain ⟨hrsv, hop, -⟩ := decode_eq_ok_iff.mp hdecode
    have := i.opcode_assigned
    omega

/-- Settles O1: the fields of the word of a well-formed command are its own, and the fields determine what decodes. -/
theorem decodeEncodeRoundTrip : Obligations.DecodeEncodeRoundTrip := by
  intro i hwf
  obtain ⟨hop, hhid, hrsv⟩ := Laws.EncodingFields.of_opcode_lt i.opcode_lt hwf
  exact decode_eq_ok_iff.mpr ⟨hrsv, hop, hhid⟩

/-- Settles O2, in the fields of the word and in the mask that keeps two of them. -/
theorem decodeSelectsRow : Obligations.DecodeSelectsRow :=
  ⟨fun _ _ => decode_eq_ok_iff, and_matchMask_eq_opcode_iff⟩

/-- Settles O3: the word and the encoding have the same fields, which are all of a word. -/
theorem decodedWordIsEncoding : Obligations.DecodedWordIsEncoding := by
  intro w i hdecode
  obtain ⟨hrsv, hop, hhid⟩ := decode_eq_ok_iff.mp hdecode
  have hlt : i.hid < 256 := hhid ▸ hidField_lt w
  refine ⟨i.wellFormed_iff.mpr hlt, BitVec.eq_of_toNat_eq ?_⟩
  rw [Laws.EncodingFields.encode_toNat hlt i.opcode_lt, toNat_eq_fields w, hrsv, hop, hhid, Nat.zero_mul, Nat.zero_add]

/-- Settles O4: the accesses by the definition of `issue`, and the words by decoding them. -/
theorem encodingExamples : Obligations.EncodingExamples := by
  refine ⟨rfl, rfl, rfl, rfl, ?_⟩
  decide

end Sys2Proof
end

section
/-! SUPPORT. Which move a step makes, and what the engine step does with the latched word (spec/44_system.md R243,
R244; spec/30_encoding.md R95). -/

namespace Sys2Proof.Machine

section LatchedWord

variable {s : State}

theorem engineStep_of_ok {i : Instr} (h : decode s.latch.cmd = .ok i) : engineStep s = exec i s := by
  rw [engineStep, h]

theorem engineStep_of_error {e : DecodeError} (h : decode s.latch.cmd = .error e) :
    engineStep s = .next (s.reject .illegalCmd) := by
  rw [engineStep, h]

end LatchedWord

theorem RejectedFrom.reject (s : State) (c : ErrCode) : RejectedFrom s (s.reject c) c := ⟨rfl, rfl⟩

/-- The engine moves when a command is in progress and no access of the host goes before it (R305, R308). -/
theorem step_eq_engineStep {s : State} (hbusy : s.status.busy = true) (hturn : s.host = [] ∨ s.delay = 0) :
    step s = engineStep s :=
  if_pos (by simpa [State.engineTurn, hbusy] using hturn)

/-- Otherwise a step is the next access of the host, also with no command in progress. -/
theorem step_eq_hostStep_of_hostTurn {s : State} {access : HostAccess} {rest : List HostAccess}
    (hhost : s.host = access :: rest) (hturn : s.status.busy = false ∨ s.delay ≠ 0) :
    step s = hostStep access { s with host := rest, delay := s.delay - 1 } := by
  rcases hturn with hidle | hdelay
  · have hengine : s.engineTurn = false := by simp [State.engineTurn, hidle]
    simp only [step, hengine, Bool.false_eq_true, if_false, hhost]
  · exact step_eq_hostStep hhost hdelay

/-- Settles O5: such a word does not decode, and a rejection changes STATUS, ERR_CMD and the latch only. -/
theorem illegalWordRejected : Obligations.IllegalWordRejected := by
  intro s hillegal
  obtain ⟨e, he⟩ := exists_decode_eq_error hillegal
  exact ⟨_, engineStep_of_error he, .reject s _, .reject s _, rfl, fun _ => rfl, fun _ => rfl⟩

/-- Settles O7: the engine's turn runs the latched word, and on the host's the next access is taken. -/
theorem stepRunsLatchedCommand : Obligations.StepRunsLatchedCommand := by
  refine ⟨fun s hbusy hturn => ?_, fun s access rest => step_eq_hostStep_of_hostTurn⟩
  have hstep := step_eq_engineStep hbusy hturn
  exact ⟨hstep, fun i hi => hstep.trans (engineStep_of_ok hi),
    fun e he => ⟨_, hstep.trans (engineStep_of_error he), .reject s _⟩⟩

end Sys2Proof.Machine
end

section
/-! SUPPORT. The FFT commands on a slot of their kind: what the create commands make of their length, and what the four
transforms leave on two good buffers (spec/40_fft.md R124 to R129). -/

namespace Sys2Proof.Machine

/-! RFFT_CREATE and CFFT_CREATE. -/

/-- A command that fails a test is rejected with the code of the first one (R263). -/
theorem Rejects.of_finish {i : Instr} {s p : State} {ts : Tests} {c : ErrCode} (hexec : exec i s = finish s ts p)
    (hfirst : firstError ts = some c) : Rejects i s c :=
  .of_exec (hexec.trans (finish_of_some p hfirst))

/-- The code that the two tests of a length report (R124, R127). -/
theorem firstError_fftCreateTests (s : State) (n : Nat) : firstError (fftCreateTests s n) =
    if n = 0 then some .badParam else if s.params.fftSupported n = false then some .unsupportedLength else none := by
  simp only [fftCreateTests, firstError, beq_iff_eq, Bool.not_eq_true']

/-- A supported length passes both tests: it is at least 2 (R120). -/
theorem firstError_fftCreateTests_of_supported {s : State} {n : Nat} (hn : s.params.fftSupported n = true) :
    firstError (fftCreateTests s n) = none := by
  have hbounds := Params.bounds_of_fftSupported hn
  rw [firstError_fftCreateTests, if_neg (by omega), if_neg (by simp [hn])]

theorem SlotSet.complete_setSlot (s : State) (h : Nat) (hd : Handle) : SlotSet s (s.setSlot h hd).complete h :=
  ⟨⟨rfl, rfl⟩, ⟨⟨rfl, State.numHandles_setSlot s h hd⟩, rfl, rfl, rfl, rfl, rfl, rfl⟩, rfl,
    fun _ hne => State.slot_setSlot_ne s hd hne, fun _ => rfl⟩

/-- A slot that owns as many words of the pool as before leaves PRIV_FREE alone (R31, R41). -/
theorem State.privFree_setSlot {s : State} {h : Nat} {hd : Handle} (hh : h < s.numHandles)
    (hreq : hd.req = (s.slot h).req) : (s.setSlot h hd).privFree = s.privFree := by
  have hset := State.privUsed_setSlot s h hd hh
  have hused : (s.setSlot h hd).privUsed = s.privUsed := by omega
  exact congrArg (s.params.privWords - ·) hused

section Create

variable {h : Nat} {s : State} (hh : h < s.numHandles) (hfree : s.slot h = .free)
include hh hfree

theorem exec_rfftCreate : exec (.rfftCreate h) s =
    finish s (fftCreateTests s (s.arg 0)) (s.setSlot h (.rfft (s.arg 0))) := by
  simp only [exec, execRfftCreate, onSlot_of_lt _ hh, hfree]

theorem exec_cfftCreate : exec (.cfftCreate h) s =
    finish s (fftCreateTests s (s.arg 0)) (s.setSlot h (.cfft (s.arg 0))) := by
  simp only [exec, execCfftCreate, onSlot_of_lt _ hh, hfree]

/-- A create command with a supported length fills its slot; a handle that owns no word of the pool takes none
(R41, R124, R127). -/
theorem fftCreate_fills {i : Instr} {hd : Handle} (hreq : hd.req = 0)
    (hexec : exec i s = finish s (fftCreateTests s (s.arg 0)) (s.setSlot h hd))
    (hn : s.params.fftSupported (s.arg 0) = true) :
    ∃ t, exec i s = .next t ∧ SlotSet s t h ∧ t.slot h = hd ∧ t.privFree = s.privFree :=
  ⟨_, hexec.trans (finish_of_none _ (firstError_fftCreateTests_of_supported hn)), .complete_setSlot s h hd,
    State.slot_setSlot_self s h hd hh, State.privFree_setSlot hh (by rw [hreq, hfree]; rfl)⟩

end Create

/-- Settles O27, from the tests of both commands on a FREE slot and the rejection of every create command on a slot in
use. -/
theorem fftCreate : Obligations.FftCreate := by
  intro h s hh
  refine ⟨fun hused => ⟨.of_exec (exec_handleInUse rfl hused), .of_exec (exec_handleInUse rfl hused)⟩,
    fun hfree hzero => ?_, fun hfree hne hn => ?_, fun hfree hn => ?_⟩
  · have hfirst : firstError (fftCreateTests s (s.arg 0)) = some .badParam := by
      rw [firstError_fftCreateTests, if_pos hzero]
    exact ⟨.of_finish (exec_rfftCreate hh hfree) hfirst, .of_finish (exec_cfftCreate hh hfree) hfirst⟩
  · have hfirst : firstError (fftCreateTests s (s.arg 0)) = some .unsupportedLength := by
      rw [firstError_fftCreateTests, if_neg hne, if_pos hn]
    exact ⟨.of_finish (exec_rfftCreate hh hfree) hfirst, .of_finish (exec_cfftCreate hh hfree) hfirst⟩
  · exact ⟨fftCreate_fills hh hfree rfl (exec_rfftCreate hh hfree) hn,
      fftCreate_fills hh hfree rfl (exec_cfftCreate hh hfree) hn⟩

/-! The four transforms. -/

/-- Good buffers pass the three buffer tests (R66 to R68). -/
theorem BuffersOk.firstError_eq_none {s : State} {rBase rSize wBase wSize : Nat}
    (hok : BuffersOk s rBase rSize wBase wSize) :
    firstError (bufferTests s.params.dmemBytes [rBase, wBase] (.between rBase rSize wBase wSize)) = none := by
  obtain ⟨hralign, hwalign, hrend, hwend, hdisjoint⟩ := hok
  rw [firstError_bufferTests_between, if_neg (by omega), if_neg (by omega), if_neg (by omega)]

theorem BlockStored.complete_storeF32s (s : State) (base : Nat) (x : List F32) :
    BlockStored s (s.storeF32s base x).complete base (4 * x.length) :=
  ⟨⟨rfl, rfl⟩, ⟨⟨rfl, rfl⟩, rfl, rfl, rfl, rfl, rfl, rfl⟩, rfl, fun _ => rfl,
    fun a ha => State.readByte_storeF32s_outside s base x a ha⟩

theorem BlockStored.complete_storeCs (s : State) (base : Nat) (x : List C32) :
    BlockStored s (s.storeCs base x).complete base (8 * x.length) :=
  ⟨⟨rfl, rfl⟩, ⟨⟨rfl, rfl⟩, rfl, rfl, rfl, rfl, rfl, rfl⟩, rfl, fun _ => rfl,
    fun a ha => State.readByte_storeCs_outside s base x a ha⟩

section Stored

variable {i : Instr} {s : State} {rBase rSize wBase n : Nat}

/-- A command that stores `n` samples over its write range, on two good buffers. -/
theorem stores_samples {x : List F32} (hlen : x.length = n)
    (hexec : exec i s = finish s (bufferTests s.params.dmemBytes [rBase, wBase] (.between rBase rSize wBase (4 * n)))
      (s.storeF32s wBase x))
    (hok : BuffersOk s rBase rSize wBase (4 * n)) :
    ∃ t, exec i s = .next t ∧ BlockStored s t wBase (4 * n) ∧
      ∀ k < n, t.loadF32 (wBase + 4 * k) = x.getD k f32Zero := by
  refine ⟨_, hexec.trans (finish_of_none _ hok.firstError_eq_none), hlen ▸ .complete_storeF32s s wBase x, fun k hk => ?_⟩
  have hk : k < x.length := hlen ▸ hk
  rw [State.loadF32_complete, State.loadF32_storeF32s s wBase x k hk, List.getD_eq_getElem _ _ hk]

/-- A command that stores `n` complex samples over its write range, on two good buffers. -/
theorem stores_complex {x : List C32} (hlen : x.length = n)
    (hexec : exec i s = finish s (bufferTests s.params.dmemBytes [rBase, wBase] (.between rBase rSize wBase (8 * n)))
      (s.storeCs wBase x))
    (hok : BuffersOk s rBase rSize wBase (8 * n)) :
    ∃ t, exec i s = .next t ∧ BlockStored s t wBase (8 * n) ∧
      ∀ k < n, t.loadC (wBase + 8 * k) = x.getD k c32Zero := by
  refine ⟨_, hexec.trans (finish_of_none _ hok.firstError_eq_none), hlen ▸ .complete_storeCs s wBase x, fun k hk => ?_⟩
  have hk : k < x.length := hlen ▸ hk
  rw [State.loadC_complete, State.loadC_storeCs s wBase x k hk, List.getD_eq_getElem _ _ hk]

end Stored

/-- Settles O28: the command stores the N/2+1 bins of the transform. -/
theorem rfftForwardCompletes : Obligations.RfftForwardCompletes :=
  fun _ _ _ _ hs hok => stores_complex (length_rfft ..) (exec_rfftForward hs) hok

/-- Settles O29: the command stores the N samples of the inverse. -/
theorem rfftBackwardCompletes : Obligations.RfftBackwardCompletes :=
  fun _ _ _ _ hs hok => stores_samples (length_irfft ..) (exec_rfftBackward hs) hok

/-- Settles O30: each of the two commands stores N complex samples. -/
theorem cfftCompletes : Obligations.CfftCompletes :=
  fun _ _ _ _ hs hok => ⟨stores_complex (length_cfft ..) (exec_cfftForward hs) hok,
    stores_complex (length_icfft ..) (exec_cfftBackward hs) hok⟩

end Sys2Proof.Machine
end

section
/-! SUPPORT. The four transforms and the window as functions: where they are FFT_NUM's, what they make of zeros, what the
real inverse ignores, and what 1.0 and +0.0 do (spec/40_fft.md R121 to R123, R126; spec/41_stft.md R162). -/

namespace Sys2Proof.Machine

/-! Where a transform is FFT_NUM's (R121). -/

theorem rfft_of_defined {n : Nat} {x : List F32} (hdef : transformDefined .rfft n x = true) (e : Nat) (st : DrawSite) :
    rfft e st n x = Config.fft.rfftOut n x := if_pos hdef

theorem cfft_of_defined {n : Nat} {x : List C32} (hdef : transformDefined .cfft n (flatten x) = true) (e : Nat)
    (st : DrawSite) : cfft e st n x = Config.fft.cfftOut n x := if_pos hdef

theorem icfft_of_defined {n : Nat} {x : List C32} (hdef : transformDefined .icfft n (flatten x) = true) (e : Nat)
    (st : DrawSite) : icfft e st n x = Config.fft.icfftOut n x := if_pos hdef

/-- Settles O32: where a transform is defined, both epochs and both places give FFT_NUM's result. -/
theorem transformsAreDeterministic : Obligations.TransformsAreDeterministic := by
  intro e e' st st' n
  refine ⟨fun x hdef => ?_, fun x hdef => ?_, fun x hdef => ?_, fun x hdef => ?_⟩
  · simp only [rfft_of_defined hdef, and_self]
  · simp only [irfft_of_invertible hdef, and_self]
  · simp only [cfft_of_defined hdef, and_self]
  · simp only [icfft_of_defined hdef, and_self]

/-! Zeros of either sign: the values that `signedZero` leaves alone. -/

theorem signedZero_eq_zero_or (v : F32) : signedZero v = f32Zero ∨ signedZero v = 0x80000000#32 := by
  have hbit : signedZero v = if v.getLsbD 31 then BitVec.twoPow 32 31 else 0#32 := BitVec.and_twoPow v 31
  rw [hbit]
  split
  · exact .inr rfl
  · exact .inl rfl

theorem signedZero_eq_self_iff {v : F32} : signedZero v = v ↔ v = f32Zero ∨ v = 0x80000000#32 := by
  constructor
  · intro hv
    rw [← hv]
    exact signedZero_eq_zero_or v
  · rintro (rfl | rfl) <;> rfl

@[simp] theorem signedZero_signedZero (v : F32) : signedZero (signedZero v) = signedZero v := by
  rw [signedZero, signedZero, BitVec.and_assoc, BitVec.and_self]

@[simp] theorem c32SignedZero_c32SignedZero (c : C32) : c32SignedZero (c32SignedZero c) = c32SignedZero c := by
  simp [c32SignedZero]

theorem c32SignedZero_eq_self_iff {c : C32} : c32SignedZero c = c ↔ signedZero c.re = c.re ∧ signedZero c.im = c.im := by
  rw [c32SignedZero, C32.mk.injEq]

theorem allZero_iff {x : List F32} : allZero x = true ↔ ∀ v ∈ x, signedZero v = v := by
  simp only [allZero, List.all_eq_true, Bool.or_eq_true, beq_iff_eq, signedZero_eq_self_iff]

theorem allZero_flatten_iff {x : List C32} : allZero (flatten x) = true ↔ ∀ c ∈ x, c32SignedZero c = c := by
  induction x with
  | nil => simp [flatten, allZero]
  | cons c x ih =>
    rw [allZero_iff] at ih ⊢
    simp only [flatten, List.forall_mem_cons, ih, c32SignedZero_eq_self_iff, and_assoc]

/-- A zero is finite, and its value is 0 (R62). -/
theorem zero_value {v : F32} (hv : signedZero v = v) : f32IsFinite v = true ∧ f32Int v = 0 := by
  rcases signedZero_eq_self_iff.mp hv with rfl | rfl <;> decide

/-! An all-zero input is in the domain of every transform: the sums over it are 0. -/

theorem unitPairs_of_allZero {x : List F32} (hx : allZero x = true) : ∀ p ∈ unitPairs x, p = 0 := by
  induction x using unitPairs.induct with
  | case1 re im rest ih =>
    rw [allZero_iff] at ih hx
    simp only [List.forall_mem_cons] at hx
    obtain ⟨hre, him, hrest⟩ := hx
    simp only [unitPairs, List.forall_mem_cons, (zero_value hre).2, (zero_value him).2]
    exact ⟨rfl, ih hrest⟩
  | case2 x hshort =>
    rw [unitPairs.eq_2 x hshort]
    simp

theorem hermitian_of_zeros {x : List UnitPair} (hx : ∀ p ∈ x, p = 0) (n : Nat) : ∀ p ∈ hermitian n x, p = 0 := by
  have hget (k : Nat) : x.getD k 0 = 0 := (getD_mem_or x k 0).elim (hx _) id
  intro p hp
  obtain ⟨k, -, rfl⟩ := List.mem_map.mp hp
  simp only [hget]
  split_ifs <;> rfl

theorem idealInput_of_allZero {x : List F32} (hx : allZero x = true) (t : Transform) (n : Nat) :
    ∀ p ∈ idealInput t n x, p = 0 := by
  have hpairs := unitPairs_of_allZero hx
  cases t with
  | rfft =>
    intro p hp
    obtain ⟨v, hv, rfl⟩ := List.mem_map.mp hp
    rw [(zero_value (allZero_iff.mp hx v hv)).2]
    rfl
  | irfft => exact hermitian_of_zeros hpairs n
  | cfft => exact hpairs
  | icfft => exact hpairs

theorem transformDefined_of_allZero {x : List F32} (hx : allZero x = true) (t : Transform) (n : Nat) :
    transformDefined t n x = true := by
  have hfinite : allFinite x = true := allFinite_of fun v hv => (zero_value (allZero_iff.mp hx v hv)).1
  have hsum : sumSize (idealInput t n x) = 0 := by
    refine List.sum_eq_zero fun m hm => ?_
    obtain ⟨p, hp, rfl⟩ := List.mem_map.mp hm
    rw [idealInput_of_allZero hx t n p hp]
    rfl
  simp [transformDefined, idealInRange, hfinite, hsum]

/-! FFT_NUM's results on zeros. -/

/-- Zeros with the signs of some values are all zero. -/
theorem allZero_map_signedZero {α : Type} (l : List α) (f : α → F32) :
    allZero (l.map fun k => signedZero (f k)) = true := by
  simp [allZero_iff]

theorem allZero_flatten_map_c32SignedZero {α : Type} (l : List α) (f : α → C32) :
    allZero (flatten (l.map fun k => c32SignedZero (f k))) = true := by
  simp [allZero_flatten_iff]

/-- Leaving out imaginary parts keeps an input all zero. -/
theorem allZero_realEnds {x : List C32} (hx : allZero (flatten x) = true) (n : Nat) :
    allZero (flatten (realEnds n x)) = true := by
  rw [allZero_flatten_iff] at hx ⊢
  intro c hc
  obtain ⟨k, hk, rfl⟩ := List.mem_mapIdx.mp hc
  have hzero := hx _ (List.getElem_mem hk)
  split
  · exact c32SignedZero_eq_self_iff.mpr ⟨(c32SignedZero_eq_self_iff.mp hzero).1, signedZero_eq_self_iff.mpr (.inl rfl)⟩
  · exact hzero

/-- Settles O33: an all-zero input is transformed by FFT_NUM, which gives zeros with the signs of its values. -/
theorem zeroTransform : Obligations.ZeroTransform := by
  intro e st n
  refine ⟨fun x hx => ?_, fun x hx => ?_, fun x hx => ?_, fun x hx => ?_⟩
  · rw [rfft_of_defined (transformDefined_of_allZero hx .rfft n)]
    simp only [FftFns.rfftOut, hx, if_true, allZero_flatten_map_c32SignedZero]
  · rw [irfft_of_invertible (transformDefined_of_allZero hx .irfft n)]
    simp only [FftFns.irfftOut, allZero_realEnds hx n, if_true, allZero_map_signedZero]
  · rw [cfft_of_defined (transformDefined_of_allZero hx .cfft n)]
    simp only [FftFns.cfftOut, hx, if_true, allZero_flatten_map_c32SignedZero]
  · rw [icfft_of_defined (transformDefined_of_allZero hx .icfft n)]
    simp only [FftFns.icfftOut, hx, if_true, allZero_flatten_map_c32SignedZero]

/-! The imaginary parts of bins 0 and N/2 (R126). -/

/-- Inputs that differ in the imaginary parts of bins 0 and n/2 only are the same once these are left out. -/
theorem realEnds_congr {n : Nat} {x y : List C32} (hlen : x.length = y.length)
    (hre : ∀ k, (x.getD k c32Zero).re = (y.getD k c32Zero).re)
    (him : ∀ k, k ≠ 0 → k ≠ n / 2 → (x.getD k c32Zero).im = (y.getD k c32Zero).im) : realEnds n x = realEnds n y := by
  refine List.ext_getElem (by simp [realEnds, hlen]) fun k hx hy => ?_
  rw [← List.getD_eq_getElem _ c32Zero hx, ← List.getD_eq_getElem _ c32Zero hy, getD_realEnds, getD_realEnds]
  split
  · rw [hre k]
  · next hend =>
    obtain ⟨h0, hhalf⟩ := not_or.mp hend
    rw [C32.mk.injEq]
    exact ⟨hre k, him k h0 hhalf⟩

theorem irfftOut_congr {n : Nat} {x y : List C32} (f : FftFns) (hends : realEnds n x = realEnds n y) :
    f.irfftOut n x = f.irfftOut n y := by
  rw [FftFns.irfftOut, FftFns.irfftOut, hends]

/-- Settles O34: FFT_NUM's inverse sees the input only with those imaginary parts left out. -/
theorem imaginaryEndsIgnored : Obligations.ImaginaryEndsIgnored := by
  intro e st n x y hlen hre him hx hy
  rw [irfft_of_invertible hx, irfft_of_invertible hy, irfftOut_congr _ (realEnds_congr hlen hre him)]

/-! 1.0 and +0.0. -/

/-- A value that is not zero has the sign and the magnitude of its fields (R62). -/
theorem f32Int_of_mag_ne_zero {a : F32} (hmag : f32Mag a ≠ 0) :
    f32Int a ≠ 0 ∧ decide (f32Int a < 0) = f32Neg a ∧ (f32Int a).natAbs = f32Mag a := by
  unfold f32Int
  cases f32Neg a
  · simp only [Bool.false_eq_true, if_false, decide_eq_false_iff_not]
    omega
  · simp only [if_true, decide_eq_true_eq]
    omega

/-- A sum of +0.0 with a value that is not zero is the value (R123). -/
theorem zero_fadd_of_mag_ne_zero {a : F32} (hfinite : f32IsFinite a = true) (hmag : f32Mag a ≠ 0) (nan : F32) :
    fadd nan f32Zero a = a := by
  obtain ⟨hint, hneg, habs⟩ := f32Int_of_mag_ne_zero hmag
  have hround := f32Round_exact hfinite 0
  rw [pow_zero, mul_one] at hround
  simp only [fadd, not_nan_of_finite hfinite, not_inf_of_finite hfinite, show f32IsNaN f32Zero = false by decide,
    show f32IsInf f32Zero = false by decide, show f32Int f32Zero = 0 by decide, zero_add, Bool.or_self,
    Bool.false_eq_true, if_false, if_neg hint, hneg, habs, hround]

/-- With H = W the window is 1.0, so it leaves finite samples as they are (R152, R162). -/
theorem windowed_self {buf : List F32} (hfinite : allFinite buf = true) (e : Nat) (st : DrawSite) :
    windowed e st buf.length buf.length buf = buf := by
  refine List.ext_getElem (length_windowed ..) fun n hw hb => ?_
  simp only [windowed, List.getElem_map, List.getElem_range, hfinite, if_true, stftWin_self,
    fmul_one (getD_allFinite hfinite n)]
  exact List.getD_eq_getElem _ _ hb

/-- Settles O36, from the products with 1.0, the sums with +0.0, and the window of H = W. -/
theorem unitArithmetic : Obligations.UnitArithmetic := by
  refine ⟨fun nan x hx => fmul_one hx nan, fun nan x hx hmag => zero_fadd_of_mag_ne_zero hx hmag nan, ?_⟩
  rintro e st w buf rfl hfinite
  exact windowed_self hfinite e st

end Sys2Proof.Machine
end

section
/-! SUPPORT. The window table, and what the hops of one STFT channel leave and give (spec/41_stft.md R151, R152, R162 to
R165). -/

namespace Sys2Proof.Machine

/-! The window table. -/

@[simp] theorem sinFixed_zero (p : Nat) : sinFixed p 0 = 0 := by
  simp [sinFixed, alternate]

/-- The window starts at a sine of 0 (R152). -/
@[simp] theorem windowSine_zero (w : Nat) : windowSine w 0 = 0 := by
  simp [windowSine, sinTurn]

theorem stftWin_zero {w h : Nat} (hne : w ≠ h) : stftWin w h 0 = f32Zero := by
  rw [stftWin, if_neg hne, windowSine_zero, Nat.zero_pow (by decide), Nat.mul_zero, Nat.zero_div,
    isqrtFrom_square _ 0 (by decide)]
  rfl

/-- The window of W = 2H has the sine of a quarter turn in its middle, whatever the hop (R152). -/
theorem windowSine_middle {h : Nat} (hpos : 0 < h) :
    windowSine (2 * h) h = (sinFixed windowBits (2 * piFixed windowBits / 4)).toNat := by
  have hmin : min h (2 * h - h) = h := by omega
  have hturn : 2 * piFixed windowBits * h / (2 * (2 * h)) = 2 * piFixed windowBits / 4 := by
    rw [← Nat.mul_assoc 2 2 h, Nat.mul_div_mul_right _ _ hpos]
  rw [windowSine, sinTurn, hmin, hturn]

/-- The hop cancels out of the middle entry, so that what is left to round is one number. -/
theorem stftWin_middle {h : Nat} (hpos : 0 < h) : stftWin (2 * h) h h = f32One := by
  have hne : 2 * h ≠ h := by omega
  have hcancel (m : Nat) : 2 * h * m / (2 * h) = m := Nat.mul_div_cancel_left m (by omega)
  rw [stftWin, if_neg hne, windowSine_middle hpos, hcancel]
  decide +kernel

/-- Settles O35: 1.0 throughout for H = W, a sine of 0 at entry 0, and the sine of a quarter turn in the middle. -/
theorem windowTable : Obligations.WindowTable :=
  ⟨stftWin_self, fun _ _ hne => stftWin_zero hne, fun _ hpos => stftWin_middle hpos⟩

/-! The hops of STFT_FORWARD. -/

/-- A block of several hops is its hops one after another (R162). -/
theorem stftForwardChannel_append (e : Nat) (cfg : StftCfg) (chan : Nat) (front back : List (List F32)) (slot : Nat)
    (buf : List F32) :
    stftForwardChannel e cfg chan slot buf (front ++ back) =
      ((stftForwardChannel e cfg chan (slot + front.length) (stftForwardChannel e cfg chan slot buf front).1 back).1,
        (stftForwardChannel e cfg chan slot buf front).2 ++
          (stftForwardChannel e cfg chan (slot + front.length)
            (stftForwardChannel e cfg chan slot buf front).1 back).2) := by
  induction front generalizing slot buf with
  | nil => rfl
  | cons new front ih =>
    have hslot : slot + (front.length + 1) = slot + 1 + front.length := by omega
    simp only [List.cons_append, stftForwardChannel, List.length_cons, hslot, ih]

/-- Every hop shifts the stream by its own length, so the buffer drops as many of the oldest samples as are new (R162). -/
theorem stftForwardChannel_buffer (e : Nat) {cfg : StftCfg} (chan : Nat) (hle : cfg.hop ≤ cfg.win)
    (hops : List (List F32)) (hhops : ∀ x ∈ hops, x.length = cfg.hop) (slot : Nat) (buf : List F32)
    (hbuf : buf.length = cfg.win) :
    (stftForwardChannel e cfg chan slot buf hops).1 = (buf ++ hops.flatten).drop hops.flatten.length := by
  induction hops generalizing slot buf with
  | nil => simp [stftForwardChannel]
  | cons new hops ih =>
    obtain ⟨hnew, hhops⟩ := List.forall_mem_cons.mp hhops
    have hshift : buf.drop cfg.hop ++ new ++ hops.flatten = (buf ++ (new ++ hops.flatten)).drop cfg.hop := by
      rw [List.drop_append_of_le_length (by omega), List.append_assoc]
    have hlen : (buf.drop cfg.hop ++ new).length = cfg.win := by
      rw [List.length_append, List.length_drop]
      omega
    calc (stftForwardChannel e cfg chan slot buf (new :: hops)).1
        = (buf.drop cfg.hop ++ new ++ hops.flatten).drop hops.flatten.length := ih hhops (slot + 1) _ hlen
      _ = (buf ++ (new :: hops).flatten).drop (new :: hops).flatten.length := by
        rw [hshift, List.drop_drop, List.flatten_cons, List.length_append, hnew]

/-- A sample of a windowed segment of finite samples (R162). -/
theorem getD_windowed {w n : Nat} {seg : List F32} (hfinite : allFinite seg = true) (hn : n < w)
    (e : Nat) (st : DrawSite) (h : Nat) : (windowed e st w h seg).getD n f32Zero =
      fmul (nanOf (freeF32 e st n)) (seg.getD n f32Zero) (stftWin w h n) := by
  rw [windowed, getD_map_range _ _ _ _ hn, if_pos hfinite]

/-- Settles O40, hop by hop. -/
theorem stftForwardHops : Obligations.StftForwardHops := by
  intro e cfg chan slot buf
  refine ⟨fun new rest => rfl, fun front back => stftForwardChannel_append e cfg chan front back slot buf,
    fun hops hbuf hle hhops => ?_,
    fun st w h seg hfinite => ⟨length_windowed .., fun n hn => getD_windowed hfinite hn e st h⟩⟩
  rw [stftForwardChannel_buffer e chan hle hops hhops slot buf hbuf, List.length_append, hbuf, Nat.add_sub_cancel_left]

/-! The slots of STFT_BACKWARD. -/

/-- A block of several slots is its slots one after another (R164). -/
theorem stftBackwardChannel_append (e : Nat) (cfg : StftCfg) (chan : Nat) (front back : List (List C32)) (slot : Nat)
    (acc : List F32) :
    stftBackwardChannel e cfg chan slot acc (front ++ back) =
      ((stftBackwardChannel e cfg chan (slot + front.length) (stftBackwardChannel e cfg chan slot acc front).1 back).1,
        (stftBackwardChannel e cfg chan slot acc front).2 ++
          (stftBackwardChannel e cfg chan (slot + front.length)
            (stftBackwardChannel e cfg chan slot acc front).1 back).2) := by
  induction front generalizing slot acc with
  | nil => rfl
  | cons bins front ih =>
    have hslot : slot + (front.length + 1) = slot + 1 + front.length := by omega
    simp only [List.cons_append, stftBackwardChannel, List.length_cons, hslot, ih, List.append_assoc]

/-- Every slot emits a hop of samples (R164). -/
theorem length_stftBackwardChannel_samples (e : Nat) {cfg : StftCfg} (chan : Nat) (hle : cfg.hop ≤ cfg.win)
    (slots : List (List C32)) (slot : Nat) (acc : List F32) :
    (stftBackwardChannel e cfg chan slot acc slots).2.length = cfg.hop * slots.length := by
  induction slots generalizing slot acc with
  | nil => rfl
  | cons bins slots ih =>
    have hemitted : (stftBackwardHop e cfg chan slot acc bins).2.length = cfg.hop := by
      simp [stftBackwardHop, hle]
    rw [stftBackwardChannel, List.length_append, ih, hemitted, List.length_cons, Nat.mul_succ, Nat.add_comm]

/-- A sample of the overlap-add of finite samples (R164). -/
theorem getD_overlapAdd {w n : Nat} {acc y : List F32} (hacc : allFinite acc = true) (hy : allFinite y = true)
    (hn : n < w) (e : Nat) (st : DrawSite) (h : Nat) : (overlapAdd e st w h acc y).getD n f32Zero =
      fadd (nanOf (freeF32 e st n)) (acc.getD n f32Zero)
        (fmul (nanOf (freeF32 e st n)) (y.getD n f32Zero) (stftWin w h n)) := by
  rw [overlapAdd, getD_map_range _ _ _ _ hn, if_pos (by rw [hacc, hy, Bool.and_self])]

/-- Settles O42, slot by slot. -/
theorem stftBackwardHops : Obligations.StftBackwardHops := by
  intro e cfg chan slot acc
  refine ⟨fun bins => ?_, fun front back => stftBackwardChannel_append e cfg chan front back slot acc,
    fun slots hle => length_stftBackwardChannel_samples e chan hle slots slot acc,
    fun st w h a y ha hy => ⟨length_overlapAdd .., fun n hn => getD_overlapAdd ha hy hn e st h⟩⟩
  simp only [stftBackwardChannel, List.append_nil]
  rfl

end Sys2Proof.Machine
end

section
/-! SUPPORT. The STFT commands that set their slot and write no data memory: STFT_CREATE, STFT_CHANNEL_CHANGE and
STFT_FLUSH on a slot of their kind (spec/41_stft.md R160, R166 to R168). -/

namespace Sys2Proof.Machine

/-- A command whose tests pass completes; what it performs has to leave STATUS and ERR_CMD to the completion (R243). -/
theorem Completes.of_finish {i : Instr} {s p : State} {ts : Tests} (hexec : exec i s = finish s ts p)
    (hfirst : firstError ts = none) (hstatus : p.status = s.status) (herrCmd : p.errCmd = s.errCmd) : Completes i s :=
  ⟨p.complete, hexec.trans (finish_of_none p hfirst), by simp [CompletedFrom, hstatus, herrCmd]⟩

/-- A command whose tests pass and that sets its own slot (R243). -/
theorem sets_slot {i : Instr} {s : State} {h : Nat} {hd : Handle} {ts : Tests} (hh : h < s.numHandles)
    (hexec : exec i s = finish s ts (s.setSlot h hd)) (hfirst : firstError ts = none) :
    ∃ t, exec i s = .next t ∧ SlotSet s t h ∧ t.slot h = hd ∧ t.privFree = (s.setSlot h hd).privFree :=
  ⟨_, hexec.trans (finish_of_none _ hfirst), .complete_setSlot s h hd, State.slot_setSlot_self s h hd hh, rfl⟩

/-! STFT_CREATE. -/

/-- The code that the tests of STFT_CREATE report: the first that applies (R160). -/
theorem firstError_stftCreateTests (s : State) (c : StftCfg) : firstError (stftCreateTests s c) =
    if c.win = 0 ∨ c.hop = 0 ∨ c.win < c.hop ∨ c.win % c.hop ≠ 0 then some .badParam
    else if c.nIn = 0 ∨ c.nOut = 0 then some .badParam
    else if s.params.maxChannels < c.nIn ∨ s.params.maxChannels < c.nOut then some .badParam
    else if s.params.fftSupported c.win = false then some .unsupportedLength
    else if s.privFree < (c.nIn + c.nOut) * c.win then some .noResources
    else none := by
  simp only [stftCreateTests, firstError, Bool.or_eq_true, beq_iff_eq, bne_iff_ne, decide_eq_true_eq, or_assoc,
    Bool.not_eq_true']

/-- A configuration that R160 accepts passes the tests. -/
theorem firstError_stftCreateTests_of_accepted {s : State} {c : StftCfg} (hlen : s.params.fftSupported c.win = true)
    (hhop : c.hop ≠ 0) (hle : c.hop ≤ c.win) (hmod : c.win % c.hop = 0) (hin : countOk s.params c.nIn)
    (hout : countOk s.params c.nOut) (hpool : (c.nIn + c.nOut) * c.win ≤ s.privFree) :
    firstError (stftCreateTests s c) = none := by
  obtain ⟨-, hwin, -⟩ := Params.bounds_of_fftSupported hlen
  obtain ⟨hinLow, hinHigh⟩ := hin
  obtain ⟨houtLow, houtHigh⟩ := hout
  rw [firstError_stftCreateTests, if_neg (by omega), if_neg (by omega), if_neg (by omega), if_neg (by simp [hlen]),
    if_neg (by omega)]

theorem exec_stftCreate {h : Nat} {s : State} (hh : h < s.numHandles) (hfree : s.slot h = .free) :
    exec (.stftCreate h) s = finish s (stftCreateTests s ⟨s.arg 0, s.arg 1, s.arg 2, s.arg 3⟩)
      (s.setSlot h (.stft ⟨s.arg 0, s.arg 1, s.arg 2, s.arg 3⟩
        (StftCfg.zeroState ⟨s.arg 0, s.arg 1, s.arg 2, s.arg 3⟩))) := by
  simp only [exec, execStftCreate, onSlot_of_lt _ hh, hfree]

/-- Settles O37, from the tests of STFT_CREATE on a FREE slot and the rejection of every create command on a slot in
use. -/
theorem stftCreate : Obligations.StftCreate := by
  intro h s hh
  refine ⟨fun hused => .of_exec (exec_handleInUse rfl hused), fun hfree => ?_,
    fun hfree hlen hhop hle hmod hin hout hpool => ?_⟩
  · have hexec := exec_stftCreate hh hfree
    have hfirst := firstError_stftCreateTests s ⟨s.arg 0, s.arg 1, s.arg 2, s.arg 3⟩
    split_ifs at hfirst ⊢
    case neg => exact .of_finish hexec hfirst rfl rfl
    all_goals exact .of_finish hexec hfirst
  · have hfirst : firstError (stftCreateTests s ⟨s.arg 0, s.arg 1, s.arg 2, s.arg 3⟩) = none :=
      firstError_stftCreateTests_of_accepted hlen hhop hle hmod hin hout hpool
    obtain ⟨t, ht, hset, hslot, -⟩ := sets_slot hh (exec_stftCreate hh hfree) hfirst
    exact ⟨t, ht, hset, hslot⟩

/-! STFT_CHANNEL_CHANGE and STFT_FLUSH. -/

/-- The code that the tests of STFT_CHANNEL_CHANGE report: the first that applies (R166). -/
theorem firstError_channelChangeTests (s : State) (old : StftCfg) (nIn nOut : Nat) :
    firstError (channelChangeTests s old nIn nOut) =
      if nIn = 0 ∨ nOut = 0 ∨ s.params.maxChannels < nIn ∨ s.params.maxChannels < nOut then some .badParam
      else if s.privFree + (old.nIn + old.nOut) * old.win < (nIn + nOut) * old.win then some .noResources
      else none := by
  simp only [channelChangeTests, firstError, Bool.or_eq_true, beq_iff_eq, decide_eq_true_eq, or_assoc]

section OnStft

variable {h : Nat} {s : State} {cfg : StftCfg} {st : StftState} (hs : s.slot h = .stft cfg st)
include hs

theorem exec_stftChannelChange : exec (.stftChannelChange h) s =
    finish s (channelChangeTests s cfg (s.arg 0) (s.arg 1))
      (s.setSlot h (.stft { cfg with nIn := s.arg 0, nOut := s.arg 1 }
        (StftCfg.freeState { cfg with nIn := s.arg 0, nOut := s.arg 1 } s.draws))) := by
  have hh : h < s.numHandles := State.lt_numHandles_of_slot (by simp [hs])
  simp only [exec, execStftChannelChange, onSlot_of_lt _ hh, hs]

theorem exec_stftFlush : exec (.stftFlush h) s = finish s [] (s.setSlot h (.stft cfg cfg.zeroState)) := by
  have hh : h < s.numHandles := State.lt_numHandles_of_slot (by simp [hs])
  simp only [exec, execStftFlush, onSlot_of_lt _ hh, hs]

/-- A flush leaves zero buffers, and takes no word of the pool nor returns one (R41, R168). -/
theorem stftFlush_zeroes : ∃ t, exec (.stftFlush h) s = .next t ∧ SlotSet s t h ∧ t.slot h = .stft cfg cfg.zeroState ∧
    t.privFree = s.privFree := by
  have hh : h < s.numHandles := State.lt_numHandles_of_slot (by simp [hs])
  obtain ⟨t, ht, hset, hslot, hpriv⟩ := sets_slot hh (exec_stftFlush hs) rfl
  exact ⟨t, ht, hset, hslot, hpriv.trans (State.privFree_setSlot hh (by rw [hs]; rfl))⟩

end OnStft

theorem exec_stftFlush_wrongHandle {h : Nat} {s : State} (hh : h < s.numHandles)
    (hkind : ∀ cfg st, s.slot h ≠ .stft cfg st) : exec (.stftFlush h) s = .next (s.reject .wrongHandle) := by
  -- `hkind` rules out the STFT arm.
  simp only [exec, execStftFlush, onSlot_of_lt _ hh]

/-- Settles O43: the tests in order, and the shape of the unspecified buffers. -/
theorem stftChannelChange : Obligations.StftChannelChange := by
  intro h s cfg st hh hs
  have hexec := exec_stftChannelChange hs
  have hfirst := firstError_channelChangeTests s cfg (s.arg 0) (s.arg 1)
  refine ⟨?_, fun hin hout hpool => ?_⟩
  · split_ifs at hfirst ⊢
    case neg => exact .of_finish hexec hfirst rfl rfl
    all_goals exact .of_finish hexec hfirst
  · obtain ⟨hinLow, hinHigh⟩ := hin
    obtain ⟨houtLow, houtHigh⟩ := hout
    rw [if_neg (by omega), if_neg (by omega)] at hfirst
    obtain ⟨t, ht, hset, hslot, -⟩ := sets_slot hh hexec hfirst
    exact ⟨t, _, ht, hset, hslot, shaped_map_range _ _ _ (by simp), shaped_map_range _ _ _ (by simp)⟩

/-- Settles O44: the second flush finds the slot as the first one left it. -/
theorem stftFlush : Obligations.StftFlush := by
  intro h s hh
  refine ⟨fun hkind => .of_exec (exec_stftFlush_wrongHandle hh hkind), fun cfg st hs => ?_⟩
  obtain ⟨t, ht, hset, hslot, hpriv⟩ := stftFlush_zeroes hs
  obtain ⟨u, hu, -, hslot', hpriv'⟩ := stftFlush_zeroes hslot
  exact ⟨t, ht, hset, hslot, hpriv, u, hu, hslot'.trans hslot.symm, hpriv'⟩

end Sys2Proof.Machine
end

section
/-! SUPPORT. The four stream commands on a slot of their kind: their tests, and what STFT_FORWARD and STFT_BACKWARD leave
on a good block size and two good buffers (spec/41_stft.md R162, R164; spec/42_qmf.md R191, R195; spec/20_memory.md
R63). -/

namespace Sys2Proof.Machine

/-! The tests of a stream command. -/

/-- The block size is tested before the buffers (R162, R164, R191, R195, R263). -/
theorem firstError_blockSizeTest_cons (size hop : Nat) (ts : Tests) : firstError (blockSizeTest size hop :: ts) =
    if size = 0 ∨ size % hop ≠ 0 then some .blockSize else firstError ts := by
  simp only [blockSizeTest, firstError, Bool.or_eq_true, beq_iff_eq, bne_iff_ne]

/-- The tests of a stream command of hop `hop` that reads one range and writes another. -/
def streamTests (s : State) (hop rBase rSize wBase wSize : Nat) : Tests :=
  blockSizeTest (s.arg 1) hop :: bufferTests s.params.dmemBytes [rBase, wBase] (.between rBase rSize wBase wSize)

section StreamTests

variable {i : Instr} {s p : State} {hop rBase rSize wBase wSize : Nat}

/-- A stream command ends as its block size and its two buffers say (R263). -/
theorem BlockOutcome.of_finish (hexec : exec i s = finish s (streamTests s hop rBase rSize wBase wSize) p)
    (hstatus : p.status = s.status) (herrCmd : p.errCmd = s.errCmd) :
    BlockOutcome i s hop rBase rSize wBase wSize := by
  have hfirst := firstError_blockSizeTest_cons (s.arg 1) hop
    (bufferTests s.params.dmemBytes [rBase, wBase] (.between rBase rSize wBase wSize))
  unfold BlockOutcome
  split_ifs at hfirst ⊢
  · exact .of_finish hexec hfirst
  · refine .of_finish (hexec.trans ?_) hstatus herrCmd
    rw [finish, finish, streamTests, hfirst]

/-- A good block size and good buffers pass the tests. -/
theorem BuffersOk.firstError_streamTests (hok : BuffersOk s rBase rSize wBase wSize) (hne : s.arg 1 ≠ 0)
    (hmod : s.arg 1 % hop = 0) : firstError (streamTests s hop rBase rSize wBase wSize) = none := by
  rw [streamTests, firstError_blockSizeTest_cons, if_neg (by omega), hok.firstError_eq_none]

end StreamTests

/-! The four commands on a slot of their kind. -/

section OnStft

variable {h : Nat} {s : State} {cfg : StftCfg} {st : StftState} (hs : s.slot h = .stft cfg st)
include hs

theorem exec_stftForward : exec (.stftForward h) s =
    finish s (streamTests s cfg.hop (s.arg 0) (4 * cfg.nIn * s.arg 1)
        (s.arg 2) (8 * (cfg.win / 2 + 1) * cfg.nIn * (s.arg 1 / cfg.hop)))
      ((s.setSlot h (.stft cfg (stftForwardState s cfg st))).storeCs (s.arg 2) (stftForwardFrame s cfg st)) := by
  have hh : h < s.numHandles := State.lt_numHandles_of_slot (by simp [hs])
  simp only [exec, execStftForward, onSlot_of_lt _ hh, hs]
  rfl

theorem exec_stftBackward : exec (.stftBackward h) s =
    finish s (streamTests s cfg.hop (s.arg 0) (8 * (cfg.win / 2 + 1) * cfg.nOut * (s.arg 1 / cfg.hop))
        (s.arg 2) (4 * cfg.nOut * s.arg 1))
      ((s.setSlot h (.stft cfg (stftBackwardState s cfg st))).storeF32s (s.arg 2) (stftBackwardBlock s cfg st)) := by
  have hh : h < s.numHandles := State.lt_numHandles_of_slot (by simp [hs])
  simp only [exec, execStftBackward, onSlot_of_lt _ hh, hs]
  rfl

end OnStft

section OnQmf

variable {h : Nat} {s : State} {cfg : QmfCfg} {st : QmfState} (hs : s.slot h = .qmf cfg st)
include hs

theorem exec_qmfAnalysis : exec (.qmfAnalysis h) s =
    finish s (streamTests s cfg.hop (s.arg 0) (4 * cfg.nIn * s.arg 1)
        (s.arg 2) (8 * qmfNBands cfg.hop cfg.hyb * cfg.nIn * (s.arg 1 / cfg.hop)))
      ((s.setSlot h (.qmf cfg (qmfAnalysisState s cfg st))).storeCs (s.arg 2) (qmfAnalysisFrame s cfg st)) := by
  have hh : h < s.numHandles := State.lt_numHandles_of_slot (by simp [hs])
  simp only [exec, execQmfAnalysis, onSlot_of_lt _ hh, hs]
  rfl

theorem exec_qmfSynthesis : exec (.qmfSynthesis h) s =
    finish s (streamTests s cfg.hop (s.arg 0) (8 * qmfNBands cfg.hop cfg.hyb * cfg.nOut * (s.arg 1 / cfg.hop))
        (s.arg 2) (4 * cfg.nOut * s.arg 1))
      ((s.setSlot h (.qmf cfg (qmfSynthesisState s cfg st))).storeF32s (s.arg 2) (qmfSynthesisBlock s cfg st)) := by
  have hh : h < s.numHandles := State.lt_numHandles_of_slot (by simp [hs])
  simp only [exec, execQmfSynthesis, onSlot_of_lt _ hh, hs]
  rfl

end OnQmf

/-- Settles O38: each of the four commands tests its block size, then its two ranges, and nothing else. -/
theorem streamErrors : Obligations.StreamErrors :=
  fun _ _ _ =>
    ⟨fun _ _ hs => ⟨.of_finish (exec_stftForward hs) rfl rfl, .of_finish (exec_stftBackward hs) rfl rfl⟩,
      fun _ _ hs => ⟨.of_finish (exec_qmfAnalysis hs) rfl rfl, .of_finish (exec_qmfSynthesis hs) rfl rfl⟩⟩

/-! What a stream command that completes leaves: its slot, and a frame or a time block in its write range (R63). -/

theorem StreamStored.complete_storeCs (s : State) (h : Nat) (hd : Handle) (base : Nat) (x : List C32) :
    StreamStored s ((s.setSlot h hd).storeCs base x).complete h base (8 * x.length) :=
  ⟨⟨rfl, rfl⟩, ⟨⟨rfl, State.numHandles_setSlot s h hd⟩, rfl, rfl, rfl, rfl, rfl, rfl⟩, rfl,
    fun _ hne => State.slot_setSlot_ne s hd hne, fun a ha => State.readByte_storeCs_outside _ base x a ha⟩

theorem StreamStored.complete_storeF32s (s : State) (h : Nat) (hd : Handle) (base : Nat) (x : List F32) :
    StreamStored s ((s.setSlot h hd).storeF32s base x).complete h base (4 * x.length) :=
  ⟨⟨rfl, rfl⟩, ⟨⟨rfl, State.numHandles_setSlot s h hd⟩, rfl, rfl, rfl, rfl, rfl, rfl⟩, rfl,
    fun _ hne => State.slot_setSlot_ne s hd hne, fun a ha => State.readByte_storeF32s_outside _ base x a ha⟩

/-- Element (b, c, k) of a frame read back as it was stored (R63). -/
theorem State.loadC_storeCs_frameOf (s : State) (base : Nat) {B C T b c k : Nat}
    (elem : Nat → Nat → Nat → C32) (hb : b < B) (hc : c < C) (hk : k < T) :
    (s.storeCs base (frameOf B C T elem)).loadC (base + 8 * ((b * C + c) * T + k)) = elem b c k := by
  obtain ⟨hlt, helem⟩ := List.getElem?_eq_some_iff.mp (getElem?_frameOf elem hb hc hk)
  rw [State.loadC_storeCs _ _ _ _ hlt, helem]

/-- Sample (c, n) of a time block read back as it was stored (R63). -/
theorem State.loadF32_storeF32s_blockOf (s : State) (base : Nat) {C N c n : Nat} (elem : Nat → Nat → F32) (hc : c < C)
    (hn : n < N) : (s.storeF32s base (blockOf C N elem)).loadF32 (base + 4 * (c * N + n)) = elem c n := by
  obtain ⟨hlt, helem⟩ := List.getElem?_eq_some_iff.mp (getElem?_blockOf elem hc hn)
  rw [State.loadF32_storeF32s _ _ _ _ hlt, helem]

section Stored

variable {i : Instr} {s : State} {h hop rBase rSize wBase : Nat} {hd : Handle} (hh : h < s.numHandles)
  (hne : s.arg 1 ≠ 0) (hmod : s.arg 1 % hop = 0)
include hh hne hmod

/-- A stream command that sets its slot and stores a frame over its write range, on a good block size and two good
buffers. -/
theorem stores_frame {B C T : Nat} {elem : Nat → Nat → Nat → C32}
    (hexec : exec i s = finish s (streamTests s hop rBase rSize wBase (8 * B * C * T))
      ((s.setSlot h hd).storeCs wBase (frameOf B C T elem)))
    (hok : BuffersOk s rBase rSize wBase (8 * B * C * T)) :
    ∃ t, exec i s = .next t ∧ StreamStored s t h wBase (8 * B * C * T) ∧ t.slot h = hd ∧
      ∀ b < B, ∀ c < C, ∀ k < T, t.loadC (wBase + 8 * ((b * C + c) * T + k)) = elem b c k := by
  have hsize : 8 * (frameOf B C T elem).length = 8 * B * C * T := by rw [length_frameOf]; ring
  exact ⟨_, hexec.trans (finish_of_none _ (hok.firstError_streamTests hne hmod)),
    hsize ▸ .complete_storeCs s h hd wBase _, State.slot_setSlot_self s h hd hh,
    fun b hb c hc k hk => State.loadC_storeCs_frameOf _ wBase elem hb hc hk⟩

/-- A stream command that sets its slot and stores a time block over its write range, on a good block size and two good
buffers. -/
theorem stores_block {C N : Nat} {elem : Nat → Nat → F32}
    (hexec : exec i s = finish s (streamTests s hop rBase rSize wBase (4 * C * N))
      ((s.setSlot h hd).storeF32s wBase (blockOf C N elem)))
    (hok : BuffersOk s rBase rSize wBase (4 * C * N)) :
    ∃ t, exec i s = .next t ∧ StreamStored s t h wBase (4 * C * N) ∧ t.slot h = hd ∧
      ∀ c < C, ∀ n < N, t.loadF32 (wBase + 4 * (c * N + n)) = elem c n := by
  have hsize : 4 * (blockOf C N elem).length = 4 * C * N := by rw [length_blockOf]; ring
  exact ⟨_, hexec.trans (finish_of_none _ (hok.firstError_streamTests hne hmod)),
    hsize ▸ .complete_storeF32s s h hd wBase _, State.slot_setSlot_self s h hd hh,
    fun c hc n hn => State.loadF32_storeF32s_blockOf _ wBase elem hc hn⟩

end Stored

/-- Component `f` of what channel `c` of a list of channels leaves. -/
theorem getD_map_map_range {α β : Type} {n c : Nat} (run : Nat → α) (f : α → β) (d : β) (hc : c < n) :
    (((List.range n).map run).map f).getD c d = f (run c) := by
  rw [List.map_map, getD_map_range _ _ _ _ hc, Function.comp_apply]

/-- Settles O39: the channels are independent runs (R163), whose spectra are the elements of the frame. -/
theorem stftForwardCompletes : Obligations.StftForwardCompletes := by
  intro h s cfg st hh hs hne hmod hok
  obtain ⟨t, ht, hstored, hslot, hframe⟩ := stores_frame hh hne hmod (exec_stftForward hs) hok
  refine ⟨t, _, ht, hstored, hslot, by simp [stftForwardAll],
    fun c hc => ⟨getD_map_map_range _ _ _ hc, fun b hb k hk => ?_⟩⟩
  rw [hframe b hb c hc k hk, stftForwardAll, getD_map_map_range _ _ _ hc]
  rfl

/-- Settles O41: the channels are independent runs (R163), whose samples are the elements of the time block. -/
theorem stftBackwardCompletes : Obligations.StftBackwardCompletes := by
  intro h s cfg st hh hs hne hmod hok
  obtain ⟨t, ht, hstored, hslot, hblock⟩ := stores_block hh hne hmod (exec_stftBackward hs) hok
  refine ⟨t, _, ht, hstored, hslot, by simp [stftBackwardAll],
    fun c hc => ⟨getD_map_map_range _ _ _ hc, fun n hn => ?_⟩⟩
  rw [hblock c hc n hn, stftBackwardAll, getD_map_map_range _ _ _ hc]
  rfl

end Sys2Proof.Machine
end

section
/-! SUPPORT. The QMF filterbank: what its OPEN parameters promise, QMF_CREATE on a FREE slot, what QMF_ANALYSIS and
QMF_SYNTHESIS leave on a good block size and two good buffers, their hops, and QMF_GET_CENTRE_FREQS on a QMF slot
(spec/42_qmf.md R181 to R195; spec/20_memory.md R63). -/

namespace Sys2Proof.Machine

/-- Settles O45: these are properties of every QMF filterbank of the model. -/
theorem qmfParameters : Obligations.QmfParameters :=
  ⟨Config.qmf.someHop, Config.qmf.noZeroHop, fun hop hok =>
    ⟨Config.qmf.someBand hop false hok, Config.qmf.moreBands hop hok, Config.qmf.moreDelay hop hok⟩⟩

/-! QMF_CREATE. -/

/-- The code that the tests of QMF_CREATE report: the first that applies (R190). -/
theorem firstError_qmfCreateTests (s : State) (hop hyb nIn nOut : Nat) :
    firstError (qmfCreateTests s hop hyb nIn nOut) =
      if hop = 0 ∨ 1 < hyb then some .badParam
      else if nIn = 0 ∨ nOut = 0 ∨ s.params.maxChannels < nIn ∨ s.params.maxChannels < nOut then some .badParam
      else if qmfHopOk hop = false then some .unsupportedLength
      else if s.privFree < qmfStateWords hop (hyb == 1) nIn nOut then some .noResources
      else none := by
  simp only [qmfCreateTests, firstError, Bool.or_eq_true, beq_iff_eq, decide_eq_true_eq, or_assoc, Bool.not_eq_true']

/-- Arguments that R190 accepts leave the pool test only; an accepted hop is not 0 (R181). -/
theorem firstError_qmfCreateTests_of_accepted {s : State} {hop hyb nIn nOut : Nat} (hok : qmfHopOk hop = true)
    (hhyb : hyb ≤ 1) (hin : countOk s.params nIn) (hout : countOk s.params nOut) :
    firstError (qmfCreateTests s hop hyb nIn nOut) =
      if qmfStateWords hop (hyb == 1) nIn nOut ≤ s.privFree then none else some .noResources := by
  have hhop : hop ≠ 0 := by
    rintro rfl
    exact absurd Config.qmf.noZeroHop (by simpa [qmfHopOk] using hok)
  obtain ⟨hinLow, hinHigh⟩ := hin
  obtain ⟨houtLow, houtHigh⟩ := hout
  rw [firstError_qmfCreateTests, if_neg (by omega), if_neg (by omega), if_neg (by simp [hok])]
  simp only [← not_le, ite_not]

theorem exec_qmfCreate {h : Nat} {s : State} (hh : h < s.numHandles) (hfree : s.slot h = .free) :
    exec (.qmfCreate h) s = finish s (qmfCreateTests s (s.arg 0) (s.arg 1) (s.arg 2) (s.arg 3))
      (s.setSlot h (.qmf ⟨s.arg 0, s.arg 1 == 1, s.arg 2, s.arg 3⟩
        (QmfCfg.initState ⟨s.arg 0, s.arg 1 == 1, s.arg 2, s.arg 3⟩))) := by
  simp only [exec, execQmfCreate, onSlot_of_lt _ hh, hfree]

/-- Settles O46, from the tests of QMF_CREATE on a FREE slot and the rejection of every create command on a slot in
use. -/
theorem qmfCreate : Obligations.QmfCreate := by
  intro h s hh
  refine ⟨fun hused => .of_exec (exec_handleInUse rfl hused), fun hfree => ?_,
    fun hfree hok hhyb hin hout => ?_⟩
  all_goals have hexec := exec_qmfCreate hh hfree
  · have hfirst := firstError_qmfCreateTests s (s.arg 0) (s.arg 1) (s.arg 2) (s.arg 3)
    split_ifs at hfirst ⊢
    case neg => exact .of_finish hexec hfirst rfl rfl
    all_goals exact .of_finish hexec hfirst
  · have hfirst := firstError_qmfCreateTests_of_accepted hok hhyb hin hout
    split_ifs at hfirst ⊢
    case pos =>
      obtain ⟨t, ht, hset, hslot, -⟩ := sets_slot hh hexec hfirst
      exact ⟨t, ht, hset, hslot⟩
    case neg =>
      obtain ⟨t, ht, hrejected, -, -, hslots, -⟩ := Rejects.of_finish hexec hfirst
      exact ⟨t, ht, hrejected, hslots⟩

/-! QMF_ANALYSIS and QMF_SYNTHESIS. -/

/-- Settles O47: the channels are independent runs (R189), whose bands are the elements of the frame. -/
theorem qmfAnalysisCompletes : Obligations.QmfAnalysisCompletes := by
  intro h s cfg st hh hs hne hmod hok
  obtain ⟨t, ht, hstored, hslot, hframe⟩ := stores_frame hh hne hmod (exec_qmfAnalysis hs) hok
  refine ⟨t, _, ht, hstored, hslot, by simp [qmfAnalysisAll],
    fun c hc => ⟨getD_map_map_range _ _ _ hc, fun b hb k hk => ?_⟩⟩
  rw [hframe b hb c hc k hk, qmfAnalysisAll, getD_map_map_range _ _ _ hc]
  rfl

/-- Settles O48: the channels are independent runs (R189), whose samples are the elements of the time block. -/
theorem qmfSynthesisCompletes : Obligations.QmfSynthesisCompletes := by
  intro h s cfg st hh hs hne hmod hok
  obtain ⟨t, ht, hstored, hslot, hblock⟩ := stores_block hh hne hmod (exec_qmfSynthesis hs) hok
  refine ⟨t, _, ht, hstored, hslot, by simp [qmfSynthesisAll],
    fun c hc => ⟨getD_map_map_range _ _ _ hc, fun n hn => ?_⟩⟩
  rw [hblock c hc n hn, qmfSynthesisAll, getD_map_map_range _ _ _ hc]
  rfl

/-! The hops of a channel. -/

section Hops

variable (e : Nat) (cfg : QmfCfg) (chan slot : Nat) (st : List Word)

/-- A block of several hops is its hops one after another (R191). -/
theorem qmfAnalysisChannel_append (front back : List (List F32)) :
    qmfAnalysisChannel e cfg chan slot st (front ++ back) =
      ((qmfAnalysisChannel e cfg chan (slot + front.length) (qmfAnalysisChannel e cfg chan slot st front).1 back).1,
        (qmfAnalysisChannel e cfg chan slot st front).2 ++
          (qmfAnalysisChannel e cfg chan (slot + front.length)
            (qmfAnalysisChannel e cfg chan slot st front).1 back).2) := by
  induction front generalizing slot st with
  | nil => rfl
  | cons new front ih =>
    have hslot : slot + (front.length + 1) = slot + 1 + front.length := by omega
    simp only [List.cons_append, qmfAnalysisChannel, List.length_cons, hslot, ih]

/-- A block of several slots is its slots one after another (R195). -/
theorem qmfSynthesisChannel_append (front back : List (List C32)) :
    qmfSynthesisChannel e cfg chan slot st (front ++ back) =
      ((qmfSynthesisChannel e cfg chan (slot + front.length) (qmfSynthesisChannel e cfg chan slot st front).1 back).1,
        (qmfSynthesisChannel e cfg chan slot st front).2 ++
          (qmfSynthesisChannel e cfg chan (slot + front.length)
            (qmfSynthesisChannel e cfg chan slot st front).1 back).2) := by
  induction front generalizing slot st with
  | nil => rfl
  | cons bins front ih =>
    have hslot : slot + (front.length + 1) = slot + 1 + front.length := by omega
    simp only [List.cons_append, qmfSynthesisChannel, List.length_cons, hslot, ih, List.append_assoc]

/-- A hop of finite samples is QMF_ANA_HOP (R186, R123). -/
theorem qmfAnaHop_of_finite {x : List F32} (hx : allFinite x = true) :
    qmfAnaHop e cfg chan slot st x = Config.qmf.anaHop cfg.hop cfg.hyb st x := if_pos hx

/-- A slot of finite values is QMF_SYN_HOP (R187, R123). -/
theorem qmfSynHop_of_finite {x : List C32} (hx : allFinite (flatten x) = true) :
    qmfSynHop e cfg chan slot st x = Config.qmf.synHop cfg.hop cfg.hyb st x := if_pos hx

/-- On finite samples neither the epoch of free values nor the number of the first slot matters (R189). -/
theorem qmfAnalysisChannel_congr_of_finite (e' slot' : Nat) {hops : List (List F32)}
    (hfinite : ∀ x ∈ hops, allFinite x = true) :
    qmfAnalysisChannel e cfg chan slot st hops = qmfAnalysisChannel e' cfg chan slot' st hops := by
  induction hops generalizing slot slot' st with
  | nil => rfl
  | cons new hops ih =>
    obtain ⟨hnew, hrest⟩ := List.forall_mem_cons.mp hfinite
    simp only [qmfAnalysisChannel, qmfAnaHop_of_finite _ _ _ _ _ hnew, ih (slot + 1) _ (slot' + 1) hrest]

/-- On finite values neither the epoch of free values nor the number of the first slot matters (R189). -/
theorem qmfSynthesisChannel_congr_of_finite (e' slot' : Nat) {bins : List (List C32)}
    (hfinite : ∀ x ∈ bins, allFinite (flatten x) = true) :
    qmfSynthesisChannel e cfg chan slot st bins = qmfSynthesisChannel e' cfg chan slot' st bins := by
  induction bins generalizing slot slot' st with
  | nil => rfl
  | cons new bins ih =>
    obtain ⟨hnew, hrest⟩ := List.forall_mem_cons.mp hfinite
    simp only [qmfSynthesisChannel, qmfSynHop_of_finite _ _ _ _ _ hnew, ih (slot + 1) _ (slot' + 1) hrest]

end Hops

/-- Settles O49, hop by hop in both directions. -/
theorem qmfBlocksCompose : Obligations.QmfBlocksCompose := by
  intro e cfg chan slot st
  refine ⟨qmfAnalysisChannel_append e cfg chan slot st, qmfSynthesisChannel_append e cfg chan slot st,
    fun x hx => ?_, fun x hx => ?_, fun e' slot' _ => qmfAnalysisChannel_congr_of_finite e cfg chan slot st e' slot',
    fun e' slot' _ => qmfSynthesisChannel_congr_of_finite e cfg chan slot st e' slot'⟩
  · simp only [qmfAnalysisChannel, qmfAnaHop_of_finite _ _ _ _ _ hx]
  · simp only [qmfSynthesisChannel, qmfSynHop_of_finite _ _ _ _ _ hx, List.append_nil]

/-! QMF_GET_CENTRE_FREQS. -/

/-- A magnitude is zero where every bit below the sign is (R62). -/
theorem f32Mag_eq_zero_iff {a : F32} : f32Mag a = 0 ↔ a.toNat % 2 ^ 31 = 0 := by
  unfold f32Mag f32Exp f32Frac
  split_ifs with hexp
  · omega
  · have hpos : 0 < (2 ^ 23 + a.toNat % 2 ^ 23) * 2 ^ (a.toNat / 2 ^ 23 % 256 - 1) := by positivity
    omega

/-- A sample rate is finite and greater than 0 where its bits are not 0 and below those of infinity (R194). -/
theorem sampleRateOk_iff {fs : F32} : sampleRateOk fs = true ↔ fs.toNat ≠ 0 ∧ fs.toNat < 0x7F800000 := by
  have hbits := fs.isLt
  have hmag := f32Mag_eq_zero_iff (a := fs)
  simp only [sampleRateOk, f32IsFinite, f32Neg, f32Exp, Bool.and_eq_true, bne_iff_ne, Bool.not_eq_true',
    decide_eq_false_iff_not, ne_eq, hmag]
  omega

/-- The code that the buffer tests of one written range report: the first that applies (R66, R67, R263). -/
theorem firstError_bufferTests_writes (dmem base size : Nat) :
    firstError (bufferTests dmem [base] ⟨none, some ⟨base, size⟩⟩) =
      if base % 4 ≠ 0 then some .misaligned else if dmem < base + size then some .outOfRange else none := by
  simp [bufferTests, firstError, inRange_writes, Footprint.disjoint]

/-- The argument of a sample rate holds its bits. -/
theorem State.toNat_ofNat_arg (s : State) (k : Nat) : (BitVec.ofNat 32 (s.arg k)).toNat = s.arg k := by
  rw [State.arg, argAt]
  simp

/-- The code that the tests of QMF_GET_CENTRE_FREQS report: the first that applies (R194). -/
theorem firstError_centreFreqsTests (s : State) (cfg : QmfCfg) : firstError (centreFreqsTests s cfg) =
    if s.arg 0 = 0 ∨ 0x7F800000 ≤ s.arg 0 then some .badParam
    else if s.arg 1 ≠ qmfNBands cfg.hop cfg.hyb then some .dimension
    else if s.arg 2 % 4 ≠ 0 then some .misaligned
    else if s.params.dmemBytes < s.arg 2 + 4 * qmfNBands cfg.hop cfg.hyb then some .outOfRange
    else none := by
  have hrate : (!sampleRateOk (BitVec.ofNat 32 (s.arg 0))) = true ↔ s.arg 0 = 0 ∨ 0x7F800000 ≤ s.arg 0 := by
    rw [Bool.not_eq_true', ← Bool.not_eq_true, sampleRateOk_iff, State.toNat_ofNat_arg]
    omega
  have hbuffer := firstError_bufferTests_writes s.params.dmemBytes (s.arg 2) (4 * qmfNBands cfg.hop cfg.hyb)
  simp only [centreFreqsTests, List.cons_append, List.nil_append, firstError, hrate, bne_iff_ne]
  rw [← hbuffer]
  rfl

section OnQmf

variable {h : Nat} {s : State} {cfg : QmfCfg} {st : QmfState} (hs : s.slot h = .qmf cfg st)
include hs

theorem exec_qmfGetCentreFreqs : exec (.qmfGetCentreFreqs h) s =
    finish s (centreFreqsTests s cfg) (s.storeF32s (s.arg 2) (centreFreqs s cfg)) := by
  have hh : h < s.numHandles := State.lt_numHandles_of_slot (by simp [hs])
  simp only [exec, execQmfGetCentreFreqs, onSlot_of_lt _ hh, hs]

/-- Where every test passes, the centre frequencies stand at dst, and nothing else changes (R194). -/
theorem qmfGetCentreFreqs_stores (hfirst : firstError (centreFreqsTests s cfg) = none) :
    ∃ t, exec (.qmfGetCentreFreqs h) s = .next t ∧ BlockStored s t (s.arg 2) (4 * qmfNBands cfg.hop cfg.hyb) ∧
      ∀ k < qmfNBands cfg.hop cfg.hyb,
        t.loadF32 (s.arg 2 + 4 * k) = Config.qmf.cf cfg.hop cfg.hyb (BitVec.ofNat 32 (s.arg 0)) k := by
  have hlen : (centreFreqs s cfg).length = qmfNBands cfg.hop cfg.hyb := by simp [centreFreqs, QmfCfg.bands]
  refine ⟨_, (exec_qmfGetCentreFreqs hs).trans (finish_of_none _ hfirst), hlen ▸ .complete_storeF32s s _ _,
    fun k hk => ?_⟩
  rw [State.loadF32_complete, State.loadF32_storeF32s s _ _ k (hlen ▸ hk)]
  simp [centreFreqs]

end OnQmf

/-- Settles O51: the tests in order, and the centre frequencies where every test passes. -/
theorem qmfGetCentreFreqs : Obligations.QmfGetCentreFreqs := by
  intro h s cfg st hh hs
  have hexec := exec_qmfGetCentreFreqs hs
  have hfirst := firstError_centreFreqsTests s cfg
  refine ⟨?_, fun hne hlt halign => ?_⟩
  · split_ifs at hfirst ⊢
    case neg => exact .of_finish hexec hfirst rfl rfl
    all_goals exact .of_finish hexec hfirst
  · rw [if_neg (by omega), if_neg (not_not.mpr halign)] at hfirst
    split_ifs at hfirst ⊢
    case neg => exact qmfGetCentreFreqs_stores hs hfirst
    all_goals
      obtain ⟨t, ht, hrejected, -, -, hslots, hmem⟩ := Rejects.of_finish hexec hfirst
      exact ⟨t, ht, hrejected, hslots, hmem⟩

end Sys2Proof.Machine
end

section
/-! SUPPORT. The convolution commands: the tests of CONV_CREATE on a FREE slot and the handle it makes, what CONV_APPLY
leaves on two good buffers, and the source's configuration (spec/43_conv.md R211, R212, R220 to R224). -/

namespace Sys2Proof.Machine

/-! CONV_CREATE. -/

/-- The buffer tests of a command that only reads one range: the first that applies (R66, R67, R263). -/
theorem firstError_bufferTests_reads_append (dmem base size : Nat) (ts : Tests) :
    firstError (bufferTests dmem [base] ⟨some ⟨base, size⟩, none⟩ ++ ts) =
      if base % 4 ≠ 0 then some .misaligned else if dmem < base + size then some .outOfRange else firstError ts := by
  simp [bufferTests, firstError, inRange_reads, Footprint.disjoint]

section ConvCreate

variable {h : Nat} {s : State} {cfg : ConvCfg} (hcfg : cfg = ⟨s.arg 0, s.arg 1, s.arg 2, s.arg 3⟩)
include hcfg

/-- The code that the tests of CONV_CREATE report: the first that applies (R220). -/
theorem firstError_convCreateTests : firstError (convCreateTests s cfg) =
    if cfg.block = 0 ∨ cfg.len = 0 ∨ cfg.nIn = 0 ∨ cfg.nOut = 0 then some .badParam
    else if s.params.maxChannels < cfg.nIn ∨ s.params.maxChannels < cfg.nOut then some .badParam
    else if s.params.fftSupported (2 * cfg.block) = false then some .unsupportedLength
    else if s.arg 4 % 4 ≠ 0 then some .misaligned
    else if s.params.dmemBytes < s.arg 4 + 4 * cfg.nOut * cfg.nIn * cfg.len then some .outOfRange
    else if s.privFree < 2 * (cfg.block + 1) * ceilDiv cfg.len cfg.block * cfg.nIn * cfg.nOut +
        2 * (cfg.block + 1) * ceilDiv cfg.len cfg.block * cfg.nIn + cfg.block * cfg.nIn then some .noResources
    else none := by
  have hmatrix : convCreateFootprint s.latch.arg = ⟨some ⟨s.arg 4, 4 * cfg.nOut * cfg.nIn * cfg.len⟩, none⟩ := by
    rw [hcfg]
    rfl
  simp only [convCreateTests, hmatrix, List.cons_append, List.nil_append, firstError,
    firstError_bufferTests_reads_append, Bool.or_eq_true, beq_iff_eq, decide_eq_true_eq, or_assoc, Bool.not_eq_true']
  -- What is left is that `Handle.req` of a CONV handle is the sum of R41.
  rfl

/-- Arguments that R220 accepts pass the tests; a supported length of 2B makes the block size positive. -/
theorem firstError_convCreateTests_of_accepted (hlen : cfg.len ≠ 0) (hin : countOk s.params cfg.nIn)
    (hout : countOk s.params cfg.nOut) (hblock : s.params.fftSupported (2 * cfg.block) = true) (halign : s.arg 4 % 4 = 0)
    (hmatrix : s.arg 4 + 4 * cfg.nOut * cfg.nIn * cfg.len ≤ s.params.dmemBytes)
    (hpool : 2 * (cfg.block + 1) * ceilDiv cfg.len cfg.block * cfg.nIn * cfg.nOut +
      2 * (cfg.block + 1) * ceilDiv cfg.len cfg.block * cfg.nIn + cfg.block * cfg.nIn ≤ s.privFree) :
    firstError (convCreateTests s cfg) = none := by
  obtain ⟨-, hdouble, -⟩ := Params.bounds_of_fftSupported hblock
  obtain ⟨hinLow, hinHigh⟩ := hin
  obtain ⟨houtLow, houtHigh⟩ := hout
  rw [firstError_convCreateTests hcfg, if_neg (by omega), if_neg (by omega), if_neg (by simp [hblock]),
    if_neg (by omega), if_neg (not_lt.mpr hmatrix), if_neg (not_lt.mpr hpool)]

theorem exec_convCreate (hh : h < s.numHandles) (hfree : s.slot h = .free) : exec (.convCreate h) s =
    finish s (convCreateTests s cfg) (s.setSlot h (.conv cfg (s.convInit cfg (s.arg 4)))) := by
  subst hcfg
  simp only [exec, execConvCreate, onSlot_of_lt _ hh, hfree]

end ConvCreate

/-- The spectrum of partition `p` of the filter from input `i` to output `o`, as CONV_CREATE stores it (R211). -/
theorem getD_partitionSpectra (s : State) {cfg : ConvCfg} (flt : Nat) {o i p : Nat} (ho : o < cfg.nOut) (hi : i < cfg.nIn)
    (hp : p < cfg.parts) : (((s.partitionSpectra cfg flt).getD o []).getD i []).getD p [] =
      rfft s.draws ⟨.convPartition, p, i, o, 0⟩ (2 * cfg.block) (s.partition cfg flt o i p) := by
  rw [State.partitionSpectra, getD_map_range _ _ _ _ ho, getD_map_range _ _ _ _ hi, getD_map_range _ _ _ _ hp]

/-- Settles O52, from the tests of CONV_CREATE on a FREE slot and the rejection of every create command on a slot in
use. -/
theorem convCreate : Obligations.ConvCreate := by
  intro h s cfg hh hcfg
  refine ⟨fun hused => .of_exec (exec_handleInUse rfl hused), fun hfree => ?_,
    fun hfree hlen hin hout hblock halign hmatrix hpool => ?_⟩
  all_goals have hexec := exec_convCreate hcfg hh hfree
  · have hfirst := firstError_convCreateTests hcfg
    split_ifs at hfirst ⊢
    case neg => exact .of_finish hexec hfirst rfl rfl
    all_goals exact .of_finish hexec hfirst
  · have hfirst := firstError_convCreateTests_of_accepted hcfg hlen hin hout hblock halign hmatrix hpool
    obtain ⟨t, ht, hset, hslot, -⟩ := sets_slot hh hexec hfirst
    exact ⟨t, _, ht, hset, hslot, rfl, rfl, rfl, fun o ho i hi p hp => getD_partitionSpectra s (s.arg 4) ho hi hp⟩

/-! CONV_APPLY. -/

/-- Bin `k` of one multiply-accumulate step of finite spectra (R222). -/
theorem getD_macStep {bins k : Nat} {y hf x : List C32} (hy : y.all c32IsFinite = true) (hhf : hf.all c32IsFinite = true)
    (hx : x.all c32IsFinite = true) (hk : k < bins) (e : Nat) (st : DrawSite) :
    (macStep e st bins y hf x).getD k c32Zero =
      cadd ⟨nanOf (freeC32 e st k).re, nanOf (freeC32 e st k).im⟩ (y.getD k c32Zero)
        (cmul ⟨nanOf (freeC32 e st k).re, nanOf (freeC32 e st k).im⟩ (hf.getD k c32Zero) (x.getD k c32Zero)) := by
  rw [macStep, getD_map_range _ _ _ _ hk, if_pos (by rw [hy, hhf, hx]; rfl)]

/-- A command whose tests pass, that sets its slot and stores a time block over its write range (R63, R243). -/
theorem stores_block_of_tests {i : Instr} {s : State} {h wBase C N : Nat} {hd : Handle} {ts : Tests}
    {elem : Nat → Nat → F32} (hh : h < s.numHandles)
    (hexec : exec i s = finish s ts ((s.setSlot h hd).storeF32s wBase (blockOf C N elem)))
    (hfirst : firstError ts = none) :
    ∃ t, exec i s = .next t ∧ StreamStored s t h wBase (4 * C * N) ∧ t.slot h = hd ∧
      ∀ c < C, ∀ n < N, t.loadF32 (wBase + 4 * (c * N + n)) = elem c n := by
  have hsize : 4 * (blockOf C N elem).length = 4 * C * N := by rw [length_blockOf, Nat.mul_assoc]
  exact ⟨_, hexec.trans (finish_of_none _ hfirst), hsize ▸ .complete_storeF32s s h hd wBase _,
    State.slot_setSlot_self s h hd hh, fun c hc n hn => State.loadF32_storeF32s_blockOf _ wBase elem hc hn⟩

/-- Settles O53: the command stores the last B samples of each inverse, and leaves the history they come from. -/
theorem convApplyCompletes : Obligations.ConvApplyCompletes := by
  refine ⟨fun e st bins y hf x hy hhf hx => ⟨length_macStep .., fun k hk => getD_macStep hy hhf hx hk e st⟩,
    fun h s cfg st hh hs hok => ?_⟩
  obtain ⟨t, ht, hstored, hslot, hblock⟩ := stores_block_of_tests hh (exec_convApply hs) hok.firstError_eq_none
  exact ⟨t, s.convHist cfg st, ht, hstored, hslot, by simp [State.convHist], fun i hi => getD_map_range _ _ _ _ hi,
    hblock⟩

/-! The source's configuration. -/

/-- FREE slots own no word of the pool (R41). -/
theorem State.privUsed_of_all_free {s : State} (hfree : ∀ k, s.slot k = .free) : s.privUsed = 0 := by
  have hhandles : s.handles = List.replicate s.numHandles .free :=
    List.ext_getElem (by simp [State.numHandles]) fun k hk _ => by simpa [State.slot, hk] using hfree k
  simp [State.privUsed, hhandles, Handle.req]

/-- What is left of an empty pool once one slot has its words (R31, R41). -/
theorem State.privFree_setSlot_of_all_free {s : State} {h : Nat} (hh : h < s.numHandles) (hfree : ∀ k, s.slot k = .free)
    (hd : Handle) : (s.setSlot h hd).privFree = s.params.privWords - hd.req := by
  have hset := State.privUsed_setSlot s h hd hh
  rw [hfree h, State.privUsed_of_all_free hfree, Nat.zero_add] at hset
  exact congrArg (s.params.privWords - ·) hset

/-- The source's block size has a supported transform length, whatever the parameters (R6, R212). -/
theorem fftSupported_double_sourceBlock {p : Params} (h : p.Ok) : p.fftSupported (2 * 2048) = true :=
  h.powers 12 (by decide) (le_trans (by decide) h.nmaxLow)

/-- Settles O54: the tests of CONV_CREATE pass within the bounds of R6, and the handle takes 5,442,112 words. -/
theorem sourceConvolutionAccepted : Obligations.SourceConvolutionAccepted := by
  rintro h s ⟨hparams, -⟩ hh hfree hB hL hIn hOut halign hmatrix
  have hcfg : (⟨2048, 512, 32, 40⟩ : ConvCfg) = ⟨s.arg 0, s.arg 1, s.arg 2, s.arg 3⟩ := by rw [hB, hL, hIn, hOut]
  have hchannels : 40 ≤ s.params.maxChannels := hparams.channelsLow
  have hpool : 5442112 ≤ s.privFree := by
    rw [State.privFree, State.privUsed_of_all_free hfree]
    exact hparams.privLow
  have hfirst := firstError_convCreateTests_of_accepted hcfg (by decide) ⟨by decide, le_trans (by decide) hchannels⟩
    ⟨by decide, hchannels⟩ (fftSupported_double_sourceBlock hparams) halign hmatrix hpool
  obtain ⟨t, ht, ⟨hdone, -⟩, hslot, hpriv⟩ := sets_slot hh (exec_convCreate hcfg hh (hfree h)) hfirst
  have hleft : t.privFree = s.params.privWords - 5442112 := hpriv.trans (State.privFree_setSlot_of_all_free hh hfree _)
  exact ⟨t, ht, hdone, by rw [hslot]; rfl, hleft, fun hdefault => by rw [hleft, hdefault]; rfl⟩

end Sys2Proof.Machine
end

section
/-! SUPPORT. What the engine step makes of the latched word, the host's writes to CMD, the argument registers, STATUS
and CTRL, and DESTROY (spec/44_system.md R240 to R246, spec/70_reset_and_hazards.md R291). -/

namespace Sys2Proof.Machine

/-! The engine step. -/

/-- Settles O6, from the engine step on each result of the decoder, and the slot test that every command makes first. -/
theorem preludeOrder : Obligations.PreludeOrder :=
  fun s => ⟨fun _ he => ⟨_, engineStep_of_error he, .reject s _⟩,
    fun i hi hh => ⟨engineStep_of_ok hi, .of_exec (exec_badHandle i s hh)⟩, fun _ hi _ => engineStep_of_ok hi⟩

/-- The two ends of the engine step: a rejection with an error's code, or one effect and completion (R12, R243). -/
theorem engineStep_cases (s : State) :
    (∃ c, c ≠ .noError ∧ engineStep s = .next (s.reject c)) ∨
      ∃ h e, engineStep s = .next (s.perform h e).complete := by
  cases hdecode : decode s.latch.cmd with
  | error e => exact .inl ⟨.illegalCmd, by decide, engineStep_of_error hdecode⟩
  | ok i =>
    rw [engineStep_of_ok hdecode]
    rcases exec_shape i s with hrej | ⟨e, -, -, -, hperf⟩
    · exact .inl hrej
    · exact .inr ⟨i.hid, e, hperf⟩

/-- Settles O10: an effect leaves STATUS and ERR_CMD to the completion, and a rejection the rest of the state alone. -/
theorem engineStepEndsCommand : Obligations.EngineStepEndsCommand := by
  intro s
  rcases engineStep_cases s with ⟨c, hc, hrej⟩ | ⟨h, e, hperf⟩
  · exact ⟨_, hrej, rfl, .inr ⟨c, hc, .reject s c, .reject s c, rfl, rfl, rfl, rfl⟩⟩
  · exact ⟨_, hperf, rfl, .inl ⟨rfl, rfl⟩⟩

theorem decode_of_decodeTableWord {nbits w : Nat} {i : Instr} (h : decodeTableWord nbits w = some i) :
    decode (BitVec.ofNat 32 (w % 2 ^ nbits)) = .ok i := by
  obtain ⟨-, hdecode⟩ := Option.ite_none_right_eq_some.mp h
  cases hword : decode (BitVec.ofNat 32 (w % 2 ^ nbits)) with
  | error e => simp [hword, Except.toOption] at hdecode
  | ok j => simpa [hword, Except.toOption] using hdecode

/-- Settles O8: the placed word is latched with BUSY set and no access before the engine. -/
theorem placedWordRuns : Obligations.PlacedWordRuns := by
  intro s nbits w i htable
  have hturn : step (s.withFetchWord nbits w) = engineStep (s.withFetchWord nbits w) :=
    step_eq_engineStep rfl (.inr rfl)
  exact hturn.trans (engineStep_of_ok (decode_of_decodeTableWord htable))

/-! Writes to CMD and to the argument registers. -/

theorem hostStep_wr_cmd (s : State) (w : Word) : hostStep (wr 0x00C w) s = .next (s.offerCommand w) :=
  hostStep_wr (by decide) (by decide) s w

theorem State.offerCommand_ignored {s : State} (h : s.status.busy = true ∨ s.status.err = true) (w : Word) :
    s.offerCommand w = { s with status := { s.status with ign := true } } :=
  if_pos (Bool.or_eq_true_iff.mpr h)

/-- An accepted command, as an access of the host (R241). -/
theorem hostStep_accept {s : State} (hbusy : s.status.busy = false) (herr : s.status.err = false) (w : Word) :
    hostStep (wr 0x00C w) s = .next (s.accept w) := by
  rw [hostStep_wr_cmd, State.offerCommand_accepted hbusy herr]

/-- Settles O14, from the two branches of `offerCommand`. -/
theorem commandWrite : Obligations.CommandWrite :=
  fun s w => ⟨fun h => by rw [hostStep_wr_cmd, State.offerCommand_ignored h],
    fun hbusy herr => ⟨_, hostStep_accept hbusy herr w, rfl, rfl, rfl, rfl, rfl, rfl, rfl, fun _ => rfl⟩⟩

theorem hostStep_wr_arg (s : State) (k : Fin 8) (v : Word) :
    hostStep (wr (0x040 + 4 * k) v) s = .next { s with args := s.args.setIfInBounds k v } := by
  have hk := k.isLt
  have hindex : (0x040 + 4 * (k : Nat) - 0x040) / 4 = k := by omega
  rw [hostStep_wr (by omega) (by omega), regAt_arg (by omega) (by omega), hindex, State.writeReg]

/-- Settles O15: acceptance latches the argument registers, and a write to one of them changes only that one. -/
theorem argumentsAreLatched : Obligations.ArgumentsAreLatched :=
  ⟨fun _ w hbusy herr => ⟨_, hostStep_accept hbusy herr w, fun _ => rfl⟩,
    fun s k v => ⟨_, hostStep_wr_arg s k v, Vector.getElem_setIfInBounds_self k.isLt,
      fun j hne => Vector.getElem_setIfInBounds_ne j.isLt (Fin.val_ne_of_ne hne.symm), rfl, fun _ => rfl, rfl, rfl, rfl,
      rfl, rfl, fun _ => rfl, fun _ => rfl⟩⟩

/-! Writes to STATUS, and its layout. -/

/-- The write-1-to-clear of STATUS, flag by flag (R246). -/
theorem Status.writeOneToClear_flags (st : Status) (v : Word) :
    (st.writeOneToClear v).done = (if v.getLsbD 1 = true then false else st.done) ∧
      (st.writeOneToClear v).err = (if v.getLsbD 2 = true then false else st.err) ∧
      (st.writeOneToClear v).ign = (if v.getLsbD 3 = true then false else st.ign) := by
  have hclear (flag bit : Bool) : (flag && !bit) = if bit = true then false else flag := by cases bit <;> simp
  exact ⟨hclear _ _, hclear _ _, hclear _ _⟩

theorem toNat_extractLsb'_eq_digits (w : Word) (k n : Nat) : (w.extractLsb' k n).toNat = w.toNat / 2 ^ k % 2 ^ n := by
  rw [BitVec.extractLsb'_toNat, Nat.shiftRight_eq_div_pow]

theorem extractLsb'_eq_zero_of_digits {w : Word} {k n : Nat} (h : w.toNat / 2 ^ k % 2 ^ n = 0) :
    w.extractLsb' k n = 0#n :=
  BitVec.eq_of_toNat_eq (by rw [toNat_extractLsb'_eq_digits, h, BitVec.toNat_zero])

/-- What STATUS holds beside DONE, ERR and IGN: BUSY, ERRCODE, and 0 at the reserved bits (R24). -/
theorem Status.fields_word (st : Status) :
    st.word.getLsbD 0 = st.busy ∧ st.word.extractLsb' 4 4 = 0#4 ∧
      (st.word.extractLsb' 8 8).toNat = st.errCode.toNat ∧ st.word.extractLsb' 16 16 = 0#16 := by
  have hcode := st.errCode.toNat_lt
  have hbusy := st.busy.toNat_le
  have hdone := st.done.toNat_le
  have herr := st.err.toNat_le
  have hign := st.ign.toNat_le
  have hword := st.word_toNat
  refine ⟨getLsbD_eq_of_digit (by omega), extractLsb'_eq_zero_of_digits (by omega), ?_,
    extractLsb'_eq_zero_of_digits (by omega)⟩
  rw [toNat_extractLsb'_eq_digits]
  omega

/-- Settles O16, from the flags that a write clears and the fields of the word. -/
theorem statusWrite : Obligations.StatusWrite := by
  refine ⟨fun s v => ?_, fun st => ?_, by decide⟩
  · obtain ⟨hdone, herr, hign⟩ := s.status.writeOneToClear_flags v
    exact ⟨s.acknowledge v, hostStep_wr (by decide) (by decide) s v, rfl, hdone, herr, rfl, hign, rfl⟩
  · obtain ⟨hbusy, hlow, hcode, hhigh⟩ := st.fields_word
    obtain ⟨hdone, herr, hign⟩ := st.getLsbD_word
    exact ⟨hbusy, hdone, herr, hign, hlow, hcode, hhigh⟩

/-! Writes to CTRL. -/

theorem hostStep_enables {v : Word} (hv : v.getLsbD 31 = false) (s : State) :
    hostStep (wr 0x004 v) s = .next (s.observeIrq { s with ctrl := Ctrl.ofWord v }) := by
  have henables : s.writeCtrl v = s.observeIrq { s with ctrl := Ctrl.ofWord v } := if_neg (ne_true_of_eq_false hv)
  exact (hostStep_wr (by decide) (by decide) s v).trans (congrArg Host.Outcome.next henables)

theorem State.slot_of_handles_free {t : State} {n : Nat} (hh : t.handles = List.replicate n .free) (h : Nat) :
    t.slot h = .free := by
  simp only [State.slot, hh, List.getElem?_replicate]
  split <;> rfl

/-- A soft reset with no command in progress leaves data memory alone (R291). -/
theorem State.memAfterAbort_of_idle {s : State} (hidle : s.status.busy = false) : s.memAfterAbort = s.mem :=
  if_neg (ne_true_of_eq_false hidle)

/-- The abort of a command that has nothing to write leaves data memory alone (R291). -/
theorem State.memAfterAbort_of_noWrites {s : State} (hnone : s.latchedFootprint.wf = none) :
    s.memAfterAbort = s.mem := by
  simp only [State.memAfterAbort, hnone, ite_self]

theorem length_abortedBytes_le_size (epoch dmem : Nat) (r : ByteRange) :
    (abortedBytes epoch dmem r).length ≤ r.size := by
  simp [abortedBytes]

/-- The abort of a command makes bytes free only inside its write footprint (R291). -/
theorem SameMemoryOutside.softReset {s : State} {r : ByteRange} (hr : s.latchedFootprint.wf = some r) :
    SameMemoryOutside s s.softReset r.base r.size := by
  intro a ha
  cases hbusy : s.status.busy with
  | false => exact State.readByte_congr (s := s.softReset) (State.memAfterAbort_of_idle hbusy) rfl a
  | true =>
    have hmem : s.memAfterAbort = memStoreBytes s.mem r.base (abortedBytes s.draws s.params.dmemBytes r) := by
      simp only [State.memAfterAbort, hbusy, if_true, hr]
    have hlen := length_abortedBytes_le_size s.draws s.params.dmemBytes r
    rw [State.readByte, State.softReset_mem, hmem, memLookup_memStoreBytes, if_neg (by omega)]
    rfl

/-- Settles O17: the enables are one field, and the soft reset stores bytes only where it aborts a command. -/
theorem ctrlWrite : Obligations.CtrlWrite := by
  refine fun s v => ⟨fun hv => ⟨_, hostStep_enables hv s, rfl, rfl⟩, fun hv => ?_⟩
  refine ⟨_, hostStep_softReset hv s, rfl, rfl, rfl, rfl, fun k => ?_, State.slot_of_handles_free s.softReset_handles,
    State.privFree_of_free rfl s.softReset_handles, fun hidle => ?_, fun hnone => ?_,
    fun r => SameMemoryOutside.softReset⟩
  · exact Vector.getElem_replicate k.isLt
  · exact State.readByte_congr (State.memAfterAbort_of_idle hidle) rfl
  · exact State.readByte_congr (State.memAfterAbort_of_noWrites hnone) rfl

/-! DESTROY. -/

theorem exec_destroy_free {s : State} {h : Nat} (hh : h < s.numHandles) (hfree : s.slot h = .free) :
    exec (.destroy h) s = .next (s.reject .wrongHandle) := by
  simp only [exec, execDestroy, onSlot_of_lt _ hh, hfree]

theorem exec_destroy_used {s : State} {h : Nat} (hused : s.slot h ≠ .free) :
    exec (.destroy h) s = .next (s.setSlot h .free).complete := by
  have hh := State.lt_numHandles_of_slot hused
  -- `hused` rules out the FREE arm.
  simp only [exec, execDestroy, onSlot_of_lt _ hh]
  rfl

/-- A pool that holds all words the slots own gets back those of a slot that becomes FREE (R31, R41). -/
theorem State.privFree_setSlot_free {s : State} {h : Nat} (hh : h < s.numHandles) (hpool : s.PoolOk) :
    (s.setSlot h .free).privFree = s.privFree + (s.slot h).req := by
  have hset : (s.setSlot h .free).privUsed + (s.slot h).req = s.privUsed := State.privUsed_setSlot s h .free hh
  have hfit : s.privUsed ≤ s.params.privWords := hpool
  rw [State.privFree, State.privFree, State.setSlot_params]
  omega

/-- Settles O55: DESTROY of a slot in use sets it FREE, where DESTROY is rejected. -/
theorem destroy : Obligations.Destroy := by
  intro h s hh
  refine ⟨fun hfree => .of_exec (exec_destroy_free hh hfree), fun hused => ?_⟩
  have hslot : (s.setSlot h .free).complete.slot h = .free := State.slot_setSlot_self s h .free hh
  have hh' : h < (s.setSlot h .free).complete.numHandles := by simpa using hh
  exact ⟨_, exec_destroy_used hused, .complete_setSlot s h .free, hslot, State.privFree_setSlot_free hh,
    .of_exec (exec_destroy_free hh' hslot)⟩

end Sys2Proof.Machine
end

section
/-! SUPPORT. The error codes of commands, and what holds its value with no command in progress: the tests of a command
in the order of R263, the first failure of which is its code, and the accesses of the host that are neither a register
write nor a reset (spec/60_exceptions.md R260, R263, R266, R267, R281). -/

namespace Sys2Proof.Machine

/-! The tests of a command. -/

/-- The slot test (R260): the slot holds the kind of handle that the command works on. -/
def slotTest (i : Instr) (hd : Handle) : Bool × ErrCode :=
  (!slotFits i hd, if i.creates = true then .handleInUse else .wrongHandle)

/-- The tests after the slot test. On a slot of another kind, where that test fails, they do not matter. -/
def argumentTests (i : Instr) (s : State) (hd : Handle) : Tests :=
  match i, hd with
  | .rfftCreate _, _ | .cfftCreate _, _ => fftCreateTests s (s.arg 0)
  | .stftCreate _, _ => stftCreateTests s ⟨s.arg 0, s.arg 1, s.arg 2, s.arg 3⟩
  | .qmfCreate _, _ => qmfCreateTests s (s.arg 0) (s.arg 1) (s.arg 2) (s.arg 3)
  | .convCreate _, _ => convCreateTests s ⟨s.arg 0, s.arg 1, s.arg 2, s.arg 3⟩
  | .rfftForward _, .rfft n =>
    bufferTests s.params.dmemBytes [s.arg 0, s.arg 1] (rfftForwardFootprint n s.latch.arg)
  | .rfftBackward _, .rfft n =>
    bufferTests s.params.dmemBytes [s.arg 0, s.arg 1] (rfftBackwardFootprint n s.latch.arg)
  | .cfftForward _, .cfft n | .cfftBackward _, .cfft n =>
    bufferTests s.params.dmemBytes [s.arg 0, s.arg 1] (cfftFootprint n s.latch.arg)
  | .stftForward _, .stft cfg _ => stftForwardTests s cfg
  | .stftBackward _, .stft cfg _ => stftBackwardTests s cfg
  | .stftChannelChange _, .stft cfg _ => channelChangeTests s cfg (s.arg 0) (s.arg 1)
  | .qmfAnalysis _, .qmf cfg _ => qmfAnalysisTests s cfg
  | .qmfSynthesis _, .qmf cfg _ => qmfSynthesisTests s cfg
  | .qmfGetCentreFreqs _, .qmf cfg _ => centreFreqsTests s cfg
  | .convApply _, .conv cfg _ =>
    bufferTests s.params.dmemBytes [s.arg 0, s.arg 1] (convApplyFootprint cfg s.latch.arg)
  | _, _ => []

/-- All tests of a command, in the order of R263. -/
def commandTests (i : Instr) (s : State) : Tests :=
  (decide (s.numHandles ≤ i.hid), .badHandle) :: slotTest i (s.slot i.hid) :: argumentTests i s (s.slot i.hid)

/-- The outcome is what these tests make of it; a state performed when they pass has the STATUS from before it. -/
def EndsByTests (s : State) (ts : Tests) (o : Host.Outcome State Fault Refusal) : Prop :=
  ∃ p, o = finish s ts p ∧ p.status = s.status

/-- The index is tested before the slot (R244): what is left to show of a command is how it ends on each content of its
slot. -/
theorem endsByTests_onSlot {i : Instr} {s : State} {arm : Handle → Host.Outcome State Fault Refusal}
    (harm : ∀ hd, EndsByTests s (slotTest i hd :: argumentTests i s hd) (arm hd)) :
    EndsByTests s (commandTests i s) (onSlot i.hid s arm) := by
  rcases Nat.lt_or_ge i.hid s.numHandles with hin | hout
  · obtain ⟨p, hp, hstatus⟩ := harm (s.slot i.hid)
    have hafter : firstError (commandTests i s) =
        firstError (slotTest i (s.slot i.hid) :: argumentTests i s (s.slot i.hid)) := if_neg (by simpa using hin)
    exact ⟨p, by rw [onSlot_of_lt _ hin, hp, finish, finish, hafter], hstatus⟩
  · have hfirst : firstError (commandTests i s) = some .badHandle := if_pos (decide_eq_true hout)
    exact ⟨s, by rw [onSlot_of_ge _ hout, finish_of_some s hfirst], rfl⟩

/-- Every command ends by its tests: on each content of its slot it is rejected by the slot test, or makes the tests
after it (R263). -/
theorem exec_endsByTests (i : Instr) (s : State) : EndsByTests s (commandTests i s) (exec i s) := by
  cases i <;> simp only [exec, execStftCreate, execQmfCreate, execConvCreate]
  all_goals
    refine endsByTests_onSlot fun hd => ?_
    cases hd <;> exact ⟨_, rfl, rfl⟩

/-- Settles O12: on a slot of the wrong kind the slot test is the first that fails. -/
theorem slotKindErrors : Obligations.SlotKindErrors := by
  intro i s hh hfits
  obtain ⟨p, hexec, -⟩ := exec_endsByTests i s
  have hfirst : firstError (commandTests i s) = some (if i.creates = true then .handleInUse else .wrongHandle) := by
    simp [commandTests, slotTest, firstError, hh, hfits]
  exact .of_finish hexec hfirst

/-! The tests of the latched word. -/

/-- The tests of the engine step: an illegal word is one that fails (R244). -/
def State.latchedTests (s : State) : Tests :=
  match decode s.latch.cmd with
  | .error _ => [(true, .illegalCmd)]
  | .ok i => commandTests i s

theorem engineStep_endsByTests (s : State) : EndsByTests s s.latchedTests (engineStep s) := by
  unfold State.latchedTests
  cases hdecode : decode s.latch.cmd with
  | error e => exact ⟨s, engineStep_of_error hdecode, rfl⟩
  | ok i =>
    rw [engineStep_of_ok hdecode]
    exact exec_endsByTests i s

/-- The tests read the parameters, the latch and the handle table, and no byte of data memory (R266, R267). -/
theorem State.latchedTests_congr {s s' : State} (hparams : s.params = s'.params) (hlatch : s.latch = s'.latch)
    (hhandles : s.handles = s'.handles) : s.latchedTests = s'.latchedTests := by
  have hsame : s' = { s' with params := s.params, latch := s.latch, handles := s.handles } := by
    rw [hparams, hlatch, hhandles]
  rw [hsame]
  rfl

/-- Where ERR = 0 the outcome is a rejection exactly when a test fails, with the code of the first: a completion leaves
ERR as it was (R243, R263). -/
theorem EndsByTests.rejected_iff {s : State} {ts : Tests} {o : Host.Outcome State Fault Refusal} {c : ErrCode}
    (hends : EndsByTests s ts o) (herr : s.status.err = false) :
    (∃ t, o = .next t ∧ RejectedFrom s t c) ↔ firstError ts = some c := by
  obtain ⟨p, rfl, hstatus⟩ := hends
  refine ⟨?_, fun hfirst => ⟨_, finish_of_some p hfirst, .reject s c⟩⟩
  rintro ⟨t, ht, hrejected, -⟩
  rcases finish_cases s ts p with ⟨d, hfirst, hend⟩ | ⟨-, hend⟩ <;> rw [hend] at ht <;> cases ht
  · have hcode : d = c := congrArg Status.errCode hrejected
    rw [hfirst, hcode]
  · have hset : p.status.err = true := congrArg Status.err hrejected
    simp [hstatus, herr] at hset

/-- Settles O13: two states that agree on all that the tests read fail the same test first. -/
theorem outcomeIgnoresData : Obligations.OutcomeIgnoresData := by
  intro s s' c hparams hlatch hhandles herr herr' hrejected
  have hfirst := ((engineStep_endsByTests s).rejected_iff herr).mp hrejected
  rw [State.latchedTests_congr hparams hlatch hhandles] at hfirst
  exact ((engineStep_endsByTests s').rejected_iff herr').mpr hfirst

/-! With no command in progress. -/

theorem step_of_nothing_pending {s : State} (hidle : s.status.busy = false) (hhost : s.host = []) :
    step s = .next s := by
  have hengine : s.engineTurn = false := by simp [State.engineTurn, hidle]
  simp only [step, hengine, Bool.false_eq_true, if_false, hhost]

/-- What the accesses of the host that are neither a register write nor a reset change (R309): a read its value and the
watches, and a write to data memory the bytes there. -/
theorem hostStep_read_or_writeMem {access : HostAccess} {s t : State} (ht : hostStep access s = .next t)
    (hreg : ∀ o w v, access ≠ .writeReg o w v) (hreset : access ≠ .hwReset) :
    t = { s with hostValue := t.hostValue, last := t.last, older := t.older } ∨
      ∃ a n v, access = .writeMem a n v ∧ t = s.memWrite a n v := by
  cases access with
  | readReg o w =>
    simp only [hostStep] at ht
    split at ht <;> cases ht
    unfold State.observeStatus
    split <;> exact .inl rfl
  | writeReg o w v => exact absurd rfl (hreg o w v)
  | readMem a n =>
    simp only [hostStep] at ht
    split at ht <;> cases ht
    exact .inl rfl
  | writeMem a n v =>
    simp only [hostStep] at ht
    split at ht <;> cases ht
    exact .inr ⟨a, n, v, rfl, rfl⟩
  | hwReset => exact absurd rfl hreset

/-- Settles O9: an idle step changes nothing, and no access but a register write or a reset reaches a register or a
slot. -/
theorem idleHoldsState : Obligations.IdleHoldsState := by
  refine fun s t hidle ht => ⟨fun hhost => ?_, fun access rest hhost hreg hreset => ?_⟩
  · rw [step_of_nothing_pending hidle hhost] at ht
    cases ht
    rfl
  · rw [step_eq_hostStep_of_hostTurn hhost (.inl hidle)] at ht
    rcases hostStep_read_or_writeMem ht hreg hreset with hread | ⟨a, n, v, hwrite, rfl⟩
    · rw [hread]
      exact ⟨rfl, rfl, rfl, rfl, rfl, rfl, fun _ => rfl, fun _ _ => rfl⟩
    · exact ⟨rfl, rfl, rfl, rfl, rfl, rfl, fun _ => rfl, fun hmem => absurd hwrite (hmem a n v)⟩

end Sys2Proof.Machine
end

section
/-! SUPPORT. The state after reset, the hardware reset, and the host's accesses to data memory
(spec/70_reset_and_hazards.md R290, R300, spec/20_memory.md R71). -/

namespace Sys2Proof

/-- The default parameters meet what R6 asks; the lengths follow from those of the default set (R120). -/
theorem Config.paramsOk_default : Config.defaultParams.Ok where
  nmaxLow := by decide
  nmaxHigh := by decide
  channelsLow := by decide
  channelsHigh := by decide
  dmemWords := by decide
  dmemHigh := by decide
  privLow := by decide
  privHigh := by decide
  powers _ hk hle := Params.fftSupported_two_pow rfl (by decide) hk hle
  named := by
    have hnamed := Params.fftSupported_named (p := Config.defaultParams) rfl (by decide)
    exact ⟨hnamed 80 (by decide), hnamed 960 (by decide), hnamed 30720 (by decide)⟩

end Sys2Proof

namespace Sys2Proof.Machine

/-! The two resets. -/

/-- With the enables off, no event raises the interrupt (R23, R35). -/
theorem State.irq_of_disabled {s : State} (h : s.ctrl = ⟨false, false⟩) : s.irq = false := by
  simp [State.irq, h]

/-- With every argument register 0, each index reads 0: beyond the eight there is no register (R33). -/
theorem State.readReg_arg_of_zero {s : State} (h : s.args = Vector.replicate 8 0#32) (k : Nat) :
    s.readReg (.arg k) = 0#32 := by
  simp only [State.readReg, h, Vector.getElem?_replicate]
  split <;> rfl

/-- Settles O18: the hardware reset writes every register and frees every slot, and so the whole pool. -/
theorem hardwareReset : Obligations.HardwareReset := fun s =>
  ⟨s.hardReset, rfl, rfl, rfl, rfl, rfl, fun k => Vector.getElem_replicate k.isLt,
    State.slot_of_handles_free s.hardReset_handles, State.privFree_of_free rfl s.hardReset_handles,
    State.irq_of_disabled s.hardReset_ctrl⟩

/-- The whole default pool is free after reset (R31). -/
theorem State.privFree_reset : State.reset.privFree = 0x00800000 := State.privFree_of_free (s := State.reset) rfl rfl

/-- Settles O19: the register at each offset, and its value in the state after reset. -/
theorem registersAfterReset : Obligations.RegistersAfterReset := by
  refine ⟨rfl, rfl, rfl, rfl, rfl, rfl, rfl, rfl, rfl, congrArg (BitVec.ofNat 32) State.privFree_reset, rfl,
    fun k hk => ?_, State.irq_of_disabled rfl, State.slot_reset⟩
  rw [regAt_arg (by omega) (by omega)]
  exact State.readReg_arg_of_zero rfl _

/-- Settles O60: every slot is FREE, so the pool is whole, and no command is in progress. -/
theorem invariantAtReset : Obligations.InvariantAtReset where
  params := ⟨Config.paramsOk_default, by decide, by decide⟩
  handles h _ := by
    rw [State.slot_reset]
    trivial
  pool := by simp [State.PoolOk, State.privUsed, State.reset, Handle.req]
  memory := Memory.wf_reset
  status := by simp [State.StatusOk, State.reset]
  watch := State.watchOk_of_idle rfl

/-! Accesses to data memory. -/

section HostMemory

variable {s : State} {a n : Nat}

/-- Inside data memory a race is the one reason for a fault (R71, R300). -/
theorem State.memAccessFault_of_race (hin : a + n ≤ s.params.dmemBytes)
    (hrace : ∃ fp ∈ s.watched, ∃ j < n, fp.touches (a + j) = true) : s.memAccessFault a n = some .footprintRace := by
  have hraces : s.races a n = true := by simpa [State.races] using hrace
  rw [State.memAccessFault, if_neg (Nat.not_lt.mpr hin), if_pos hraces]

theorem State.memAccessFault_of_unwatched (hin : a + n ≤ s.params.dmemBytes)
    (hfree : ∀ fp ∈ s.watched, ∀ j < n, fp.touches (a + j) = false) : s.memAccessFault a n = none := by
  rw [memAccessFault_none]
  rintro (hout | ⟨fp, hfp, j, hj, htouch⟩)
  · exact absurd hout (Nat.not_lt.mpr hin)
  · exact absurd htouch (ne_true_of_eq_false (hfree fp hfp j hj))

theorem hostStep_mem_of_fault {f : Fault} (h : s.memAccessFault a n = some f) (v : Nat) :
    hostStep (.readMem a n) s = .fault f ∧ hostStep (.writeMem a n v) s = .fault f := by
  simp only [hostStep, h, and_self]

theorem hostStep_mem_of_noFault (h : s.memAccessFault a n = none) (v : Nat) :
    hostStep (.readMem a n) s = .next { s with hostValue := s.memRead a n } ∧
      hostStep (.writeMem a n v) s = .next (s.memWrite a n v) := by
  simp only [hostStep, h, and_self]

end HostMemory

/-- Settles O24: the two kinds of access make one test, which inside data memory is that for a race. -/
theorem hostMemoryAccess : Obligations.HostMemoryAccess := fun _ _ _ v hin =>
  ⟨fun hrace => hostStep_mem_of_fault (State.memAccessFault_of_race hin hrace) v,
    fun hfree => hostStep_mem_of_noFault (State.memAccessFault_of_unwatched hin hfree) v⟩

end Sys2Proof.Machine
end
